-- ==== Sys2Proof/Word.lean ====
section
/-! DEFINITION. The word types of the PV-41 model: bytes, wire words, and the four-way index of links and groups. -/

namespace Sys2Proof

/-- One byte of a frame or a command block. -/
abbrev Byte := BitVec 8

/-- A sixteen-bit word: a CRC, a tariff set, the slot number of a handle. -/
abbrev Half := BitVec 16

/-- A thirty-two-bit word: a member key, eight BCD digits. -/
abbrev Word := BitVec 32

/-- Names one of the links L0 to L3, or one of the groups (and their engines) E0 to E3. -/
abbrev Lane := Fin 4

/-- Four like things, one for each lane. -/
structure Four (α : Type) where
  at0 : α
  at1 : α
  at2 : α
  at3 : α
  deriving DecidableEq, Repr

/-- The same value in every lane. -/
def Four.all (x : α) : Four α := ⟨x, x, x, x⟩

def Four.get (f : Four α) : Lane → α
  | 0 => f.at0
  | 1 => f.at1
  | 2 => f.at2
  | 3 => f.at3

def Four.set (f : Four α) (i : Lane) (x : α) : Four α :=
  match i with
  | 0 => { f with at0 := x }
  | 1 => { f with at1 := x }
  | 2 => { f with at2 := x }
  | 3 => { f with at3 := x }

/-- Apply one function in every lane. -/
def Four.map (g : α → β) (f : Four α) : Four β := ⟨g f.at0, g f.at1, g f.at2, g f.at3⟩

/-- The lane of a slot number: slot s lies in group s mod 4 (R1). -/
def laneOf (n : Nat) : Lane := ⟨n % 4, Nat.mod_lt _ (by decide)⟩

end Sys2Proof
end

