-- ==== Sys2Proof/Config.lean ====
section
/-! DEFINITION. Fixed sizes and limits of the PV-41, and the three values the spec leaves open (log entries 17, 33, 35). -/

namespace Sys2Proof.Config

/-- R1: slots of the account table. -/
abbrev slots : Nat := 4096

/-- R109: buckets of the key index. -/
abbrev buckets : Nat := 1021

/-- R109: ways of a bucket. -/
abbrev waysPerBucket : Nat := 8

/-- R70: entries of the hold table. -/
abbrev holdEntries : Nat := 256

/-- R3: places of an account's hold list. -/
abbrev holdsPerAccount : Nat := 4

/-- R26: places of a group queue. -/
abbrev groupQueuePlaces : Nat := 8

/-- R143: frames of a link FIFO. -/
abbrev fifoFrames : Nat := 16

/-- R160: notices of the notice queue. -/
abbrev noticePlaces : Nat := 32

/-- R2: the largest magnitude of a balance, and of every eight-digit amount. -/
abbrev maxAmount : Int := 99999999

/-- R96: the value at which the timebase stays. -/
abbrev maxTime : Nat := 4294967295

/-- R84: how far beyond the timebase an EXTEND may move a deadline, in seconds. -/
abbrev extendReach : Nat := 86400

/-- R75, R84: the bounds of a window or of an EXTEND's seconds. -/
abbrev minWindow : Nat := 10
abbrev maxWindow : Nat := 43200

/-- R84: extensions a hold may use. -/
abbrev maxExtensions : Nat := 3

/-- R136: slots of one short-check slice. -/
abbrev sliceSlots : Nat := 64

/-- R169: the start byte of a frame, and the bounds of a frame's total length. -/
abbrev startByte : Byte := 165
abbrev minFrame : Nat := 5
abbrev maxFrame : Nat := 32

/-- R144: at 9,600 baud at most 20 bytes of a frame, the start byte among them, arrive before the frame timer reaches
20 ms: byte n + 1 follows the start byte by n × 10/9,600 s. -/
abbrev slowFrame : Nat := 20

/-- R154: the first byte of a read transaction, and the opcode of the empty block (R171). -/
abbrev readOpcode : Byte := 255

/-- R171: the largest opcode of a management command. -/
abbrev maxOpcode : Nat := 24

/-- FREE VALUE (log entry 17). R61 says that the response of a TRANSFER with ALL carries the amount computed at
the source, and R62 lets that amount lie below what an eight-digit field holds; the spec does not state the forty
bits of the field then (sign byte and eight digit places). -/
opaque unstatedAmount : Int → BitVec 40

/-- FREE VALUE (log entry 33). R61 says what amount the response of a TRANSFER with ALL carries when the amount has been
computed, and when the source has not been read; the spec does not state the field for a source that was read and then
refused before R62 computes an amount (CLOSING, SUSPECT). The arguments are the field as given and the credit that ALL
would have computed. -/
opaque uncomputedAmount : BitVec 40 → Int → BitVec 40

/-- FREE VALUE (log entry 35). R3 says that held falls by the hold's amount when a hold ends, and that held is from 0 to
99,999,999; the spec does not state held after the ending of a hold whose amount is above it, which a record disturbed to
FREE and enrolled again under its open holds (R4) brings about. The arguments are held before and the amount. -/
opaque unstatedHeld : Nat → Nat → Fin 100000000

end Sys2Proof.Config
end

