-- ==== Sys2Proof/Syntax.lean ====
section
/-! DEFINITION. The commands of the PV-41: one constructor of Instr for each row of spec/opcode_table.json, with the
field types of section 12.2 of the spec (log entry 1 says what each row stands for). -/

namespace Sys2Proof

/-- R7, R170: a slot number and a generation; the encoding leaves room for slot numbers above 4095. -/
structure Handle where
  slot : Half
  gen  : Byte
  deriving DecidableEq, Repr, Inhabited

/-- R72, R170: a hold entry number and a serial; a serial above 15 is stale. -/
structure Ticket where
  entry  : Byte
  serial : Byte
  deriving DecidableEq, Repr, Inhabited

/-- R170, field S8: a sign byte (12 plus, 13 minus) and eight BCD digits. -/
structure S8 where
  sign   : Byte
  digits : Word
  deriving DecidableEq, Repr, Inhabited

/-- R170, field B6: six BCD digits. -/
abbrev B6 := BitVec 24

/-- R170, field B4: four BCD digits. -/
abbrev B4 := BitVec 16

/-- R170: a member key as it stands on the wire; 0 and 4,294,967,295 are out of range. -/
abbrev Key := Word

/-- R170: bit t is set when tariff t is in the set. -/
abbrev TariffSet := Half

/-- R64: the states of the transit register. -/
inductive TransitState where
  | empty
  | out
  | returning
  | stranded
  deriving DecidableEq, Repr

/-- R64: the transit register. -/
structure Transit where
  state  : TransitState
  src    : Handle
  dst    : Handle
  amount : Nat
  deriving DecidableEq, Repr

/-- R144: what discards a frame inside the receiver, besides the timer. -/
inductive DiscardCause where
  /-- a length byte that gives a total outside 5 to 32 -/
  | lengthByte (value : Byte)
  /-- a character with a faulty stop bit -/
  | faultyStopBit
  deriving DecidableEq, Repr

/-- The two events of a FIND (R114): its command block is received, or the index unit completes it. -/
inductive FindEvent where
  | block (key : Key)
  | completion
  deriving DecidableEq, Repr

/-- One field of the retained part of a record (R2) and the value an outside event leaves in it. -/
inductive RecordChange where
  | stateCode (v : Byte)
  | key (v : Key)
  | generation (v : Byte)
  | balance (v : S8)
  | floor (v : B6)
  | lowMark (v : B6)
  | tariffSet (v : TariffSet)
  | suspect (v : Bool)
  | checkCode (v : Half)
  deriving DecidableEq, Repr

/-- R4, R64, R166: an outside event on the retained store (log entry 12 says which stores it reaches). -/
inductive Disturbance where
  | record (slot : Nat) (change : RecordChange)
  | transit (value : Transit)
  deriving DecidableEq, Repr

/-- R171: the 25 management commands with their fields as they stand in the block. -/
inductive Command where
  | poll
  | enrol (key : Key) (balance : S8) (floor lowMark : B6) (tariffs : TariffSet)
  | find (key : Key)
  | read (h : Handle) (form : Byte)
  | update (h : Handle) (mask : Byte) (floor lowMark : B6) (tariffs : TariffSet)
  | freeze (h : Handle)
  | thaw (h : Handle)
  | retire (h : Handle)
  | topup (h : Handle) (amount : S8)
  | adjust (h : Handle) (amount : S8)
  | transfer (src dst : Handle) (mode : Byte) (amount : S8)
  | transitClear (selector : Byte) (h : Handle)
  | restore (h : Handle) (balance : S8) (floor lowMark : B6) (tariffs : TariffSet)
  | holdRead (t : Ticket)
  | holdRelease (t : Ticket)
  | holdCapture (t : Ticket)
  | tariffSet (tariff enabled : Byte) (price maxUnits : B4) (window : B6) (action : Byte)
  | tariffRead (tariff : Byte)
  | linkSet (link enable baud high resume : Byte)
  | linkRead (link : Byte)
  | noticeRead
  | config (interval : Half) (threshold : Byte)
  | mode (mode : Byte)
  | timeRead
  | reset
  deriving DecidableEq, Repr

/-- R169, R170: the eight terminal requests with their fields as they stand in the payload. -/
inductive TermReq where
  | lookup (key : Key)
  | read (h : Handle)
  | authorize (h : Handle) (tariff : Byte) (units : B4) (window : B6)
  | settle (t : Ticket) (units : B4)
  | extend (t : Ticket) (seconds : B6)
  | cancel (t : Ticket)
  | debit (h : Handle) (amount : S8) (mode : Byte)
  | probe (h : Handle) (amount : S8)
  deriving DecidableEq, Repr

/-- The commands the block takes: one constructor per row of spec/opcode_table.json. -/
inductive Instr where
  -- link units (Chapter 9)
  | startByte (link : Lane)
  | frameComplete (link : Lane) (bytes : List Byte)
  | frameTimeout (link : Lane)
  | frameDiscard (link : Lane) (cause : DiscardCause)
  | routerTake
  | responseSent (link : Lane)
  | hldDeassert (link : Lane)
  -- engines (Chapters 1 to 5): a completion names its engine
  | engineTakeWork (engine : Lane)
  | terminalRead (engine : Lane)
  | debit (engine : Lane)
  | probe (engine : Lane)
  | authorize (engine : Lane)
  | holdEntryAllocation
  | settle (engine : Lane)
  | cancel (engine : Lane)
  | extend (engine : Lane)
  | expiry (engine : Lane)
  | slotFree (engine : Lane)
  | checkClaim (engine : Lane)
  -- deadline and check units (Chapters 5 and 8)
  | timebaseRaise
  | holdFallsDue
  | shortCheckIntervalExpiry
  -- index unit and enrolment (Chapter 6)
  | indexTakeWork
  | lookup
  | enrolSearch
  | createStep (engine : Lane)
  | indexInsert
  | activateStep (engine : Lane)
  | keyRemoval
  -- transfers (Chapter 3)
  | sameGroupTransfer (engine : Lane)
  | transferStep1 (engine : Lane)
  | transitStep (engine : Lane)
  | returnStep (engine : Lane)
  -- management port (Chapters 2 and 10)
  | managementRequestPlaced
  | managementRequestComplete (engine : Lane)
  | mselAssert
  | responseRead
  | undecodableBlock (bytes : List Byte)
  | poll
  | enrol (key : Key) (balance : S8) (floor lowMark : B6) (tariffs : TariffSet)
  | find (event : FindEvent)
  | managementRead (h : Handle) (form : Byte)
  | update (h : Handle) (mask : Byte) (floor lowMark : B6) (tariffs : TariffSet)
  | freeze (h : Handle)
  | thaw (h : Handle)
  | retire (h : Handle)
  | topup (h : Handle) (amount : S8)
  | adjust (h : Handle) (amount : S8)
  | transfer (src dst : Handle) (mode : Byte) (amount : S8)
  | transitClear (selector : Byte) (h : Handle)
  | restore (h : Handle) (balance : S8) (floor lowMark : B6) (tariffs : TariffSet)
  | holdRead (t : Ticket)
  | holdRelease (t : Ticket)
  | holdCapture (t : Ticket)
  | tariffSet (tariff enabled : Byte) (price maxUnits : B4) (window : B6) (action : Byte)
  | tariffRead (tariff : Byte)
  | linkSet (link enable baud high resume : Byte)
  | linkRead (link : Byte)
  | noticeRead
  | config (interval : Half) (threshold : Byte)
  | mode (code : Byte)
  | timeRead
  | reset
  -- power control (Chapter 11)
  | softResetEffect
  | rstFall
  | rstRelease
  | mainSupplyLoss
  | mainSupplyReturn
  | wakeEdge
  | backupSupplyLow
  | retainedStoreDisturbance (d : Disturbance)
  | oscillatorWarmUpDone
  | phaseReady
  | hldAssert (link : Lane)
  deriving DecidableEq, Repr

end Sys2Proof
end

