-- ==== Sys2Proof/Decode.lean ====
section
/-! DEFINITION. The wire side of Chapter 12: bytes and bit fields, BCD digits, the CRC, and the decoding of terminal
requests (R41, R169) and management command blocks (R155, R171), with the encoders that write the same layouts.
decodeTableWord answers none: no row of spec/opcode_table.json gives bits (log entry 27). -/

namespace Sys2Proof

/-! ### Bytes -/

/-- R170: the n low bytes of a number, most significant byte first. -/
def beBytes : Nat → Nat → List Byte
  | 0, _ => []
  | n + 1, v => beBytes n (v / 256) ++ [BitVec.ofNat 8 v]

/-- R170: the number that bytes spell, most significant byte first. -/
def beNat (bs : List Byte) : Nat := bs.foldl (fun acc b => acc * 256 + b.toNat) 0

/-- The first n bytes read as a bit field of the given width. -/
def fieldOf (w n : Nat) (bs : List Byte) : BitVec w := BitVec.ofNat w (beNat (bs.take n))

/-! ### Decimal digits (R48, R170) -/

/-- Every one of the n low nibbles is at most 9. -/
def bcdOk : Nat → Nat → Bool
  | 0, _ => true
  | n + 1, v => decide (v % 16 ≤ 9) && bcdOk n (v / 16)

/-- The number spelt by the n low nibbles. -/
def bcdValue : Nat → Nat → Nat
  | 0, _ => 0
  | n + 1, v => v % 16 + 10 * bcdValue n (v / 16)

/-- The n low decimal digits of a number, one to a nibble. -/
def toBcd : Nat → Nat → Nat
  | 0, _ => 0
  | n + 1, v => v % 10 + 16 * toBcd n (v / 10)

def B4.ok (d : B4) : Bool := bcdOk 4 d.toNat
def B6.ok (d : B6) : Bool := bcdOk 6 d.toNat

/-- A four-digit field as a number; a field with a bad digit counts as 0 (R4). -/
def B4.value (d : B4) : Nat := if B4.ok d then bcdValue 4 d.toNat else 0

/-- A six-digit field as a number; a field with a bad digit counts as 0 (R4). -/
def B6.value (d : B6) : Nat := if B6.ok d then bcdValue 6 d.toNat else 0

def B6.ofNat (n : Nat) : B6 := BitVec.ofNat 24 (toBcd 6 n)

/-- R170: the two legal sign codes. -/
def plusCode : Byte := 12
def minusCode : Byte := 13

/-- R48: the digits are decimal and the sign code is plus or minus. -/
def S8.ok (a : S8) : Bool := (a.sign == plusCode || a.sign == minusCode) && bcdOk 8 a.digits.toNat

/-- The signed number an eight-digit field spells; the minus code with magnitude 0 reads as 0 (R48), and a field that
cannot be decoded counts as 0 (R4). -/
def S8.value (a : S8) : Int :=
  if a.ok then
    if a.sign == minusCode then -(bcdValue 8 a.digits.toNat : Int) else (bcdValue 8 a.digits.toNat : Int)
  else 0

/-- The eight-digit field the chip writes for a number; a balance of 0 takes the plus code (R170). -/
def S8.ofInt (v : Int) : S8 :=
  ⟨if v < 0 then minusCode else plusCode, BitVec.ofNat 32 (toBcd 8 v.natAbs)⟩

/-- What the chip sends, and what it covers with the check code, for a stored eight-digit field: the field as
stored, but for a stored 0, which takes the plus code (R170; log entry 10). -/
def S8.sent (a : S8) : S8 := if a.ok && a.value == 0 then { a with sign := plusCode } else a

def S8.bytes (a : S8) : List Byte := a.sign :: beBytes 4 a.digits.toNat

def S8.ofBytes (bs : List Byte) : S8 := ⟨fieldOf 8 1 bs, fieldOf 32 4 (bs.drop 1)⟩

def Handle.bytes (h : Handle) : List Byte := beBytes 2 h.slot.toNat ++ [h.gen]

def Handle.ofBytes (bs : List Byte) : Handle := ⟨fieldOf 16 2 bs, fieldOf 8 1 (bs.drop 2)⟩

def Ticket.bytes (t : Ticket) : List Byte := [t.entry, t.serial]

def Ticket.ofBytes (bs : List Byte) : Ticket := ⟨fieldOf 8 1 bs, fieldOf 8 1 (bs.drop 1)⟩

/-! ### The CRC (R4, R169) -/

/-- One bit of the CRC-16 with polynomial x^16+x^12+x^5+1. -/
def crcShift (c : Half) : Half := if c.msb then (c <<< 1) ^^^ 4129 else c <<< 1

/-- One byte of the CRC, most significant bit first. -/
def crcByte (c : Half) (b : Byte) : Half :=
  let x := c ^^^ (b.zeroExtend 16 <<< 8)
  crcShift (crcShift (crcShift (crcShift (crcShift (crcShift (crcShift (crcShift x)))))))

/-- R169: initial value all ones, no final inversion. -/
def crc16 (bs : List Byte) : Half := bs.foldl crcByte 65535

/-- A CRC as it is sent, high byte first. -/
def crcBytes (bs : List Byte) : List Byte := beBytes 2 (crc16 bs).toNat

/-- Bytes whose last two are the CRC of those before them. -/
def crcGood (bs : List Byte) : Bool :=
  decide (2 ≤ bs.length) && bs.drop (bs.length - 2) == crcBytes (bs.take (bs.length - 2))

/-! ### Terminal requests (R41, R169) -/

/-- Why the router answers a frame at once, in the order of R41. -/
inductive FrameError where
  | badCommand
  | badLength
  | badDigit
  deriving DecidableEq, Repr

/-- R169: the command code and the tag inside a command byte. -/
def commandCode (cmd : Byte) : Nat := cmd.toNat / 4
def commandTag (cmd : Byte) : Lane := laneOf cmd.toNat

/-- R169: payload length of a request by command code; none for a code outside 1 to 8. -/
def requestLength : Nat → Option Nat
  | 1 => some 4
  | 2 => some 3
  | 3 => some 9
  | 4 => some 4
  | 5 => some 5
  | 6 => some 2
  | 7 => some 9
  | 8 => some 8
  | _ => none

/-- The fields of a payload of the right length. -/
def requestFields (code : Nat) (p : List Byte) : Option TermReq :=
  match code with
  | 1 => some (.lookup (fieldOf 32 4 p))
  | 2 => some (.read (Handle.ofBytes p))
  | 3 => some (.authorize (Handle.ofBytes p) (fieldOf 8 1 (p.drop 3)) (fieldOf 16 2 (p.drop 4)) (fieldOf 24 3 (p.drop 6)))
  | 4 => some (.settle (Ticket.ofBytes p) (fieldOf 16 2 (p.drop 2)))
  | 5 => some (.extend (Ticket.ofBytes p) (fieldOf 24 3 (p.drop 2)))
  | 6 => some (.cancel (Ticket.ofBytes p))
  | 7 => some (.debit (Handle.ofBytes p) (S8.ofBytes (p.drop 3)) (fieldOf 8 1 (p.drop 8)))
  | 8 => some (.probe (Handle.ofBytes p) (S8.ofBytes (p.drop 3)))
  | _ => none

/-- R41 step 3: the digits and sign codes of the BCD fields of a request. -/
def TermReq.digitsOk : TermReq → Bool
  | .lookup _ => true
  | .read _ => true
  | .authorize _ _ units window => B4.ok units && B6.ok window
  | .settle _ units => B4.ok units
  | .extend _ seconds => B6.ok seconds
  | .cancel _ => true
  | .debit _ amount _ => amount.ok
  | .probe _ amount => amount.ok

/-- R41: command code, payload length, digits, in this order. -/
def decodeRequest (cmd : Byte) (p : List Byte) : Except FrameError TermReq :=
  match requestLength (commandCode cmd), requestFields (commandCode cmd) p with
  | some n, some r =>
    if p.length ≠ n then .error .badLength
    else if r.digitsOk then .ok r
    else .error .badDigit
  | _, _ => .error .badCommand

/-- R169: the command byte and the payload inside a complete frame. -/
def frameCommand (frame : List Byte) : Byte := (frame.drop 2).headD 0
def framePayload (frame : List Byte) : List Byte := (frame.drop 3).take (frame.length - 5)

/-- R169: the command code of a request. -/
def TermReq.code : TermReq → Nat
  | .lookup _ => 1
  | .read _ => 2
  | .authorize _ _ _ _ => 3
  | .settle _ _ => 4
  | .extend _ _ => 5
  | .cancel _ => 6
  | .debit _ _ _ => 7
  | .probe _ _ => 8

/-- R169: the request payload. -/
def TermReq.payload : TermReq → List Byte
  | .lookup k => beBytes 4 k.toNat
  | .read h => h.bytes
  | .authorize h tariff units window => h.bytes ++ [tariff] ++ beBytes 2 units.toNat ++ beBytes 3 window.toNat
  | .settle t units => t.bytes ++ beBytes 2 units.toNat
  | .extend t seconds => t.bytes ++ beBytes 3 seconds.toNat
  | .cancel t => t.bytes
  | .debit h amount mode => h.bytes ++ amount.bytes ++ [mode]
  | .probe h amount => h.bytes ++ amount.bytes

/-- R169: command byte of a request with its tag. -/
def TermReq.commandByte (r : TermReq) (tag : Lane) : Byte := BitVec.ofNat 8 (r.code * 4 + tag.val)

/-- R169: a frame of a command byte and a payload. -/
def frameOf (cmd : Byte) (payload : List Byte) : List Byte :=
  let body := [Config.startByte, BitVec.ofNat 8 (payload.length + 5), cmd] ++ payload
  body ++ crcBytes body

/-- R169: the frame a terminal sends for a request. -/
def encodeRequest (tag : Lane) (r : TermReq) : List Byte := frameOf (r.commandByte tag) r.payload

/-! ### Management command blocks (R154, R155, R171) -/

/-- Why a block is refused at screening, steps 1 to 3 of R155. -/
inductive BlockError where
  | crcError
  | badCommand
  | badLength
  deriving DecidableEq, Repr

/-- R171: length of the fields by opcode; none above 24. -/
def commandLength : Nat → Option Nat
  | 0 => some 0
  | 1 => some 17
  | 2 => some 4
  | 3 => some 4
  | 4 => some 12
  | 5 => some 3
  | 6 => some 3
  | 7 => some 3
  | 8 => some 8
  | 9 => some 8
  | 10 => some 12
  | 11 => some 4
  | 12 => some 16
  | 13 => some 2
  | 14 => some 2
  | 15 => some 2
  | 16 => some 10
  | 17 => some 1
  | 18 => some 5
  | 19 => some 1
  | 20 => some 0
  | 21 => some 3
  | 22 => some 1
  | 23 => some 0
  | 24 => some 0
  | _ => none

/-- R171: the fields of a block of the right length. -/
def commandFields (opcode : Nat) (f : List Byte) : Option Command :=
  match opcode with
  | 0 => some .poll
  | 1 => some (.enrol (fieldOf 32 4 f) (S8.ofBytes (f.drop 4)) (fieldOf 24 3 (f.drop 9)) (fieldOf 24 3 (f.drop 12)) (fieldOf 16 2 (f.drop 15)))
  | 2 => some (.find (fieldOf 32 4 f))
  | 3 => some (.read (Handle.ofBytes f) (fieldOf 8 1 (f.drop 3)))
  | 4 => some (.update (Handle.ofBytes f) (fieldOf 8 1 (f.drop 3)) (fieldOf 24 3 (f.drop 4)) (fieldOf 24 3 (f.drop 7)) (fieldOf 16 2 (f.drop 10)))
  | 5 => some (.freeze (Handle.ofBytes f))
  | 6 => some (.thaw (Handle.ofBytes f))
  | 7 => some (.retire (Handle.ofBytes f))
  | 8 => some (.topup (Handle.ofBytes f) (S8.ofBytes (f.drop 3)))
  | 9 => some (.adjust (Handle.ofBytes f) (S8.ofBytes (f.drop 3)))
  | 10 => some (.transfer (Handle.ofBytes f) (Handle.ofBytes (f.drop 3)) (fieldOf 8 1 (f.drop 6)) (S8.ofBytes (f.drop 7)))
  | 11 => some (.transitClear (fieldOf 8 1 f) (Handle.ofBytes (f.drop 1)))
  | 12 => some (.restore (Handle.ofBytes f) (S8.ofBytes (f.drop 3)) (fieldOf 24 3 (f.drop 8)) (fieldOf 24 3 (f.drop 11)) (fieldOf 16 2 (f.drop 14)))
  | 13 => some (.holdRead (Ticket.ofBytes f))
  | 14 => some (.holdRelease (Ticket.ofBytes f))
  | 15 => some (.holdCapture (Ticket.ofBytes f))
  | 16 => some (.tariffSet (fieldOf 8 1 f) (fieldOf 8 1 (f.drop 1)) (fieldOf 16 2 (f.drop 2)) (fieldOf 16 2 (f.drop 4)) (fieldOf 24 3 (f.drop 6)) (fieldOf 8 1 (f.drop 9)))
  | 17 => some (.tariffRead (fieldOf 8 1 f))
  | 18 => some (.linkSet (fieldOf 8 1 f) (fieldOf 8 1 (f.drop 1)) (fieldOf 8 1 (f.drop 2)) (fieldOf 8 1 (f.drop 3)) (fieldOf 8 1 (f.drop 4)))
  | 19 => some (.linkRead (fieldOf 8 1 f))
  | 20 => some .noticeRead
  | 21 => some (.config (fieldOf 16 2 f) (fieldOf 8 1 (f.drop 2)))
  | 22 => some (.mode (fieldOf 8 1 f))
  | 23 => some .timeRead
  | 24 => some .reset
  | _ => none

/-- R154: the bytes of a block up to its extent (opcode, length, fields, CRC), or none when the period ended before
the extent was complete. Bytes beyond the extent are ignored. -/
def blockExtent (bs : List Byte) : Option (List Byte) :=
  match bs with
  | _ :: len :: _ => if bs.length < len.toNat + 4 then none else some (bs.take (len.toNat + 4))
  | _ => none

/-- Steps 1 to 3 of R155 on the bytes of a select period, and the fields of a block that passes them. -/
def decodeBlock (bs : List Byte) : Except BlockError Command :=
  match blockExtent bs with
  | none => .error .crcError
  | some ext =>
    if crcGood ext then
      let opcode := (ext.headD 0).toNat
      let fields := (ext.drop 2).take (ext.length - 4)
      match commandLength opcode, commandFields opcode fields with
      | some n, some c => if fields.length = n then .ok c else .error .badLength
      | _, _ => .error .badCommand
    else .error .crcError

/-- R171: the opcode of a command. -/
def Command.opcode : Command → Byte
  | .poll => 0
  | .enrol _ _ _ _ _ => 1
  | .find _ => 2
  | .read _ _ => 3
  | .update _ _ _ _ _ => 4
  | .freeze _ => 5
  | .thaw _ => 6
  | .retire _ => 7
  | .topup _ _ => 8
  | .adjust _ _ => 9
  | .transfer _ _ _ _ => 10
  | .transitClear _ _ => 11
  | .restore _ _ _ _ _ => 12
  | .holdRead _ => 13
  | .holdRelease _ => 14
  | .holdCapture _ => 15
  | .tariffSet _ _ _ _ _ _ => 16
  | .tariffRead _ => 17
  | .linkSet _ _ _ _ _ => 18
  | .linkRead _ => 19
  | .noticeRead => 20
  | .config _ _ => 21
  | .mode _ => 22
  | .timeRead => 23
  | .reset => 24

/-- R171: the field bytes of a command. -/
def Command.fields : Command → List Byte
  | .poll => []
  | .enrol key bal floor low set => beBytes 4 key.toNat ++ bal.bytes ++ beBytes 3 floor.toNat ++ beBytes 3 low.toNat ++ beBytes 2 set.toNat
  | .find key => beBytes 4 key.toNat
  | .read h form => h.bytes ++ [form]
  | .update h mask floor low set => h.bytes ++ [mask] ++ beBytes 3 floor.toNat ++ beBytes 3 low.toNat ++ beBytes 2 set.toNat
  | .freeze h => h.bytes
  | .thaw h => h.bytes
  | .retire h => h.bytes
  | .topup h a => h.bytes ++ a.bytes
  | .adjust h a => h.bytes ++ a.bytes
  | .transfer src dst how a => src.bytes ++ dst.bytes ++ [how] ++ a.bytes
  | .transitClear sel h => sel :: h.bytes
  | .restore h bal floor low set => h.bytes ++ bal.bytes ++ beBytes 3 floor.toNat ++ beBytes 3 low.toNat ++ beBytes 2 set.toNat
  | .holdRead t => t.bytes
  | .holdRelease t => t.bytes
  | .holdCapture t => t.bytes
  | .tariffSet n en price max window action => [n, en] ++ beBytes 2 price.toNat ++ beBytes 2 max.toNat ++ beBytes 3 window.toNat ++ [action]
  | .tariffRead n => [n]
  | .linkSet l en baud high res => [l, en, baud, high, res]
  | .linkRead l => [l]
  | .noticeRead => []
  | .config interval threshold => beBytes 2 interval.toNat ++ [threshold]
  | .mode m => [m]
  | .timeRead => []
  | .reset => []

/-- R171: the block the host sends for a command. -/
def encodeCommand (c : Command) : List Byte :=
  let body := [c.opcode, BitVec.ofNat 8 c.fields.length] ++ c.fields
  body ++ crcBytes body

/-- The command a word spells by the table's bits: no row gives bits (log entry 27). -/
def decodeTableWord (_nbits _w : Nat) : Option Instr := none

end Sys2Proof
end

