-- ==== Sys2Proof/Machine/State.lean ====
section
/-! DEFINITION. The state of the PV-41 as plain data, its fault and refusal types, and the state after reset. Sparse
tables are lists of (number, value) with numbers rising and no entry equal to the table's default. -/

namespace Sys2Proof.Machine

/-! ### Reasons to stop -/

/-- No rule of the spec stops the chip: a refusal of the spec is a status code in a response. So no command of the
model faults, and the type has no constructor. -/
inductive Fault where
  deriving DecidableEq, Repr

/-- Reasons why a command has no meaning in the model. -/
inductive Refusal where
  /-- Raised by an arm of exec whose row has not been given its meaning (safe: the model stops). No arm raises it now. -/
  | notModelled (mnemonic : String)
  deriving DecidableEq, Repr

/-! ### Status codes and conditions (R51, section 12.4) -/

/-- Section 12.4. -/
inductive Status where
  | ok
  | badCommand
  | badLength
  | badDigit
  | badRange
  | notFound
  | staleHandle
  | frozen
  | closing
  | suspect
  | short
  | overRange
  | holdsFull
  | accountHoldsFull
  | tariffOff
  | tariffDenied
  | unitsLimit
  | holdGone
  | notOwner
  | extendLimit
  | expiring
  | indexFull
  | tableFull
  | duplicateKey
  | busy
  | notIdle
  | holdsLive
  | baudLimit
  | crcError
  | starting
  | stranded
  | transitBusy
  deriving DecidableEq, Repr

/-- R51: the condition set of a response. -/
structure Conds where
  zero   : Bool
  neg    : Bool
  low    : Bool
  short  : Bool
  overRange : Bool
  capped : Bool
  deriving DecidableEq, Repr

/-! ### Accounts (R2, R3, R9) -/

/-- R9: the account states. -/
inductive AcctState where
  | free
  | new
  | active
  | frozen
  | closing
  | gone
  deriving DecidableEq, Repr

/-- R2, R3: one account record, retained part (down to checkCode) and volatile part. Retained fields are kept as they
are stored, so that a value that cannot be decoded has a place (R4; log entry 9). -/
structure Record where
  stateCode : Byte
  key       : Key
  gen       : Byte
  balance   : S8
  floor     : B6
  lowMark   : B6
  tariffs   : TariffSet
  suspect   : Bool
  checkCode : Half
  held      : Nat
  holds     : List Ticket
  deriving DecidableEq, Repr

/-- R169: the account report of a terminal response (log entry 10 for the balance field). -/
structure Report where
  balance   : S8
  held      : Nat
  spendable : Int
  state     : AcctState
  suspect   : Bool
  count     : Nat
  conds     : Conds
  deriving DecidableEq, Repr

/-! ### Holds (R70) -/

inductive HoldState where
  | free
  | live
  | stalled
  deriving DecidableEq, Repr

/-- R123: a tariff's expiry action, copied into the hold. -/
inductive ExpiryAction where
  | release
  | capture
  deriving DecidableEq, Repr

/-- R93: the action a HOLD_EXPIRED notice reports. -/
inductive ExpiryReport where
  | release
  | capture
  | stalled
  deriving DecidableEq, Repr

/-- R87: where a hold stands with its deadline. -/
inductive Standing where
  | queued
  | claimed
  | none
  deriving DecidableEq, Repr

/-- R70: one entry of the hold table. -/
structure HoldEntry where
  state      : HoldState
  serial     : BitVec 4
  slot       : Nat
  gen        : Byte
  link       : Lane
  epoch      : Byte
  tariff     : Nat
  units      : Nat
  price      : Nat
  amount     : Nat
  deadline   : Nat
  extensions : Nat
  action     : ExpiryAction
  deriving DecidableEq, Repr

/-- R98: one item of the deadline queue. -/
structure DeadlineItem where
  ticket   : Ticket
  deadline : Nat
  deriving DecidableEq, Repr

/-! ### Tariffs (R123) -/

structure Tariff where
  enabled  : Bool
  price    : Nat
  maxUnits : Nat
  window   : Nat
  action   : ExpiryAction
  deriving DecidableEq, Repr

/-! ### Requests and claims (R26, R28) -/

/-- R26: the origin of a terminal request: link, tag (inside the command byte) and the link's epoch at the take. -/
structure Origin where
  link  : Lane
  cmd   : Byte
  epoch : Byte
  deriving DecidableEq, Repr

/-- R26: the management requests the command unit places in group queues. -/
inductive MgmtReq where
  | read (h : Handle) (full : Bool)
  | update (h : Handle) (mask : Byte) (floor lowMark : B6) (tariffs : TariffSet)
  | freeze (h : Handle)
  | thaw (h : Handle)
  | retire (h : Handle)
  | topup (h : Handle) (amount : S8)
  | adjust (h : Handle) (amount : S8)
  | restore (h : Handle) (balance : S8) (floor lowMark : B6) (tariffs : TariffSet)
  | holdRead (t : Ticket)
  | holdRelease (t : Ticket)
  | holdCapture (t : Ticket)
  /-- R68: the credit of a stranded transit -/
  | transitCredit (h : Handle)
  /-- R11: the create step of an enrolment -/
  | create (slot : Nat) (key : Key) (balance : S8) (floor lowMark : B6) (tariffs : TariffSet)
  /-- R12: the activate step of an enrolment -/
  | activate (slot : Nat)
  /-- R63 -/
  | sameTransfer (src dst : Handle) (all : Bool) (amount : S8)
  /-- R65 -/
  | step1 (src dst : Handle) (all : Bool) (amount : S8)
  deriving DecidableEq, Repr

/-- R26: a request in a group queue. -/
inductive Request where
  | terminal (o : Origin) (r : TermReq)
  | mgmt (m : MgmtReq)
  deriving DecidableEq, Repr

/-- R28, R66: the transit-step claim. A return step carries the destination's refusal, none for the return step
posted at READY (R69; log entry 28). -/
inductive TransitClaim where
  | step2
  | ret (refusal : Option Status)
  deriving DecidableEq, Repr

/-- R29: one piece of work of an engine. -/
inductive Work where
  | transit (c : TransitClaim)
  | slotFree (slot : Nat)
  | expiry (t : Ticket)
  | check (slot : Nat)
  | request (r : Request)
  deriving DecidableEq, Repr

/-- R73: where an AUTHORIZE in progress stands with the hold allocator. -/
inductive Alloc where
  | notClaimed
  | claimed
  | allotted (entry : Nat)
  | full
  deriving DecidableEq, Repr

/-- R30: an operation in progress, with what the engine read at the taking. -/
structure Operation where
  work    : Work
  record  : Record
  record2 : Record
  entry   : HoldEntry
  tariff  : Tariff
  time    : Nat
  transit : Transit
  alloc   : Alloc
  deriving DecidableEq, Repr

/-- R26, R28, R29: one group engine. -/
structure Engine where
  queue    : List Request
  transit  : Option TransitClaim
  slotFree : List Nat
  expiry   : List Ticket
  check    : Option Nat
  op       : Option Operation
  deriving DecidableEq, Repr

/-! ### Key index (R109, R111, R112) -/

structure IndexEntry where
  key  : Key
  slot : Nat
  deriving DecidableEq, Repr

structure LookupWork where
  origin : Origin
  key    : Key
  deriving DecidableEq, Repr

/-- R115: the fields of an ENROL in progress. -/
structure EnrolFields where
  key     : Key
  balance : S8
  floor   : B6
  lowMark : B6
  tariffs : TariffSet
  deriving DecidableEq, Repr

/-- R111: the work of the management slot. -/
inductive MgmtLookup where
  | find (key : Key)
  | search (e : EnrolFields)
  deriving DecidableEq, Repr

/-- R111: the items of the update list. -/
inductive IndexUpdate where
  | insert (key : Key) (slot : Nat)
  | remove (key : Key) (slot : Nat)
  deriving DecidableEq, Repr

/-- R112: the operation the index unit carries out. -/
inductive IndexOp where
  | update (u : IndexUpdate)
  | link (l : Lane)
  | mgmt
  deriving DecidableEq, Repr

structure IndexUnit where
  lookups : Four (Option LookupWork)
  mgmt    : Option MgmtLookup
  updates : List IndexUpdate
  ptr     : Fin 5
  op      : Option IndexOp
  deriving DecidableEq, Repr

/-! ### Check unit (R132) -/

inductive LongStage where
  | scan (next : Nat)
  | sweep (next : Nat)
  | transit
  | done
  deriving DecidableEq, Repr

/-- R69: the transit outcome of the WARM_START notice. -/
inductive TransitOutcome where
  | none
  | returnPosted
  | strandedNow
  | strandedKept
  deriving DecidableEq, Repr

/-- R136: one group's part of a slice: the next slot to look at, and whether a check of the group is in hand. -/
structure SlicePart where
  next   : Nat
  inHand : Bool
  deriving DecidableEq, Repr

structure Slice where
  first : Nat
  parts : Four SlicePart
  deriving DecidableEq, Repr

structure CheckUnit where
  stage   : LongStage
  count   : Nat
  outcome : TransitOutcome
  cursor  : Nat
  timer   : Option Nat
  slice   : Option Slice
  owed    : Bool
  deriving DecidableEq, Repr

/-! ### Terminal links (R143) -/

/-- R169: the payload of a terminal response after its status, form by form. -/
inductive TermBody where
  | bare
  | lookup (h : Handle) (r : Report)
  | report (r : Report)
  | authorized (t : Ticket) (amount deadline : Nat) (r : Report)
  | settled (t : Ticket) (charge : Nat) (r : Report)
  | extended (t : Ticket) (deadline left : Nat)
  | cancelled (t : Ticket) (r : Report)
  | debited (charge : Nat) (r : Report)
  | ticket (t : Ticket)
  | extendRefused (t : Ticket) (deadline used : Nat)
  | unitsLimit (r : Report) (maxUnits : Nat)
  | shortAsked (r : Report) (asked : Nat)
  deriving DecidableEq, Repr

/-- R169: a terminal response: the command byte of its request, its status and its payload. -/
structure Response where
  cmd    : Byte
  status : Status
  body   : TermBody
  deriving DecidableEq, Repr

inductive Receiver where
  | idle
  | inFrame (bytes : List Byte)
  deriving DecidableEq, Repr

/-- R143: settings (enabled to resume) and volatile state of one link unit. The head of `queue` is being sent while
`sending` holds (R148). `lastSent` is the model's own: the frame whose last byte left TXD last (log entry 22). -/
structure Link where
  enabled  : Bool
  baud     : Fin 6
  high     : Nat
  resume   : Nat
  receiver : Receiver
  fifo     : List (List Byte)
  rdy      : Bool
  tags     : Four Bool
  queue    : List Response
  sending  : Bool
  epoch    : Byte
  badCrc   : Nat
  overrun  : Bool
  hld      : Bool
  lastSent : Option Response
  deriving DecidableEq, Repr

/-! ### Notices (section 10.4) -/

/-- R167: start causes. -/
inductive StartCause where
  | cold
  | powerReturn
  | pinReset
  | softReset
  | retainWake
  deriving DecidableEq, Repr

/-- R139: who found a suspect record. -/
inductive Finder where
  | operation
  | shortCheck
  deriving DecidableEq, Repr

inductive Notice where
  | coldStart (cause : StartCause)
  | warmStart (cause : StartCause) (suspects : Nat) (outcome : TransitOutcome)
  | holdExpired (t : Ticket) (h : Handle) (action : ExpiryReport) (charge : Nat) (overRange : Bool)
  | lowBalance (h : Handle) (balance : S8)
  | suspectFound (slot : Nat) (gen : Byte) (state : AcctState) (finder : Finder)
  | retired (key : Key) (slot : Nat) (balance : S8) (suspect : Bool)
  | transferStranded (src dst : Handle) (amount : Nat) (dstRefusal : Option Status) (returnRefusal : Status)
  | linkOverrun (link : Lane) (count : Nat)
  deriving DecidableEq, Repr

structure NoticeQueue where
  list : List Notice
  lost : Bool
  attn : Bool
  deriving DecidableEq, Repr

/-! ### Power control (R162 to R168) -/

/-- R162: the modes. -/
inductive Mode where
  | run
  | economy
  | standby
  | retain
  deriving DecidableEq, Repr

/-- R167: where a start stands. `held`: RST low, the main supply off, or RETAIN. The phase is READY in `ready` and
STARTING in the others. -/
inductive Stage where
  | held
  | warmUp
  | longCheck
  | ready
  deriving DecidableEq, Repr

structure Power where
  stage  : Stage
  mode   : Mode
  resume : Mode
  cause  : StartCause
  mark   : Bool
  supply : Bool
  rstLow : Bool
  deriving DecidableEq, Repr

/-! ### Command unit (R153) -/

/-- R61: which account a TRANSFER's status concerns. -/
inductive Side where
  | none
  | source
  | destination
  deriving DecidableEq, Repr

/-- R170: one balance item of a TRANSFER response. -/
structure BalanceItem where
  side    : Side
  balance : S8
  conds   : Conds
  deriving DecidableEq, Repr

/-- The fields of a management response after its status, form by form (log entry 16). -/
inductive MgmtBody where
  | bare
  | poll (ready : Bool) (mode : Mode) (busy : Bool) (notices : Nat) (lost : Bool) (transit : TransitState)
  | enrolled (h : Handle)
  | found (h : Handle) (state : AcctState) (key : Key) (gen : Byte) (balance : S8) (floor lowMark : B6)
      (tariffs : TariffSet) (suspect : Bool) (held : Nat) (holds : List Ticket) (spendable : Int) (conds : Conds)
  | brief (state : AcctState) (balance : S8) (held : Nat) (suspect : Bool)
  | full (state : AcctState) (balance : S8) (held : Nat) (suspect : Bool) (key : Key) (gen : Byte) (floor lowMark : B6)
      (tariffs : TariffSet) (holds : List Ticket) (spendable : Int) (count : Nat) (conds : Conds)
  | updated (floor lowMark : B6) (tariffs : TariffSet) (balance : S8) (held : Nat) (spendable : Int) (count : Nat)
      (conds : Conds)
  | standing (state : AcctState) (balance : S8) (held count : Nat)
  | retired (state : AcctState) (balance : S8) (count : Nat)
  | value (balance : S8) (held : Nat) (spendable : Int) (count : Nat) (conds : Conds)
  | valueRefused (balance : S8) (held : Nat) (spendable : Int) (conds : Conds)
  | transfer (side : Side) (returned : Bool) (amount : S8) (items : List BalanceItem)
  | dropped (amount : Nat)
  | credited (balance : S8) (conds : Conds)
  | restored (state : AcctState) (key : Key) (gen : Byte) (balance : S8) (floor lowMark : B6) (tariffs : TariffSet)
      (suspect wasSet matched : Bool) (held : Nat) (spendable : Int) (count rearmed : Nat) (conds : Conds)
  | hold (state : HoldState) (serial : BitVec 4) (slot : Nat) (gen : Byte) (link : Lane) (epoch : Byte)
      (tariff units price amount deadline extensions : Nat) (action : ExpiryAction) (standing : Standing) (suspect : Bool)
  | holdReleased (t : Ticket) (balance : S8) (held : Nat) (spendable : Int) (count : Nat) (conds : Conds)
  | holdCaptured (t : Ticket) (charge : Nat) (balance : S8) (held : Nat) (spendable : Int) (count : Nat) (conds : Conds)
  | tariff (t : Tariff)
  | linkSet (enabled : Bool) (baud : Fin 6) (high resume : Nat) (epoch : Byte)
  | linkRead (enabled : Bool) (baud : Fin 6) (high resume : Nat) (epoch : Byte) (inFrame : Bool)
      (fifo busyTags queued : Nat) (rdy hld : Bool) (badCrc : Nat) (overrun : Bool)
  | notices (list : List Notice) (left : Nat) (lost : Bool)
  | config (interval threshold : Nat)
  | time (seconds : Nat)
  | mode (m : Mode)
  deriving DecidableEq, Repr

/-- R171: a response block. -/
structure MgmtResponse where
  opcode : Byte
  status : Status
  body   : MgmtBody
  deriving DecidableEq, Repr

/-- R153: what a BUSY command unit is carrying out. A transfer keeps the source's balance item once step 1 has
written it (R61; log entry 28). -/
inductive Job where
  | account
  | find
  | enrol
  | transfer (source : Option BalanceItem)
  deriving DecidableEq, Repr

inductive CmdState where
  | idle
  | busy (job : Job)
  | reply (r : MgmtResponse)
  deriving DecidableEq, Repr

/-- R153, R154, R159, R168. `held` is the request that waits for a place in a full group queue (R27). `sdo` is what SDO
carries in the select period, or carried in the last one: the bytes from the second on that are not the value 255 of
R154, as far as the host shifted them out. `lastRead` is the model's own: the block the last whole read transaction
shifted out (log entry 22). -/
structure CommandUnit where
  state     : CmdState
  immediate : Option MgmtResponse
  held      : Option (Lane × Request)
  armed     : Bool
  selected  : Bool
  interval  : Nat
  threshold : Nat
  sdo       : List Byte
  lastRead  : Option (List Byte)
  deriving DecidableEq, Repr

/-! ### The whole state -/

structure State where
  accounts  : List (Nat × Record)
  index     : List (Nat × Option IndexEntry)
  holds     : List (Nat × HoldEntry)
  tariffs   : List (Nat × Tariff)
  transit   : Transit
  links     : Four Link
  router    : Lane
  engines   : Four Engine
  allocPtr  : Lane
  deadlines : List DeadlineItem
  timebase  : Nat
  indexUnit : IndexUnit
  check     : CheckUnit
  cmd       : CommandUnit
  notices   : NoticeQueue
  power     : Power
  pending   : List Instr
  deriving DecidableEq, Repr

/-! ### Reset -/

/-- R143: a link unit with the cold settings, after a reset event. -/
def Link.cold : Link :=
  { enabled := false, baud := 2, high := 12, resume := 4, receiver := .idle, fifo := [], rdy := false,
    tags := Four.all false, queue := [], sending := false, epoch := 0, badCrc := 0, overrun := false, hld := false,
    lastSent := none }

/-- R38: an idle engine with nothing waiting. -/
def Engine.cleared : Engine :=
  { queue := [], transit := none, slotFree := [], expiry := [], check := none, op := none }

/-- R122: the index unit after a reset event. -/
def IndexUnit.cleared : IndexUnit :=
  { lookups := Four.all none, mgmt := none, updates := [], ptr := 0, op := none }

/-- R132: the check unit after a reset event. -/
def CheckUnit.cleared : CheckUnit :=
  { stage := .scan 0, count := 0, outcome := .none, cursor := 0, timer := none, slice := none, owed := false }

/-- R64: the empty register; its other fields carry no meaning. -/
def Transit.cleared : Transit := { state := .empty, src := ⟨0, 0⟩, dst := ⟨0, 0⟩, amount := 0 }

/-- The first application of power (R166, R167): the start-up sequence has begun with cause COLD, the retention-lost mark
is set, and every store is at its cold value, as OSCILLATOR_WARM_UP_DONE will write it (log entries 8, 30). -/
def State.reset : State :=
  { accounts := [], index := [], holds := [], tariffs := [], transit := Transit.cleared,
    links := Four.all Link.cold, router := 0, engines := Four.all Engine.cleared, allocPtr := 0,
    deadlines := [], timebase := 0, indexUnit := IndexUnit.cleared, check := CheckUnit.cleared,
    cmd := { state := .idle, immediate := none, held := none, armed := false, selected := false,
             interval := 60, threshold := 1, sdo := [], lastRead := none },
    notices := { list := [], lost := false, attn := false },
    power := { stage := .warmUp, mode := .run, resume := .run, cause := .cold, mark := true, supply := true,
               rstLow := false },
    pending := [] }

end Sys2Proof.Machine
end

