-- ==== Sys2Proof/Machine/Table.lean ====
section
/-! DEFINITION. Sparse tables: lists of (number, value) in one canonical form. A number not listed holds the default. -/

namespace Sys2Proof.Machine.Table

/-- The value at a number; the default where none is listed. -/
def get (d : α) : List (Nat × α) → Nat → α
  | [], _ => d
  | (k, v) :: t, n => if k = n then v else get d t n

/-- Place a value in the order of numbers. -/
def place (n : Nat) (v : α) : List (Nat × α) → List (Nat × α)
  | [] => [(n, v)]
  | (k, w) :: t => if n < k then (n, v) :: (k, w) :: t else (k, w) :: place n v t

/-- Take a number out of the list. -/
def erase (n : Nat) : List (Nat × α) → List (Nat × α)
  | [] => []
  | (k, w) :: t => if k = n then erase n t else (k, w) :: erase n t

/-- Write a value; writing the default takes the entry out. -/
def put [DecidableEq α] (d : α) (n : Nat) (v : α) (t : List (Nat × α)) : List (Nat × α) :=
  if v = d then erase n t else place n v (erase n t)

/-- The canonical form: numbers strictly rising, and no entry equal to the default. -/
def wfFrom [DecidableEq α] (d : α) (lo : Nat) : List (Nat × α) → Bool
  | [] => true
  | (k, v) :: t => decide (lo ≤ k) && decide (v ≠ d) && wfFrom d (k + 1) t

def wf [DecidableEq α] (d : α) (t : List (Nat × α)) : Bool := wfFrom d 0 t

end Sys2Proof.Machine.Table
end

