-- ==== Sys2Proof/Machine/Operands.lean ====
section
/-! DEFINITION. Reading operands and records: account states and check codes (R4), the handle test (R7), the ticket
test (R35, R72), ranges (R49), and the tables' accessors. -/

namespace Sys2Proof.Machine

/-! ### Account records (R4) -/

/-- R170: the state codes of the detail byte. -/
def AcctState.code : AcctState → Byte
  | .free => 0
  | .new => 1
  | .active => 2
  | .frozen => 3
  | .closing => 4
  | .gone => 5

/-- R4: a state code that cannot be decoded is taken, and reported, as ACTIVE. -/
def Record.state (r : Record) : AcctState :=
  match r.stateCode.toNat with
  | 0 => .free
  | 1 => .new
  | 3 => .frozen
  | 4 => .closing
  | 5 => .gone
  | _ => .active

/-- R4: no stored field of the record holds a value that cannot be decoded. -/
def Record.decodable (r : Record) : Bool :=
  decide (r.stateCode.toNat ≤ 5) && r.balance.ok && B6.ok r.floor && B6.ok r.lowMark

/-- R170: the nineteen covered bytes, in order. -/
def Record.covered (r : Record) : List Byte :=
  r.stateCode :: (beBytes 4 r.key.toNat ++ [r.gen] ++ r.balance.sent.bytes ++ beBytes 3 r.floor.toNat ++
    beBytes 3 r.lowMark.toNat ++ beBytes 2 r.tariffs.toNat)

/-- R4, R131: the record with a check code newly computed over its covered fields. -/
def Record.seal (r : Record) : Record := { r with checkCode := crc16 r.covered }

/-- R4, R33: the verification of a record. A record that cannot be decoded never matches. -/
def Record.verifies (r : Record) : Bool := r.decodable && r.checkCode == crc16 r.covered

/-- R4: stored amounts as numbers, 0 where they cannot be decoded. -/
def Record.bal (r : Record) : Int := r.balance.value
def Record.floorValue (r : Record) : Nat := B6.value r.floor
def Record.lowValue (r : Record) : Nat := B6.value r.lowMark

/-- R50: balance plus floor minus held. -/
def Record.spendable (r : Record) : Int := r.bal + r.floorValue - r.held

/-- R34: the record as an operation treats it: the flag set where it was set or the verification found a mismatch. -/
def Record.found (r : Record) : Record := { r with suspect := r.suspect || !r.verifies }

/-- R20, R25: a FREE slot with the given generation, its check code computed over the FREE values. -/
def Record.freed (gen : Byte) : Record :=
  Record.seal { stateCode := AcctState.code .free, key := 0, gen := gen, balance := S8.ofInt 0, floor := 0, lowMark := 0,
                tariffs := 0, suspect := false, checkCode := 0, held := 0, holds := [] }

/-- R25: every slot after a cold start; the default of the account table. -/
def Record.cold : Record := Record.freed 0

/-- R74: a FREE entry with the given serial; the other fields of a FREE entry carry no meaning (log entry 13). -/
def HoldEntry.freed (serial : BitVec 4) : HoldEntry :=
  { state := .free, serial := serial, slot := 0, gen := 0, link := 0, epoch := 0, tariff := 0, units := 0, price := 0,
    amount := 0, deadline := 0, extensions := 0, action := .release }

/-- R74: every entry after a cold start; the default of the hold table. -/
def HoldEntry.cold : HoldEntry := HoldEntry.freed 0

/-- R123: the cold defaults of a tariff; the default of the tariff table. -/
def Tariff.cold : Tariff := { enabled := false, price := 1, maxUnits := 9999, window := 600, action := .release }

/-! ### The tables of State -/

def State.record (s : State) (slot : Nat) : Record := Table.get Record.cold s.accounts slot

def State.setRecord (s : State) (slot : Nat) (r : Record) : State :=
  { s with accounts := Table.put Record.cold slot r s.accounts }

def State.hold (s : State) (n : Nat) : HoldEntry := Table.get HoldEntry.cold s.holds n

def State.setHold (s : State) (n : Nat) (e : HoldEntry) : State :=
  { s with holds := Table.put HoldEntry.cold n e s.holds }

def State.tariff (s : State) (n : Nat) : Tariff := Table.get Tariff.cold s.tariffs n

def State.setTariff (s : State) (n : Nat) (t : Tariff) : State :=
  { s with tariffs := Table.put Tariff.cold n t s.tariffs }

/-- R109: way w of bucket b is number 8 b + w of the index. -/
def State.way (s : State) (n : Nat) : Option IndexEntry := Table.get none s.index n

def State.setWay (s : State) (n : Nat) (e : Option IndexEntry) : State :=
  { s with index := Table.put none n e s.index }

def State.link (s : State) (l : Lane) : Link := s.links.get l

def State.setLink (s : State) (l : Lane) (k : Link) : State := { s with links := s.links.set l k }

def State.engine (s : State) (g : Lane) : Engine := s.engines.get g

def State.setEngine (s : State) (g : Lane) (e : Engine) : State := { s with engines := s.engines.set g e }

/-! ### Handles and tickets -/

/-- R7: the handle test against the record of the slot as read at the taking; none for a current handle. -/
def handleTest (h : Handle) (r : Record) : Option Status :=
  if Config.slots ≤ h.slot.toNat then some .notFound
  else if r.state = .free ∨ r.state = .new ∨ r.state = .gone then some .staleHandle
  else if h.gen ≠ r.gen then some .staleHandle
  else none

/-- R10: the state check of DEBIT, PROBE and AUTHORIZE. -/
def spendCheck (r : Record) : Option Status :=
  match r.state with
  | .frozen => some .frozen
  | .closing => some .closing
  | _ => none

/-- R10: the state check of TOPUP and of both sides of a TRANSFER. -/
def creditCheck (r : Record) : Option Status :=
  match r.state with
  | .closing => some .closing
  | _ => none

/-- R72: the ticket is current: the entry is LIVE or STALLED and holds the same serial. -/
def ticketCurrent (t : Ticket) (e : HoldEntry) : Bool :=
  e.state != .free && t.serial.toNat == e.serial.toNat

/-- R35: the ticket is current and its hold belongs to an account of the engine's own group. -/
def ticketOfGroup (g : Lane) (t : Ticket) (e : HoldEntry) : Bool :=
  ticketCurrent t e && laneOf e.slot == g

/-- R72: the ticket AUTHORIZE issues. -/
def ticketOf (n : Nat) (serial : BitVec 4) : Ticket := ⟨BitVec.ofNat 8 n, serial.zeroExtend 8⟩

/-- R81: the owner check. -/
def ownerCheck (o : Origin) (e : HoldEntry) : Bool := o.link == e.link && o.epoch == e.epoch

/-! ### Ranges (R49) -/

/-- R109: a member key in range. -/
def keyInRange (k : Key) : Bool := decide (1 ≤ k.toNat) && decide (k.toNat ≤ 4294967294)

/-- R75, R84: a window or an EXTEND's seconds in range. -/
def windowInRange (n : Nat) : Bool := decide (Config.minWindow ≤ n) && decide (n ≤ Config.maxWindow)

/-- R2: a balance in range. -/
def balanceInRange (v : Int) : Bool := decide (-Config.maxAmount ≤ v) && decide (v ≤ Config.maxAmount)

/-- R128: tariff n is in the set. -/
def inTariffSet (set : TariffSet) (n : Nat) : Bool := set.getLsbD n

/-! ### Flags of the chip's state -/

/-- The main domain is on and the chip is not held in reset. -/
def State.powered (s : State) : Bool := s.power.supply && !s.power.rstLow && s.power.mode != .retain

/-- R166: the backup monitor watches VBK. -/
def State.mainOff (s : State) : Bool := !s.power.supply || s.power.mode == .retain

/-- R162: the phase is READY. -/
def State.isReady (s : State) : Bool := s.power.stage == .ready

/-- R37: the engines, the router and the index unit take work: phase READY, mode RUN or ECONOMY. -/
def State.working (s : State) : Bool := s.isReady && (s.power.mode == .run || s.power.mode == .economy)

/-- R153: the command unit is BUSY (MBUSY is asserted). -/
def State.isBusy (s : State) : Bool :=
  match s.cmd.state with
  | .busy _ => true
  | _ => false

end Sys2Proof.Machine
end

