-- ==== Sys2Proof/Machine/Flags.lean ====
section
/-! DEFINITION. The condition sets of responses (R51) and the account report (R169). -/

namespace Sys2Proof.Machine

/-- R51: ZERO, NEG and LOW of a balance against a low mark; the other conditions absent. -/
def balanceConds (bal : Int) (low : Nat) : Conds :=
  { zero := decide (bal = 0), neg := decide (bal < 0), low := decide (bal < low), short := false, overRange := false,
    capped := false }

/-- ZERO, NEG and LOW of the stored balance of a record. -/
def storedConds (r : Record) : Conds := balanceConds r.bal r.lowValue

/-- R51: the would-be conditions of a DEBIT or PROBE of an amount, SHORT among them. -/
def wouldBeDebit (r : Record) (amount : Int) : Conds :=
  { balanceConds (r.bal - amount) r.lowValue with short := decide (r.spendable < amount) }

/-- R51: the would-be conditions of a credit or adjustment, OVER among them. -/
def wouldBeCredit (r : Record) (amount : Int) : Conds :=
  { balanceConds (r.bal + amount) r.lowValue with overRange := !balanceInRange (r.bal + amount) }

/-- R169: the account report of a record with a condition set. -/
def reportOf (r : Record) (c : Conds) : Report :=
  { balance := r.balance.sent, held := r.held, spendable := r.spendable, state := r.state, suspect := r.suspect,
    count := r.holds.length, conds := c }

/-- The record after a completion that writes the balance. -/
def Record.withBalance (r : Record) (v : Int) : Record := { r with balance := S8.ofInt v }

/-- R3: held after a hold of an amount has ended. The spec states none for an amount above held: a free value (log
entry 35). -/
def heldWithout (held amount : Nat) : Nat := if amount ≤ held then held - amount else (Config.unstatedHeld held amount).val

/-- The record after a hold of an amount has left it (R79). Where the amount is above held, held is the free value of log
entry 35. -/
def Record.withoutHold (r : Record) (t : Ticket) (amount : Nat) : Record :=
  { r with held := heldWithout r.held amount, holds := r.holds.filter (· ≠ t) }

/-- R80: a charge clamped so that the balance written is not below the range: the charge and the OVER mark. -/
def clampCharge (bal : Int) (charge : Int) : Int × Bool :=
  if bal - charge < -Config.maxAmount then (bal + Config.maxAmount, true) else (charge, false)

/-- R59: the completion moves the balance from at or above the low mark to below it. -/
def crossesLow (r : Record) (newBal : Int) : Bool :=
  decide (newBal < r.bal) && decide ((r.lowValue : Int) ≤ r.bal) && decide (newBal < r.lowValue)

end Sys2Proof.Machine
end

