-- ==== Sys2Proof/Machine/Wire.lean ====
section
/-! DEFINITION. The bytes the chip sends: response frames (R169), response blocks and notices (R171), in the encodings
of R170. Log entry 16 names the layouts the spec leaves open. -/

namespace Sys2Proof.Machine

/-- Section 12.4. -/
def Status.code : Status → Byte
  | .ok => 0
  | .badCommand => 1
  | .badLength => 2
  | .badDigit => 3
  | .badRange => 4
  | .notFound => 5
  | .staleHandle => 6
  | .frozen => 7
  | .closing => 8
  | .suspect => 9
  | .short => 10
  | .overRange => 11
  | .holdsFull => 12
  | .accountHoldsFull => 13
  | .tariffOff => 14
  | .tariffDenied => 15
  | .unitsLimit => 16
  | .holdGone => 17
  | .notOwner => 18
  | .extendLimit => 19
  | .expiring => 20
  | .indexFull => 21
  | .tableFull => 22
  | .duplicateKey => 23
  | .busy => 24
  | .notIdle => 25
  | .holdsLive => 26
  | .baudLimit => 27
  | .crcError => 28
  | .starting => 29
  | .stranded => 30
  | .transitBusy => 31

/-! ### Field encodings (R170) -/

def flagByte (b : Bool) : Byte := if b then 1 else 0
def numByte (n : Nat) : Byte := BitVec.ofNat 8 n
def u8Bytes (n : Nat) : List Byte := beBytes 4 (toBcd 8 n)
def b4Bytes (n : Nat) : List Byte := beBytes 2 (toBcd 4 n)
def b6Bytes (n : Nat) : List Byte := beBytes 3 (toBcd 6 n)
def timeBytes (n : Nat) : List Byte := beBytes 4 n

/-- Field S9: a sign nibble and nine BCD digits. -/
def s9Bytes (v : Int) : List Byte := beBytes 5 ((if v < 0 then 13 else 12) * 16 ^ 9 + toBcd 9 v.natAbs)

/-- The conditions byte. Bits 6 and 7 are 0 (DESIGN CHOICE, log entry 38). -/
def Conds.byte (c : Conds) : Byte :=
  numByte (c.zero.toNat + 2 * c.neg.toNat + 4 * c.low.toNat + 8 * c.short.toNat + 16 * c.overRange.toNat + 32 * c.capped.toNat)

/-- The detail byte: state, suspect flag, hold count. Bit 7 is 0 (DESIGN CHOICE, log entry 38). -/
def detailByte (st : AcctState) (suspect : Bool) (count : Nat) : Byte :=
  numByte (st.code.toNat + 8 * suspect.toNat + 16 * (count % 8))

def Report.bytes (r : Report) : List Byte :=
  r.balance.bytes ++ u8Bytes r.held ++ s9Bytes r.spendable ++ [detailByte r.state r.suspect r.count, r.conds.byte]

def HoldState.code : HoldState → Byte
  | .free => 0
  | .live => 1
  | .stalled => 2

def Standing.code : Standing → Byte
  | .queued => 0
  | .claimed => 1
  | .none => 2

def ExpiryAction.code : ExpiryAction → Byte
  | .release => 0
  | .capture => 1

def ExpiryReport.code : ExpiryReport → Byte
  | .release => 0
  | .capture => 1
  | .stalled => 2

def Side.code : Side → Byte
  | .none => 0
  | .source => 1
  | .destination => 2

def transitCode : TransitState → Byte
  | .empty => 0
  | .out => 1
  | .returning => 2
  | .stranded => 3

def Mode.code : Mode → Byte
  | .run => 0
  | .economy => 1
  | .standby => 2
  | .retain => 3

def StartCause.code : StartCause → Byte
  | .cold => 0
  | .powerReturn => 1
  | .pinReset => 2
  | .softReset => 3
  | .retainWake => 4

def TransitOutcome.code : TransitOutcome → Byte
  | .none => 0
  | .returnPosted => 1
  | .strandedNow => 2
  | .strandedKept => 3

def Finder.code : Finder → Byte
  | .operation => 0
  | .shortCheck => 1

/-- R170: a refusal field; 255 for none. -/
def refusalByte : Option Status → Byte
  | some st => st.code
  | none => 255

/-! ### Terminal responses (R169) -/

def TermBody.bytes : TermBody → List Byte
  | .bare => []
  | .lookup h r => h.bytes ++ r.bytes
  | .report r => r.bytes
  | .authorized t amount deadline r => t.bytes ++ u8Bytes amount ++ timeBytes deadline ++ r.bytes
  | .settled t charge r => t.bytes ++ u8Bytes charge ++ r.bytes
  | .extended t deadline left => t.bytes ++ timeBytes deadline ++ [numByte left]
  | .cancelled t r => t.bytes ++ r.bytes
  | .debited charge r => u8Bytes charge ++ r.bytes
  | .ticket t => t.bytes
  | .extendRefused t deadline used => t.bytes ++ timeBytes deadline ++ [numByte used]
  | .unitsLimit r maxUnits => r.bytes ++ b4Bytes maxUnits
  | .shortAsked r asked => r.bytes ++ u8Bytes asked

/-- R169: the response frame on TXD. -/
def Response.bytes (r : Response) : List Byte := frameOf r.cmd (r.status.code :: r.body.bytes)

/-! ### Notices (R171) -/

def Notice.fields : Notice → List Byte
  | .coldStart cause => [1, cause.code]
  | .warmStart cause suspects outcome => [2, cause.code] ++ beBytes 2 suspects ++ [outcome.code]
  | .holdExpired t h action charge overRange => [3] ++ t.bytes ++ h.bytes ++ [action.code] ++ u8Bytes charge ++ [flagByte overRange]
  | .lowBalance h balance => [4] ++ h.bytes ++ balance.bytes
  | .suspectFound slot gen st finder => [5] ++ beBytes 2 slot ++ [gen, st.code, finder.code]
  | .retired key slot balance suspect =>
      [6] ++ beBytes 4 key.toNat ++ beBytes 2 slot ++ balance.bytes ++ [flagByte suspect]
  | .transferStranded src dst amount dstRefusal returnRefusal =>
      [7] ++ src.bytes ++ dst.bytes ++ u8Bytes amount ++ [refusalByte dstRefusal, returnRefusal.code]
  | .linkOverrun link count => [8, numByte link.val, numByte count]

/-- R171: a 16-byte record with zero fill. -/
def Notice.bytes (n : Notice) : List Byte := n.fields ++ List.replicate (16 - n.fields.length) 0

/-! ### Response blocks (R171) -/

/-- A list is a count byte followed by its items. -/
def listBytes (items : List (List Byte)) : List Byte := numByte items.length :: items.flatten

def BalanceItem.bytes (b : BalanceItem) : List Byte := b.side.code :: (b.balance.bytes ++ [b.conds.byte])

def Tariff.bytes (t : Tariff) : List Byte :=
  [flagByte t.enabled] ++ b4Bytes t.price ++ b4Bytes t.maxUnits ++ b6Bytes t.window ++ [t.action.code]

def b6Raw (d : B6) : List Byte := beBytes 3 d.toNat
def setBytes (s : TariffSet) : List Byte := beBytes 2 s.toNat

/-- The fields of a management response (R171). The amounts of a TRANSFER and of a TRANSIT_CLEAR with none are sent as S8
and as U8 (log entry 16). -/
def MgmtBody.bytes : MgmtBody → List Byte
  | .bare => []
  | .poll ready m busy count lost transit =>
      [flagByte ready, m.code, flagByte busy, numByte count, flagByte lost, transitCode transit]
  | .enrolled h => h.bytes
  | .found h st key gen balance floor low set suspect held list spend c =>
      h.bytes ++ [st.code] ++ beBytes 4 key.toNat ++ [gen] ++ balance.bytes ++ b6Raw floor ++ b6Raw low ++
        setBytes set ++ [flagByte suspect] ++ u8Bytes held ++ listBytes (list.map Ticket.bytes) ++ s9Bytes spend ++ [c.byte]
  | .brief st balance held suspect => [st.code] ++ balance.bytes ++ u8Bytes held ++ [flagByte suspect]
  | .full st balance held suspect key gen floor low set list spend count c =>
      [st.code] ++ balance.bytes ++ u8Bytes held ++ [flagByte suspect] ++ beBytes 4 key.toNat ++ [gen] ++
        b6Raw floor ++ b6Raw low ++ setBytes set ++ listBytes (list.map Ticket.bytes) ++ s9Bytes spend ++
        [numByte count, c.byte]
  | .updated floor low set balance held spend count c =>
      b6Raw floor ++ b6Raw low ++ setBytes set ++ balance.bytes ++ u8Bytes held ++ s9Bytes spend ++
        [numByte count, c.byte]
  | .standing st balance held count => [st.code] ++ balance.bytes ++ u8Bytes held ++ [numByte count]
  | .retired st balance count => [st.code] ++ balance.bytes ++ [numByte count]
  | .value balance held spend count c =>
      balance.bytes ++ u8Bytes held ++ s9Bytes spend ++ [numByte count, c.byte]
  | .valueRefused balance held spend c => balance.bytes ++ u8Bytes held ++ s9Bytes spend ++ [c.byte]
  | .transfer side returned amount items =>
      [side.code, flagByte returned] ++ amount.sent.bytes ++ listBytes (items.map BalanceItem.bytes)
  | .dropped amount => u8Bytes amount
  | .credited balance c => balance.bytes ++ [c.byte]
  | .restored st key gen balance floor low set suspect wasSet matched held spend count rearmed c =>
      [st.code] ++ beBytes 4 key.toNat ++ [gen] ++ balance.bytes ++ b6Raw floor ++ b6Raw low ++ setBytes set ++
        [flagByte suspect, flagByte wasSet, flagByte matched] ++ u8Bytes held ++ s9Bytes spend ++
        [numByte count, numByte rearmed, c.byte]
  | .hold st serial slot gen link epoch tn units price amount deadline ext action stand suspect =>
      [st.code, numByte serial.toNat] ++ beBytes 2 slot ++ [gen, numByte link.val, epoch, numByte tn] ++
        b4Bytes units ++ b4Bytes price ++ u8Bytes amount ++ timeBytes deadline ++
        [numByte ext, action.code, stand.code, flagByte suspect]
  | .holdReleased t balance held spend count c =>
      t.bytes ++ balance.bytes ++ u8Bytes held ++ s9Bytes spend ++ [numByte count, c.byte]
  | .holdCaptured t charge balance held spend count c =>
      t.bytes ++ u8Bytes charge ++ balance.bytes ++ u8Bytes held ++ s9Bytes spend ++ [numByte count, c.byte]
  | .tariff t => t.bytes
  | .linkSet enabled baud high resume epoch =>
      [flagByte enabled, numByte baud.val, numByte high, numByte resume, epoch]
  | .linkRead enabled baud high resume epoch inFrame fifo busyTags queued rdy hld badCrc overrun =>
      [flagByte enabled, numByte baud.val, numByte high, numByte resume, epoch, flagByte inFrame, numByte fifo,
        numByte busyTags, numByte queued, flagByte rdy, flagByte hld, numByte badCrc, flagByte overrun]
  | .notices list left lost => listBytes (list.map Notice.bytes) ++ [numByte left, flagByte lost]
  | .config interval threshold => beBytes 2 interval ++ [numByte threshold]
  | .time seconds => timeBytes seconds
  | .mode m => [m.code]

/-- R171: the response block on SDO; the length counts the response's field bytes. -/
def MgmtResponse.bytes (r : MgmtResponse) : List Byte :=
  let body := [r.opcode, numByte r.body.bytes.length, r.status.code] ++ r.body.bytes
  body ++ crcBytes body

/-- R171: the empty block. -/
def emptyBlock (busy : Bool) : MgmtResponse :=
  { opcode := Config.readOpcode, status := if busy then .busy else .ok, body := .bare }

end Sys2Proof.Machine
end

