-- ==== Sys2Proof/Machine/Ops.lean ====
section
/-! DEFINITION. The operations several commands share: notices, responses and links, records and holds, the deadline
unit's keeping, the command unit's states and select periods, resets and starts. -/

namespace Sys2Proof.Machine

/-! ### Parts of the state -/

def State.modifyRecord (s : State) (slot : Nat) (f : Record → Record) : State := s.setRecord slot (f (s.record slot))

def State.modifyLink (s : State) (l : Lane) (f : Link → Link) : State := s.setLink l (f (s.link l))

def State.modifyEngine (s : State) (g : Lane) (f : Engine → Engine) : State := s.setEngine g (f (s.engine g))

/-- R31: the engine's operation ends. -/
def State.endOp (s : State) (g : Lane) : State := s.modifyEngine g fun e => { e with op := none }

/-! ### Notices (R160, R161) -/

/-- R161: ATTN is tested against the threshold. -/
def State.testAttn (s : State) : State :=
  { s with notices := { s.notices with attn := decide (s.cmd.threshold ≤ s.notices.list.length) } }

/-- R160: append a notice, or drop it and set the lost flag. -/
def State.post (s : State) (n : Notice) : State :=
  if s.notices.list.length < Config.noticePlaces then
    { s with notices := { s.notices with list := s.notices.list ++ [n] } }.testAttn
  else { s with notices := { s.notices with lost := true } }

/-! ### Links: flow control and responses (R146 to R148) -/

/-- R148: the transmitter begins the head of the response queue when it may. -/
def Link.txBegin (k : Link) : Link :=
  if k.enabled && !k.queue.isEmpty && !k.hld && !k.sending then { k with sending := true } else k

/-- R146: RDY against the two marks. -/
def Link.testRdy (k : Link) : Link :=
  if !k.enabled then { k with rdy := false }
  else if k.high ≤ k.fifo.length then { k with rdy := false }
  else if k.fifo.length ≤ k.resume then { k with rdy := true }
  else k

/-- R146: an arrival that brings the count to the high mark or above deasserts RDY. -/
def Link.pushFrame (k : Link) (frame : List Byte) : Link :=
  let k := { k with fifo := k.fifo ++ [frame] }
  if k.high ≤ k.fifo.length then { k with rdy := false } else k

/-- R146: a take that brings the count to the resume mark or below asserts RDY. -/
def Link.popFrame (k : Link) : Link :=
  let k := { k with fifo := k.fifo.tail }
  if k.fifo.length ≤ k.resume then { k with rdy := true } else k

/-- R147: an answer arrives at its link unit. -/
def Link.arrive (k : Link) (epoch : Byte) (r : Response) : Link :=
  if k.epoch == epoch && k.tags.get (commandTag r.cmd) && !k.queue.any (fun q => commandTag q.cmd == commandTag r.cmd)
  then { k with queue := k.queue ++ [r] }.txBegin
  else k

/-- R32: the response of a terminal request goes to the response queue of its link. -/
def State.answer (s : State) (o : Origin) (st : Status) (body : TermBody) : State :=
  s.modifyLink o.link fun k => k.arrive o.epoch { cmd := o.cmd, status := st, body := body }

/-- R149: a link is taken out of service (its enable is written beside this). -/
def Link.disabled (k : Link) : Link :=
  { k with receiver := .idle, fifo := [], queue := [], sending := false, tags := Four.all false, epoch := k.epoch + 1,
           rdy := false }

/-! ### Records (R4, R33, R59) -/

/-- R33, R139: a verification that found a mismatch sets the suspect flag, and posts one SUSPECT_FOUND when the flag was
clear. The notice tells the generation and the state the record held before the completion's own writes (log
entry 20). -/
def State.noteMismatch (s : State) (slot : Nat) (mismatch : Bool) (finder : Finder) : State :=
  if mismatch then
    let r := s.record slot
    if r.suspect then s
    else (s.setRecord slot { r with suspect := true }).post (.suspectFound slot r.gen r.state finder)
  else s

/-- A completion that writes a balance: the new balance and a new check code (R4; log entry 11). -/
def State.writeBalance (s : State) (slot : Nat) (v : Int) : State :=
  s.modifyRecord slot fun r => (r.withBalance v).seal

/-- A completion that writes an account state: the code and a new check code (R4). -/
def State.writeState (s : State) (slot : Nat) (st : AcctState) : State :=
  s.modifyRecord slot fun r => { r with stateCode := st.code }.seal

/-- R59: LOW_BALANCE where the balance written falls below the low mark read at the taking. -/
def State.postLow (s : State) (slot : Nat) (r : Record) (newBal : Int) : State :=
  if crossesLow r newBal then s.post (.lowBalance ⟨BitVec.ofNat 16 slot, r.gen⟩ (S8.ofInt newBal)) else s

/-- R16, R18, R120: the removal of a GONE account's key is posted to the index. -/
def State.postRemoval (s : State) (slot : Nat) (key : Key) : State :=
  { s with indexUnit := { s.indexUnit with updates := s.indexUnit.updates ++ [.remove key slot] } }

/-! ### The deadline unit (R98 to R103, R108) -/

/-- R164: the mode returns to the one held before STANDBY. -/
def State.wake (s : State) : State :=
  if s.power.mode == .standby then { s with power := { s.power with mode := s.power.resume } } else s

/-- R99: behind every item whose deadline is lower or equal, ahead of every item whose deadline is higher. -/
def insertItem (i : DeadlineItem) : List DeadlineItem → List DeadlineItem
  | [] => [i]
  | j :: t => if j.deadline ≤ i.deadline then j :: insertItem i t else i :: j :: t

def State.insertDeadline (s : State) (t : Ticket) (deadline : Nat) : State :=
  { s with deadlines := insertItem ⟨t, deadline⟩ s.deadlines }

/-- R100, R102: the item of a ticket leaves the queue. -/
def State.removeDeadline (s : State) (t : Ticket) : State :=
  { s with deadlines := s.deadlines.filter (fun i => i.ticket != t) }

/-- R98: the hold of a ticket has its item in the queue. -/
def State.isQueued (s : State) (t : Ticket) : Bool := s.deadlines.any (fun i => i.ticket == t)

/-- R98: the hold of a ticket has a claim pending in the engine's expiry list. -/
def State.isClaimed (s : State) (g : Lane) (t : Ticket) : Bool := (s.engine g).expiry.any (fun c => c == t)

/-- R36, R102: an ended hold is taken out of the deadline unit's keeping: its item leaves the queue, or its pending
claim is withdrawn. -/
def State.dropDeadline (s : State) (g : Lane) (t : Ticket) : State :=
  if s.isQueued t then s.removeDeadline t
  else s.modifyEngine g fun e => { e with expiry := e.expiry.filter (fun c => c != t) }

/-- R103: an expiry claim is posted to the engine of the hold's account. -/
def State.postExpiry (s : State) (t : Ticket) : State :=
  s.modifyEngine (laneOf (s.hold t.entry.toNat).slot) fun e => { e with expiry := e.expiry ++ [t] }

/-- R103: the due items of the queue's head are removed and their claims posted, in queue order. -/
def postDue : List DeadlineItem → State → State
  | [], s => { s with deadlines := [] }
  | i :: t, s => if i.deadline ≤ s.timebase then postDue t (s.postExpiry i.ticket) else { s with deadlines := i :: t }

/-- R103: the head of the queue is due. -/
def State.headDue (s : State) : Bool :=
  match s.deadlines with
  | [] => false
  | i :: _ => decide (i.deadline ≤ s.timebase)

/-- R103, R108: the due test. In STANDBY a due head wakes the chip before any item is removed (log entry 4). -/
def State.dueTest (s : State) : State :=
  if s.isReady && s.headDue then postDue s.deadlines s.wake else s

/-! ### Ending a hold (R79) -/

/-- R18, R30: the ending takes the last ticket off the list of an account read as CLOSING. DESIGN CHOICE (log entry 36): an
ending whose ticket is on no list counts as the last where the list has no other ticket. -/
def endsClosing (r : Record) (t : Ticket) : Bool :=
  r.state == .closing && (r.holds.filter (· ≠ t)).isEmpty

/-- R79: a record after a hold has ended, with the new balance when there is a charge; `last` says that the account goes
to GONE (R18). -/
def recordAfterEnding (r : Record) (last : Bool) (t : Ticket) (amount : Nat) (newBal : Option Int) : Record :=
  let r := r.withoutHold t amount
  let r := match newBal with
    | some v => r.withBalance v
    | none => r
  let r := if last then { r with stateCode := AcctState.gone.code } else r
  if newBal.isSome || last then r.seal else r

/-- R79: one step ends a hold of engine g: the record, the entry with its serial raised, the deadline unit's keeping, and
the key removal when a CLOSING account goes to GONE (R18). `r` is the record as read at the taking: whether the account
is CLOSING, whether the ticket is its last, and the key that is removed are read there (R30; log entry 11). -/
def State.endHold (s : State) (g : Lane) (t : Ticket) (e : HoldEntry) (r : Record) (newBal : Option Int) : State :=
  let last := endsClosing r t
  let s' := (s.modifyRecord e.slot fun stored => recordAfterEnding stored last t e.amount newBal).setHold t.entry.toNat
    (HoldEntry.freed (e.serial + 1))
  let s' := s'.dropDeadline g t
  let s' := if last then s'.postRemoval e.slot r.key else s'
  s'.dueTest

/-- R79: a charge of 0 writes no balance. -/
def chargedBalance (r : Record) (charge : Int) : Option Int := if 0 < charge then some (r.bal - charge) else none

/-! ### Group queues (R26, R27) -/

def State.queueRoom (s : State) (g : Lane) : Bool := decide ((s.engine g).queue.length < Config.groupQueuePlaces)

def State.enqueue (s : State) (g : Lane) (r : Request) : State :=
  s.modifyEngine g fun e => { e with queue := e.queue ++ [r] }

/-- R27: the command unit places a management request, or holds it while the queue is full. -/
def State.placeMgmt (s : State) (g : Lane) (m : MgmtReq) : State :=
  if s.queueRoom g then s.enqueue g (.mgmt m) else { s with cmd := { s.cmd with held := some (g, .mgmt m) } }

/-! ### The command unit (R153 to R155) -/

/-- R153: the unit goes to REPLY with a response; the immediate slot is emptied as it leaves BUSY. -/
def State.reply (s : State) (op : Byte) (st : Status) (body : MgmtBody) : State :=
  { s with cmd := { s.cmd with state := .reply { opcode := op, status := st, body := body }, immediate := none } }

/-- R153: the unit goes BUSY with a command. -/
def State.busy (s : State) (job : Job) : State :=
  { s with cmd := { s.cmd with state := .busy job, immediate := none } }

/-- R153: the answer of a block that does not enter or leave BUSY: the immediate slot in BUSY, else REPLY. -/
def State.answerAtOnce (s : State) (op : Byte) (st : Status) (body : MgmtBody) : State :=
  if s.isBusy then
    { s with cmd := { s.cmd with immediate := some { opcode := op, status := st, body := body } } }
  else s.reply op st body

/-- R154, R164: a select period is open, and its select has woken the chip from STANDBY. SDO carries 255 until a read
shifts a block out. -/
def State.openSelect (s : State) : State := { s.wake with cmd := { s.cmd with selected := true, sdo := [] } }

/-- R154: MSEL is deasserted. -/
def State.closeSelect (s : State) : State := { s with cmd := { s.cmd with selected := false } }

/-- R155 steps 4 and 5, for a block that passed steps 1 to 3. -/
def State.screened (s : State) (op : Byte) (take : State → State) : State :=
  if !s.isReady && op != 0 then s.answerAtOnce op .starting .bare
  else if s.isBusy && op != 0 then s.answerAtOnce op .busy .bare
  else take s

/-! ### Resets and starts (R23, R38, R74, R122, R132, R143, R153, R160, R167) -/

/-- R23: the volatile part of a record is cleared. -/
def Record.afterReset (r : Record) : Record := { r with held := 0, holds := [] }

/-- R143: a link unit at a reset event; the settings are kept. -/
def Link.afterReset (k : Link) : Link :=
  { k with receiver := .idle, fifo := [], rdy := false, tags := Four.all false, queue := [], sending := false, epoch := 0,
           badCrc := 0, overrun := false }

/-- A table with one function applied to every listed value, in canonical form. -/
def mapTable [DecidableEq α] (d : α) (f : α → α) : List (Nat × α) → List (Nat × α)
  | [] => []
  | (n, v) :: t => if f v = d then mapTable d f t else (n, f v) :: mapTable d f t

/-- A reset event with its cause: every hold ends, the volatile stores are cleared, work in progress is abandoned, and
the retained part of the store is not written. -/
def State.resetEvent (s : State) (cause : StartCause) : State :=
  { s with
    accounts := mapTable Record.cold Record.afterReset s.accounts
    holds := mapTable HoldEntry.cold (fun e => HoldEntry.freed e.serial) s.holds
    links := s.links.map Link.afterReset
    router := 0
    engines := Four.all Engine.cleared
    allocPtr := 0
    deadlines := []
    timebase := 0
    indexUnit := IndexUnit.cleared
    check := CheckUnit.cleared
    cmd := { s.cmd with state := .idle, immediate := none, held := none, armed := false, selected := false }
    notices := { list := [], lost := false, attn := false }
    power := { s.power with stage := .held, mode := .run, resume := .run, cause := cause } }

/-- R167: the start-up sequence begins; a set retention-lost mark makes the start cold. -/
def State.beginStart (s : State) (cause : StartCause) : State :=
  { s with power := { s.power with stage := .warmUp, mode := .run, resume := .run,
                                   cause := if s.power.mark then .cold else cause } }

/-- R168: the reset event of a RESET, and the start that follows. -/
def State.softReset (s : State) : State := (s.resetEvent .softReset).beginStart .softReset

/-! ### Select periods (R154, R168) -/

/-- The end of a select period that carried a command block: `act` is what the block does. After a RESET the block is
not taken, and the reset takes effect (R168). A port without power ignores its lines (R155; log entry 15). -/
def State.blockPeriod (s : State) (act : State → State) : State :=
  if s.powered then
    let s := s.openSelect
    if s.cmd.armed then s.softReset else (act s).closeSelect
  else s

/-- A command block of an opcode that passed screening steps 1 to 3; `take` is the command's own part. -/
def State.command (s : State) (op : Byte) (take : State → State) : State :=
  s.blockPeriod fun s => s.screened op take

end Sys2Proof.Machine
end

