-- ==== Sys2Proof/Machine/Router.lean ====
section
/-! DEFINITION. The request router (R39 to R47): ROUTER_TAKE. -/

namespace Sys2Proof.Machine

/-- Where a decoded frame goes (R41 to R45). -/
inductive Route where
  | answer (st : Status)
  | engine (g : Lane) (r : TermReq)
  | index (key : Key)
  deriving DecidableEq, Repr

def frameErrorStatus : FrameError → Status
  | .badCommand => .badCommand
  | .badLength => .badLength
  | .badDigit => .badDigit

/-- R43: a request by ticket is routed by the hold entry, or answered HOLD_GONE. -/
def routeTicket (s : State) (t : Ticket) (r : TermReq) : Route :=
  let e := s.hold t.entry.toNat
  if ticketCurrent t e then .engine (laneOf e.slot) r else .answer .holdGone

/-- R42 to R44: where a well-formed request goes. -/
def routeRequest (s : State) (r : TermReq) : Route :=
  match r with
  | .lookup key => .index key
  | .read h => .engine (laneOf h.slot.toNat) r
  | .authorize h _ _ _ => .engine (laneOf h.slot.toNat) r
  | .debit h _ _ => .engine (laneOf h.slot.toNat) r
  | .probe h _ => .engine (laneOf h.slot.toNat) r
  | .settle t _ => routeTicket s t r
  | .extend t _ => routeTicket s t r
  | .cancel t => routeTicket s t r

/-- R41: decode the frame and find its target. -/
def routeFrame (s : State) (frame : List Byte) : Route :=
  match decodeRequest (frameCommand frame) (framePayload frame) with
  | .error e => .answer (frameErrorStatus e)
  | .ok r => routeRequest s r

/-- R40: the target of a frame of link l can take it. -/
def State.routeOpen (s : State) (l : Lane) : Route → Bool
  | .answer _ => true
  | .engine g _ => s.queueRoom g
  | .index _ => (s.indexUnit.lookups.get l).isNone

/-- R40: the head frame of a link is takeable. -/
def State.takeable (s : State) (l : Lane) : Bool :=
  let k := s.link l
  match k.fifo with
  | [] => false
  | frame :: _ =>
    s.working && k.enabled && !k.tags.get (commandTag (frameCommand frame)) && s.routeOpen l (routeFrame s frame)

/-- The four lanes in rotation from a pointer (R39, R73). -/
def rotation (p : Lane) : List Lane := [p, p + 1, p + 2, p + 3]

/-- R42 to R45: a taken request is delivered, or answered at once. -/
def State.deliverRoute (s : State) (o : Origin) : Route → State
  | .answer st => s.answer o st .bare
  | .engine g r => s.enqueue g (.terminal o r)
  | .index key =>
    { s with indexUnit := { s.indexUnit with lookups := s.indexUnit.lookups.set o.link (some { origin := o, key := key }) } }

/-- R39: the router takes the head frame of link l: out of the FIFO, its tag busy, delivered or answered, and the
pointer moves to the link after it. -/
def State.takeFrame (s : State) (l : Lane) (frame : List Byte) : State :=
  let cmd := frameCommand frame
  let o : Origin := { link := l, cmd := cmd, epoch := (s.link l).epoch }
  let s' := s.modifyLink l fun k => { k with tags := k.tags.set (commandTag cmd) true }.popFrame
  { s' with router := l + 1 }.deliverRoute o (routeFrame s frame)

/-- ROUTER_TAKE (R39): the first takeable head frame in rotation from the pointer. With none, nothing is taken. -/
def execRouterTake (s : State) : Host.Outcome State Fault Refusal :=
  .next (match (rotation s.router).find? s.takeable with
    | none => s
    | some l =>
      match (s.link l).fifo with
      | [] => s
      | frame :: _ => s.takeFrame l frame)

end Sys2Proof.Machine
end

