-- ==== Sys2Proof/Machine/Engine.lean ====
section
/-! DEFINITION. Taking work at a group engine (R29, R30, R35) and the hold allocator (R73): ENGINE_TAKE_WORK,
HOLD_ENTRY_ALLOCATION. -/

namespace Sys2Proof.Machine

/-! ### What a piece of work names -/

/-- The ticket a terminal request names, if it names one. -/
def termTicket? : TermReq → Option Ticket
  | .lookup _ => none
  | .read _ => none
  | .authorize _ _ _ _ => none
  | .settle t _ => some t
  | .extend t _ => some t
  | .cancel t => some t
  | .debit _ _ _ => none
  | .probe _ _ => none

/-- The slot a terminal request by handle names. -/
def termSlot : TermReq → Nat
  | .lookup _ => 0
  | .read h => h.slot.toNat
  | .authorize h _ _ _ => h.slot.toNat
  | .settle _ _ => 0
  | .extend _ _ => 0
  | .cancel _ => 0
  | .debit h _ _ => h.slot.toNat
  | .probe h _ => h.slot.toNat

def MgmtReq.ticket? : MgmtReq → Option Ticket
  | .read _ _ => none
  | .update _ _ _ _ _ => none
  | .freeze _ => none
  | .thaw _ => none
  | .retire _ => none
  | .topup _ _ => none
  | .adjust _ _ => none
  | .restore _ _ _ _ _ => none
  | .holdRead t => some t
  | .holdRelease t => some t
  | .holdCapture t => some t
  | .transitCredit _ => none
  | .create _ _ _ _ _ _ => none
  | .activate _ => none
  | .sameTransfer _ _ _ _ => none
  | .step1 _ _ _ _ => none

def MgmtReq.slot : MgmtReq → Nat
  | .read h _ => h.slot.toNat
  | .update h _ _ _ _ => h.slot.toNat
  | .freeze h => h.slot.toNat
  | .thaw h => h.slot.toNat
  | .retire h => h.slot.toNat
  | .topup h _ => h.slot.toNat
  | .adjust h _ => h.slot.toNat
  | .restore h _ _ _ _ => h.slot.toNat
  | .holdRead _ => 0
  | .holdRelease _ => 0
  | .holdCapture _ => 0
  | .transitCredit h => h.slot.toNat
  | .create slot _ _ _ _ _ => slot
  | .activate slot => slot
  | .sameTransfer src _ _ _ => src.slot.toNat
  | .step1 src _ _ _ => src.slot.toNat

def Request.ticket? : Request → Option Ticket
  | .terminal _ r => termTicket? r
  | .mgmt m => m.ticket?

def Request.slot : Request → Nat
  | .terminal _ r => termSlot r
  | .mgmt m => m.slot

/-- The ticket a piece of work names. -/
def Work.ticket? : Work → Option Ticket
  | .transit _ => none
  | .slotFree _ => none
  | .expiry t => some t
  | .check _ => none
  | .request r => r.ticket?

/-- The slot of the record an engine reads for a piece of work: for work by ticket, the account of the hold entry; for a
step of a transfer, the account that the transit register names at the taking (DESIGN CHOICE where a disturbance has
rewritten the register, log entry 40). -/
def State.workSlot (s : State) (w : Work) : Nat :=
  match w.ticket? with
  | some t => (s.hold t.entry.toNat).slot
  | none =>
    match w with
    | .transit .step2 => s.transit.dst.slot.toNat
    | .transit (.ret _) => s.transit.src.slot.toNat
    | .slotFree n => n
    | .expiry _ => 0
    | .check n => n
    | .request r => r.slot

/-- The second record a same-group transfer reads. -/
def Work.slot2 : Work → Nat
  | .request (.mgmt (.sameTransfer _ dst _ _)) => dst.slot.toNat
  | _ => 0

/-! ### The checks of an AUTHORIZE (R75, R128) -/

/-- R76: the window of the request, or the tariff's default for 0. -/
def holdWindow (t : Tariff) (window : B6) : Nat := if B6.value window = 0 then t.window else B6.value window

/-- R76: units times price. -/
def holdAmount (t : Tariff) (units : B4) : Nat := B4.value units * t.price

/-- R75, checks 1 to 9 with the refusals of R78, on the record and the tariff entry as read at the taking; none when
all nine pass. -/
def authorizeRefusal (h : Handle) (tariff : Byte) (units : B4) (window : B6) (r : Record) (t : Tariff) :
    Option (Status × TermBody) :=
  let c := storedConds r
  let report := TermBody.report (reportOf r.found c)
  if 15 < tariff.toNat || (B6.value window != 0 && !windowInRange (B6.value window)) then some (.badRange, .bare)
  else match handleTest h r with
  | some st => some (st, .bare)
  | none =>
    match spendCheck r with
    | some st => some (st, report)
    | none =>
      if r.found.suspect then some (.suspect, .bare)
      else if !t.enabled then some (.tariffOff, report)
      else if !inTariffSet r.tariffs tariff.toNat then some (.tariffDenied, report)
      else if B4.value units = 0 || t.maxUnits < B4.value units then
        some (.unitsLimit, .unitsLimit (reportOf r.found c) t.maxUnits)
      else if Config.holdsPerAccount ≤ r.holds.length then some (.accountHoldsFull, report)
      else if r.spendable < holdAmount t units then
        some (.short, .shortAsked (reportOf r.found { c with short := true }) (holdAmount t units))
      else if Config.maxAmount < r.held + holdAmount t units then
        some (.overRange, .report (reportOf r.found { c with overRange := true }))
      else none

/-- R75: whether a handle test has been reached and passed, so that the record is verified (R33). -/
def authorizeVerifies (h : Handle) (tariff : Byte) (window : B6) (r : Record) : Bool :=
  !(15 < tariff.toNat || (B6.value window != 0 && !windowInRange (B6.value window))) && (handleTest h r).isNone

/-! ### Taking work -/

/-- R29: the arbiter's choice and the engine with that piece taken out of its store. -/
def Engine.nextWork (e : Engine) : Option (Work × Engine) :=
  match e.transit with
  | some c => some (.transit c, { e with transit := none })
  | none =>
    match e.slotFree with
    | n :: rest => some (.slotFree n, { e with slotFree := rest })
    | [] =>
      match e.expiry with
      | t :: rest => some (.expiry t, { e with expiry := rest })
      | [] =>
        match e.check with
        | some n => some (.check n, { e with check := none })
        | none =>
          match e.queue with
          | r :: rest => some (.request r, { e with queue := rest })
          | [] => none

/-- The tariff number an AUTHORIZE names. -/
def Work.tariffNumber : Work → Nat
  | .request (.terminal _ (.authorize _ n _ _)) => n.toNat
  | _ => 0

/-- R73: an AUTHORIZE whose checks 1 to 9 have passed places its allocation claim (log entry 26). -/
def firstAlloc (w : Work) (r : Record) (t : Tariff) : Alloc :=
  match w with
  | .request (.terminal _ (.authorize h n units window)) =>
    if (authorizeRefusal h n units window r t).isNone then .claimed else .notClaimed
  | _ => .notClaimed

/-- R30: everything the operation depends on, read at the taking. -/
def State.readFor (s : State) (w : Work) : Operation :=
  let r := s.record (s.workSlot w)
  let t := s.tariff w.tariffNumber
  { work := w
    record := r
    record2 := s.record w.slot2
    entry := match w.ticket? with
      | some t => s.hold t.entry.toNat
      | none => HoldEntry.cold
    tariff := t
    time := s.timebase
    transit := s.transit
    alloc := firstAlloc w r t }

/-- ENGINE_TAKE_WORK (R29, R30, R37): an idle engine takes its next piece of work. -/
def execEngineTakeWork (g : Lane) (s : State) : Host.Outcome State Fault Refusal :=
  .next (
    if s.working && (s.engine g).op.isNone then
      match (s.engine g).nextWork with
      | some (w, e) => s.setEngine g { e with op := some (s.readFor w) }
      | none => s
    else s)

/-! ### The hold allocator (R73) -/

/-- R73: entry n is allotted to an operation in progress. -/
def Engine.holdsAllotment (e : Engine) (n : Nat) : Bool :=
  match e.op with
  | some op => op.alloc == .allotted n
  | none => false

def State.isAllotted (s : State) (n : Nat) : Bool :=
  (s.engine 0).holdsAllotment n || (s.engine 1).holdsAllotment n || (s.engine 2).holdsAllotment n ||
    (s.engine 3).holdsAllotment n

/-- R73: an allocation claim of the engine waits. -/
def State.claimsEntry (s : State) (g : Lane) : Bool :=
  match (s.engine g).op with
  | some op => op.alloc == .claimed
  | none => false

/-- The lowest number from n on, within fuel steps, of which p holds. -/
def lowestFrom (p : Nat → Bool) : Nat → Nat → Option Nat
  | 0, _ => none
  | fuel + 1, n => if p n then some n else lowestFrom p fuel (n + 1)

/-- R73: the lowest-numbered entry that is FREE and not allotted. -/
def State.lowestEntry (s : State) : Option Nat :=
  lowestFrom (fun n => (s.hold n).state == .free && !s.isAllotted n) Config.holdEntries 0

/-- R73: the allocator's answer reaches the operation in progress. -/
def Engine.allotted (e : Engine) (a : Alloc) : Engine :=
  match e.op with
  | some op => { e with op := some { op with alloc := a } }
  | none => e

/-- HOLD_ENTRY_ALLOCATION (R73): the claim found first in rotation from the pointer is served. -/
def execHoldEntryAllocation (s : State) : Host.Outcome State Fault Refusal :=
  .next (match (rotation s.allocPtr).find? s.claimsEntry with
    | none => s
    | some g =>
      let a := match s.lowestEntry with
        | some n => Alloc.allotted n
        | none => .full
      { s.modifyEngine g (fun e => e.allotted a) with allocPtr := g + 1 })

end Sys2Proof.Machine
end

