-- ==== Sys2Proof/Machine/Deadlines.lean ====
section
/-! DEFINITION. The timebase (R96, R97), the due test (R103, R108) and the short check (R135 to R138): TIMEBASE_RAISE,
HOLD_FALLS_DUE, SHORT_CHECK_INTERVAL_EXPIRY, CHECK_CLAIM. -/

namespace Sys2Proof.Machine

/-! ### Slices (R136) -/

/-- R136: the first slot of a group, from n on and below the bound, whose state is not FREE. -/
def nextChecked (s : State) (bound : Nat) : Nat → Nat → Option Nat
  | 0, _ => none
  | fuel + 1, n =>
    if n < bound then (if (s.record n).state == .free then nextChecked s bound fuel (n + 4) else some n) else none

/-- R136: the check unit looks at the remaining slots of a group and claims the first that is not FREE. -/
def State.claimNext (s : State) (sl : Slice) (g : Lane) : Slice × State :=
  let bound := sl.first + Config.sliceSlots
  match nextChecked s bound 16 (sl.parts.get g).next with
  | some n =>
    ({ sl with parts := sl.parts.set g ⟨n + 4, true⟩ }, s.modifyEngine g fun e => { e with check := some n })
  | none => ({ sl with parts := sl.parts.set g ⟨bound, false⟩ }, s)

/-- R136: all four parts of a slice are done. -/
def Slice.done (sl : Slice) : Bool :=
  !(sl.parts.at0.inHand || sl.parts.at1.inHand || sl.parts.at2.inHand || sl.parts.at3.inHand)

/-- A slice goes on, or has ended. -/
def State.withSlice (s : State) (sl : Slice) : State :=
  { s with check := { s.check with slice := if sl.done then none else some sl } }

/-- R135, R136: a slice begins at the cursor, the cursor advances, and each group's first slot is claimed. -/
def State.beginSlice (s : State) : State :=
  let first := s.check.cursor
  let s := { s with check := { s.check with cursor := (first + Config.sliceSlots) % Config.slots } }
  let sl : Slice := { first := first, parts := ⟨⟨first, false⟩, ⟨first + 1, false⟩, ⟨first + 2, false⟩, ⟨first + 3, false⟩⟩ }
  let c0 := s.claimNext sl 0
  let c1 := c0.2.claimNext c0.1 1
  let c2 := c1.2.claimNext c1.1 2
  let c3 := c2.2.claimNext c2.1 3
  c3.2.withSlice c3.1

/-- R135: the interval has expired: the timer is loaded; a slice begins, or is owed. -/
def State.intervalExpired (s : State) : State :=
  let s := { s with check := { s.check with timer := some s.cmd.interval } }
  match s.check.slice with
  | none => s.beginSlice
  | some _ => { s with check := { s.check with owed := true } }

/-- SHORT_CHECK_INTERVAL_EXPIRY (R135): the timer stands at 0 (log entry 5). -/
def execShortCheckIntervalExpiry (s : State) : Host.Outcome State Fault Refusal :=
  .next (if s.working && s.check.timer == some 0 then s.intervalExpired else s)

/-- R135: the timer counts down by one, and its expiry falls when it reaches 0. -/
def State.countTimer (s : State) : State :=
  match s.check.timer with
  | none => s
  | some n => if n ≤ 1 then s.intervalExpired else { s with check := { s.check with timer := some (n - 1) } }

/-! ### The timebase and the due test -/

/-- TIMEBASE_RAISE (R96, R135, R103): one second: the timebase, the interval timer in RUN and ECONOMY, the due test. A
timebase at its end is not raised (log entry 21). -/
def execTimebaseRaise (s : State) : Host.Outcome State Fault Refusal :=
  .next (
    if s.isReady && decide (s.timebase < Config.maxTime) then
      let s' := { s with timebase := s.timebase + 1 }
      (if s.working then s'.countTimer else s').dueTest
    else s)

/-- HOLD_FALLS_DUE (R103, R108): the due test (log entry 4). -/
def execHoldFallsDue (s : State) : Host.Outcome State Fault Refusal := .next s.dueTest

/-! ### Check claims (R137) -/

/-- R136: the check of a group is reported complete; the check unit goes on, and the slice may end. -/
def State.reportCheck (s : State) (g : Lane) : State :=
  match s.check.slice with
  | none => s
  | some sl =>
    let c := s.claimNext sl g
    let s := c.2.withSlice c.1
    if c.1.done && s.check.owed then { s with check := { s.check with owed := false } }.beginSlice else s

/-- CHECK_CLAIM (R137): the check claim in progress completes and is reported to the check unit. -/
def execCheckClaim (g : Lane) (s : State) : Host.Outcome State Fault Refusal :=
  .next (match (s.engine g).op with
    | some op =>
      match op.work with
      | .check n =>
        ((s.endOp g).noteMismatch n (op.record.state != .free && !op.record.verifies) .shortCheck).reportCheck g
      | _ => s
    | none => s)

end Sys2Proof.Machine
end

