-- ==== Sys2Proof/Machine/Links.lean ====
section
/-! DEFINITION. The terminal link units (Chapter 9): START_BYTE, FRAME_COMPLETE, FRAME_TIMEOUT, FRAME_DISCARD,
RESPONSE_SENT, HLD_ASSERT, HLD_DEASSERT. -/

namespace Sys2Proof.Machine

/-- R144, R145: the partial or corrupted frame is discarded and counted, saturating at 255. -/
def Link.discard (k : Link) : Link := { k with receiver := .idle, badCrc := min 255 (k.badCrc + 1) }

/-- R145: a complete frame: the CRC first, then the FIFO. -/
def State.frameDone (s : State) (l : Lane) (frame : List Byte) : State :=
  let k := s.link l
  if !crcGood frame then s.setLink l k.discard
  else if k.fifo.length < Config.fifoFrames then s.setLink l ({ k with receiver := .idle }.pushFrame frame)
  else
    let s' := s.setLink l { k with receiver := .idle, overrun := true }
    if k.overrun then s' else s'.post (.linkOverrun l k.fifo.length)

/-- R144: a frame in reception is discarded; an idle receiver ignores the event. -/
def State.discardFrame (s : State) (l : Lane) : State :=
  let k := s.link l
  if s.isReady && k.enabled then
    match k.receiver with
    | .idle => s
    | .inFrame _ => s.setLink l k.discard
  else s

/-- R144: the receiver of an enabled link in phase READY takes one byte, the frame timer not having reached 20 ms. In
STANDBY a start byte wakes the chip (R164). -/
def State.takeByte (s : State) (l : Lane) (b : Byte) : State :=
  let k := s.link l
  if s.isReady && k.enabled then
    match k.receiver with
    | .idle => if b == Config.startByte then s.wake.setLink l { k with receiver := .inFrame [b] } else s
    | .inFrame bytes =>
      let frame := bytes ++ [b]
      let total := ((frame.drop 1).headD 0).toNat
      if total < Config.minFrame || Config.maxFrame < total then s.setLink l k.discard
      else if frame.length < total then s.setLink l { k with receiver := .inFrame frame }
      else s.frameDone l frame
  else s

/-- R144: at 9,600 baud (code 0) the frame timer has reached 20 ms when a byte follows the twentieth of a frame. -/
def Link.timerUp (k : Link) : Bool :=
  match k.receiver with
  | .idle => false
  | .inFrame bytes => k.baud == 0 && Config.slowFrame ≤ bytes.length

/-- R144: the frame timer before a byte arrives: a frame that lasts too long is discarded. -/
def State.runTimer (s : State) (l : Lane) : State := if (s.link l).timerUp then s.discardFrame l else s

/-- R144: one byte arrives on RXD. A byte that comes after the timer's discard is read from IDLE. -/
def State.receiveByte (s : State) (l : Lane) (b : Byte) : State := (s.runTimer l).takeByte l b

/-- START_BYTE (R144): a byte with the start byte's value arrives; an idle receiver goes to IN_FRAME. -/
def execStartByte (l : Lane) (s : State) : Host.Outcome State Fault Refusal :=
  .next (s.receiveByte l Config.startByte)

/-- FRAME_COMPLETE (R144, R145): the bytes after the start byte arrive without gaps, the frame's last byte among them. At
9,600 baud the timer discards a frame of more than 20 bytes, and the receiver hunts in the bytes left. -/
def execFrameComplete (l : Lane) (bytes : List Byte) (s : State) : Host.Outcome State Fault Refusal :=
  .next (bytes.foldl (fun s b => s.receiveByte l b) s)

/-- FRAME_TIMEOUT (R144): the timer reaches 20 ms first. -/
def execFrameTimeout (l : Lane) (s : State) : Host.Outcome State Fault Refusal := .next (s.discardFrame l)

/-- FRAME_DISCARD (R144): a length byte out of range arrives as the receiver takes any byte, or a character arrives
with a faulty stop bit. -/
def execFrameDiscard (l : Lane) (cause : DiscardCause) (s : State) : Host.Outcome State Fault Refusal :=
  .next (match cause with
    | .lengthByte v => s.receiveByte l v
    | .faultyStopBit => s.discardFrame l)

/-- R148: the head of the queue has been sent; its tag is freed and the next frame begins when it may. -/
def Link.sent (k : Link) : Link :=
  match k.queue with
  | r :: rest =>
    if k.sending then
      { k with queue := rest, sending := false, tags := k.tags.set (commandTag r.cmd) false, lastSent := some r }.txBegin
    else k
  | [] => k

/-- RESPONSE_SENT (R148). -/
def execResponseSent (l : Lane) (s : State) : Host.Outcome State Fault Refusal := .next (s.modifyLink l Link.sent)

/-- HLD_DEASSERT (R148): the transmitter may begin. -/
def execHldDeassert (l : Lane) (s : State) : Host.Outcome State Fault Refusal :=
  .next (s.modifyLink l fun k => { k with hld := false }.txBegin)

/-- HLD_ASSERT (R148): the frame in progress goes on; no other begins. -/
def execHldAssert (l : Lane) (s : State) : Host.Outcome State Fault Refusal :=
  .next (s.modifyLink l fun k => { k with hld := true })

end Sys2Proof.Machine
end

