-- ==== Sys2Proof/Machine/Index.lean ====
section
/-! DEFINITION. The key index (R109 to R122): INDEX_TAKE_WORK, LOOKUP, FIND's completion, ENROL_SEARCH, INDEX_INSERT,
KEY_REMOVAL. -/

namespace Sys2Proof.Machine

/-! ### Buckets and ways (R109, R110) -/

/-- R110. -/
def bucketOf (key : Key) : Nat := key.toNat % Config.buckets

/-- The eight ways of a bucket, lowest first. -/
def waysOf (b : Nat) : List Nat :=
  [8 * b, 8 * b + 1, 8 * b + 2, 8 * b + 3, 8 * b + 4, 8 * b + 5, 8 * b + 6, 8 * b + 7]

/-- A way's entry holds a key. -/
def holdsKey (key : Key) : Option IndexEntry → Bool
  | some e => e.key == key
  | none => false

/-- A way's entry names a slot. -/
def namesSlot (slot : Nat) : Option IndexEntry → Bool
  | some e => e.slot == slot
  | none => false

/-- R110: the way that holds a key. -/
def State.wayOfKey (s : State) (key : Key) : Option Nat :=
  (waysOf (bucketOf key)).find? fun n => holdsKey key (s.way n)

/-- R110: the lowest-numbered free way of a key's bucket. -/
def State.freeWay (s : State) (key : Key) : Option Nat := (waysOf (bucketOf key)).find? fun n => (s.way n).isNone

/-- R110: the slot the index names for a key. -/
def State.slotOfKey (s : State) (key : Key) : Option Nat :=
  match s.wayOfKey key with
  | some n => (s.way n).map IndexEntry.slot
  | none => none

/-- R113, R114: the slot of the account that a key finds: an entry whose slot is not FREE, NEW or GONE and whose
record holds the key. -/
def State.findAccount (s : State) (key : Key) : Option Nat :=
  match s.slotOfKey key with
  | some n =>
    let r := s.record n
    if r.state == .free || r.state == .new || r.state == .gone || r.key != key then none else some n
  | none => none

/-! ### Taking work (R112) -/

/-- The operation a source of lookup work (links 0 to 3, then management) offers. -/
def IndexUnit.source (u : IndexUnit) (i : Fin 5) : Option IndexOp :=
  if h : i.val < 4 then
    if (u.lookups.get ⟨i.val, h⟩).isSome then some (.link ⟨i.val, h⟩) else none
  else if u.mgmt.isSome then some .mgmt else none

/-- R112: the idle unit's choice: the oldest update, else the first occupied slot in rotation. -/
def IndexUnit.take (u : IndexUnit) : IndexUnit :=
  match u.updates with
  | i :: rest => { u with updates := rest, op := some (.update i) }
  | [] =>
    match [u.ptr, u.ptr + 1, u.ptr + 2, u.ptr + 3, u.ptr + 4].find? fun i => (u.source i).isSome with
    | some i => { u with op := u.source i, ptr := i + 1 }
    | none => u

/-- INDEX_TAKE_WORK (R112). -/
def execIndexTakeWork (s : State) : Host.Outcome State Fault Refusal :=
  .next (if s.working && s.indexUnit.op.isNone then { s with indexUnit := s.indexUnit.take } else s)

/-! ### LOOKUP and FIND (R113, R114) -/

/-- R112, R113: a link's lookup completes: its slot is freed. -/
def State.endLookup (s : State) (l : Lane) : State :=
  { s with indexUnit := { s.indexUnit with lookups := s.indexUnit.lookups.set l none, op := none } }

/-- R112, R114: the management slot's work completes. -/
def State.endMgmtLookup (s : State) : State := { s with indexUnit := { s.indexUnit with mgmt := none, op := none } }

/-- R113: the answer of a LOOKUP, with the suspect flag as stored. -/
def State.lookupOutcome (s : State) (key : Key) : Status × TermBody :=
  if !keyInRange key then (.badRange, .bare)
  else match s.findAccount key with
  | some n =>
    (.ok, .lookup ⟨BitVec.ofNat 16 n, (s.record n).gen⟩ (reportOf (s.record n) (storedConds (s.record n))))
  | none => (.notFound, .bare)

/-- LOOKUP (R113). -/
def execLookup (s : State) : Host.Outcome State Fault Refusal :=
  .next (match s.indexUnit.op with
    | some (.link l) =>
      match s.indexUnit.lookups.get l with
      | some w => (s.endLookup l).answer w.origin (s.lookupOutcome w.key).1 (s.lookupOutcome w.key).2
      | none => s.endLookup l
    | _ => s)

/-- R114: the answer of a FIND: the handle and the whole record. -/
def State.findOutcome (s : State) (key : Key) : Status × MgmtBody :=
  match s.findAccount key with
  | some n =>
    let r := s.record n
    (.ok, .found ⟨BitVec.ofNat 16 n, r.gen⟩ r.state r.key r.gen r.balance.sent r.floor r.lowMark r.tariffs r.suspect
      r.held r.holds r.spendable (storedConds r))
  | none => (.notFound, .bare)

/-- The FIND in progress at the index unit. -/
def State.findInProgress (s : State) : Option Key :=
  match s.indexUnit.op, s.indexUnit.mgmt with
  | some .mgmt, some (.find key) => some key
  | _, _ => none

/-- R114: the completion of a FIND. -/
def State.completeFind (s : State) : State :=
  match s.findInProgress with
  | some key => s.endMgmtLookup.reply 2 (s.findOutcome key).1 (s.findOutcome key).2
  | none => s

/-! ### Enrolment's search, allocation and insert (R6, R115 to R117) -/

/-- R6: the lowest-numbered FREE slot. -/
def State.lowestFreeSlot (s : State) : Option Nat :=
  lowestFrom (fun n => (s.record n).state == .free) Config.slots 0

/-- R115, R116: what follows a search: a refusal, or the allocation and the create step. -/
def State.afterSearch (s : State) (e : EnrolFields) : State :=
  if (s.wayOfKey e.key).isSome then s.reply 1 .duplicateKey .bare
  else if (s.freeWay e.key).isNone then s.reply 1 .indexFull .bare
  else match s.lowestFreeSlot with
  | none => s.reply 1 .tableFull .bare
  | some n => s.placeMgmt (laneOf n) (.create n e.key e.balance e.floor e.lowMark e.tariffs)

/-- The search of an ENROL in progress at the index unit. -/
def State.searchInProgress (s : State) : Option EnrolFields :=
  match s.indexUnit.op, s.indexUnit.mgmt with
  | some .mgmt, some (.search e) => some e
  | _, _ => none

/-- ENROL_SEARCH (R115, R116). -/
def execEnrolSearch (s : State) : Host.Outcome State Fault Refusal :=
  .next (match s.searchInProgress with
    | some e => s.endMgmtLookup.afterSearch e
    | none => s)

/-- R112: the update in progress is done. -/
def State.endUpdate (s : State) : State := { s with indexUnit := { s.indexUnit with op := none } }

/-- R117: the entry is written into the lowest free way; with none, nothing is written (log entry 19). -/
def State.insertKey (s : State) (key : Key) (slot : Nat) : State :=
  match s.freeWay key with
  | some n => s.setWay n (some ⟨key, slot⟩)
  | none => s

/-- INDEX_INSERT (R117): the activate step is placed next. -/
def execIndexInsert (s : State) : Host.Outcome State Fault Refusal :=
  .next (match s.indexUnit.op with
    | some (.update (.insert key slot)) => (s.endUpdate.insertKey key slot).placeMgmt (laneOf slot) (.activate slot)
    | _ => s)

/-! ### Removal (R120) -/

/-- R120: the way of the key's bucket that holds the key and the slot. -/
def State.wayOfEntry (s : State) (key : Key) (slot : Nat) : Option Nat :=
  (waysOf (bucketOf key)).find? fun n => s.way n == some ⟨key, slot⟩

/-- R120: every way whose entry names the slot is freed. -/
def State.freeWaysNaming (s : State) (slot : Nat) : State :=
  { s with index := s.index.filter fun p => !namesSlot slot p.2 }

/-- R120: the way of the retired account is freed. -/
def State.removeKey (s : State) (key : Key) (slot : Nat) : State :=
  match s.wayOfEntry key slot with
  | some n => s.setWay n none
  | none => s.freeWaysNaming slot

/-- R19: a slot-free claim is posted to the engine of the slot's group. DESIGN CHOICE (log entry 39): also where a claim for
the slot waits already, as only a disturbance of a GONE account's stored state can bring about. -/
def State.postSlotFree (s : State) (slot : Nat) : State :=
  s.modifyEngine (laneOf slot) fun e => { e with slotFree := e.slotFree ++ [slot] }

/-- KEY_REMOVAL (R120). -/
def execKeyRemoval (s : State) : Host.Outcome State Fault Refusal :=
  .next (match s.indexUnit.op with
    | some (.update (.remove key slot)) => (s.endUpdate.removeKey key slot).postSlotFree slot
    | _ => s)

end Sys2Proof.Machine
end

