-- ==== Sys2Proof/Machine/Values.lean ====
section
/-! DEFINITION. Terminal requests on a balance without a hold (R52 to R56): TERMINAL_READ, DEBIT, PROBE. Each completes
the operation that its engine has in progress. -/

namespace Sys2Proof.Machine

/-- The terminal request in progress at an engine, with its origin. -/
def State.terminalOp (s : State) (g : Lane) : Option (Operation × Origin × TermReq) :=
  match (s.engine g).op with
  | some op =>
    match op.work with
    | .request (.terminal o r) => some (op, o, r)
    | _ => none
  | none => none

/-- A completion that writes a new balance, where there is one, with the LOW_BALANCE of R59. -/
def State.writeNewBalance (s : State) (slot : Nat) (r : Record) : Option Int → State
  | some v => (s.writeBalance slot v).postLow slot r v
  | none => s

/-- R31: the results of a terminal request by handle in one step: the verification's mismatch (R33), the new balance, the
response. -/
def State.completeTerminal (s : State) (g : Lane) (op : Operation) (o : Origin) (slot : Nat) (verified : Bool)
    (newBal : Option Int) (st : Status) (body : TermBody) : State :=
  ((((s.endOp g).noteMismatch slot (verified && !op.record.verifies) .operation).writeNewBalance slot op.record newBal).answer
    o st body)

/-! ### READ (R52) -/

/-- R52: the answer of a terminal READ. -/
def readOutcome (h : Handle) (r : Record) : Status × TermBody :=
  match handleTest h r with
  | some st => (st, .bare)
  | none => (.ok, .report (reportOf r.found (storedConds r)))

/-- TERMINAL_READ (R52). -/
def execTerminalRead (g : Lane) (s : State) : Host.Outcome State Fault Refusal :=
  .next (match s.terminalOp g with
    | some (op, o, .read h) =>
      s.completeTerminal g op o h.slot.toNat (handleTest h op.record).isNone none (readOutcome h op.record).1
        (readOutcome h op.record).2
    | _ => s)

/-! ### DEBIT (R53 to R55) -/

/-- R49: the amount of a DEBIT or PROBE in range. -/
def debitAmountOk (amount : S8) : Bool := decide (1 ≤ amount.value) && decide (amount.value ≤ Config.maxAmount)

/-- R49: the ranges of a DEBIT. -/
def debitRangeOk (amount : S8) (how : Byte) : Bool := debitAmountOk amount && (how == 0 || how == 1)

/-- R54, R55: the charge of a DEBIT that passes its credit test; none for SHORT. -/
def debitCharge (how : Byte) (amount spendable : Int) : Option Int :=
  if how == 0 then (if amount ≤ spendable then some amount else none)
  else if spendable ≤ 0 then none
  else some (min amount spendable)

/-- R51, R54, R55: the account report of a DEBIT answered OK. -/
def debitReport (r : Record) (amount charge : Int) : Report :=
  reportOf (r.found.withBalance (r.bal - charge))
    { balanceConds (r.bal - charge) r.lowValue with short := decide (charge < amount) }

/-- R53: the checks of a DEBIT in order, with the new balance of one that passes. -/
def debitOutcome (h : Handle) (amount : S8) (how : Byte) (r : Record) : Status × TermBody × Option Int :=
  if !debitRangeOk amount how then (.badRange, .bare, none)
  else match handleTest h r with
  | some st => (st, .bare, none)
  | none =>
    match spendCheck r with
    | some st => (st, .report (reportOf r.found (wouldBeDebit r amount.value)), none)
    | none =>
      if r.found.suspect then (.suspect, .bare, none)
      else match debitCharge how amount.value r.spendable with
      | none => (.short, .report (reportOf r.found (wouldBeDebit r amount.value)), none)
      | some c => (.ok, .debited c.toNat (debitReport r amount.value c), some (r.bal - c))

/-- DEBIT (R53). -/
def execDebit (g : Lane) (s : State) : Host.Outcome State Fault Refusal :=
  .next (match s.terminalOp g with
    | some (op, o, .debit h amount how) =>
      let d := debitOutcome h amount how op.record
      s.completeTerminal g op o h.slot.toNat (debitRangeOk amount how && (handleTest h op.record).isNone) d.2.2 d.1 d.2.1
    | _ => s)

/-! ### PROBE (R56) -/

/-- R56: checks 1 to 4 of R53, then the answer with the would-be conditions. -/
def probeOutcome (h : Handle) (amount : S8) (r : Record) : Status × TermBody :=
  let report := TermBody.report (reportOf r.found (wouldBeDebit r amount.value))
  if !debitAmountOk amount then (.badRange, .bare)
  else match handleTest h r with
  | some st => (st, .bare)
  | none =>
    match spendCheck r with
    | some st => (st, report)
    | none => if r.found.suspect then (.suspect, .bare) else (.ok, report)

/-- PROBE (R56). -/
def execProbe (g : Lane) (s : State) : Host.Outcome State Fault Refusal :=
  .next (match s.terminalOp g with
    | some (op, o, .probe h amount) =>
      let p := probeOutcome h amount op.record
      s.completeTerminal g op o h.slot.toNat (debitAmountOk amount && (handleTest h op.record).isNone) none p.1 p.2
    | _ => s)

end Sys2Proof.Machine
end

