-- ==== Sys2Proof/Machine/Holds.lean ====
section
/-! DEFINITION. Holds: AUTHORIZE (R75 to R78), SETTLE, CANCEL, EXTEND (R79 to R85) and EXPIRY (R90 to R93). -/

namespace Sys2Proof.Machine

/-! ### AUTHORIZE -/

/-- R76, R99: the timebase at the taking plus the window, at most 4,294,967,295. -/
def authorizeDeadline (op : Operation) (window : B6) : Nat := min (op.time + holdWindow op.tariff window) Config.maxTime

/-- R77: the entry an AUTHORIZE writes LIVE; its serial is unchanged. -/
def newHold (op : Operation) (o : Origin) (h : Handle) (tariff : Byte) (units : B4) (window : B6) (serial : BitVec 4) :
    HoldEntry :=
  { state := .live, serial := serial, slot := h.slot.toNat, gen := h.gen, link := o.link, epoch := o.epoch,
    tariff := tariff.toNat, units := B4.value units, price := op.tariff.price, amount := holdAmount op.tariff units,
    deadline := authorizeDeadline op window, extensions := 0, action := op.tariff.action }

/-- R3, R77: the record with a new hold: its ticket at the end of the list, held raised by its amount. -/
def Record.withHold (r : Record) (t : Ticket) (amount : Nat) : Record :=
  { r with held := r.held + amount, holds := r.holds ++ [t] }

/-- R77: the results of an AUTHORIZE that passes all ten checks, with entry n. -/
def State.createHold (s : State) (g : Lane) (op : Operation) (o : Origin) (h : Handle) (tariff : Byte) (units : B4)
    (window : B6) (n : Nat) : State :=
  let e := newHold op o h tariff units window (s.hold n).serial
  let t := ticketOf n e.serial
  let report := reportOf (op.record.found.withHold t e.amount) (storedConds op.record)
  (((((s.endOp g).setHold n e).modifyRecord e.slot fun r => r.withHold t e.amount).insertDeadline t e.deadline).answer o .ok
    (.authorized t e.amount e.deadline report)).dueTest

/-- AUTHORIZE (R75): the completion, once the allocator has answered an operation that claimed an entry (R73). -/
def execAuthorize (g : Lane) (s : State) : Host.Outcome State Fault Refusal :=
  .next (match s.terminalOp g with
    | some (op, o, .authorize h tariff units window) =>
      match op.alloc with
      | .claimed => s
      | .allotted n => s.createHold g op o h tariff units window n
      | .full =>
        s.completeTerminal g op o h.slot.toNat true none .holdsFull (.report (reportOf op.record.found (storedConds op.record)))
      | .notClaimed =>
        match authorizeRefusal h tariff units window op.record op.tariff with
        | some (st, body) =>
          s.completeTerminal g op o h.slot.toNat (authorizeVerifies h tariff window op.record) none st body
        | none => s
    | _ => s)

/-! ### SETTLE -/

/-- R80: units used times the price, capped at the hold's amount. -/
def settleCharge (e : HoldEntry) (units : Nat) : Nat := min (units * e.price) e.amount

/-- R82: the checks of a SETTLE, none when all pass. -/
def settleRefusal (g : Lane) (o : Origin) (t : Ticket) (e : HoldEntry) (r : Record) : Option (Status × TermBody) :=
  if !ticketOfGroup g t e then some (.holdGone, .bare)
  else if !ownerCheck o e then some (.notOwner, .ticket t)
  else if e.state == .stalled || r.found.suspect then some (.suspect, .ticket t)
  else none

/-- The record as an ending's response reports it (R79). -/
def endedRecord (r : Record) (t : Ticket) (e : HoldEntry) (charge : Int) : Record :=
  recordAfterEnding r.found (endsClosing r t) t e.amount (chargedBalance r charge)

/-- R82: the report of a SETTLE answered OK, with CAPPED and OVER of R80. -/
def settleReport (r : Record) (t : Ticket) (e : HoldEntry) (units : Nat) : Report :=
  let c := clampCharge r.bal (settleCharge e units)
  reportOf (endedRecord r t e c.1)
    { balanceConds (r.bal - c.1) r.lowValue with capped := decide (e.amount < units * e.price), overRange := c.2 }

/-- A completion that ends a hold with a charge (R79), with the LOW_BALANCE of R59. -/
def State.chargeHold (s : State) (g : Lane) (t : Ticket) (e : HoldEntry) (r : Record) (charge : Int) : State :=
  let s := s.endHold g t e r (chargedBalance r charge)
  match chargedBalance r charge with
  | some v => s.postLow e.slot r v
  | none => s

/-- SETTLE (R82). -/
def execSettle (g : Lane) (s : State) : Host.Outcome State Fault Refusal :=
  .next (match s.terminalOp g with
    | some (op, o, .settle t units) =>
      let e := op.entry
      match settleRefusal g o t e op.record with
      | some (st, body) => s.completeTerminal g op o e.slot (ticketOfGroup g t e) none st body
      | none =>
        let c := (clampCharge op.record.bal (settleCharge e (B4.value units))).1
        ((s.endOp g).chargeHold g t e op.record c).answer o .ok
          (.settled t c.toNat (settleReport op.record t e (B4.value units)))
    | _ => s)

/-! ### CANCEL -/

/-- R83: checks 1 and 2 of R82, none when both pass. -/
def cancelRefusal (g : Lane) (o : Origin) (t : Ticket) (e : HoldEntry) : Option (Status × TermBody) :=
  if !ticketOfGroup g t e then some (.holdGone, .bare)
  else if !ownerCheck o e then some (.notOwner, .ticket t)
  else none

/-- CANCEL (R83): a mismatch sets the flag without refusing; the hold ends without charge. -/
def execCancel (g : Lane) (s : State) : Host.Outcome State Fault Refusal :=
  .next (match s.terminalOp g with
    | some (op, o, .cancel t) =>
      let e := op.entry
      match cancelRefusal g o t e with
      | some (st, body) => s.completeTerminal g op o e.slot (ticketOfGroup g t e) none st body
      | none =>
        (((s.endOp g).noteMismatch e.slot (!op.record.verifies) .operation).endHold g t e op.record none).answer o .ok
          (.cancelled t (reportOf (endedRecord op.record t e 0) (storedConds op.record)))
    | _ => s)

/-! ### EXTEND -/

/-- R84: the checks of an EXTEND in order; whether a claim is pending is looked at at the completion. None when all
pass. -/
def extendRefusal (g : Lane) (o : Origin) (t : Ticket) (seconds : Nat) (e : HoldEntry) (r : Record) (time : Nat)
    (claimed : Bool) : Option (Status × TermBody) :=
  let refused := TermBody.extendRefused t e.deadline e.extensions
  if !windowInRange seconds then some (.badRange, .bare)
  else if !ticketOfGroup g t e then some (.holdGone, .bare)
  else if !ownerCheck o e then some (.notOwner, .ticket t)
  else if e.state == .stalled || r.found.suspect then some (.suspect, refused)
  else if claimed then some (.expiring, refused)
  else if Config.maxExtensions ≤ e.extensions then some (.extendLimit, refused)
  else if time + Config.extendReach < e.deadline + seconds then some (.badRange, refused)
  else none

/-- R85: the entry after an EXTEND. -/
def HoldEntry.extended (e : HoldEntry) (seconds : Nat) : HoldEntry :=
  { e with deadline := min (e.deadline + seconds) Config.maxTime, extensions := e.extensions + 1 }

/-- R100: the re-placement of a hold at its new deadline. -/
def State.replaceDeadline (s : State) (t : Ticket) (deadline : Nat) : State :=
  (s.removeDeadline t).insertDeadline t deadline

/-- EXTEND (R84, R85). -/
def execExtend (g : Lane) (s : State) : Host.Outcome State Fault Refusal :=
  .next (match s.terminalOp g with
    | some (op, o, .extend t seconds) =>
      let e := op.entry
      let n := B6.value seconds
      match extendRefusal g o t n e op.record op.time (s.isClaimed g t) with
      | some (st, body) =>
        s.completeTerminal g op o e.slot (windowInRange n && ticketOfGroup g t e) none st body
      | none =>
        let e' := e.extended n
        ((((s.endOp g).setHold t.entry.toNat e').replaceDeadline t e'.deadline).answer o .ok
          (.extended t e'.deadline (Config.maxExtensions - e'.extensions))).dueTest
    | _ => s)

/-! ### EXPIRY -/

/-- R93: the HOLD_EXPIRED notice of a hold. -/
def holdExpired (t : Ticket) (e : HoldEntry) (action : ExpiryReport) (charge : Nat) (overRange : Bool) : Notice :=
  .holdExpired t ⟨BitVec.ofNat 16 e.slot, e.gen⟩ action charge overRange

/-- R91: the capture of a hold on a sound account. -/
def State.captureExpired (s : State) (g : Lane) (t : Ticket) (e : HoldEntry) (r : Record) : State :=
  let c := clampCharge r.bal e.amount
  let s := (s.endHold g t e r (chargedBalance r c.1)).post (holdExpired t e .capture c.1.toNat c.2)
  match chargedBalance r c.1 with
  | some v => s.postLow e.slot r v
  | none => s

/-- R92: the hold turns STALLED. -/
def State.stallExpired (s : State) (t : Ticket) (e : HoldEntry) : State :=
  (s.setHold t.entry.toNat { e with state := .stalled }).post (holdExpired t e .stalled 0 false)

/-- R90: the completion of an expiry claim whose ticket is current. -/
def State.expire (s : State) (g : Lane) (t : Ticket) (e : HoldEntry) (r : Record) : State :=
  match e.action with
  | .release => (s.endHold g t e r none).post (holdExpired t e .release 0 false)
  | .capture => if r.found.suspect then s.stallExpired t e else s.captureExpired g t e r

/-- EXPIRY (R90): a claim whose ticket is stale is discarded without effect. -/
def execExpiry (g : Lane) (s : State) : Host.Outcome State Fault Refusal :=
  .next (match (s.engine g).op with
    | some op =>
      match op.work with
      | .expiry t =>
        if ticketOfGroup g t op.entry then
          ((s.endOp g).noteMismatch op.entry.slot (!op.record.verifies) .operation).expire g t op.entry op.record
        else s.endOp g
      | _ => s
    | none => s)

end Sys2Proof.Machine
end

