-- ==== Sys2Proof/Machine/Accounts.lean ====
section
/-! DEFINITION. Engine operations of management commands: CREATE_STEP, ACTIVATE_STEP, SLOT_FREE, and
MANAGEMENT_REQUEST_COMPLETE for the account commands of Chapters 1, 3, 4, 8 and 10. -/

namespace Sys2Proof.Machine

/-- The management request in progress at an engine. -/
def State.mgmtOp (s : State) (g : Lane) : Option (Operation × MgmtReq) :=
  match (s.engine g).op with
  | some op =>
    match op.work with
    | .request (.mgmt m) => some (op, m)
    | _ => none
  | none => none

/-! ### Enrolment (R11, R12) -/

/-- R11: the record the create step writes; the generation is unchanged. -/
def Record.created (r : Record) (key : Key) (balance : S8) (floor lowMark : B6) (tariffs : TariffSet) : Record :=
  Record.seal { stateCode := AcctState.code .new, key := key, gen := r.gen, balance := S8.ofInt balance.value,
                floor := floor, lowMark := lowMark, tariffs := tariffs, suspect := false, checkCode := 0, held := 0, holds := [] }

/-- R117: the insert of an enrolled key is posted to the update list. -/
def State.postInsert (s : State) (key : Key) (slot : Nat) : State :=
  { s with indexUnit := { s.indexUnit with updates := s.indexUnit.updates ++ [.insert key slot] } }

/-- CREATE_STEP (R11). -/
def execCreateStep (g : Lane) (s : State) : Host.Outcome State Fault Refusal :=
  .next (match s.mgmtOp g with
    | some (op, .create n key balance floor lowMark tariffs) =>
      if op.record.state == .free then
        ((s.endOp g).modifyRecord n fun r => r.created key balance floor lowMark tariffs).postInsert key n
      else (s.endOp g).reply 1 .tableFull .bare
    | _ => s)

/-- ACTIVATE_STEP (R12, R34, R118, R137): SUSPECT for a record found suspect, by its flag or by a mismatch (log entry 29). -/
def execActivateStep (g : Lane) (s : State) : Host.Outcome State Fault Refusal :=
  .next (match s.mgmtOp g with
    | some (op, .activate n) =>
      (((s.endOp g).noteMismatch n (!op.record.verifies) .operation).writeState n .active).reply 1
        (if op.record.found.suspect then .suspect else .ok) (.enrolled ⟨BitVec.ofNat 16 n, op.record.gen⟩)
    | _ => s)

/-! ### The slot-free operation (R20, R21) -/

/-- SLOT_FREE (R20). DESIGN CHOICE (log entry 39): a claim that finds its slot in another state than GONE is carried out
all the same. -/
def execSlotFree (g : Lane) (s : State) : Host.Outcome State Fault Refusal :=
  .next (match (s.engine g).op with
    | some op =>
      match op.work with
      | .slotFree n =>
        ((s.endOp g).setRecord n (Record.freed (op.record.gen + 1))).post
          (.retired op.record.key n op.record.balance.sent op.record.found.suspect)
      | _ => s
    | none => s)

/-! ### The frame of an account command's completion -/

/-- R31, R33: the end of an operation on a record, and what a mismatch found by its verification writes and posts. -/
def State.endVerified (s : State) (g : Lane) (op : Operation) (slot : Nat) : State :=
  (s.endOp g).noteMismatch slot (!op.record.verifies) .operation

/-- A command by handle: the handle test (R7) first, then the verification and the command's own part. -/
def State.completeByHandle (s : State) (g : Lane) (op : Operation) (opcode : Byte) (h : Handle) (act : State → State) :
    State :=
  match handleTest h op.record with
  | some st => (s.endOp g).reply opcode st .bare
  | none => act (s.endVerified g op h.slot.toNat)

/-- A command by ticket: the ticket check (R35) first, then the verification and the command's own part. -/
def State.completeByTicket (s : State) (g : Lane) (op : Operation) (opcode : Byte) (t : Ticket) (act : State → State) :
    State :=
  if ticketOfGroup g t op.entry then act (s.endVerified g op op.entry.slot)
  else (s.endOp g).reply opcode .holdGone .bare

/-! ### READ and UPDATE (R157, R158) -/

def readBody (r : Record) (full : Bool) : MgmtBody :=
  if full then
    .full r.state r.balance.sent r.held r.suspect r.key r.gen r.floor r.lowMark r.tariffs r.holds r.spendable
      r.holds.length (storedConds r)
  else .brief r.state r.balance.sent r.held r.suspect

/-- R157: the completion of a READ whose handle is current: the fields as read at the taking, the suspect flag as it stands
after the completion (log entry 11). -/
def State.completeRead (s : State) (op : Operation) (h : Handle) (full : Bool) : State :=
  s.reply 3 .ok (readBody { op.record with suspect := (s.record h.slot.toNat).suspect } full)

/-- R158: mask bit 0 selects the floor, bit 1 the low mark, bit 2 the tariff set. -/
def Record.updated (r : Record) (mask : Byte) (floor lowMark : B6) (tariffs : TariffSet) : Record :=
  { r with floor := if mask.getLsbD 0 then floor else r.floor
           lowMark := if mask.getLsbD 1 then lowMark else r.lowMark
           tariffs := if mask.getLsbD 2 then tariffs else r.tariffs }

def updatedBody (r : Record) : MgmtBody :=
  .updated r.floor r.lowMark r.tariffs r.balance.sent r.held r.spendable r.holds.length (storedConds r)

/-- R158: the completion of an UPDATE whose handle is current; the answer tells the record as it now stands
(log entry 11). -/
def State.completeUpdate (s : State) (op : Operation) (h : Handle) (mask : Byte) (floor lowMark : B6)
    (tariffs : TariffSet) : State :=
  if op.record.found.suspect then s.reply 4 .suspect .bare
  else
    let s := s.modifyRecord h.slot.toNat fun r => (r.updated mask floor lowMark tariffs).seal
    s.reply 4 .ok (updatedBody (s.record h.slot.toNat))

/-! ### FREEZE, THAW, RETIRE (R13 to R17) -/

def standingBody (r : Record) (st : AcctState) : MgmtBody := .standing st r.balance.sent r.held r.holds.length

/-- R13, R14: CLOSING, then SUSPECT, then the state is written where it differs. -/
def State.completeFreeze (s : State) (op : Operation) (opcode : Byte) (h : Handle) (target : AcctState) : State :=
  if op.record.state == .closing then s.reply opcode .closing .bare
  else if op.record.found.suspect then s.reply opcode .suspect .bare
  else (if op.record.state == target then s else s.writeState h.slot.toNat target).reply opcode .ok
    (standingBody op.record target)

/-- R15 to R17. -/
def State.completeRetire (s : State) (op : Operation) (h : Handle) : State :=
  if op.record.state == .closing then s.reply 7 .ok (standingBody op.record .closing)
  else if op.record.holds.isEmpty then
    ((s.writeState h.slot.toNat .gone).postRemoval h.slot.toNat op.record.key).reply 7 .ok
      (.retired .gone op.record.balance.sent op.record.holds.length)
  else (s.writeState h.slot.toNat .closing).reply 7 .ok (standingBody op.record .closing)

/-! ### TOPUP, ADJUST and the credit of a stranded transit (R57, R58, R68) -/

/-- R57: steps 2 to 4 of a credit; `closes` says whether a CLOSING account is refused. None when all pass. -/
def creditRefusal (closes : Bool) (amount : Int) (r : Record) : Option (Status × MgmtBody) :=
  let refused := MgmtBody.valueRefused r.balance.sent r.held r.spendable (wouldBeCredit r amount)
  if closes && r.state == .closing then some (.closing, refused)
  else if r.found.suspect then some (.suspect, .bare)
  else if !balanceInRange (r.bal + amount) then some (.overRange, refused)
  else none

def valueBody (r : Record) : MgmtBody :=
  .value r.balance.sent r.held r.spendable r.holds.length (storedConds r)

/-- R57, R58: the completion of a TOPUP or ADJUST whose handle is current. -/
def State.completeCredit (s : State) (op : Operation) (opcode : Byte) (h : Handle) (closes : Bool) (amount : Int) : State :=
  match creditRefusal closes amount op.record with
  | some (st, body) => s.reply opcode st body
  | none =>
    (s.writeNewBalance h.slot.toNat op.record (some (op.record.bal + amount))).reply opcode .ok
      (valueBody (op.record.withBalance (op.record.bal + amount)))

/-- R68: the credit of the register's amount as read at the taking, under the checks of R57. DESIGN CHOICE (log entry 40):
the register's state is not tested again. -/
def State.completeTransitCredit (s : State) (op : Operation) (h : Handle) : State :=
  let amount : Int := op.transit.amount
  match creditRefusal true amount op.record with
  | some (st, body) => s.reply 11 st body
  | none =>
    let s := s.writeNewBalance h.slot.toNat op.record (some (op.record.bal + amount))
    { s with transit := Transit.cleared }.reply 11 .ok
      (.credited (S8.ofInt (op.record.bal + amount)) (balanceConds (op.record.bal + amount) op.record.lowValue))

/-! ### RESTORE (R140, R141) -/

/-- R140: the record RESTORE writes. -/
def Record.restored (r : Record) (balance : S8) (floor lowMark : B6) (tariffs : TariffSet) : Record :=
  { r with stateCode := r.state.code, balance := S8.ofInt balance.value, floor := floor, lowMark := lowMark,
           tariffs := tariffs, suspect := false }.seal

/-- R141: the STALLED holds on a list, in its order. -/
def State.stalledOf (s : State) (list : List Ticket) : List Ticket :=
  list.filter fun t => (s.hold t.entry.toNat).state == .stalled

/-- R101, R141: a STALLED hold is written LIVE with the timebase as its deadline, and inserted. -/
def State.rearm (s : State) (t : Ticket) : State :=
  let e := s.hold t.entry.toNat
  (s.setHold t.entry.toNat { e with state := .live, deadline := s.timebase }).insertDeadline t s.timebase

def restoredBody (r : Record) (wasSet matched : Bool) (rearmed : Nat) : MgmtBody :=
  .restored r.state r.key r.gen r.balance.sent r.floor r.lowMark r.tariffs r.suspect wasSet matched r.held r.spendable
    r.holds.length rearmed (storedConds r)

/-- R140, R141: the completion of a RESTORE whose handle is current; the answer tells the record as written, and `wasSet`
whether its flag was set before the completion (log entry 11). -/
def State.completeRestore (s : State) (op : Operation) (h : Handle) (balance : S8) (floor lowMark : B6)
    (tariffs : TariffSet) (wasSet : Bool) : State :=
  let list := s.stalledOf op.record.holds
  let s := s.modifyRecord h.slot.toNat fun r => r.restored balance floor lowMark tariffs
  ((list.foldl State.rearm s).dueTest).reply 12 .ok
    (restoredBody (s.record h.slot.toNat) wasSet op.record.verifies list.length)

/-! ### HOLD_READ, HOLD_RELEASE, HOLD_CAPTURE (R87 to R89) -/

/-- R87: where a hold stands with its deadline. -/
def State.standingOf (s : State) (t : Ticket) (e : HoldEntry) : Standing :=
  if e.state == .stalled then .none else if s.isQueued t then .queued else .claimed

def holdBody (e : HoldEntry) (stand : Standing) (suspect : Bool) : MgmtBody :=
  .hold e.state e.serial e.slot e.gen e.link e.epoch e.tariff e.units e.price e.amount e.deadline e.extensions e.action
    stand suspect

/-- R88: the answer of a HOLD_RELEASE, on the record as the ending leaves it. -/
def releasedBody (t : Ticket) (r : Record) : MgmtBody :=
  .holdReleased t r.balance.sent r.held r.spendable r.holds.length (storedConds r)

/-- R88: the completion of a HOLD_RELEASE whose ticket is current. -/
def State.completeRelease (s : State) (g : Lane) (op : Operation) (t : Ticket) : State :=
  (s.endHold g t op.entry op.record none).reply 14 .ok (releasedBody t (endedRecord op.record t op.entry 0))

/-- R89: the answer of a HOLD_CAPTURE, with OVER when the charge was clamped. -/
def capturedBody (t : Ticket) (r : Record) (e : HoldEntry) (c : Int × Bool) : MgmtBody :=
  let r' := endedRecord r t e c.1
  .holdCaptured t c.1.toNat r'.balance.sent r'.held r'.spendable r'.holds.length
    { balanceConds (r.bal - c.1) r.lowValue with overRange := c.2 }

/-- R89: the completion of a HOLD_CAPTURE whose ticket is current. -/
def State.completeCapture (s : State) (g : Lane) (op : Operation) (t : Ticket) : State :=
  if op.entry.state == .stalled || op.record.found.suspect then s.reply 15 .suspect .bare
  else
    let c := clampCharge op.record.bal op.entry.amount
    (s.chargeHold g t op.entry op.record c.1).reply 15 .ok (capturedBody t op.record op.entry c)

/-! ### The completion -/

/-- The completion of a management request, request by request. Creation, activation and transfers have rows of their
own. -/
def State.completeMgmt (s : State) (g : Lane) (op : Operation) : MgmtReq → State
  | .read h full => s.completeByHandle g op 3 h fun s => s.completeRead op h full
  | .update h mask floor lowMark tariffs =>
    s.completeByHandle g op 4 h fun s => s.completeUpdate op h mask floor lowMark tariffs
  | .freeze h => s.completeByHandle g op 5 h fun s => s.completeFreeze op 5 h .frozen
  | .thaw h => s.completeByHandle g op 6 h fun s => s.completeFreeze op 6 h .active
  | .retire h => s.completeByHandle g op 7 h fun s => s.completeRetire op h
  | .topup h amount => s.completeByHandle g op 8 h fun s => s.completeCredit op 8 h true amount.value
  | .adjust h amount => s.completeByHandle g op 9 h fun s => s.completeCredit op 9 h false amount.value
  | .restore h balance floor lowMark tariffs =>
    s.completeByHandle g op 12 h fun s' =>
      s'.completeRestore op h balance floor lowMark tariffs (s.record h.slot.toNat).suspect
  | .transitCredit h => s.completeByHandle g op 11 h fun s => s.completeTransitCredit op h
  | .holdRead t =>
    s.completeByTicket g op 13 t fun s =>
      s.reply 13 .ok (holdBody op.entry (s.standingOf t op.entry) op.record.found.suspect)
  | .holdRelease t => s.completeByTicket g op 14 t fun s => s.completeRelease g op t
  | .holdCapture t => s.completeByTicket g op 15 t fun s => s.completeCapture g op t
  | .create _ _ _ _ _ _ => s
  | .activate _ => s
  | .sameTransfer _ _ _ _ => s
  | .step1 _ _ _ _ => s

/-- MANAGEMENT_REQUEST_COMPLETE (R32): the engine completes the account command it has in progress. -/
def execManagementRequestComplete (g : Lane) (s : State) : Host.Outcome State Fault Refusal :=
  .next (match s.mgmtOp g with
    | some (op, m) => s.completeMgmt g op m
    | none => s)

end Sys2Proof.Machine
end

