-- ==== Sys2Proof/Machine/Transfers.lean ====
section
/-! DEFINITION. Transfers (R60 to R69): SAME_GROUP_TRANSFER, TRANSFER_STEP_1, TRANSIT_STEP, RETURN_STEP. -/

namespace Sys2Proof.Machine

/-! ### The response (R61) -/

/-- The sign byte and the digits that forty bits spell. -/
def fieldOfBits (bits : BitVec 40) : S8 := ⟨bits.extractLsb' 32 8, bits.extractLsb' 0 32⟩

/-- R61: the amount field of a response for an amount computed at the source. Below the eight-digit range the spec
states no field value (log entry 17). -/
def amountField (v : Int) : S8 :=
  if v < -Config.maxAmount then
    fieldOfBits (Config.unstatedAmount v)
  else S8.ofInt v

/-- R61: an account's balance and conditions as its last write left them. -/
def balanceItem (side : Side) (r : Record) (v : Int) : BalanceItem :=
  { side := side, balance := S8.ofInt v, conds := balanceConds v r.lowValue }

/-- R61: the answer of a TRANSFER. -/
def State.answerTransfer (s : State) (st : Status) (side : Side) (returned : Bool) (amount : S8)
    (items : List BalanceItem) : State :=
  s.reply 10 st (.transfer side returned amount items)

/-! ### The checks (R62, R63) -/

/-- R62: the credit available for a transfer. -/
def availableFor (r : Record) : Int := r.bal - r.held

/-- R61: the amount field of a refusal with CLOSING or SUSPECT at the source: as given, but the spec does not state it for
ALL, whose source was read and whose amount was not computed (log entry 33). -/
def refusedField (all : Bool) (amount : S8) (r : Record) : S8 :=
  if all then fieldOfBits (Config.uncomputedAmount (amount.sign ++ amount.digits) (availableFor r)) else amount

/-- R62: the source checks in order: the refusal with the amount field that its response carries, or the transfer
amount. -/
def sourceCheck (src : Handle) (all : Bool) (amount : S8) (r : Record) : Except (Status × S8) Int :=
  match handleTest src r with
  | some st => .error (st, amount)
  | none =>
    match creditCheck r with
    | some st => .error (st, refusedField all amount r)
    | none =>
      if r.found.suspect then .error (.suspect, refusedField all amount r)
      else if all then
        (if availableFor r ≤ 0 then .error (.short, amountField (availableFor r)) else .ok (availableFor r))
      else if availableFor r < amount.value then .error (.short, amount)
      else .ok amount.value

/-- R63, R66: the checks of an account that is to receive an amount, in order; none when all pass. -/
def receiverCheck (h : Handle) (amount : Int) (r : Record) : Option Status :=
  match handleTest h r with
  | some st => some st
  | none =>
    match creditCheck r with
    | some st => some st
    | none =>
      if r.found.suspect then some .suspect
      else if Config.maxAmount < r.bal + amount then some .overRange
      else none

/-- R33: the verification of a record is made once its handle has passed; what a mismatch then writes and posts. -/
def State.noteAccount (s : State) (h : Handle) (r : Record) (verified : Bool) : State :=
  s.noteMismatch h.slot.toNat (verified && !r.verifies) .operation

/-! ### Same group (R63) -/

/-- R63: one completion writes both records. -/
def State.writeBoth (s : State) (op : Operation) (src dst : Handle) (amount : Int) : State :=
  ((s.writeBalance src.slot.toNat (op.record.bal - amount)).writeBalance dst.slot.toNat (op.record2.bal + amount)).postLow
    src.slot.toNat op.record (op.record.bal - amount)

/-- R63: the balance items of a same-group transfer that passes, the source's first (DESIGN CHOICE, log entry 37). -/
def bothItems (op : Operation) (amount : Int) : List BalanceItem :=
  [balanceItem .source op.record (op.record.bal - amount), balanceItem .destination op.record2 (op.record2.bal + amount)]

/-- R33, R63: the mismatches of both records, the source's first (log entry 18). -/
def State.noteBoth (s : State) (op : Operation) (src dst : Handle) : State :=
  let current := (handleTest src op.record).isNone
  (s.noteAccount src op.record current).noteAccount dst op.record2 (current && (handleTest dst op.record2).isNone)

/-- SAME_GROUP_TRANSFER (R63). The answer carries balance items for balances written; a suspect flag that alone was written
gives none (log entry 34). -/
def execSameGroupTransfer (g : Lane) (s : State) : Host.Outcome State Fault Refusal :=
  .next (match s.mgmtOp g with
    | some (op, .sameTransfer src dst all amount) =>
      let s := (s.endOp g).noteBoth op src dst
      match sourceCheck src all amount op.record with
      | .error (st, field) => s.answerTransfer st .source false field []
      | .ok v =>
        match receiverCheck dst v op.record2 with
        | some st => s.answerTransfer st .destination false (S8.ofInt v) []
        | none => (s.writeBoth op src dst v).answerTransfer .ok .none false (S8.ofInt v) (bothItems op v)
    | _ => s)

/-! ### Cross group (R65, R66) -/

/-- R28, R65, R66: a transit-step claim is posted to an engine. DESIGN CHOICE (log entry 42): it takes the place of a claim
that waits there already, which a disturbance of the register makes possible. -/
def State.postTransit (s : State) (g : Lane) (c : TransitClaim) : State :=
  s.modifyEngine g fun e => { e with transit := some c }

/-- R64: the register's state is written. -/
def State.setTransit (s : State) (t : Transit) : State := { s with transit := t }

/-- R65: the command unit goes on with the transfer, and keeps what its last write of the source left. -/
def State.goOnTransfer (s : State) (item : BalanceItem) : State :=
  { s with cmd := { s.cmd with state := .busy (.transfer (some item)) } }

/-- R65: the results of a step 1 that passes. DESIGN CHOICE (log entry 43): the register is written OUT without a test, also
where a disturbance has rewritten it since the TRANSFER was taken. -/
def State.debitSource (s : State) (op : Operation) (src dst : Handle) (v : Int) : State :=
  (((s.writeNewBalance src.slot.toNat op.record (some (op.record.bal - v))).setTransit
    { state := .out, src := src, dst := dst, amount := v.toNat }).goOnTransfer
      (balanceItem .source op.record (op.record.bal - v))).postTransit (laneOf dst.slot.toNat) .step2

/-- TRANSFER_STEP_1 (R65). -/
def execTransferStep1 (g : Lane) (s : State) : Host.Outcome State Fault Refusal :=
  .next (match s.mgmtOp g with
    | some (op, .step1 src dst all amount) =>
      let s := (s.endOp g).noteAccount src op.record (handleTest src op.record).isNone
      match sourceCheck src all amount op.record with
      | .error (st, field) => s.answerTransfer st .source false field []
      | .ok v => s.debitSource op src dst v
    | _ => s)

/-- R61: the source's balance item that the transfer in progress keeps. -/
def State.sourceItems (s : State) : List BalanceItem :=
  match s.cmd.state with
  | .busy (.transfer (some item)) => [item]
  | _ => []

/-- R66: step 2 succeeds: the destination is credited and the register emptied; the source's item stands first (DESIGN
CHOICE, log entry 37). -/
def State.creditDestination (s : State) (op : Operation) : State :=
  let v := op.record.bal + op.transit.amount
  ((s.writeBalance op.transit.dst.slot.toNat v).setTransit Transit.cleared).answerTransfer .ok .none false
    (S8.ofInt op.transit.amount) (s.sourceItems ++ [balanceItem .destination op.record v])

/-- R66: step 2 fails: the register is written RETURNING and the return step is posted. DESIGN CHOICE (log entry 40): the
register's other fields stay as they stand. -/
def State.failDestination (s : State) (op : Operation) (st : Status) : State :=
  (s.setTransit { s.transit with state := .returning }).postTransit (laneOf op.transit.src.slot.toNat) (.ret (some st))

/-- The transit claim in progress at an engine. -/
def State.transitOp (s : State) (g : Lane) : Option (Operation × TransitClaim) :=
  match (s.engine g).op with
  | some op =>
    match op.work with
    | .transit c => some (op, c)
    | _ => none
  | none => none

/-- TRANSIT_STEP (R66): step 2 at the destination's engine. DESIGN CHOICE (log entry 40): it goes by the register as read at
the taking, whatever its state. -/
def execTransitStep (g : Lane) (s : State) : Host.Outcome State Fault Refusal :=
  .next (match s.transitOp g with
    | some (op, .step2) =>
      let dst := op.transit.dst
      let s := (s.endOp g).noteAccount dst op.record (handleTest dst op.record).isNone
      match receiverCheck dst op.transit.amount op.record with
      | none => s.creditDestination op
      | some st => s.failDestination op st
    | _ => s)

/-- R66, R69: the return step's report: an answer for the transfer that waits, none for a return posted at READY. -/
def State.reportReturn (s : State) (refusal : Option Status) (answer : Status → State) : State :=
  match refusal with
  | some st => answer st
  | none => s

/-- R66: the return succeeds: the source has its amount back and the register is emptied. -/
def State.returnToSource (s : State) (op : Operation) (refusal : Option Status) : State :=
  let v := op.record.bal + op.transit.amount
  let s := (s.writeBalance op.transit.src.slot.toNat v).setTransit Transit.cleared
  s.reportReturn refusal fun st =>
    s.answerTransfer st .destination true (S8.ofInt op.transit.amount) [balanceItem .source op.record v]

/-- R66: the return fails: the register is written STRANDED, and TRANSFER_STRANDED is posted. DESIGN CHOICE (log entry 40):
the register's other fields stay as they stand. -/
def State.strand (s : State) (op : Operation) (refusal : Option Status) (st : Status) : State :=
  let items := s.sourceItems
  let s := (s.setTransit { s.transit with state := .stranded }).post
    (.transferStranded op.transit.src op.transit.dst op.transit.amount refusal st)
  s.reportReturn refusal fun _ => s.answerTransfer .stranded .none false (S8.ofInt op.transit.amount) items

/-- RETURN_STEP (R66, R69). DESIGN CHOICE (log entry 40): it goes by the register as read at the taking, whatever its
state. -/
def execReturnStep (g : Lane) (s : State) : Host.Outcome State Fault Refusal :=
  .next (match s.transitOp g with
    | some (op, .ret refusal) =>
      let src := op.transit.src
      let s := (s.endOp g).noteAccount src op.record (handleTest src op.record).isNone
      match receiverCheck src op.transit.amount op.record with
      | none => s.returnToSource op refusal
      | some st => s.strand op refusal st
    | _ => s)

end Sys2Proof.Machine
end

