-- ==== Sys2Proof/Machine/Management.lean ====
section
/-! DEFINITION. The management port (Chapters 2, 3, 4, 6, 7, 9, 10, 11): MSEL_ASSERT, RESPONSE_READ, UNDECODABLE_BLOCK,
MANAGEMENT_REQUEST_PLACED, and what the command unit does with each of the 25 commands it takes. -/

namespace Sys2Proof.Machine

/-- R27, R153: the unit goes BUSY and places an account command in a group queue. -/
def State.startAccount (s : State) (g : Lane) (m : MgmtReq) : State := (s.busy .account).placeMgmt g m

/-- The group of a handle's slot (R42). -/
def groupOf (h : Handle) : Lane := laneOf h.slot.toNat

/-! ### POLL (R156) -/

/-- POLL (R156). -/
def takePoll (s : State) : State :=
  s.answerAtOnce 0 .ok
    (.poll s.isReady s.power.mode s.isBusy s.notices.list.length s.notices.lost s.transit.state)

/-! ### ENROL and FIND (R114, R115) -/

/-- R115: the checks of the command unit. -/
def enrolRefusal (key : Key) (balance : S8) (floor lowMark : B6) : Option Status :=
  if !(balance.ok && B6.ok floor && B6.ok lowMark) then some .badDigit
  else if !keyInRange key || balance.value < 0 then some .badRange
  else none

/-- ENROL (R115): the search is placed in the management slot. -/
def takeEnrol (key : Key) (balance : S8) (floor lowMark : B6) (tariffs : TariffSet) (s : State) : State :=
  match enrolRefusal key balance floor lowMark with
  | some st => s.reply 1 st .bare
  | none =>
    let s := s.busy .enrol
    { s with indexUnit := { s.indexUnit with mgmt := some (.search ⟨key, balance, floor, lowMark, tariffs⟩) } }

/-- FIND (R114): the key is placed in the management slot. -/
def takeFind (key : Key) (s : State) : State :=
  if !keyInRange key then s.reply 2 .badRange .bare
  else
    let s := s.busy .find
    { s with indexUnit := { s.indexUnit with mgmt := some (.find key) } }

/-! ### Account commands -/

/-- READ (R157): form 0 BRIEF, 1 FULL. -/
def takeRead (h : Handle) (form : Byte) (s : State) : State :=
  if form == 0 then s.startAccount (groupOf h) (.read h false)
  else if form == 1 then s.startAccount (groupOf h) (.read h true)
  else s.reply 3 .badRange .bare

/-- R158: the digits of the selected fields. -/
def updateDigitsOk (mask : Byte) (floor lowMark : B6) : Bool :=
  (!mask.getLsbD 0 || B6.ok floor) && (!mask.getLsbD 1 || B6.ok lowMark)

/-- UPDATE (R158). -/
def takeUpdate (h : Handle) (mask : Byte) (floor lowMark : B6) (tariffs : TariffSet) (s : State) : State :=
  if !updateDigitsOk mask floor lowMark then s.reply 4 .badDigit .bare
  else if 7 < mask.toNat then s.reply 4 .badRange .bare
  else if mask == 0 then s.reply 4 .ok .bare
  else s.startAccount (groupOf h) (.update h mask floor lowMark tariffs)

/-- FREEZE (R13). -/
def takeFreeze (h : Handle) (s : State) : State := s.startAccount (groupOf h) (.freeze h)

/-- THAW (R14). -/
def takeThaw (h : Handle) (s : State) : State := s.startAccount (groupOf h) (.thaw h)

/-- RETIRE (R15). -/
def takeRetire (h : Handle) (s : State) : State := s.startAccount (groupOf h) (.retire h)

/-- R49: the amount of a TOPUP: digits, then range. -/
def topupRefusal (amount : S8) : Option Status :=
  if !amount.ok then some .badDigit else if amount.value < 1 then some .badRange else none

/-- TOPUP (R57). -/
def takeTopup (h : Handle) (amount : S8) (s : State) : State :=
  match topupRefusal amount with
  | some st => s.reply 8 st .bare
  | none => s.startAccount (groupOf h) (.topup h amount)

/-- R49: the amount of an ADJUST. -/
def adjustRefusal (amount : S8) : Option Status :=
  if !amount.ok then some .badDigit else if amount.value = 0 then some .badRange else none

/-- ADJUST (R58). -/
def takeAdjust (h : Handle) (amount : S8) (s : State) : State :=
  match adjustRefusal amount with
  | some st => s.reply 9 st .bare
  | none => s.startAccount (groupOf h) (.adjust h amount)

/-- R49, R60, R171: digits, ranges (mode 1 is ALL, whose amount is not used), the register. -/
def transferRefusal (src dst : Handle) (how : Byte) (amount : S8) (register : TransitState) : Option Status :=
  if !amount.ok then some .badDigit
  else if 1 < how.toNat || (how == 0 && amount.value < 1) || src.slot == dst.slot then some .badRange
  else if register != .empty then some .transitBusy
  else none

/-- TRANSFER (R60). -/
def takeTransfer (src dst : Handle) (how : Byte) (amount : S8) (s : State) : State :=
  match transferRefusal src dst how amount s.transit.state with
  | some st => s.answerTransfer st .none false amount []
  | none =>
    let m := if (groupOf src) == (groupOf dst) then MgmtReq.sameTransfer src dst (how == 1) amount
      else .step1 src dst (how == 1) amount
    (s.busy (.transfer none)).placeMgmt (groupOf src) m

/-- TRANSIT_CLEAR (R68): selector 0 none, 1 handle. -/
def takeTransitClear (selector : Byte) (h : Handle) (s : State) : State :=
  if 1 < selector.toNat || s.transit.state != .stranded then s.reply 11 .badRange .bare
  else if selector == 0 then { s with transit := Transit.cleared }.reply 11 .ok (.dropped s.transit.amount)
  else s.startAccount (groupOf h) (.transitCredit h)

/-- RESTORE (R140): the digits of the three amount fields. -/
def takeRestore (h : Handle) (balance : S8) (floor lowMark : B6) (tariffs : TariffSet) (s : State) : State :=
  if !(balance.ok && B6.ok floor && B6.ok lowMark) then s.reply 12 .badDigit .bare
  else s.startAccount (groupOf h) (.restore h balance floor lowMark tariffs)

/-- R86: a command by ticket: HOLD_GONE at once for a stale ticket, else a request to the group of the entry's account. -/
def State.startByTicket (s : State) (op : Byte) (t : Ticket) (m : MgmtReq) : State :=
  let e := s.hold t.entry.toNat
  if ticketCurrent t e then s.startAccount (laneOf e.slot) m else s.reply op .holdGone .bare

/-- HOLD_READ (R86, R87). -/
def takeHoldRead (t : Ticket) (s : State) : State := s.startByTicket 13 t (.holdRead t)

/-- HOLD_RELEASE (R86, R88). -/
def takeHoldRelease (t : Ticket) (s : State) : State := s.startByTicket 14 t (.holdRelease t)

/-- HOLD_CAPTURE (R86, R89). -/
def takeHoldCapture (t : Ticket) (s : State) : State := s.startByTicket 15 t (.holdCapture t)

/-! ### Tariffs (R125, R126) -/

/-- R125: digits, then ranges. -/
def tariffRefusal (n enabled : Byte) (price maxUnits : B4) (window : B6) (action : Byte) : Option Status :=
  if !(B4.ok price && B4.ok maxUnits && B6.ok window) then some .badDigit
  else if 15 < n.toNat || 1 < enabled.toNat || B4.value price = 0 || B4.value maxUnits = 0 || !windowInRange (B6.value window) ||
      1 < action.toNat then some .badRange
  else none

/-- The entry that the fields of a TARIFF_SET spell. -/
def tariffOf (enabled : Byte) (price maxUnits : B4) (window : B6) (action : Byte) : Tariff :=
  { enabled := enabled == 1, price := B4.value price, maxUnits := B4.value maxUnits, window := B6.value window,
    action := if action == 1 then .capture else .release }

/-- TARIFF_SET (R125). -/
def takeTariffSet (n enabled : Byte) (price maxUnits : B4) (window : B6) (action : Byte) (s : State) : State :=
  match tariffRefusal n enabled price maxUnits window action with
  | some st => s.reply 16 st .bare
  | none =>
    let t := tariffOf enabled price maxUnits window action
    (s.setTariff n.toNat t).reply 16 .ok (.tariff t)

/-- TARIFF_READ (R126). -/
def takeTariffRead (n : Byte) (s : State) : State :=
  if 15 < n.toNat then s.reply 17 .badRange .bare else s.reply 17 .ok (.tariff (s.tariff n.toNat))

/-! ### Links (R149 to R151) -/

/-- R143: baud codes in ascending order: 0 is 9,600 and 1 is 19,200, the fastest that ECONOMY allows. -/
def fastBaud (code : Nat) : Bool := decide (1 < code)

/-- R150: the ranges, then the ECONOMY limit. -/
def linkRefusal (l enable baud high resume : Byte) (m : Mode) : Option Status :=
  if 3 < l.toNat || 1 < enable.toNat || 5 < baud.toNat || high.toNat < 1 || 16 < high.toNat || 15 < resume.toNat ||
      high.toNat ≤ resume.toNat then some .badRange
  else if m == .economy && fastBaud baud.toNat then some .baudLimit
  else none

def baudOf (code : Byte) : Fin 6 := ⟨code.toNat % 6, Nat.mod_lt _ (by decide)⟩

/-- R146, R149: a link with new settings: a disable, or a baud change of an enabled link, takes it out of service first,
and RDY is set against the new marks. -/
def Link.withSettings (k : Link) (enable : Bool) (baud : Fin 6) (high resume : Nat) : Link :=
  let k := if k.enabled && (!enable || k.baud != baud) then k.disabled else k
  { k with enabled := enable, baud := baud, high := high, resume := resume }.testRdy

/-- LINK_SET (R150). -/
def takeLinkSet (l enable baud high resume : Byte) (s : State) : State :=
  match linkRefusal l enable baud high resume s.power.mode with
  | some st => s.reply 18 st .bare
  | none =>
    let k := (s.link (laneOf l.toNat)).withSettings (enable == 1) (baudOf baud) high.toNat resume.toNat
    (s.setLink (laneOf l.toNat) k).reply 18 .ok (.linkSet k.enabled k.baud k.high k.resume k.epoch)

def Receiver.busy : Receiver → Bool
  | .idle => false
  | .inFrame _ => true

def Link.busyTags (k : Link) : Nat := k.tags.at0.toNat + k.tags.at1.toNat + k.tags.at2.toNat + k.tags.at3.toNat

def Link.readBody (k : Link) : MgmtBody :=
  .linkRead k.enabled k.baud k.high k.resume k.epoch k.receiver.busy k.fifo.length k.busyTags k.queue.length k.rdy k.hld
    k.badCrc k.overrun

/-- LINK_READ (R151). -/
def takeLinkRead (l : Byte) (s : State) : State :=
  if 3 < l.toNat then s.reply 19 .badRange .bare
  else
    let k := s.link (laneOf l.toNat)
    (s.setLink (laneOf l.toNat) { k with badCrc := 0, overrun := false }).reply 19 .ok k.readBody

/-! ### Notices, configuration, time, reset (R159, R161, R168) -/

/-- NOTICE_READ (R161). -/
def takeNoticeRead (s : State) : State :=
  let q := s.notices
  let s := { s with notices := { q with list := q.list.drop 4, lost := false } }.testAttn
  s.reply 20 .ok (.notices (q.list.take 4) (q.list.drop 4).length q.lost)

/-- CONFIG (R159). -/
def takeConfig (interval : Half) (threshold : Byte) (s : State) : State :=
  if interval.toNat < 1 || 3600 < interval.toNat || threshold.toNat < 1 || 32 < threshold.toNat then
    s.reply 21 .badRange .bare
  else
    let s := { s with cmd := { s.cmd with interval := interval.toNat, threshold := threshold.toNat }
                      check := { s.check with timer := some interval.toNat } }
    s.testAttn.reply 21 .ok (.config interval.toNat threshold.toNat)

/-- TIME_READ (R159). -/
def takeTimeRead (s : State) : State := s.reply 23 .ok (.time s.timebase)

/-- RESET (R168): the answer, and the reset armed for the end of the next select period. -/
def takeReset (s : State) : State :=
  let s := s.reply 24 .ok .bare
  { s with cmd := { s.cmd with armed := true } }

/-! ### MODE (R162, R163, R165) -/

def Mode.ofCode (code : Byte) : Option Mode :=
  match code.toNat with
  | 0 => some .run
  | 1 => some .economy
  | 2 => some .standby
  | 3 => some .retain
  | _ => none

/-- R163: a link at rest. -/
def Link.quiet (k : Link) : Bool := !k.receiver.busy && k.fifo.isEmpty && k.queue.isEmpty

/-- R163: an engine at rest. -/
def Engine.quiet (e : Engine) : Bool :=
  e.queue.isEmpty && e.transit.isNone && e.slotFree.isEmpty && e.expiry.isEmpty && e.check.isNone && e.op.isNone

/-- R163: the index unit at rest. -/
def IndexUnit.quiet (u : IndexUnit) : Bool :=
  u.lookups.at0.isNone && u.lookups.at1.isNone && u.lookups.at2.isNone && u.lookups.at3.isNone && u.mgmt.isNone &&
    u.updates.isEmpty && u.op.isNone

/-- R163: the conditions of the entry into STANDBY. The command unit has no other command when it takes this one. -/
def State.quiet (s : State) : Bool :=
  s.links.at0.quiet && s.links.at1.quiet && s.links.at2.quiet && s.links.at3.quiet && s.engines.at0.quiet &&
    s.engines.at1.quiet && s.engines.at2.quiet && s.engines.at3.quiet && s.indexUnit.quiet &&
    s.transit.state == .empty

/-- R162: some link has a baud above 19,200. -/
def State.anyFastBaud (s : State) : Bool :=
  fastBaud s.links.at0.baud.val || fastBaud s.links.at1.baud.val || fastBaud s.links.at2.baud.val ||
    fastBaud s.links.at3.baud.val

/-- R165: every hold entry is FREE. -/
def State.noHolds (s : State) : Bool := s.holds.all fun p => p.2.state == .free

/-- R162: a mode is taken, and answered with it (log entry 16 for STANDBY). -/
def State.takenMode (s : State) (m : Mode) : State :=
  { s with power := { s.power with mode := m } }.reply 22 .ok (.mode m)

/-- R163: the entry into STANDBY keeps the mode to wake to (R164); its answer carries the new mode (log entry 16). -/
def State.enterStandby (s : State) : State :=
  { s with power := { s.power with resume := s.power.mode } }.takenMode .standby

/-- R165: the entry into RETAIN is a reset event; the answer is lost with the command unit. -/
def State.enterRetain (s : State) : State :=
  let s := s.resetEvent .retainWake
  { s with power := { s.power with mode := .retain } }

/-- R162, R163, R165: a MODE to a mode other than the one held. -/
def State.changeMode (s : State) (m : Mode) : State :=
  match m with
  | .run => s.takenMode .run
  | .economy => if s.anyFastBaud then s.reply 22 .baudLimit .bare else s.takenMode .economy
  | .standby => if s.quiet then s.enterStandby else s.reply 22 .notIdle .bare
  | .retain =>
    if !(s.quiet && s.notices.list.isEmpty) then s.reply 22 .notIdle .bare
    else if !s.noHolds then s.reply 22 .holdsLive .bare
    else s.enterRetain

/-- MODE (R162). A MODE to the mode held is answered with that mode (log entry 16). -/
def takeMode (code : Byte) (s : State) : State :=
  match Mode.ofCode code with
  | none => s.reply 22 .badRange .bare
  | some m => if s.power.mode == m then s.reply 22 .ok (.mode m) else s.changeMode m

/-! ### Rows -/

/-- MSEL_ASSERT (R154, R164). -/
def execMselAssert (s : State) : Host.Outcome State Fault Refusal := .next (if s.powered then s.openSelect else s)

/-- R153: the block a read transaction returns. -/
def State.readBlock (s : State) : MgmtResponse :=
  match s.cmd.state with
  | .idle => emptyBlock false
  | .busy _ => s.cmd.immediate.getD (emptyBlock true)
  | .reply r => r

/-- R154: a read shifts out the block of the unit's state, as far as `count` bytes after the first reach. -/
def State.shiftOut (s : State) (count : Nat) : State :=
  { s with cmd := { s.cmd with sdo := s.readBlock.bytes.take count } }

/-- R154: byte i of the select period on SDO, the first byte being 0 (log entry 22): the block's bytes from the second byte
on, and 255 in every other byte. -/
def State.sdoByte (s : State) (i : Nat) : Byte := if i = 0 then 255 else s.cmd.sdo.getD (i - 1) 255

/-- R153: what a whole read leaves: the block is out, the unread answer is taken. -/
def State.readTaken (s : State) : State :=
  let block := s.readBlock.bytes
  match s.cmd.state with
  | .idle => { s with cmd := { s.cmd with lastRead := some block } }
  | .busy _ => { s with cmd := { s.cmd with lastRead := some block, immediate := none } }
  | .reply _ => { s with cmd := { s.cmd with lastRead := some block, state := .idle } }

/-- R153, R154: a read transaction of the whole block. -/
def State.readOut (s : State) : State := (s.shiftOut s.readBlock.bytes.length).readTaken

/-- R154, R168: a select period ends: a RESET that is armed takes effect. -/
def State.endSelect (s : State) : State := if s.cmd.armed then s.softReset else s.closeSelect

/-- RESPONSE_READ (R153, R154). The block read, and what the read clears, are those of the unit's state at the end of the
period (log entry 15). -/
def execResponseRead (s : State) : Host.Outcome State Fault Refusal :=
  .next (if s.powered then s.openSelect.readOut.endSelect else s)

/-- MANAGEMENT_REQUEST_PLACED (R27): a request held for a full group queue is placed when a place is free. -/
def execManagementRequestPlaced (s : State) : Host.Outcome State Fault Refusal :=
  .next (match s.cmd.held with
    | some (g, r) => if s.queueRoom g then { s with cmd := { s.cmd with held := none } }.enqueue g r else s
    | none => s)

/-- What the command unit does with a command that it takes. -/
def takeCommand : Command → State → State
  | .poll => takePoll
  | .enrol key balance floor lowMark tariffs => takeEnrol key balance floor lowMark tariffs
  | .find key => takeFind key
  | .read h form => takeRead h form
  | .update h mask floor lowMark tariffs => takeUpdate h mask floor lowMark tariffs
  | .freeze h => takeFreeze h
  | .thaw h => takeThaw h
  | .retire h => takeRetire h
  | .topup h amount => takeTopup h amount
  | .adjust h amount => takeAdjust h amount
  | .transfer src dst how amount => takeTransfer src dst how amount
  | .transitClear selector h => takeTransitClear selector h
  | .restore h balance floor lowMark tariffs => takeRestore h balance floor lowMark tariffs
  | .holdRead t => takeHoldRead t
  | .holdRelease t => takeHoldRelease t
  | .holdCapture t => takeHoldCapture t
  | .tariffSet n enabled price maxUnits window action => takeTariffSet n enabled price maxUnits window action
  | .tariffRead n => takeTariffRead n
  | .linkSet l enable baud high resume => takeLinkSet l enable baud high resume
  | .linkRead l => takeLinkRead l
  | .noticeRead => takeNoticeRead
  | .config interval threshold => takeConfig interval threshold
  | .mode code => takeMode code
  | .timeRead => takeTimeRead
  | .reset => takeReset

def blockErrorStatus : BlockError → Status
  | .crcError => .crcError
  | .badCommand => .badCommand
  | .badLength => .badLength

/-- R154: a read of as many bytes after the first as the host shifted in; it takes effect when the whole block is out. -/
def State.readPeriod (s : State) (rest : List Byte) : State :=
  let s' := s.shiftOut rest.length
  if s.readBlock.bytes.length ≤ rest.length then s'.readTaken else s'

/-- R155: a command block, whole or not, is screened. -/
def State.blockBytes (s : State) (opcode : Byte) (bytes : List Byte) : State :=
  match decodeBlock bytes with
  | .error e => s.answerAtOnce opcode (blockErrorStatus e) .bare
  | .ok c => s.screened c.opcode (takeCommand c)

/-- R154, R168: what the bytes of a select period do, the first byte deciding; with a RESET armed a command block is
not taken. -/
def State.periodBytes (s : State) : List Byte → State
  | [] => s
  | b :: rest =>
    if b == Config.readOpcode then s.readPeriod rest
    else if s.cmd.armed then s
    else s.blockBytes b (b :: rest)

/-- R154, R168: a select period with these bytes, from MSEL asserted to MSEL deasserted. -/
def State.rawPeriod (s : State) (bytes : List Byte) : State :=
  if s.cmd.armed then (s.openSelect.periodBytes bytes).softReset else (s.openSelect.periodBytes bytes).closeSelect

/-- UNDECODABLE_BLOCK (R154, R155): a select period with these bytes; a block that fails steps 1 to 3 of the screening is
refused (log entry 25 for other bytes). -/
def execUndecodableBlock (bytes : List Byte) (s : State) : Host.Outcome State Fault Refusal :=
  .next (if s.powered then s.rawPeriod bytes else s)

/-- POLL (R156). -/
def execPoll (s : State) : Host.Outcome State Fault Refusal := .next (s.command 0 takePoll)

/-- ENROL (R115). -/
def execEnrol (key : Key) (balance : S8) (floor lowMark : B6) (tariffs : TariffSet) (s : State) :
    Host.Outcome State Fault Refusal :=
  .next (s.command 1 (takeEnrol key balance floor lowMark tariffs))

/-- FIND (R114): its block is received, or the index unit completes it. -/
def execFind (event : FindEvent) (s : State) : Host.Outcome State Fault Refusal :=
  .next (match event with
    | .block key => s.command 2 (takeFind key)
    | .completion => s.completeFind)

/-- MANAGEMENT_READ (R157): the command unit's part; the engine's is MANAGEMENT_REQUEST_COMPLETE. -/
def execManagementRead (h : Handle) (form : Byte) (s : State) : Host.Outcome State Fault Refusal :=
  .next (s.command 3 (takeRead h form))

/-- UPDATE (R158). -/
def execUpdate (h : Handle) (mask : Byte) (floor lowMark : B6) (tariffs : TariffSet) (s : State) :
    Host.Outcome State Fault Refusal :=
  .next (s.command 4 (takeUpdate h mask floor lowMark tariffs))

/-- FREEZE (R13). -/
def execFreeze (h : Handle) (s : State) : Host.Outcome State Fault Refusal := .next (s.command 5 (takeFreeze h))

/-- THAW (R14). -/
def execThaw (h : Handle) (s : State) : Host.Outcome State Fault Refusal := .next (s.command 6 (takeThaw h))

/-- RETIRE (R15). -/
def execRetire (h : Handle) (s : State) : Host.Outcome State Fault Refusal := .next (s.command 7 (takeRetire h))

/-- TOPUP (R57). -/
def execTopup (h : Handle) (amount : S8) (s : State) : Host.Outcome State Fault Refusal :=
  .next (s.command 8 (takeTopup h amount))

/-- ADJUST (R58). -/
def execAdjust (h : Handle) (amount : S8) (s : State) : Host.Outcome State Fault Refusal :=
  .next (s.command 9 (takeAdjust h amount))

/-- TRANSFER (R60). -/
def execTransfer (src dst : Handle) (how : Byte) (amount : S8) (s : State) : Host.Outcome State Fault Refusal :=
  .next (s.command 10 (takeTransfer src dst how amount))

/-- TRANSIT_CLEAR (R68). -/
def execTransitClear (selector : Byte) (h : Handle) (s : State) : Host.Outcome State Fault Refusal :=
  .next (s.command 11 (takeTransitClear selector h))

/-- RESTORE (R140). -/
def execRestore (h : Handle) (balance : S8) (floor lowMark : B6) (tariffs : TariffSet) (s : State) :
    Host.Outcome State Fault Refusal :=
  .next (s.command 12 (takeRestore h balance floor lowMark tariffs))

/-- HOLD_READ (R86). -/
def execHoldRead (t : Ticket) (s : State) : Host.Outcome State Fault Refusal := .next (s.command 13 (takeHoldRead t))

/-- HOLD_RELEASE (R86). -/
def execHoldRelease (t : Ticket) (s : State) : Host.Outcome State Fault Refusal := .next (s.command 14 (takeHoldRelease t))

/-- HOLD_CAPTURE (R86). -/
def execHoldCapture (t : Ticket) (s : State) : Host.Outcome State Fault Refusal := .next (s.command 15 (takeHoldCapture t))

/-- TARIFF_SET (R125). -/
def execTariffSet (n enabled : Byte) (price maxUnits : B4) (window : B6) (action : Byte) (s : State) :
    Host.Outcome State Fault Refusal :=
  .next (s.command 16 (takeTariffSet n enabled price maxUnits window action))

/-- TARIFF_READ (R126). -/
def execTariffRead (n : Byte) (s : State) : Host.Outcome State Fault Refusal := .next (s.command 17 (takeTariffRead n))

/-- LINK_SET (R150). -/
def execLinkSet (l enable baud high resume : Byte) (s : State) : Host.Outcome State Fault Refusal :=
  .next (s.command 18 (takeLinkSet l enable baud high resume))

/-- LINK_READ (R151). -/
def execLinkRead (l : Byte) (s : State) : Host.Outcome State Fault Refusal := .next (s.command 19 (takeLinkRead l))

/-- NOTICE_READ (R161). -/
def execNoticeRead (s : State) : Host.Outcome State Fault Refusal := .next (s.command 20 takeNoticeRead)

/-- CONFIG (R159). -/
def execConfig (interval : Half) (threshold : Byte) (s : State) : Host.Outcome State Fault Refusal :=
  .next (s.command 21 (takeConfig interval threshold))

/-- MODE (R162). -/
def execMode (code : Byte) (s : State) : Host.Outcome State Fault Refusal := .next (s.command 22 (takeMode code))

/-- TIME_READ (R159). -/
def execTimeRead (s : State) : Host.Outcome State Fault Refusal := .next (s.command 23 takeTimeRead)

/-- RESET (R168). -/
def execReset (s : State) : Host.Outcome State Fault Refusal := .next (s.command 24 takeReset)

end Sys2Proof.Machine
end

