-- ==== Sys2Proof/Machine/LongCheck.lean ====
section
/-! DEFINITION. The long check of phase STARTING (R24, R69, R133, R134): one visit at a time, and its run to the end. -/

namespace Sys2Proof.Machine

/-- R122, R133: the index entry of a slot, searched in the bucket of the key stored in the slot's record. DESIGN CHOICE
(log entry 44): where several ways of the bucket name the slot, the lowest-numbered is freed; SWEEP frees the others. -/
def State.freeWayOfSlot (s : State) (key : Key) (slot : Nat) : State :=
  match (waysOf (bucketOf key)).find? fun n => namesSlot slot (s.way n) with
  | some n => s.setWay n none
  | none => s

/-- R24, R133: a slot is written FREE and its index entry is freed. -/
def State.scanFree (s : State) (n : Nat) (gen : Byte) : State :=
  (s.setRecord n (Record.freed gen)).freeWayOfSlot (s.record n).key n

/-- R133: a mismatch on a slot in use sets the flag and is counted. -/
def State.scanMismatch (s : State) (n : Nat) : State :=
  let s := s.modifyRecord n fun r => { r with suspect := true }
  { s with check := { s.check with count := s.check.count + 1 } }

/-- SCAN (R24, R133): the visit of one slot. -/
def State.scanSlot (s : State) (n : Nat) : State :=
  let r := s.record n
  match r.state with
  | .free => s
  | .new => s.scanFree n r.gen
  | .closing => s.scanFree n (r.gen + 1)
  | .gone => s.scanFree n (r.gen + 1)
  | .active => if r.verifies then s else s.scanMismatch n
  | .frozen => if r.verifies then s else s.scanMismatch n

/-- SWEEP (R133): a way whose entry names a FREE slot is freed. -/
def sweptEntry (s : State) : Option IndexEntry → Bool
  | some e => (s.record e.slot).state == .free
  | none => false

/-- SWEEP (R133): the visit of one bucket. -/
def State.sweepBucket (s : State) (b : Nat) : State :=
  { s with index := s.index.filter fun p => !(p.1 / Config.waysPerBucket == b && sweptEntry s p.2) }

/-- R69: the tests of the source of a register found OUT or RETURNING. -/
def State.sourceReturnable (s : State) : Bool :=
  let r := s.record s.transit.src.slot.toNat
  (handleTest s.transit.src r).isNone && (creditCheck r).isNone && !r.suspect

/-- R69: the register's state and the outcome after the check. -/
def State.transitResolution (s : State) : TransitState × TransitOutcome :=
  match s.transit.state with
  | .empty => (.empty, .none)
  | .stranded => (.stranded, .strandedKept)
  | .out => if s.sourceReturnable then (.returning, .returnPosted) else (.stranded, .strandedNow)
  | .returning => if s.sourceReturnable then (.returning, .returnPosted) else (.stranded, .strandedNow)

/-- TRANSIT (R69, R133): the register is resolved, and the stage is DONE. -/
def State.resolveTransit (s : State) : State :=
  { s with transit := { s.transit with state := s.transitResolution.1 }
           check := { s.check with stage := .done, outcome := s.transitResolution.2 } }

/-- The long check's place. -/
def State.atStage (s : State) (st : LongStage) : State := { s with check := { s.check with stage := st } }

/-- R133: the next visit of the long check: one slot, one bucket, or the register. -/
def State.longCheckVisit (s : State) : State :=
  match s.check.stage with
  | .scan n => (s.scanSlot n).atStage (if n + 1 < Config.slots then .scan (n + 1) else .sweep 0)
  | .sweep b => (s.sweepBucket b).atStage (if b + 1 < Config.buckets then .sweep (b + 1) else .transit)
  | .transit => s.resolveTransit
  | .done => s

/-- R133: SCAN of the slots from n on. A slot the table does not list is FREE and is passed over. -/
def State.scanRest (s : State) (n : Nat) : State :=
  s.accounts.foldl (fun s p => if n ≤ p.1 ∧ p.1 < Config.slots then s.scanSlot p.1 else s) s

/-- R133: SWEEP of the buckets from b on. -/
def State.sweepRest (s : State) (b : Nat) : State :=
  { s with index := s.index.filter fun p =>
      !(decide (b ≤ p.1 / Config.waysPerBucket) && decide (p.1 / Config.waysPerBucket < Config.buckets) && sweptEntry s p.2) }

/-- R133: the rest of the long check, from the visit where it stands (log entry 7). -/
def State.longCheckRest (s : State) : State :=
  match s.check.stage with
  | .scan n => (((s.scanSlot n).scanRest (n + 1)).sweepRest 0).resolveTransit
  | .sweep b => ((s.sweepBucket b).sweepRest (b + 1)).resolveTransit
  | .transit => s.resolveTransit
  | .done => s

end Sys2Proof.Machine
end

