-- ==== Sys2Proof/Machine/PowerControl.lean ====
section
/-! DEFINITION. Power control (R162 to R168): the events of RST, the supplies, WAKE and the retained store, and the
start-up sequence. -/

namespace Sys2Proof.Machine

/-- SOFT_RESET_EFFECT (R168): the select period after a RESET ends. -/
def execSoftResetEffect (s : State) : Host.Outcome State Fault Refusal :=
  .next (if s.powered && s.cmd.armed then s.softReset else s)

/-- R165: the chip is in RETAIN. -/
def State.inRetain (s : State) : Bool := s.power.mode == .retain

/-- RST falls in a chip whose main domain is on: a reset event (R23). -/
def State.pinReset (s : State) : State :=
  let s := s.resetEvent .pinReset
  { s with power := { s.power with rstLow := true } }

/-- RST_FALL (R167): in RETAIN, and with the main supply absent, the main domain is off already (log entry 14). -/
def execRstFall (s : State) : Host.Outcome State Fault Refusal :=
  .next (
    if s.power.rstLow then s
    else if s.inRetain || !s.power.supply then { s with power := { s.power with rstLow := true } }
    else s.pinReset)

/-- RST_RELEASE (R165, R167): the start-up sequence begins with the cause of the event that stopped the chip. -/
def execRstRelease (s : State) : Host.Outcome State Fault Refusal :=
  .next (
    if s.power.rstLow then
      let s := { s with power := { s.power with rstLow := false } }
      if s.power.supply then s.beginStart s.power.cause else s
    else s)

/-- MAIN_SUPPLY_LOSS (R23): a reset event, but in RETAIN the main domain is off already. -/
def execMainSupplyLoss (s : State) : Host.Outcome State Fault Refusal :=
  .next (
    if !s.power.supply then s
    else
      let s := if s.inRetain then s else s.resetEvent .powerReturn
      { s with power := { s.power with supply := false } })

/-- MAIN_SUPPLY_RETURN (R165, R167): RETAIN is not left, and RST low holds the chip in reset (log entry 14). -/
def execMainSupplyReturn (s : State) : Host.Outcome State Fault Refusal :=
  .next (
    if s.power.supply then s
    else
      let s := { s with power := { s.power with supply := true } }
      if s.inRetain then s
      else if s.power.rstLow then { s with power := { s.power with cause := .powerReturn } }
      else s.beginStart .powerReturn)

/-- WAKE_EDGE (R164, R165): a wake from RETAIN with the main supply present; ignored elsewhere. -/
def execWakeEdge (s : State) : Host.Outcome State Fault Refusal :=
  .next (if s.inRetain && s.power.supply && !s.power.rstLow then s.beginStart .retainWake else s)

/-- BACKUP_SUPPLY_LOW (R166): the monitor acts while the main domain is off. DESIGN CHOICE (log entry 41): a fall of VBK
while the main domain is on sets no mark, then or later. -/
def execBackupSupplyLow (s : State) : Host.Outcome State Fault Refusal :=
  .next (if s.mainOff then { s with power := { s.power with mark := true } } else s)

/-- R4: one retained field changed by an outside event. -/
def Record.disturbed (r : Record) : RecordChange → Record
  | .stateCode v => { r with stateCode := v }
  | .key v => { r with key := v }
  | .generation v => { r with gen := v }
  | .balance v => { r with balance := v }
  | .floor v => { r with floor := v }
  | .lowMark v => { r with lowMark := v }
  | .tariffSet v => { r with tariffs := v }
  | .suspect v => { r with suspect := v }
  | .checkCode v => { r with checkCode := v }

/-- RETAINED_STORE_DISTURBANCE (R4, R64, R166): at any moment, with the main domain on or off (log entry 12). -/
def execRetainedStoreDisturbance (d : Disturbance) (s : State) : Host.Outcome State Fault Refusal :=
  .next (match d with
    | .record slot change => if slot < Config.slots then s.modifyRecord slot fun r => r.disturbed change else s
    | .transit v => { s with transit := v })

/-- R143: the cold defaults of a link's settings. -/
def Link.withColdSettings (k : Link) : Link := { k with enabled := false, baud := 2, high := 12, resume := 4 }

/-- R167 step 3: the cold values of every retained store, then the mark is cleared. -/
def State.coldDefaults (s : State) : State :=
  { s with
    accounts := []
    index := []
    holds := []
    tariffs := []
    transit := Transit.cleared
    links := s.links.map Link.withColdSettings
    cmd := { s.cmd with interval := 60, threshold := 1 }
    power := { s.power with mark := false } }

/-- R167: the long check begins at slot 0. -/
def State.beginLongCheck (s : State) : State :=
  { s with power := { s.power with stage := .longCheck }
           check := { s.check with stage := .scan 0, count := 0, outcome := .none } }

/-- OSCILLATOR_WARM_UP_DONE (R167 steps 2 to 4). -/
def execOscillatorWarmUpDone (s : State) : Host.Outcome State Fault Refusal :=
  .next (
    if s.power.stage == .warmUp then
      (if s.power.mark then s.coldDefaults else s).beginLongCheck
    else s)

/-- R167: the start notice. -/
def State.startNotice (s : State) : Notice :=
  match s.power.cause with
  | .cold => .coldStart .cold
  | cause => .warmStart cause s.check.count s.check.outcome

/-- R69: at READY a RETURN_POSTED outcome posts the return step of the source's engine. DESIGN CHOICE (log entry 40): the
source is the one that the register names at READY, also where a disturbance has rewritten it since the check. -/
def State.postReturn (s : State) : State :=
  if s.check.outcome == .returnPosted then
    s.modifyEngine (laneOf s.transit.src.slot.toNat) fun e => { e with transit := some (.ret none) }
  else s

/-- R167 step 5: the phase becomes READY: the links come up, the short-check timer is loaded. -/
def State.becomeReady (s : State) : State :=
  { s with power := { s.power with stage := .ready }
           links := s.links.map Link.testRdy
           check := { s.check with timer := some s.cmd.interval } }

/-- PHASE_READY (R167 step 5): the long check ends (log entry 7) and the phase becomes READY. -/
def execPhaseReady (s : State) : Host.Outcome State Fault Refusal :=
  .next (
    if s.power.stage == .longCheck then
      let s := s.longCheckRest.becomeReady.postReturn
      s.post s.startNotice
    else s)

end Sys2Proof.Machine
end

