-- ==== Sys2Proof/Machine/Dispatch.lean ====
section
/-! DEFINITION. The meaning of every command: one arm per row of spec/opcode_table.json. -/

namespace Sys2Proof.Machine

def exec (i : Instr) (s : State) : Host.Outcome State Fault Refusal :=
  match i with
  | .startByte l => Sys2Proof.Machine.execStartByte l s
  | .frameComplete l bytes => Sys2Proof.Machine.execFrameComplete l bytes s
  | .frameTimeout l => Sys2Proof.Machine.execFrameTimeout l s
  | .frameDiscard l cause => Sys2Proof.Machine.execFrameDiscard l cause s
  | .routerTake => Sys2Proof.Machine.execRouterTake s
  | .responseSent l => Sys2Proof.Machine.execResponseSent l s
  | .hldDeassert l => Sys2Proof.Machine.execHldDeassert l s
  | .engineTakeWork g => Sys2Proof.Machine.execEngineTakeWork g s
  | .terminalRead g => Sys2Proof.Machine.execTerminalRead g s
  | .debit g => Sys2Proof.Machine.execDebit g s
  | .probe g => Sys2Proof.Machine.execProbe g s
  | .authorize g => Sys2Proof.Machine.execAuthorize g s
  | .holdEntryAllocation => Sys2Proof.Machine.execHoldEntryAllocation s
  | .settle g => Sys2Proof.Machine.execSettle g s
  | .cancel g => Sys2Proof.Machine.execCancel g s
  | .extend g => Sys2Proof.Machine.execExtend g s
  | .expiry g => Sys2Proof.Machine.execExpiry g s
  | .slotFree g => Sys2Proof.Machine.execSlotFree g s
  | .checkClaim g => Sys2Proof.Machine.execCheckClaim g s
  | .timebaseRaise => Sys2Proof.Machine.execTimebaseRaise s
  | .holdFallsDue => Sys2Proof.Machine.execHoldFallsDue s
  | .shortCheckIntervalExpiry => Sys2Proof.Machine.execShortCheckIntervalExpiry s
  | .indexTakeWork => Sys2Proof.Machine.execIndexTakeWork s
  | .lookup => Sys2Proof.Machine.execLookup s
  | .enrolSearch => Sys2Proof.Machine.execEnrolSearch s
  | .createStep g => Sys2Proof.Machine.execCreateStep g s
  | .indexInsert => Sys2Proof.Machine.execIndexInsert s
  | .activateStep g => Sys2Proof.Machine.execActivateStep g s
  | .keyRemoval => Sys2Proof.Machine.execKeyRemoval s
  | .sameGroupTransfer g => Sys2Proof.Machine.execSameGroupTransfer g s
  | .transferStep1 g => Sys2Proof.Machine.execTransferStep1 g s
  | .transitStep g => Sys2Proof.Machine.execTransitStep g s
  | .returnStep g => Sys2Proof.Machine.execReturnStep g s
  | .managementRequestPlaced => Sys2Proof.Machine.execManagementRequestPlaced s
  | .managementRequestComplete g => Sys2Proof.Machine.execManagementRequestComplete g s
  | .mselAssert => Sys2Proof.Machine.execMselAssert s
  | .responseRead => Sys2Proof.Machine.execResponseRead s
  | .undecodableBlock bytes => Sys2Proof.Machine.execUndecodableBlock bytes s
  | .poll => Sys2Proof.Machine.execPoll s
  | .enrol key balance floor lowMark tariffs => Sys2Proof.Machine.execEnrol key balance floor lowMark tariffs s
  | .find event => Sys2Proof.Machine.execFind event s
  | .managementRead h form => Sys2Proof.Machine.execManagementRead h form s
  | .update h mask floor lowMark tariffs => Sys2Proof.Machine.execUpdate h mask floor lowMark tariffs s
  | .freeze h => Sys2Proof.Machine.execFreeze h s
  | .thaw h => Sys2Proof.Machine.execThaw h s
  | .retire h => Sys2Proof.Machine.execRetire h s
  | .topup h amount => Sys2Proof.Machine.execTopup h amount s
  | .adjust h amount => Sys2Proof.Machine.execAdjust h amount s
  | .transfer src dst how amount => Sys2Proof.Machine.execTransfer src dst how amount s
  | .transitClear selector h => Sys2Proof.Machine.execTransitClear selector h s
  | .restore h balance floor lowMark tariffs => Sys2Proof.Machine.execRestore h balance floor lowMark tariffs s
  | .holdRead t => Sys2Proof.Machine.execHoldRead t s
  | .holdRelease t => Sys2Proof.Machine.execHoldRelease t s
  | .holdCapture t => Sys2Proof.Machine.execHoldCapture t s
  | .tariffSet n enabled price maxUnits window action => Sys2Proof.Machine.execTariffSet n enabled price maxUnits window action s
  | .tariffRead n => Sys2Proof.Machine.execTariffRead n s
  | .linkSet l enable baud high resume => Sys2Proof.Machine.execLinkSet l enable baud high resume s
  | .linkRead l => Sys2Proof.Machine.execLinkRead l s
  | .noticeRead => Sys2Proof.Machine.execNoticeRead s
  | .config interval threshold => Sys2Proof.Machine.execConfig interval threshold s
  | .mode code => Sys2Proof.Machine.execMode code s
  | .timeRead => Sys2Proof.Machine.execTimeRead s
  | .reset => Sys2Proof.Machine.execReset s
  | .softResetEffect => Sys2Proof.Machine.execSoftResetEffect s
  | .rstFall => Sys2Proof.Machine.execRstFall s
  | .rstRelease => Sys2Proof.Machine.execRstRelease s
  | .mainSupplyLoss => Sys2Proof.Machine.execMainSupplyLoss s
  | .mainSupplyReturn => Sys2Proof.Machine.execMainSupplyReturn s
  | .wakeEdge => Sys2Proof.Machine.execWakeEdge s
  | .backupSupplyLow => Sys2Proof.Machine.execBackupSupplyLow s
  | .retainedStoreDisturbance d => Sys2Proof.Machine.execRetainedStoreDisturbance d s
  | .oscillatorWarmUpDone => Sys2Proof.Machine.execOscillatorWarmUpDone s
  | .phaseReady => Sys2Proof.Machine.execPhaseReady s
  | .hldAssert l => Sys2Proof.Machine.execHldAssert l s

end Sys2Proof.Machine
end

