-- ==== Sys2Proof/Machine/Step.lean ====
section
/-! DEFINITION. One step of the block: the command at the front of the queue, or, on an empty queue, the long check's
next visit while it runs (log entry 6), else idling. -/

namespace Sys2Proof.Machine

/-- The state with another queue of waiting commands. -/
def State.withPending (s : State) (queue : List Instr) : State := { s with pending := queue }

/-- What the block does with no command waiting: in the long check one visit of it (R133), else nothing. -/
def State.idle (s : State) : State := if s.power.stage == .longCheck then s.longCheckVisit else s

/-- The next state, a fault or a refusal: the command at the front of the queue on the state with the queue's rest. -/
def step (s : State) : Host.Outcome State Fault Refusal :=
  match s.pending with
  | [] => .next s.idle
  | c :: rest => exec c (s.withPending rest)

/-- The state with the command that a table word spells at the front of the queue; no word spells one (log entry 27). -/
def State.withFetchWord (s : State) (nbits w : Nat) : State :=
  match decodeTableWord nbits w with
  | some c => s.withPending (c :: s.pending)
  | none => s

end Sys2Proof.Machine
end

