-- ==== Sys2Proof/Safety.lean ====
section
/-! DEFINITION. What counts as a safe run, the invariants that claims are stated in, and short names for the states that
claims speak of. -/

namespace Sys2Proof.Machine

/-! ### Safe runs -/

/-- No step of the next k faults or is refused. -/
def safeFor : Nat → State → Prop
  | 0, _ => True
  | k + 1, s => ∃ t, step s = .next t ∧ safeFor k t

/-! ### Invariants -/

/-- The four sparse tables are in canonical form. -/
def State.canonical (s : State) : Prop :=
  Table.wf Record.cold s.accounts = true ∧ Table.wf none s.index = true ∧ Table.wf HoldEntry.cold s.holds = true ∧
    Table.wf Tariff.cold s.tariffs = true

/-- R26, R143, R160: group queues, link FIFOs and the notice queue hold no more than their places. -/
def State.bounded (s : State) : Prop :=
  (∀ g, (s.engine g).queue.length ≤ Config.groupQueuePlaces) ∧ (∀ l, (s.link l).fifo.length ≤ Config.fifoFrames) ∧
    s.notices.list.length ≤ Config.noticePlaces

/-- R147: the responses in a link's queue belong to busy tags, each to its own. -/
def Link.answersTagged (k : Link) : Prop :=
  (k.queue.map fun r => commandTag r.cmd).Nodup ∧ ∀ r ∈ k.queue, k.tags.get (commandTag r.cmd) = true

def State.answersTagged (s : State) : Prop := ∀ l, (s.link l).answersTagged

/-- R162 to R167: a chip without power, in RETAIN or with RST low is held in reset, and STANDBY is left to RUN or
ECONOMY. -/
def State.powerRule (s : State) : Prop :=
  (s.powered = false → s.power.stage = .held) ∧ (s.power.resume = .run ∨ s.power.resume = .economy)

/-- R37, R97, R122, R160: outside phase READY nothing waits and nothing is in progress, the mode is RUN or RETAIN, the
deadline queue is empty, no notice stands, the command unit carries out nothing. -/
def State.restsUntilReady (s : State) : Prop :=
  s.isReady = false →
    s.engines = Four.all Engine.cleared ∧ s.indexUnit = IndexUnit.cleared ∧ s.deadlines = [] ∧ s.timebase = 0 ∧
      (s.power.mode = .run ∨ s.power.mode = .retain) ∧ s.notices = { list := [], lost := false, attn := false } ∧
      s.cmd.held = none ∧ s.isBusy = false

/-- R98: ordered by non-decreasing deadline. -/
def ordered : List DeadlineItem → Prop
  | [] => True
  | i :: t => (∀ j ∈ t, i.deadline ≤ j.deadline) ∧ ordered t

/-- R98, R103: the deadline queue is ordered, and every item left in it lies above the timebase. -/
def State.deadlinesAhead (s : State) : Prop := ordered s.deadlines ∧ ∀ i ∈ s.deadlines, s.timebase < i.deadline

/-- R150, R162, R164: in ECONOMY, and in a STANDBY entered from it, no link's baud is above 19,200. -/
def State.slowInEconomy (s : State) : Prop :=
  (s.power.mode = .economy ∨ (s.power.mode = .standby ∧ s.power.resume = .economy)) → s.anyFastBaud = false

/-- R143, R146: the resume mark lies below the high mark; RDY asserted means enabled, below the high mark, in READY. -/
def State.rdyRule (s : State) : Prop :=
  ∀ l, (s.link l).resume < (s.link l).high ∧
    ((s.link l).rdy = true → (s.link l).enabled = true ∧ (s.link l).fifo.length < (s.link l).high ∧ s.isReady = true)

/-- R161: ATTN stands exactly while the notices reach the threshold. -/
def State.attnRule (s : State) : Prop :=
  1 ≤ s.cmd.threshold ∧ s.notices.attn = decide (s.cmd.threshold ≤ s.notices.list.length)

/-- R135, R136, R159: the interval is at least a second, a timer that runs stands at 1 or more, and the cursor stands at the
first slot of a slice. -/
def State.shortCheckRule (s : State) : Prop :=
  1 ≤ s.cmd.interval ∧ (∀ n, s.check.timer = some n → 1 ≤ n) ∧ s.check.cursor % 64 = 0 ∧ s.check.cursor ≤ 4032

/-! ### The command in progress and the key index (R109, R117, R153) -/

/-- Engine work of the management command in progress: a request that the command unit placed (R27), step 2 of its
transfer (R65), a return step that its transfer waits for (R66). A return step posted at READY belongs to no command. -/
def Work.isTask : Work → Bool
  | .transit .step2 => true
  | .transit (.ret refusal) => refusal.isSome
  | .slotFree _ => false
  | .expiry _ => false
  | .check _ => false
  | .request (.terminal _ _) => false
  | .request (.mgmt _) => true

def IndexUpdate.isInsert : IndexUpdate → Bool
  | .insert _ _ => true
  | .remove _ _ => false

def IndexOp.isInsert : IndexOp → Bool
  | .update u => u.isInsert
  | .link _ => false
  | .mgmt => false

/-- The work of the command in progress that an engine has. -/
def Engine.tasks (e : Engine) : Nat :=
  e.queue.countP (fun r => (Work.request r).isTask) + (e.transit.any fun c => (Work.transit c).isTask).toNat +
    (e.op.any fun op => op.work.isTask).toNat

/-- The work of the command in progress that the index unit has: a search or FIND, the insert of an enrolment. -/
def IndexUnit.tasks (u : IndexUnit) : Nat :=
  u.mgmt.isSome.toNat + u.updates.countP IndexUpdate.isInsert + (u.op.any IndexOp.isInsert).toNat

/-- All work of the command in progress, wherever it stands. -/
def State.tasks (s : State) : Nat :=
  (s.engine 0).tasks + (s.engine 1).tasks + (s.engine 2).tasks + (s.engine 3).tasks + s.indexUnit.tasks +
    s.cmd.held.isSome.toNat

/-- R153: the command unit carries out one command at a time: its work stands in one place, and only while it is BUSY. -/
def State.taskRule (s : State) : Prop := s.tasks ≤ s.isBusy.toNat

/-- A request stands for engine g: in its group queue, in progress there, or held by the command unit for a place. -/
def State.places (s : State) (g : Lane) (r : Request) : Prop :=
  r ∈ (s.engine g).queue ∨ (∃ op, (s.engine g).op = some op ∧ op.work = .request r) ∨ s.cmd.held = some (g, r)

/-- An update stands in the update list or is in progress at the index unit. -/
def State.updating (s : State) (u : IndexUpdate) : Prop :=
  u ∈ s.indexUnit.updates ∨ s.indexUnit.op = some (.update u)

/-- R115, R117: the key of an enrolment whose search has ended and whose insert is still to come. -/
def State.keyToCome (s : State) (key : Key) : Prop :=
  (∃ g n balance floor lowMark tariffs, s.places g (.mgmt (.create n key balance floor lowMark tariffs))) ∨
    ∃ n, s.updating (.insert key n)

/-- R109, R110, R117: an entry stands in the bucket of its key, no two ways hold one key, and no way holds a key that is
still to be inserted. -/
def State.indexRule (s : State) : Prop :=
  (∀ w e, s.way w = some e → w / 8 = e.key.toNat % 1021) ∧
    (∀ v w e f, s.way v = some e → s.way w = some f → e.key = f.key → v = w) ∧
    (∀ key, s.keyToCome key → ∀ w e, s.way w = some e → e.key ≠ key)

/-! ### Accounts, holds and deadlines (R3, R70, R98) -/

/-- R72: the ticket names a hold that is LIVE or STALLED. -/
def State.isOpen (s : State) (t : Ticket) : Prop := ticketCurrent t (s.hold t.entry.toNat) = true

/-- R3, R9, R70: each account's list holds the tickets of the open holds on it, at most four, each once, and its held is
the sum of their amounts; a slot FREE, NEW or GONE has none, and outside READY there is no hold. -/
def State.holdsRule (s : State) : Prop :=
  (∀ n, (s.record n).holds.Nodup ∧ (s.record n).holds.length ≤ 4 ∧
    (s.record n).held = ((s.record n).holds.map fun t => (s.hold t.entry.toNat).amount).sum ∧
    (s.record n).held ≤ 99999999 ∧
    ((s.record n).state = .free ∨ (s.record n).state = .new ∨ (s.record n).state = .gone → (s.record n).holds = [])) ∧
  (∀ n t, t ∈ (s.record n).holds ↔ s.isOpen t ∧ (s.hold t.entry.toNat).slot = n) ∧
  (∀ n, 256 ≤ n → (s.hold n).state = .free) ∧
  (s.isReady = false → ∀ n, (s.hold n).state = .free)

/-- The ticket of an expiry claim. -/
def Work.claim? : Work → Option Ticket
  | .transit _ => none
  | .slotFree _ => none
  | .expiry t => some t
  | .check _ => none
  | .request _ => none

/-- R28: the expiry claims of an engine: the one in progress, then those that wait. -/
def Engine.claims (e : Engine) : List Ticket := (e.op.bind fun op => op.work.claim?).toList ++ e.expiry

/-- R98, R104: a LIVE hold has one item in the deadline queue, with its deadline, or one expiry claim at the engine of its
account, never both; and nothing else stands in either place. -/
def State.deadlinesRule (s : State) : Prop :=
  (s.deadlines.map DeadlineItem.ticket).Nodup ∧ (∀ g, (s.engine g).claims.Nodup) ∧
  (∀ i ∈ s.deadlines, s.isOpen i.ticket ∧ (s.hold i.ticket.entry.toNat).state = .live ∧
    (s.hold i.ticket.entry.toNat).deadline = i.deadline ∧ ∀ g, i.ticket ∉ (s.engine g).claims) ∧
  (∀ g, ∀ t ∈ (s.engine g).claims, s.isOpen t ∧ (s.hold t.entry.toNat).state = .live ∧
    laneOf (s.hold t.entry.toNat).slot = g) ∧
  (∀ t, s.isOpen t → (s.hold t.entry.toNat).state = .live →
    t ∈ s.deadlines.map DeadlineItem.ticket ∨ t ∈ (s.engine (laneOf (s.hold t.entry.toNat).slot)).claims)

/-- Two records agree on the account's state and holds. -/
def Record.sameHolds (r r' : Record) : Prop := r.state = r'.state ∧ r.held = r'.held ∧ r.holds = r'.holds

def IndexUpdate.removes (n : Nat) : IndexUpdate → Bool
  | .insert _ _ => false
  | .remove _ m => m == n

def IndexOp.removes (n : Nat) : IndexOp → Bool
  | .update u => u.removes n
  | .link _ => false
  | .mgmt => false

/-- The slot-free claims of an engine for a slot. -/
def Engine.removals (e : Engine) (n : Nat) : Nat :=
  e.slotFree.count n + (e.op.any fun op => op.work == .slotFree n).toNat

/-- R16, R18, R19: the key removals and slot-free claims of a slot on its way from GONE to FREE. -/
def State.removals (s : State) (n : Nat) : Nat :=
  s.indexUnit.updates.countP (IndexUpdate.removes n) + (s.indexUnit.op.any (IndexOp.removes n)).toNat +
    (s.engine (laneOf n)).removals n

/-- What an operation in progress at engine g read and the stores still agree, as far as account states, holds and
allotted entries go: only engine g writes them. -/
def State.opAgrees (s : State) (g : Lane) (op : Operation) : Prop :=
  (∀ r, op.work = .request r → r.ticket? = none → op.record.sameHolds (s.record r.slot)) ∧
  (∀ t, op.work.ticket? = some t → ticketOfGroup g t op.entry = true →
    s.hold t.entry.toNat = op.entry ∧ op.record.sameHolds (s.record op.entry.slot)) ∧
  (op.alloc = .claimed ∨ (∃ n, op.alloc = .allotted n) → ∃ o h tariff units window,
    op.work = .request (.terminal o (.authorize h tariff units window)) ∧
      authorizeRefusal h tariff units window op.record op.tariff = none) ∧
  (∀ n, op.alloc = .allotted n → n < 256 ∧ (s.hold n).state = .free ∧
    ∀ m op', m ≠ g → (s.engine m).op = some op' → op'.alloc ≠ .allotted n) ∧
  (∀ t, op.work.claim? = some t → ticketOfGroup g t op.entry = true)

/-- R26, R28, R30: work stands at the engine of its account's group; a GONE slot is freed once; a slot whose enrolment
goes on is NEW; an operation in progress agrees with the stores. -/
def State.workRule (s : State) : Prop :=
  (∀ g r, s.places g r → r.ticket? = none → laneOf r.slot = g) ∧
  (∀ g n, n ∈ (s.engine g).slotFree ∨ (∃ op, (s.engine g).op = some op ∧ op.work = .slotFree n) → laneOf n = g) ∧
  (∀ n, s.removals n ≤ ((s.record n).state == .gone).toNat) ∧
  (∀ n, ((∃ g, s.places g (.mgmt (.activate n))) ∨ ∃ key, s.updating (.insert key n)) → (s.record n).state = .new) ∧
  (∀ g op, (s.engine g).op = some op → s.opAgrees g op)

/-! ### States that claims speak of -/

/-- R153, R155: the command unit takes a command: phase READY, port powered, not BUSY, no RESET armed. -/
def State.portOpen (s : State) : Prop :=
  s.powered = true ∧ s.isReady = true ∧ s.isBusy = false ∧ s.cmd.armed = false

/-- The state after the select period of a command that is answered at once: the reply, and everything else as the
select left it. -/
def State.replied (s : State) (opcode : Byte) (st : Status) (body : MgmtBody) : State :=
  { s.wake with cmd := { s.cmd with state := .reply { opcode := opcode, status := st, body := body }
                                    immediate := none, selected := false, sdo := [] } }

/-- R153: the command unit as it leaves BUSY with an answer. -/
def State.unitAnswers (s : State) (r : MgmtResponse) : CommandUnit := { s.cmd with state := .reply r, immediate := none }

/-- The state after the select period of a command that makes the unit BUSY. -/
def State.begun (s : State) (job : Job) : State :=
  { s.wake with cmd := { s.cmd with state := .busy job, immediate := none, selected := false, sdo := [] } }

/-- A command by handle or ticket carried out at engine g from its block to its answer: the block, the taking, the
completion. -/
def AccountCommandRuns (c : Instr) (g : Lane) (s t : State) : Prop :=
  ∃ t1 t2, exec c s = .next t1 ∧ exec (.engineTakeWork g) t1 = .next t2 ∧
    exec (.managementRequestComplete g) t2 = .next t

/-- An engine with nothing waiting and nothing in progress, in a chip that works once a select has woken it. -/
def State.engineFree (s : State) (g : Lane) : Prop := s.engine g = Engine.cleared ∧ s.wake.working = true

/-- R33, R34: a record that an operation finds sound: the flag clear and the check code matching. -/
def Record.sound (r : Record) : Prop := r.suspect = false ∧ r.verifies = true

/-- R7, R33: the handle is current and its record sound. -/
def State.soundAccount (s : State) (h : Handle) : Prop :=
  handleTest h (s.record h.slot.toNat) = none ∧ (s.record h.slot.toNat).sound

/-- The row of the table that stands for the block of a command. -/
def rowOf : Command → Instr
  | .poll => .poll
  | .enrol key balance floor lowMark tariffs => .enrol key balance floor lowMark tariffs
  | .find key => .find (.block key)
  | .read h form => .managementRead h form
  | .update h mask floor lowMark tariffs => .update h mask floor lowMark tariffs
  | .freeze h => .freeze h
  | .thaw h => .thaw h
  | .retire h => .retire h
  | .topup h amount => .topup h amount
  | .adjust h amount => .adjust h amount
  | .transfer src dst how amount => .transfer src dst how amount
  | .transitClear selector h => .transitClear selector h
  | .restore h balance floor lowMark tariffs => .restore h balance floor lowMark tariffs
  | .holdRead t => .holdRead t
  | .holdRelease t => .holdRelease t
  | .holdCapture t => .holdCapture t
  | .tariffSet n enabled price maxUnits window action => .tariffSet n enabled price maxUnits window action
  | .tariffRead n => .tariffRead n
  | .linkSet l enable baud high resume => .linkSet l enable baud high resume
  | .linkRead l => .linkRead l
  | .noticeRead => .noticeRead
  | .config interval threshold => .config interval threshold
  | .mode code => .mode code
  | .timeRead => .timeRead
  | .reset => .reset

/-- R32, R147: the link after an answer has arrived at it. -/
def State.answered (s t : State) (o : Origin) (st : Status) (body : TermBody) : Prop :=
  t.link o.link = (s.link o.link).arrive o.epoch { cmd := o.cmd, status := st, body := body } ∧
    ∀ l, l ≠ o.link → t.link l = s.link l

/-- Every record but one is as before. -/
def State.otherRecords (s t : State) (slot : Nat) : Prop := ∀ n, n ≠ slot → t.record n = s.record n

/-- Every hold entry but one is as before. -/
def State.otherHolds (s t : State) (n : Nat) : Prop := ∀ m, m ≠ n → t.hold m = s.hold m

/-- Every engine but one is as before. -/
def State.otherEngines (s t : State) (g : Lane) : Prop := ∀ m, m ≠ g → t.engine m = s.engine m

/-- R79: what every ending of a hold writes. The record of its account: held and the list, a new balance where there is a
charge, GONE where the account was read as CLOSING and the ticket was its last (R18), a new check code where balance or
state is written, the flag of a mismatch that the verification of the record read, `r`, found (R33). The entry, freed
with its serial raised. The deadline unit's keeping; where no item of the queue is due, every other item and claim
stays. The key removal of an account that goes to GONE. -/
def State.holdEnded (s t : State) (g : Lane) (tk : Ticket) (e : HoldEntry) (r : Record) (newBal : Option Int) : Prop :=
  let old := s.record e.slot
  let new := t.record e.slot
  let last := r.state = .closing ∧ r.holds.filter (· ≠ tk) = []
  (new.held = heldWithout old.held e.amount ∧ new.holds = old.holds.filter (· ≠ tk) ∧
    new.balance = (match newBal with | some v => S8.ofInt v | none => old.balance) ∧
    new.stateCode = (if last then AcctState.gone.code else old.stateCode) ∧
    new.checkCode = (if newBal.isSome = true ∨ last then crc16 new.covered else old.checkCode) ∧
    new.suspect = (old.suspect || !r.verifies) ∧
    new.key = old.key ∧ new.gen = old.gen ∧ new.floor = old.floor ∧ new.lowMark = old.lowMark ∧
    new.tariffs = old.tariffs) ∧
  s.otherRecords t e.slot ∧
  t.hold tk.entry.toNat = HoldEntry.freed (e.serial + 1) ∧ s.otherHolds t tk.entry.toNat ∧
  t.isQueued tk = false ∧ (s.isQueued tk = false → t.isClaimed g tk = false) ∧
  ((∀ i ∈ s.deadlines, s.timebase < i.deadline) →
    t.deadlines = s.deadlines.filter (fun i => i.ticket != tk) ∧
    (∀ m, (t.engine m).expiry = if s.isQueued tk = false ∧ m = g then
      (s.engine m).expiry.filter (fun c => c != tk) else (s.engine m).expiry)) ∧
  t.indexUnit = { s.indexUnit with
    updates := s.indexUnit.updates ++ (if last then [.remove r.key e.slot] else []) }

/-- R160: a completion has posted a list of notices, in order. Those that find room stand at the tail; where one does not,
the lost flag is set. ATTN is tested against the threshold at every append (R161). -/
def State.noticed (s t : State) (list : List Notice) : Prop :=
  let placed := list.take (Config.noticePlaces - s.notices.list.length)
  t.notices.list = s.notices.list ++ placed ∧
    t.notices.lost = (s.notices.lost || decide (placed.length < list.length)) ∧
    t.notices.attn = if placed = [] then s.notices.attn else decide (s.cmd.threshold ≤ t.notices.list.length)

/-- R33: the SUSPECT_FOUND of a mismatch that the verification of a record found, none where the flag was set. -/
def State.suspectNotice (s : State) (slot : Nat) (mismatch : Bool) : List Notice :=
  if mismatch = true ∧ (s.record slot).suspect = false then
    [.suspectFound slot (s.record slot).gen (s.record slot).state .operation] else []

/-- R33: the flag of a mismatch is set. -/
def State.flagSet (s : State) (slot : Nat) (mismatch : Bool) : Record :=
  { s.record slot with suspect := (s.record slot).suspect || mismatch }

/-- R33: of records and notices, a completion has written the flag of a mismatch and its SUSPECT_FOUND, and nothing else. -/
def State.onlyFlags (s t : State) (slot : Nat) (mismatch : Bool) : Prop :=
  t.record slot = s.flagSet slot mismatch ∧ s.otherRecords t slot ∧ s.noticed t (s.suspectNotice slot mismatch) ∧
    (mismatch = false → t.accounts = s.accounts ∧ t.notices = s.notices)

/-- R27, R153: the state after the select period of a command whose request the command unit holds, the group queue being
full. -/
def State.begunHeld (s : State) (job : Job) (g : Lane) (m : MgmtReq) : State :=
  { s.begun job with cmd := { (s.begun job).cmd with held := some (g, .mgmt m) } }

/-- R33, R34: an answered operation that writes nothing but the flag of a mismatch its verification found, with the
SUSPECT_FOUND of a flag that was clear. -/
def State.onlyAnswers (s t : State) (slot : Nat) (opcode : Byte) (st : Status) (body : MgmtBody) : Prop :=
  let r := s.record slot
  t.record slot = { r with suspect := r.suspect || !r.verifies } ∧ s.otherRecords t slot ∧
    s.noticed t (if r.verifies = false ∧ r.suspect = false then [.suspectFound slot r.gen r.state .operation] else []) ∧
    (r.verifies = true → t = s.replied opcode st body) ∧
    t = { s.replied opcode st body with accounts := t.accounts, notices := t.notices }

/-- R31, R153: the operation at engine g is over and the command in progress is answered; all else is as before. -/
def State.completed (s : State) (g : Lane) (opcode : Byte) (st : Status) (body : MgmtBody) : State :=
  { s with engines := s.engines.set g { s.engine g with op := none }, cmd := s.unitAnswers ⟨opcode, st, body⟩ }

/-- R31, R33: such a completion that writes the flag of a mismatch in the record as read, `r`, with its SUSPECT_FOUND, and
nothing else. -/
def State.completedNoted (s t : State) (g : Lane) (slot : Nat) (r : Record) (opcode : Byte) (st : Status)
    (body : MgmtBody) : Prop :=
  s.onlyFlags t slot (!r.verifies) ∧ t = { s.completed g opcode st body with accounts := t.accounts, notices := t.notices }

/-- R135, R136: a slice has begun at the cursor, and the cursor has moved on: the first slot of each group that is not FREE is
claimed, a group without one is claimed nothing, and a slice without a claim has ended. -/
def State.sliceBegun (s t : State) : Prop :=
  t.check.cursor = (if s.check.cursor = 4032 then 0 else s.check.cursor + 64) ∧
    (∀ (g : Lane) (n : Nat), s.check.cursor ≤ n → n < s.check.cursor + 64 → laneOf n = g → (s.record n).state ≠ .free →
      (∀ m, s.check.cursor ≤ m → m < n → laneOf m = g → (s.record m).state = .free) → (t.engine g).check = some n) ∧
    (∀ g : Lane, (∀ n, s.check.cursor ≤ n → n < s.check.cursor + 64 → laneOf n = g → (s.record n).state = .free) →
      (t.engine g).check = (s.engine g).check) ∧
    (t.check.slice = none ↔
      ∀ n, s.check.cursor ≤ n → n < s.check.cursor + 64 → (s.record n).state = .free)

end Sys2Proof.Machine
end

