-- ==== Sys2Proof/WellFormed.lean ====
section
/-! DEFINITION. Which commands are events that can come to the block: the operands a row's own words ask for. -/

namespace Sys2Proof

/-- R64, R2: a disturbance names a slot of the table, and leaves the register an amount it can hold. -/
def Disturbance.wf : Disturbance → Bool
  | .record slot _ => decide (slot < Config.slots)
  | .transit v => v.state == .empty || (decide (1 ≤ v.amount) && decide ((v.amount : Int) ≤ Config.maxAmount))

/-- R144, R169: the bytes after a start byte that complete the frame: the length byte counts them all. -/
def frameRestOk (bytes : List Byte) : Bool :=
  match bytes with
  | len :: _ => len.toNat == bytes.length + 1 && decide (Config.minFrame ≤ len.toNat) && decide (len.toNat ≤ Config.maxFrame)
  | [] => false

/-- R144: a length byte that discards its frame. -/
def DiscardCause.wf : DiscardCause → Bool
  | .lengthByte v => decide (v.toNat < Config.minFrame) || decide (Config.maxFrame < v.toNat)
  | .faultyStopBit => true

/-- R154, R155: the bytes of a select period that carries no command: a block which screening refuses at steps 1 to 3, a
read cut short or gone on with (a first byte of 255), no byte at all (log entry 25). -/
def carriesNoCommand (bytes : List Byte) : Bool :=
  match decodeBlock bytes with
  | .error _ => true
  | .ok _ => false

/-- The operands of a command are those its row speaks of. Every other constructor's operands are whole wire fields,
of which each value can come. -/
def Instr.wf : Instr → Bool
  | .startByte _ => true
  | .frameComplete _ bytes => frameRestOk bytes
  | .frameTimeout _ => true
  | .frameDiscard _ cause => cause.wf
  | .routerTake => true
  | .responseSent _ => true
  | .hldDeassert _ => true
  | .engineTakeWork _ => true
  | .terminalRead _ => true
  | .debit _ => true
  | .probe _ => true
  | .authorize _ => true
  | .holdEntryAllocation => true
  | .settle _ => true
  | .cancel _ => true
  | .extend _ => true
  | .expiry _ => true
  | .slotFree _ => true
  | .checkClaim _ => true
  | .timebaseRaise => true
  | .holdFallsDue => true
  | .shortCheckIntervalExpiry => true
  | .indexTakeWork => true
  | .lookup => true
  | .enrolSearch => true
  | .createStep _ => true
  | .indexInsert => true
  | .activateStep _ => true
  | .keyRemoval => true
  | .sameGroupTransfer _ => true
  | .transferStep1 _ => true
  | .transitStep _ => true
  | .returnStep _ => true
  | .managementRequestPlaced => true
  | .managementRequestComplete _ => true
  | .mselAssert => true
  | .responseRead => true
  | .undecodableBlock bytes => carriesNoCommand bytes
  | .poll => true
  | .enrol _ _ _ _ _ => true
  | .find _ => true
  | .managementRead _ _ => true
  | .update _ _ _ _ _ => true
  | .freeze _ => true
  | .thaw _ => true
  | .retire _ => true
  | .topup _ _ => true
  | .adjust _ _ => true
  | .transfer _ _ _ _ => true
  | .transitClear _ _ => true
  | .restore _ _ _ _ _ => true
  | .holdRead _ => true
  | .holdRelease _ => true
  | .holdCapture _ => true
  | .tariffSet _ _ _ _ _ _ => true
  | .tariffRead _ => true
  | .linkSet _ _ _ _ _ => true
  | .linkRead _ => true
  | .noticeRead => true
  | .config _ _ => true
  | .mode _ => true
  | .timeRead => true
  | .reset => true
  | .softResetEffect => true
  | .rstFall => true
  | .rstRelease => true
  | .mainSupplyLoss => true
  | .mainSupplyReturn => true
  | .wakeEdge => true
  | .backupSupplyLow => true
  | .retainedStoreDisturbance d => d.wf
  | .oscillatorWarmUpDone => true
  | .phaseReady => true
  | .hldAssert _ => true

end Sys2Proof
end

