-- ==== Sys2Proof/Certificates/Slice0/Obligations.lean ====
section
/-! DEFINITION. The statements for the provers. -/

section
open Sys2Proof Sys2Proof.Machine

/-! ### The machine -/

/-- The model's own: a step runs the command at the front of the queue (log entry 27); an empty queue idles, or makes the
long check's next visit (log entry 6). -/
def Obligations.StepRunsTheFrontCommand : Prop :=
  (∀ (c : Instr) (rest : List Instr) (s : State), s.pending = c :: rest → step s = exec c (s.withPending rest)) ∧
  (∀ s : State, s.pending = [] → s.power.stage ≠ .longCheck → step s = .next s) ∧
  (∀ s : State, s.pending = [] → s.power.stage = .longCheck → step s = .next s.longCheckVisit)

/-- No command stops the chip, and none changes the queue of waiting commands (the queue is the model's own, log
entry 27). -/
def Obligations.EveryCommandAnswersANextState : Prop :=
  ∀ (c : Instr) (s : State), ∃ t, exec c s = .next t ∧ t.pending = s.pending

/-- R29, R30, R37, R47, R112, R162: outside READY in RUN or ECONOMY no unit takes work; in it an idle engine takes its
next piece in the arbiter's order, reading what the piece depends on: the records, the hold entry, the tariff entry, the
register and the timebase as they stand then. The idle index unit takes the oldest update, else the first occupied lookup
slot in rotation. An AUTHORIZE that passes its checks has placed its allocation claim (log entry 26). -/
def Obligations.WorkIsTakenInOrder : Prop :=
  (∀ (g : Lane) (s : State),
    (s.power.stage ≠ .ready ∨ s.power.mode = .standby ∨ s.power.mode = .retain) →
      exec .routerTake s = .next s ∧ exec (.engineTakeWork g) s = .next s ∧ exec .indexTakeWork s = .next s) ∧
  (∀ (g : Lane) (s : State), s.working = true → (s.engine g).op = none →
    (∀ c, (s.engine g).transit = some c →
      exec (.engineTakeWork g) s =
        .next (s.setEngine g { s.engine g with transit := none, op := some (s.readFor (.transit c)) })) ∧
    (∀ n rest, (s.engine g).transit = none → (s.engine g).slotFree = n :: rest →
      exec (.engineTakeWork g) s =
        .next (s.setEngine g { s.engine g with slotFree := rest, op := some (s.readFor (.slotFree n)) })) ∧
    (∀ t rest, (s.engine g).transit = none → (s.engine g).slotFree = [] → (s.engine g).expiry = t :: rest →
      exec (.engineTakeWork g) s =
        .next (s.setEngine g { s.engine g with expiry := rest, op := some (s.readFor (.expiry t)) })) ∧
    (∀ n, (s.engine g).transit = none → (s.engine g).slotFree = [] → (s.engine g).expiry = [] →
      (s.engine g).check = some n →
      exec (.engineTakeWork g) s =
        .next (s.setEngine g { s.engine g with check := none, op := some (s.readFor (.check n)) })) ∧
    (∀ r rest, (s.engine g).transit = none → (s.engine g).slotFree = [] → (s.engine g).expiry = [] →
      (s.engine g).check = none → (s.engine g).queue = r :: rest →
      exec (.engineTakeWork g) s =
        .next (s.setEngine g { s.engine g with queue := rest, op := some (s.readFor (.request r)) }))) ∧
  (∀ s : State, s.working = true → s.indexUnit.op = none →
    (∀ u rest, s.indexUnit.updates = u :: rest →
      exec .indexTakeWork s = .next { s with indexUnit := { s.indexUnit with updates := rest, op := some (.update u) } }) ∧
    (∀ i : Fin 5, s.indexUnit.updates = [] →
      [s.indexUnit.ptr, s.indexUnit.ptr + 1, s.indexUnit.ptr + 2, s.indexUnit.ptr + 3, s.indexUnit.ptr + 4].find?
        (fun j => (s.indexUnit.source j).isSome) = some i →
      exec .indexTakeWork s =
        .next { s with indexUnit := { s.indexUnit with op := s.indexUnit.source i, ptr := i + 1 } })) ∧
  (∀ (s : State) (w : Work),
    let op := s.readFor w
    op.work = w ∧ op.time = s.timebase ∧ op.transit = s.transit ∧
    (∀ n, (w = .slotFree n ∨ w = .check n) → op.record = s.record n) ∧
    (w = .transit .step2 → op.record = s.record s.transit.dst.slot.toNat) ∧
    (∀ refusal, w = .transit (.ret refusal) → op.record = s.record s.transit.src.slot.toNat) ∧
    (∀ t, (w = .expiry t ∨ (∃ o u, w = .request (.terminal o (.settle t u))) ∨
        (∃ o n, w = .request (.terminal o (.extend t n))) ∨ (∃ o, w = .request (.terminal o (.cancel t))) ∨
        w = .request (.mgmt (.holdRead t)) ∨ w = .request (.mgmt (.holdRelease t)) ∨
        w = .request (.mgmt (.holdCapture t))) →
      op.entry = s.hold t.entry.toNat ∧ op.record = s.record (s.hold t.entry.toNat).slot) ∧
    (∀ (o : Origin) (h : Handle), (w = .request (.terminal o (.read h)) ∨
        (∃ a m, w = .request (.terminal o (.debit h a m))) ∨ (∃ a, w = .request (.terminal o (.probe h a)))) →
      op.record = s.record h.slot.toNat) ∧
    (∀ (o : Origin) (h : Handle) (n : Byte) (u : B4) (window : B6), w = .request (.terminal o (.authorize h n u window)) →
      op.record = s.record h.slot.toNat ∧ op.tariff = s.tariff n.toNat ∧
      op.alloc = if authorizeRefusal h n u window (s.record h.slot.toNat) (s.tariff n.toNat) = none then .claimed
        else .notClaimed) ∧
    (∀ (m : MgmtReq) (h : Handle), w = .request (.mgmt m) →
      ((∃ full, m = .read h full) ∨ (∃ k f l x, m = .update h k f l x) ∨ m = .freeze h ∨ m = .thaw h ∨ m = .retire h ∨
        (∃ a, m = .topup h a) ∨ (∃ a, m = .adjust h a) ∨ (∃ b f l x, m = .restore h b f l x) ∨ m = .transitCredit h ∨
        (∃ d all a, m = .step1 h d all a) ∨ (∃ d all a, m = .sameTransfer h d all a)) →
      op.record = s.record h.slot.toNat) ∧
    (∀ (src dst : Handle) (all : Bool) (a : S8), w = .request (.mgmt (.sameTransfer src dst all a)) →
      op.record2 = s.record dst.slot.toNat) ∧
    (∀ n, (w = .request (.mgmt (.activate n)) ∨ ∃ k b f l x, w = .request (.mgmt (.create n k b f l x))) →
      op.record = s.record n))

/-! ### Wire formats -/

/-- R154, R155, R171: a block written from the layouts decodes to its command, whatever follows its extent. -/
def Obligations.CommandBlocksDecodeToWhatWasEncoded : Prop :=
  ∀ (c : Command) (extra : List Byte), decodeBlock (encodeCommand c ++ extra) = .ok c

/-- R41, R169: a request frame carries a good CRC and its tag, and decodes to its request, or to BAD_DIGIT. -/
def Obligations.RequestFramesDecodeToWhatWasEncoded : Prop :=
  ∀ (tag : Lane) (r : TermReq),
    crcGood (encodeRequest tag r) = true ∧ frameRestOk (encodeRequest tag r).tail = true ∧
      commandTag (frameCommand (encodeRequest tag r)) = tag ∧
      decodeRequest (frameCommand (encodeRequest tag r)) (framePayload (encodeRequest tag r)) =
        (if r.digitsOk then .ok r else .error .badDigit)

/-- R4: a record written with a new check code verifies, with the suspect flag clear or set; a record that cannot be
decoded never does. -/
def Obligations.SealedRecordsVerify : Prop :=
  ∀ (r : Record) (flag : Bool),
    (r.decodable = true → { r.seal with suspect := flag }.verifies = true) ∧
      (r.decodable = false → { r with suspect := flag }.verifies = false)

/-! ### Invariants -/

/-- The model's own form of its stores: every step keeps the sparse tables in canonical form. -/
def Obligations.EveryStepKeepsTheTablesCanonical : Prop :=
  ∀ s t : State, s.canonical → step s = .next t → t.canonical

/-- R26, R143, R145, R160: no queue ever holds more than its places. -/
def Obligations.EveryStepKeepsTheQueuesBounded : Prop :=
  ∀ s t : State, s.bounded → step s = .next t → t.bounded

/-- R147: every response in a link's queue belongs to a busy tag of its own. -/
def Obligations.EveryStepKeepsAnswersUnderTheirTags : Prop :=
  ∀ s t : State, s.answersTagged → step s = .next t → t.answersTagged

/-- R162 to R167: a chip without power, in RETAIN or with RST low is held in reset; R37, R97, R122: nothing waits and
nothing is in progress until the phase is READY. -/
def Obligations.EveryStepKeepsTheRestUntilReady : Prop :=
  ∀ s t : State, s.powerRule → s.restsUntilReady → step s = .next t → t.powerRule ∧ t.restsUntilReady

/-- R98, R103: the deadline queue stays ordered, with every item above the timebase. -/
def Obligations.EveryStepKeepsDeadlinesAhead : Prop :=
  ∀ s t : State, s.restsUntilReady → s.deadlinesAhead → step s = .next t → t.deadlinesAhead

/-- R150, R162: no link is faster than 19,200 in ECONOMY. -/
def Obligations.EveryStepKeepsEconomySlow : Prop :=
  ∀ s t : State, s.powerRule → s.restsUntilReady → s.slowInEconomy → step s = .next t → t.slowInEconomy

/-- R146: RDY is deasserted at the high mark, on a disabled link and outside READY. R161: ATTN stands exactly while the
notices reach the threshold. -/
def Obligations.EveryStepKeepsTheSignalRules : Prop :=
  ∀ s t : State, s.powerRule → s.restsUntilReady → s.rdyRule → s.attnRule → step s = .next t → t.rdyRule ∧ t.attnRule

/-- R109, R110, R117, R153: the command unit has one command's work in hand, and only while it is BUSY; an entry of the
key index stands in the bucket of its key, no two ways hold one key, and no way holds a key that an enrolment is still to
insert. -/
def Obligations.EveryStepKeepsEveryKeyInOneWay : Prop :=
  ∀ s t : State, s.canonical → s.taskRule → s.indexRule → step s = .next t → t.taskRule ∧ t.indexRule

/-- R3, R9, R70, R98, R104: each account's list holds the tickets of the open holds on it, at most four, each once, and
its held is the sum of their amounts; a LIVE hold has one item in the deadline queue or one expiry claim, never both; and
the work in progress agrees with the stores. A disturbance of a stored account state (R4) is the one command left out: it
may declare an account with open holds FREE, and an enrolment then writes over its list. -/
def Obligations.EveryStepKeepsHoldsAndDeadlines : Prop :=
  ∀ s t : State, s.canonical → s.powerRule → s.restsUntilReady → s.taskRule → s.indexRule →
    (∀ n v rest, s.pending ≠ .retainedStoreDisturbance (.record n (.stateCode v)) :: rest) →
    s.holdsRule → s.deadlinesRule → s.workRule → step s = .next t → t.holdsRule ∧ t.deadlinesRule ∧ t.workRule

/-- The state after reset satisfies every invariant stated here; its values are log entry 8's reading of R25, R166 and
R167. -/
def Obligations.ResetSatisfiesTheInvariants : Prop :=
  State.reset.canonical ∧ State.reset.bounded ∧ State.reset.answersTagged ∧ State.reset.powerRule ∧
    State.reset.restsUntilReady ∧ State.reset.deadlinesAhead ∧ State.reset.slowInEconomy ∧ State.reset.rdyRule ∧
    State.reset.attnRule ∧ State.reset.shortCheckRule ∧ State.reset.taskRule ∧ State.reset.indexRule ∧
    State.reset.holdsRule ∧ State.reset.deadlinesRule ∧ State.reset.workRule ∧ State.reset.power.mark = true ∧ State.reset.power.stage = .warmUp ∧
    State.reset.power.cause = .cold ∧ State.reset.pending = []

/-! ### Links and router -/

/-- R144 to R146, R164: START_BYTE begins a frame, and wakes the chip from STANDBY; FRAME_TIMEOUT and FRAME_DISCARD
discard a frame in reception and count it, saturating at 255. A complete frame with a bad CRC is counted; a good one joins
the FIFO, and RDY falls at the high mark; a good frame at a full FIFO is an overrun, reported once. At 9,600 baud the
timer discards a frame of more than 20 bytes, and the bytes after the twentieth are read from IDLE. -/
def Obligations.FramesAreReceivedOrDiscarded : Prop :=
  (∀ (l : Lane) (s : State), s.isReady = true → (s.link l).enabled = true →
    ((s.link l).receiver = .idle →
      exec (.startByte l) s = .next (s.wake.setLink l { s.link l with receiver := .inFrame [165] })) ∧
    (∀ bytes, (s.link l).receiver = .inFrame bytes →
      exec (.frameTimeout l) s =
        .next (s.setLink l { s.link l with receiver := .idle, badCrc := min 255 ((s.link l).badCrc + 1) }) ∧
      exec (.frameDiscard l .faultyStopBit) s =
        .next (s.setLink l { s.link l with receiver := .idle, badCrc := min 255 ((s.link l).badCrc + 1) })) ∧
    (∀ v : Byte, (s.link l).receiver = .inFrame [165] → (v.toNat < 5 ∨ 32 < v.toNat) →
      exec (.frameDiscard l (.lengthByte v)) s =
        .next (s.setLink l { s.link l with receiver := .idle, badCrc := min 255 ((s.link l).badCrc + 1) }))) ∧
  (∀ (l : Lane) (bytes : List Byte) (s : State), s.isReady = true → (s.link l).enabled = true →
    (s.link l).receiver = .inFrame [165] → frameRestOk bytes = true → (s.link l).fifo.length ≤ 16 →
    ((s.link l).baud ≠ 0 ∨ bytes.length < 20) →
    exec (.frameComplete l bytes) s = .next (
      if crcGood (165 :: bytes) = false then
        s.setLink l { s.link l with receiver := .idle, badCrc := min 255 ((s.link l).badCrc + 1) }
      else if (s.link l).fifo.length < 16 then
        s.setLink l { s.link l with receiver := .idle, fifo := (s.link l).fifo ++ [165 :: bytes],
                                    rdy := if (s.link l).high ≤ (s.link l).fifo.length + 1 then false else (s.link l).rdy }
      else if (s.link l).overrun = true then s.setLink l { s.link l with receiver := .idle, overrun := true }
      else (s.setLink l { s.link l with receiver := .idle, overrun := true }).post (.linkOverrun l 16))) ∧
  (∀ (l : Lane) (bytes : List Byte) (s : State), s.isReady = true → (s.link l).enabled = true →
    (s.link l).receiver = .inFrame [165] → frameRestOk bytes = true → (s.link l).baud = 0 → 20 ≤ bytes.length →
    let discarded := s.setLink l { s.link l with receiver := .idle, badCrc := min 255 ((s.link l).badCrc + 1) }
    exec (.frameComplete l bytes) s = exec (.frameComplete l (bytes.drop 19)) discarded ∧
      ((165 : Byte) ∉ bytes.drop 19 → exec (.frameComplete l bytes) s = .next discarded))

/-- R148: RESPONSE_SENT frees the tag and the next response begins when it may; HLD holds the transmitter. -/
def Obligations.ResponsesLeaveInOrder : Prop :=
  ∀ (l : Lane) (s : State),
    (∀ r rest, (s.link l).queue = r :: rest → (s.link l).sending = true →
      exec (.responseSent l) s = .next (s.setLink l
        { s.link l with queue := rest, tags := (s.link l).tags.set (commandTag r.cmd) false, lastSent := some r,
                        sending := (s.link l).enabled && !rest.isEmpty && !(s.link l).hld })) ∧
    exec (.hldAssert l) s = .next (s.setLink l { s.link l with hld := true }) ∧
    exec (.hldDeassert l) s = .next (s.setLink l
      { s.link l with hld := false, sending := (s.link l).sending || ((s.link l).enabled && !(s.link l).queue.isEmpty) })

/-- R39, R42, R44, R45: ROUTER_TAKE takes the first takeable head frame in rotation, marks its tag busy, and delivers or
answers it. -/
def Obligations.RouterTakesTheFirstTakeableFrame : Prop :=
  ∀ (s : State) (l : Lane) (frame : List Byte) (rest : List (List Byte)), s.answersTagged →
    [s.router, s.router + 1, s.router + 2, s.router + 3].find? s.takeable = some l →
    (s.link l).fifo = frame :: rest →
    let taken := { s.link l with
      fifo := rest, tags := (s.link l).tags.set (commandTag (frameCommand frame)) true,
      rdy := decide (rest.length ≤ (s.link l).resume) || (s.link l).rdy }
    let o : Origin := ⟨l, frameCommand frame, (s.link l).epoch⟩
    ∃ t, exec .routerTake s = .next t ∧ t.router = l + 1 ∧ (∀ m, m ≠ l → t.link m = s.link m) ∧
      t = { s with links := t.links, router := t.router, engines := t.engines, indexUnit := t.indexUnit } ∧
      (∀ st, routeFrame s frame = .answer st →
        t.link l = { taken with queue := (s.link l).queue ++ [⟨frameCommand frame, st, .bare⟩],
                                sending := (s.link l).sending || !(s.link l).hld } ∧
          t.engines = s.engines ∧ t.indexUnit = s.indexUnit) ∧
      (∀ g r, routeFrame s frame = .engine g r →
        t.link l = taken ∧ t.engine g = { s.engine g with queue := (s.engine g).queue ++ [.terminal o r] } ∧
          (t.engine g).queue.length ≤ 8 ∧ s.otherEngines t g ∧ t.indexUnit = s.indexUnit) ∧
      (∀ key, routeFrame s frame = .index key →
        t.link l = taken ∧ t.engines = s.engines ∧
          t.indexUnit = { s.indexUnit with lookups := s.indexUnit.lookups.set l (some ⟨o, key⟩) })

/-- R45: a frame answered at once is taken only when its tag is free, marks the tag busy and is answered at that same
event, needs no place in a group queue, and its tag is free again when the response's last byte has been sent. -/
def Obligations.DirectAnswersPassThroughTheirTags : Prop :=
  ∀ (s : State) (l : Lane) (frame : List Byte) (rest : List (List Byte)) (st : Status), s.answersTagged →
    (s.link l).fifo = frame :: rest → routeFrame s frame = .answer st →
    (st = .badCommand ∨ st = .badLength ∨ st = .badDigit ∨ st = .holdGone) ∧
    s.takeable l = (s.working && (s.link l).enabled && !(s.link l).tags.get (commandTag (frameCommand frame))) ∧
    (s.takeable l = true → s.router = l →
      ∃ t, exec .routerTake s = .next t ∧ (t.link l).fifo = rest ∧ t.engines = s.engines ∧
        (t.link l).tags.get (commandTag (frameCommand frame)) = true ∧
        (t.link l).queue = (s.link l).queue ++ [⟨frameCommand frame, st, .bare⟩]) ∧
    (∀ t : State, (t.link l).sending = true → (t.link l).queue.head? = some ⟨frameCommand frame, st, .bare⟩ →
      ∃ u, exec (.responseSent l) t = .next u ∧ (u.link l).tags.get (commandTag (frameCommand frame)) = false ∧
        (u.link l).lastSent = some ⟨frameCommand frame, st, .bare⟩) ∧
    Response.bytes ⟨frameCommand frame, st, .bare⟩ = frameOf (frameCommand frame) [st.code]

/-- R41 to R43: the router's decoding order, and where a well-formed request goes. -/
def Obligations.RouterDecodesInOrder : Prop :=
  ∀ (s : State) (frame : List Byte),
    ((commandCode (frameCommand frame) = 0 ∨ 8 < commandCode (frameCommand frame)) →
      routeFrame s frame = .answer .badCommand) ∧
    (∀ n, requestLength (commandCode (frameCommand frame)) = some n → (framePayload frame).length ≠ n →
      routeFrame s frame = .answer .badLength) ∧
    (∀ n r, requestLength (commandCode (frameCommand frame)) = some n → (framePayload frame).length = n →
      requestFields (commandCode (frameCommand frame)) (framePayload frame) = some r → r.digitsOk = false →
      routeFrame s frame = .answer .badDigit) ∧
    (∀ r, decodeRequest (frameCommand frame) (framePayload frame) = .ok r →
      (∀ key, r = .lookup key → routeFrame s frame = .index key) ∧
      (∀ h, (r = .read h ∨ (∃ t u w, r = .authorize h t u w) ∨ (∃ a m, r = .debit h a m) ∨ (∃ a, r = .probe h a)) →
        routeFrame s frame = .engine (laneOf h.slot.toNat) r) ∧
      (∀ t, ((∃ u, r = .settle t u) ∨ (∃ n, r = .extend t n) ∨ r = .cancel t) →
        routeFrame s frame = (if ticketCurrent t (s.hold t.entry.toNat) = true then
          .engine (laneOf (s.hold t.entry.toNat).slot) r else .answer .holdGone)))

/-! ### Operations at the engines -/

/-- R7, R33, R52: a terminal READ answers the account report and writes nothing but the suspect flag of a mismatch. -/
def Obligations.TerminalReadAnswersTheRecord : Prop :=
  ∀ (g : Lane) (s : State) (op : Operation) (o : Origin) (h : Handle), s.terminalOp g = some (op, o, .read h) →
    ∃ t, exec (.terminalRead g) s = .next t ∧ t.engine g = { s.engine g with op := none } ∧ s.otherEngines t g ∧
      (∀ st, handleTest h op.record = some st →
        s.answered t o st .bare ∧ t = { s with engines := t.engines, links := t.links }) ∧
      (handleTest h op.record = none →
        s.answered t o .ok (.report (reportOf op.record.found (storedConds op.record))) ∧
          (op.record.verifies = true → t = { s with engines := t.engines, links := t.links }) ∧
          (op.record.verifies = false →
            t.record h.slot.toNat = { s.record h.slot.toNat with suspect := true } ∧
              s.otherRecords t h.slot.toNat ∧
              s.noticed t (if (s.record h.slot.toNat).suspect = true then [] else
                [.suspectFound h.slot.toNat (s.record h.slot.toNat).gen (s.record h.slot.toNat).state .operation]) ∧
              t = { s with accounts := t.accounts, notices := t.notices, engines := t.engines, links := t.links }))

/-- R54, R55, R59: the credit test of a DEBIT on a sound ACTIVE account, whose balance goes into the record as it stands
at the completion (log entry 11). STRICT charges the amount where it is not above spendable; PARTIAL charges the smaller
of the amount and spendable where spendable is above 0; else SHORT. No DEBIT is refused with OVER, and one that passes
leaves the balance in range. -/
def Obligations.DebitChargesOrAnswersShort : Prop :=
  ∀ (g : Lane) (s : State) (op : Operation) (o : Origin) (h : Handle) (amount : S8) (how : Byte),
    s.terminalOp g = some (op, o, .debit h amount how) →
    ((debitOutcome h amount how op.record).1 ≠ .overRange) ∧
    (1 ≤ amount.value → amount.value ≤ 99999999 → (how = 0 ∨ how = 1) → handleTest h op.record = none →
      op.record.state = .active → op.record.sound →
      let r := op.record
      let passes := (how = 0 ∧ amount.value ≤ r.spendable) ∨ (how = 1 ∧ 0 < r.spendable)
      let c := if how = 0 then amount.value else min amount.value r.spendable
      (passes →
        ∃ t, exec (.debit g) s = .next t ∧ t.engine g = { s.engine g with op := none } ∧ s.otherEngines t g ∧
          t.record h.slot.toNat = { s.record h.slot.toNat with balance := S8.ofInt (r.bal - c) }.seal ∧
          s.otherRecords t h.slot.toNat ∧
          s.answered t o .ok (.debited c.toNat
            ⟨(S8.ofInt (r.bal - c)).sent, r.held, (S8.ofInt (r.bal - c)).value + r.floorValue - r.held, .active, false,
              r.holds.length, { balanceConds (r.bal - c) r.lowValue with short := decide (c < amount.value) }⟩) ∧
          s.noticed t (if (r.lowValue : Int) ≤ r.bal ∧ r.bal - c < r.lowValue then
            [.lowBalance ⟨BitVec.ofNat 16 h.slot.toNat, r.gen⟩ (S8.ofInt (r.bal - c))] else []) ∧
          t = { s with accounts := t.accounts, notices := t.notices, engines := t.engines, links := t.links } ∧
          0 < c ∧ (r.held : Int) - 999999 ≤ r.bal - c ∧ -99999999 ≤ r.bal - c ∧ r.bal - c ≤ 99999999 ∧
          (how = 1 → c < amount.value → r.bal - c + r.floorValue - r.held = 0) ∧
          (how = 1 → 0 ≤ r.bal - c + r.floorValue - r.held)) ∧
      (¬passes →
        ∃ t, exec (.debit g) s = .next t ∧ t.engine g = { s.engine g with op := none } ∧ s.otherEngines t g ∧
          s.answered t o .short (.report
            ⟨r.balance.sent, r.held, r.spendable, .active, false, r.holds.length,
              { balanceConds (r.bal - amount.value) r.lowValue with short := true }⟩) ∧
          t = { s with engines := t.engines, links := t.links }))

/-- R33, R53, R56: the checks of DEBIT and PROBE in their order, each refusal with what it carries, writing nothing but
the flag of a mismatch, which refuses with SUSPECT in an ACTIVE account; a PROBE that passes answers the stored figures
with the would-be conditions and writes nothing. -/
def Obligations.DebitAndProbeAnswerInOrder : Prop :=
  ∀ (g : Lane) (s : State) (op : Operation) (o : Origin) (h : Handle) (amount : S8) (how : Byte) (probe : Bool),
    s.terminalOp g = some (op, o, if probe then .probe h amount else .debit h amount how) →
    let inRange := 1 ≤ amount.value ∧ amount.value ≤ 99999999 ∧ (probe = true ∨ how = 0 ∨ how = 1)
    let wouldBe := TermBody.report (reportOf op.record.found
      { balanceConds (op.record.bal - amount.value) op.record.lowValue with
          short := decide (op.record.spendable < amount.value) })
    ∃ t, exec (if probe then .probe g else .debit g) s = .next t ∧ t.engine g = { s.engine g with op := none } ∧
      s.otherEngines t g ∧
      (¬inRange → s.answered t o .badRange .bare ∧ t = { s with engines := t.engines, links := t.links }) ∧
      (∀ st, inRange → handleTest h op.record = some st →
        s.answered t o st .bare ∧ t = { s with engines := t.engines, links := t.links }) ∧
      (inRange → handleTest h op.record = none →
        (op.record.state = .frozen → s.answered t o .frozen wouldBe) ∧
        (op.record.state = .closing → s.answered t o .closing wouldBe) ∧
        ((op.record.state = .frozen ∨ op.record.state = .closing) → op.record.verifies = true →
          t = { s with engines := t.engines, links := t.links }) ∧
        (op.record.state = .active → (op.record.suspect = true ∨ op.record.verifies = false) →
          s.answered t o .suspect .bare) ∧
        (op.record.verifies = false → s.onlyFlags t h.slot.toNat true ∧
          t = { s with accounts := t.accounts, notices := t.notices, engines := t.engines, links := t.links }) ∧
        (op.record.state = .active → op.record.suspect = true → op.record.verifies = true →
          t = { s with engines := t.engines, links := t.links }) ∧
        (probe = true → op.record.state = .active → op.record.sound →
          s.answered t o .ok wouldBe ∧ t = { s with engines := t.engines, links := t.links }))

/-! ### Holds -/

/-- R76, R77, R99, R103: an AUTHORIZE with its allotted entry writes the hold LIVE, appends its ticket, raises held and
inserts the hold into the deadline queue; the retained part and the notices are as before. A deadline that the timebase
has reached by the completion is due on insertion: its claim is posted at once. -/
def Obligations.AuthorizeCreatesTheHold : Prop :=
  ∀ (g : Lane) (s : State) (op : Operation) (o : Origin) (h : Handle) (tariff : Byte) (units : B4) (window : B6) (n : Nat),
    s.terminalOp g = some (op, o, .authorize h tariff units window) → op.alloc = .allotted n → n < 256 →
    let seconds := if B6.value window = 0 then op.tariff.window else B6.value window
    let deadline := min (op.time + seconds) 4294967295
    let amount := B4.value units * op.tariff.price
    let ticket : Ticket := ⟨BitVec.ofNat 8 n, (s.hold n).serial.zeroExtend 8⟩
    let due := deadline ≤ s.timebase
    (due → s.isReady = true) → (∀ i ∈ s.deadlines, s.timebase < i.deadline) →
    ∃ t, exec (.authorize g) s = .next t ∧
      (∀ m, t.engine m = { s.engine m with
        op := if m = g then none else (s.engine m).op,
        expiry := if due ∧ m = laneOf h.slot.toNat then (s.engine m).expiry ++ [ticket] else (s.engine m).expiry }) ∧
      t.hold n = { state := .live, serial := (s.hold n).serial, slot := h.slot.toNat, gen := h.gen, link := o.link,
                   epoch := o.epoch, tariff := tariff.toNat, units := B4.value units, price := op.tariff.price,
                   amount := amount, deadline := deadline, extensions := 0, action := op.tariff.action } ∧
      s.otherHolds t n ∧
      t.record h.slot.toNat =
        { s.record h.slot.toNat with held := (s.record h.slot.toNat).held + amount,
                                     holds := (s.record h.slot.toNat).holds ++ [ticket] } ∧
      s.otherRecords t h.slot.toNat ∧
      t.deadlines = (if due then s.deadlines else insertItem ⟨ticket, deadline⟩ s.deadlines) ∧
      t.power = (if due then s.wake.power else s.power) ∧
      s.answered t o .ok (.authorized ticket amount deadline
        ⟨op.record.balance.sent, op.record.held + amount, op.record.bal + op.record.floorValue - (op.record.held + amount : Nat),
          op.record.state, op.record.suspect || !op.record.verifies, op.record.holds.length + 1,
          balanceConds op.record.bal op.record.lowValue⟩) ∧
      t = { s with accounts := t.accounts, holds := t.holds, deadlines := t.deadlines, engines := t.engines, links := t.links,
                   power := t.power }

/-- R33, R73, R75, R78, R128: the checks of an AUTHORIZE in their order, with each refusal and what it carries; refused by
them, or with HOLDS_FULL by the allocator, an AUTHORIZE writes nothing but the suspect flag of a mismatch, which is looked
for once the handle test has passed. -/
def Obligations.AuthorizeRefusesInOrder : Prop :=
  (∀ (h : Handle) (tariff : Byte) (units : B4) (window : B6) (r : Record) (t : Tariff),
    let refusal := authorizeRefusal h tariff units window r t
    let found := { r with suspect := r.suspect || !r.verifies }
    let c := storedConds r
    let rangeOk := tariff.toNat ≤ 15 ∧ (B6.value window = 0 ∨ (10 ≤ B6.value window ∧ B6.value window ≤ 43200))
    let amount := B4.value units * t.price
    (¬rangeOk → refusal = some (.badRange, .bare)) ∧
    (rangeOk → ∀ st, handleTest h r = some st → refusal = some (st, .bare)) ∧
    (rangeOk → handleTest h r = none →
      (r.state = .frozen → refusal = some (.frozen, .report (reportOf found c))) ∧
      (r.state = .closing → refusal = some (.closing, .report (reportOf found c))) ∧
      (r.state = .active →
        ((r.suspect = true ∨ r.verifies = false) → refusal = some (.suspect, .bare)) ∧
        (r.suspect = false → r.verifies = true →
          refusal =
            if t.enabled = false then some (.tariffOff, .report (reportOf r c))
            else if inTariffSet r.tariffs tariff.toNat = false then some (.tariffDenied, .report (reportOf r c))
            else if B4.value units = 0 ∨ t.maxUnits < B4.value units then
              some (.unitsLimit, .unitsLimit (reportOf r c) t.maxUnits)
            else if 4 ≤ r.holds.length then some (.accountHoldsFull, .report (reportOf r c))
            else if r.spendable < amount then some (.short, .shortAsked (reportOf r { c with short := true }) amount)
            else if 99999999 < r.held + amount then some (.overRange, .report (reportOf r { c with overRange := true }))
            else none)))) ∧
  (∀ (g : Lane) (s : State) (op : Operation) (o : Origin) (h : Handle) (tariff : Byte) (units : B4) (window : B6)
    (st : Status) (body : TermBody),
    s.terminalOp g = some (op, o, .authorize h tariff units window) →
    ((op.alloc = .notClaimed ∧ authorizeRefusal h tariff units window op.record op.tariff = some (st, body)) ∨
      (op.alloc = .full ∧ op.record.verifies = true ∧ st = .holdsFull ∧
        body = .report (reportOf op.record (storedConds op.record)))) →
    ∃ t, exec (.authorize g) s = .next t ∧ s.answered t o st body ∧ t.engine g = { s.engine g with op := none } ∧
      s.otherEngines t g ∧
      s.onlyFlags t h.slot.toNat (decide (op.record.verifies = false ∧ handleTest h op.record = none ∧ tariff.toNat ≤ 15 ∧
        (B6.value window = 0 ∨ (10 ≤ B6.value window ∧ B6.value window ≤ 43200)))) ∧
      t = { s with accounts := t.accounts, notices := t.notices, engines := t.engines, links := t.links })

/-- R73: the allocator serves the first claim in rotation with the lowest-numbered entry that is FREE and not allotted,
or answers HOLDS_FULL. -/
def Obligations.AllocatorServesInRotation : Prop :=
  ∀ (s : State) (g : Lane),
    [s.allocPtr, s.allocPtr + 1, s.allocPtr + 2, s.allocPtr + 3].find? s.claimsEntry = some g →
    ∃ t a, exec .holdEntryAllocation s = .next t ∧ t.allocPtr = g + 1 ∧
      t.engine g = { s.engine g with op := (s.engine g).op.map fun op => { op with alloc := a } } ∧ s.otherEngines t g ∧
      t = { s with engines := t.engines, allocPtr := t.allocPtr } ∧
      (∀ n, n < 256 → (s.hold n).state = .free → s.isAllotted n = false →
        (∀ m, m < n → (s.hold m).state ≠ .free ∨ s.isAllotted m = true) → a = .allotted n) ∧
      ((∀ n, n < 256 → (s.hold n).state ≠ .free ∨ s.isAllotted n = true) → a = .full)

/-- R35, R51, R59, R79 to R83: a SETTLE by the owner of a LIVE hold on a sound account charges the units used, at most the
hold's amount, and a CANCEL by the owner ends a LIVE or STALLED hold without charge, suspect or not; each ends the hold
and answers the account's report after the ending. A mismatch that CANCEL finds sets the flag, and its SUSPECT_FOUND
tells the state before the ending (log entry 20). SETTLE and CANCEL refused: HOLD_GONE, NOT_OWNER, and for SETTLE
SUSPECT; nothing is written but the flag of a mismatch on the record of a current ticket's account (R33). held after an
ending whose amount is above it is a free value (log entry 35); an ending of a ticket that is on no list is log entry 36;
which record counts where a disturbance falls between is log entry 11. -/
def Obligations.SettleAndCancelEndTheHold : Prop :=
  (∀ (g : Lane) (s : State) (op : Operation) (o : Origin) (t : Ticket) (units : B4),
    s.terminalOp g = some (op, o, .settle t units) → ticketOfGroup g t op.entry = true → o.link = op.entry.link →
    o.epoch = op.entry.epoch → op.entry.state = .live → op.record.sound →
    let e := op.entry
    let r := op.record
    let usage : Nat := min (B4.value units * e.price) e.amount
    let charge : Int := if r.bal - usage < -99999999 then r.bal + 99999999 else usage
    let left := r.holds.filter (· ≠ t)
    ∃ s', exec (.settle g) s = .next s' ∧
      s.holdEnded s' g t e r (if 0 < charge then some (r.bal - charge) else none) ∧
      s.noticed s' (if 0 < charge ∧ (r.lowValue : Int) ≤ r.bal ∧ r.bal - charge < r.lowValue then
        [.lowBalance ⟨BitVec.ofNat 16 e.slot, r.gen⟩ (S8.ofInt (r.bal - charge))] else []) ∧
      s.answered s' o .ok (.settled t charge.toNat
        { balance := if 0 < charge then (S8.ofInt (r.bal - charge)).sent else r.balance.sent
          held := heldWithout r.held e.amount
          spendable := r.bal - charge + r.floorValue - (heldWithout r.held e.amount : Nat)
          state := if r.state = .closing ∧ left = [] then .gone else r.state
          suspect := false
          count := left.length
          conds := ⟨decide (r.bal - charge = 0), decide (r.bal - charge < 0), decide (r.bal - charge < r.lowValue), false,
            decide (r.bal - usage < -99999999), decide (e.amount < B4.value units * e.price)⟩ }) ∧
      ((∀ i ∈ s.deadlines, s.timebase < i.deadline) → s'.power = s.power) ∧
      (∀ m, s'.engine m = { s.engine m with op := if m = g then none else (s.engine m).op,
                                            expiry := (s'.engine m).expiry }) ∧
      s' = { s with accounts := s'.accounts, holds := s'.holds, deadlines := s'.deadlines, engines := s'.engines,
                    indexUnit := s'.indexUnit, links := s'.links, notices := s'.notices, power := s'.power }) ∧
  (∀ (g : Lane) (s : State) (op : Operation) (o : Origin) (t : Ticket),
    s.terminalOp g = some (op, o, .cancel t) → ticketOfGroup g t op.entry = true → o.link = op.entry.link →
    o.epoch = op.entry.epoch →
    let e := op.entry
    let r := op.record
    let left := r.holds.filter (· ≠ t)
    ∃ s', exec (.cancel g) s = .next s' ∧ s.holdEnded s' g t e r none ∧
      s.answered s' o .ok (.cancelled t
        { balance := r.balance.sent
          held := heldWithout r.held e.amount
          spendable := r.bal + r.floorValue - (heldWithout r.held e.amount : Nat)
          state := if r.state = .closing ∧ left = [] then .gone else r.state
          suspect := r.suspect || !r.verifies
          count := left.length
          conds := balanceConds r.bal r.lowValue }) ∧
      s.noticed s' (if r.verifies = false ∧ (s.record e.slot).suspect = false then
        [.suspectFound e.slot (s.record e.slot).gen (s.record e.slot).state .operation] else []) ∧
      ((∀ i ∈ s.deadlines, s.timebase < i.deadline) → s'.power = s.power) ∧
      (∀ m, s'.engine m = { s.engine m with op := if m = g then none else (s.engine m).op,
                                            expiry := (s'.engine m).expiry }) ∧
      s' = { s with accounts := s'.accounts, holds := s'.holds, deadlines := s'.deadlines, engines := s'.engines,
                    indexUnit := s'.indexUnit, links := s'.links, notices := s'.notices, power := s'.power }) ∧
  (∀ (g : Lane) (s : State) (op : Operation) (o : Origin) (t : Ticket) (units : B4) (settle : Bool) (st : Status)
    (body : TermBody),
    s.terminalOp g = some (op, o, if settle then .settle t units else .cancel t) →
    ((ticketOfGroup g t op.entry = false ∧ st = .holdGone ∧ body = .bare) ∨
      (ticketOfGroup g t op.entry = true ∧ (o.link ≠ op.entry.link ∨ o.epoch ≠ op.entry.epoch) ∧ st = .notOwner ∧
        body = .ticket t) ∨
      (settle = true ∧ ticketOfGroup g t op.entry = true ∧ o.link = op.entry.link ∧ o.epoch = op.entry.epoch ∧
        (op.entry.state = .stalled ∨ op.record.suspect = true ∨ op.record.verifies = false) ∧ st = .suspect ∧
        body = .ticket t)) →
    ∃ s', exec (if settle then .settle g else .cancel g) s = .next s' ∧ s.answered s' o st body ∧
      s'.engine g = { s.engine g with op := none } ∧ s.otherEngines s' g ∧
      s.onlyFlags s' op.entry.slot (ticketOfGroup g t op.entry && !op.record.verifies) ∧
      s' = { s with accounts := s'.accounts, notices := s'.notices, engines := s'.engines, links := s'.links })

/-- R33, R84, R85, R99, R100, R103: an EXTEND that passes moves the deadline and re-places the hold, whose claim is posted
at once where the timebase has reached the new deadline; the refusals stand in the order of its checks, and a claim found
at the completion refuses it with EXPIRING, nothing being written but the flag of a mismatch. -/
def Obligations.ExtendMovesTheDeadline : Prop :=
  (∀ (g : Lane) (o : Origin) (t : Ticket) (n : Nat) (e : HoldEntry) (r : Record) (time : Nat) (claimed : Bool),
    extendRefusal g o t n e r time claimed =
      (if n < 10 ∨ 43200 < n then some (.badRange, .bare)
      else if ticketOfGroup g t e = false then some (.holdGone, .bare)
      else if o.link ≠ e.link ∨ o.epoch ≠ e.epoch then some (.notOwner, .ticket t)
      else if e.state = .stalled ∨ r.suspect = true ∨ r.verifies = false then some (.suspect, .extendRefused t e.deadline e.extensions)
      else if claimed = true then some (.expiring, .extendRefused t e.deadline e.extensions)
      else if 3 ≤ e.extensions then some (.extendLimit, .extendRefused t e.deadline e.extensions)
      else if time + 86400 < e.deadline + n then some (.badRange, .extendRefused t e.deadline e.extensions)
      else none)) ∧
  (∀ (g : Lane) (s : State) (op : Operation) (o : Origin) (t : Ticket) (seconds : B6),
    s.terminalOp g = some (op, o, .extend t seconds) →
    (∀ st body, extendRefusal g o t (B6.value seconds) op.entry op.record op.time (s.isClaimed g t) = some (st, body) →
      ∃ s', exec (.extend g) s = .next s' ∧ s.answered s' o st body ∧
        s'.engine g = { s.engine g with op := none } ∧ s.otherEngines s' g ∧
        s.onlyFlags s' op.entry.slot (decide (10 ≤ B6.value seconds ∧ B6.value seconds ≤ 43200) &&
          ticketOfGroup g t op.entry && !op.record.verifies) ∧
        s' = { s with accounts := s'.accounts, notices := s'.notices, engines := s'.engines, links := s'.links }) ∧
    (10 ≤ B6.value seconds → B6.value seconds ≤ 43200 → ticketOfGroup g t op.entry = true → o.link = op.entry.link →
      o.epoch = op.entry.epoch → op.entry.state = .live → op.record.sound → s.isClaimed g t = false →
      op.entry.extensions < 3 → op.entry.deadline + B6.value seconds ≤ op.time + 86400 →
      let deadline := min (op.entry.deadline + B6.value seconds) 4294967295
      let due := deadline ≤ s.timebase
      (due → s.isReady = true) → (∀ i ∈ s.deadlines, i.ticket ≠ t → s.timebase < i.deadline) →
      ∃ s', exec (.extend g) s = .next s' ∧ s.otherEngines s' g ∧
        s'.engine g = { s.engine g with
          op := none, expiry := if due then (s.engine g).expiry ++ [t] else (s.engine g).expiry } ∧
        s'.hold t.entry.toNat = { op.entry with deadline := deadline, extensions := op.entry.extensions + 1 } ∧
        s.otherHolds s' t.entry.toNat ∧
        (let others := s.deadlines.filter fun i => i.ticket != t
         s'.deadlines = if due then others else insertItem ⟨t, deadline⟩ others) ∧
        s'.power = (if due then s.wake.power else s.power) ∧
        s.answered s' o .ok (.extended t deadline (2 - op.entry.extensions)) ∧
        s' = { s with holds := s'.holds, deadlines := s'.deadlines, engines := s'.engines, links := s'.links,
                      power := s'.power }))

/-- R33, R35, R90 to R93: an expiry claim: stale, discarded; RELEASE, the hold ends without charge; CAPTURE on a sound
account, it ends with its full amount, clamped; CAPTURE on a suspect account, it turns STALLED, and neither balance nor
check code is written. A mismatch sets the flag, and its SUSPECT_FOUND comes first and tells the state before the ending
(log entry 20). CLOSING, the last ticket and the key removed are those of the record as read (log entry 11); held after an
ending whose amount is above it is a free value (log entry 35); an ending of a ticket that is on no list is log entry
36. A claim that is discarded, or turns its hold STALLED, leaves the claims that wait at every engine (R104); so does an
ending, but for the hold's own, where no deadline has been reached (State.holdEnded). -/
def Obligations.ExpiryEndsOrStallsTheHold : Prop :=
  ∀ (g : Lane) (s : State) (op : Operation) (t : Ticket), (s.engine g).op = some op → op.work = .expiry t →
    let e := op.entry
    let r := op.record
    let charge : Int := if r.bal - e.amount < -99999999 then r.bal + 99999999 else e.amount
    let h : Handle := ⟨BitVec.ofNat 16 e.slot, e.gen⟩
    let found := if r.verifies = false ∧ (s.record e.slot).suspect = false then
      [Notice.suspectFound e.slot (s.record e.slot).gen (s.record e.slot).state .operation] else []
    ∃ s', exec (.expiry g) s = .next s' ∧
      (ticketOfGroup g t e = false → s' = { s with engines := s'.engines } ∧
        ∀ m, (s'.engine m).expiry = (s.engine m).expiry) ∧
      (ticketOfGroup g t e = true → e.action = .release → s.holdEnded s' g t e r none ∧
        s.noticed s' (found ++ [.holdExpired t h .release 0 false])) ∧
      (ticketOfGroup g t e = true → e.action = .capture → r.sound →
        s.holdEnded s' g t e r (if 0 < charge then some (r.bal - charge) else none) ∧
        s.noticed s' ([.holdExpired t h .capture charge.toNat (decide (r.bal - e.amount < -99999999))] ++
          (if 0 < charge ∧ (r.lowValue : Int) ≤ r.bal ∧ r.bal - charge < r.lowValue then
            [.lowBalance ⟨BitVec.ofNat 16 e.slot, r.gen⟩ (S8.ofInt (r.bal - charge))] else []))) ∧
      (ticketOfGroup g t e = true → e.action = .capture → (r.suspect = true ∨ r.verifies = false) →
        s'.hold t.entry.toNat = { e with state := .stalled } ∧ s.otherHolds s' t.entry.toNat ∧
        s'.record e.slot = { s.record e.slot with suspect := (s.record e.slot).suspect || !r.verifies } ∧
        s.otherRecords s' e.slot ∧ s.noticed s' (found ++ [.holdExpired t h .stalled 0 false]) ∧
        (r.verifies = true → s'.accounts = s.accounts) ∧
        s' = { s with accounts := s'.accounts, holds := s'.holds, notices := s'.notices, engines := s'.engines } ∧
        ∀ m, (s'.engine m).expiry = (s.engine m).expiry) ∧
      ((∀ i ∈ s.deadlines, s.timebase < i.deadline) → s'.power = s.power) ∧
      (∀ m, s'.engine m = { s.engine m with op := if m = g then none else (s.engine m).op,
                                            expiry := (s'.engine m).expiry }) ∧
      s' = { s with accounts := s'.accounts, holds := s'.holds, deadlines := s'.deadlines, engines := s'.engines,
                    indexUnit := s'.indexUnit, notices := s'.notices, power := s'.power }

/-- R8, R20, R21: SLOT_FREE writes the slot FREE with its generation raised, and posts RETIRED. It writes and reports from
the record as read at the taking (log entry 32), whatever state that record was in (log entry 39). -/
def Obligations.SlotFreeFreesTheSlot : Prop :=
  ∀ (g : Lane) (s : State) (op : Operation) (n : Nat), (s.engine g).op = some op → op.work = .slotFree n →
    ∃ t, exec (.slotFree g) s = .next t ∧ t.engine g = { s.engine g with op := none } ∧ s.otherEngines t g ∧
      (t.record n).state = .free ∧ (t.record n).gen = op.record.gen + 1 ∧ (t.record n).key = 0 ∧ (t.record n).bal = 0 ∧
      (t.record n).floorValue = 0 ∧ (t.record n).lowValue = 0 ∧ (t.record n).tariffs = 0 ∧
      (t.record n).suspect = false ∧ (t.record n).verifies = true ∧ (t.record n).held = 0 ∧ (t.record n).holds = [] ∧
      s.otherRecords t n ∧
      s.noticed t [.retired op.record.key n op.record.balance.sent (op.record.suspect || !op.record.verifies)] ∧
      t = { s with accounts := t.accounts, notices := t.notices, engines := t.engines }

/-! ### Deadlines and checks -/

/-- R96, R98, R103, R108, R135: a second raises the timebase, counts the interval timer down in RUN and ECONOMY, and posts
every claim that has fallen due, waking the chip from STANDBY first; HOLD_FALLS_DUE is the due test alone (log
entry 4). Of each engine the test changes the expiry claims; the check claims, the cursor, the slice and the owed mark are
those of a slice that begins at an interval expiry (IntervalExpiryBeginsASlice), and stay as they are where the timer is
stopped or does not count. Nothing else changes. -/
def Obligations.DueHoldsArePostedInQueueOrder : Prop :=
  (∀ s : State, s.isReady = true → s.deadlinesAhead →
    (4294967295 ≤ s.timebase → exec .timebaseRaise s = .next s) ∧
    (s.timebase < 4294967295 →
      ∃ t, exec .timebaseRaise s = .next t ∧ t.timebase = s.timebase + 1 ∧
        t.deadlines = s.deadlines.filter (fun i => decide (s.timebase + 1 < i.deadline)) ∧
        (∀ g, (t.engine g).expiry = (s.engine g).expiry ++
          ((s.deadlines.filter fun i => decide (i.deadline ≤ s.timebase + 1) &&
            laneOf (s.hold i.ticket.entry.toNat).slot == g).map DeadlineItem.ticket)) ∧
        t.power = (if s.power.mode = .standby ∧ (s.deadlines.any fun i => decide (i.deadline ≤ s.timebase + 1)) = true
          then { s.power with mode := s.power.resume } else s.power) ∧
        (∀ n, s.check.timer = some n → (s.power.mode = .run ∨ s.power.mode = .economy) →
          t.check.timer = some (if n ≤ 1 then s.cmd.interval else n - 1)) ∧
        ((s.power.mode ≠ .run ∧ s.power.mode ≠ .economy) ∨ s.check.timer = none →
          t.check = s.check ∧ ∀ g, (t.engine g).check = (s.engine g).check) ∧
        t.check = { s.check with timer := t.check.timer, cursor := t.check.cursor, slice := t.check.slice,
                                 owed := t.check.owed } ∧
        (∀ g, t.engine g = { s.engine g with expiry := (t.engine g).expiry, check := (t.engine g).check }) ∧
        t = { s with timebase := t.timebase, deadlines := t.deadlines, engines := t.engines, check := t.check,
                     power := t.power })) ∧
  (∀ s : State, s.isReady = true → ordered s.deadlines →
    ∃ t, exec .holdFallsDue s = .next t ∧
      t.deadlines = s.deadlines.filter (fun i => decide (s.timebase < i.deadline)) ∧
      (∀ g, (t.engine g).expiry = (s.engine g).expiry ++
        ((s.deadlines.filter fun i => decide (i.deadline ≤ s.timebase) &&
          laneOf (s.hold i.ticket.entry.toNat).slot == g).map DeadlineItem.ticket)) ∧
      t.power = (if s.power.mode = .standby ∧ (s.deadlines.any fun i => decide (i.deadline ≤ s.timebase)) = true
        then { s.power with mode := s.power.resume } else s.power) ∧
      (∀ g, t.engine g = { s.engine g with expiry := (t.engine g).expiry }) ∧
      t = { s with deadlines := t.deadlines, engines := t.engines, power := t.power })

/-- R135, R136: at an interval expiry the timer is loaded with the interval; with no slice in progress a slice begins,
with one in progress the owed mark is set, and a slice begins where the last check of one ends with the mark set. The
expiry falls inside TIMEBASE_RAISE, at the second that takes the timer to 0; the row SHORT_CHECK_INTERVAL_EXPIRY acts on a
timer that stands at 0 (log entry 5), which no step leaves standing: every step keeps the rule of timer, interval and
cursor. -/
def Obligations.IntervalExpiryBeginsASlice : Prop :=
  (∀ s t : State, s.shortCheckRule → step s = .next t → t.shortCheckRule) ∧
  (∀ (s : State) (n : Nat), s.working = true → s.timebase < 4294967295 → s.shortCheckRule → s.check.timer = some n →
    ∃ t, exec .timebaseRaise s = .next t ∧ t.accounts = s.accounts ∧
      (1 < n → t.check = { s.check with timer := some (n - 1) } ∧ ∀ g, (t.engine g).check = (s.engine g).check) ∧
      (n = 1 → ∀ sl, s.check.slice = some sl →
        t.check = { s.check with timer := some s.cmd.interval, owed := true } ∧
          ∀ g, (t.engine g).check = (s.engine g).check) ∧
      (n = 1 → s.check.slice = none →
        s.sliceBegun t ∧ t.check.timer = some s.cmd.interval ∧ t.check.owed = s.check.owed)) ∧
  (∀ s : State, s.working = true → s.check.timer = some 0 → s.check.cursor % 64 = 0 → s.check.cursor ≤ 4032 →
    (∀ sl, s.check.slice = some sl →
      exec .shortCheckIntervalExpiry s =
        .next { s with check := { s.check with timer := some s.cmd.interval, owed := true } }) ∧
    (s.check.slice = none →
      ∃ t, exec .shortCheckIntervalExpiry s = .next t ∧ t.check.timer = some s.cmd.interval ∧ s.sliceBegun t ∧
        t = { s with check := t.check, engines := t.engines } ∧
        (∀ g, t.engine g = { s.engine g with check := (t.engine g).check }))) ∧
  (∀ (g : Lane) (s : State) (op : Operation) (n : Nat) (sl : Slice), s.shortCheckRule → (s.engine g).op = some op →
    op.work = .check n → s.check.slice = some sl → s.check.owed = true →
    nextChecked s (sl.first + 64) 16 (sl.parts.get g).next = none → (∀ m, m ≠ g → (sl.parts.get m).inHand = false) →
    ∃ t, exec (.checkClaim g) s = .next t ∧ t.check.owed = false ∧ t.check.timer = s.check.timer ∧ s.sliceBegun t)

/-- R136, R137, R139: a check claim sets the flag of a record that is not FREE and does not match, and the check unit
claims the next slot of the group that is not FREE, whether or not a slice is owed. The last check of a slice ends it;
where a slice is owed, the mark is cleared and the slice that begins then is IntervalExpiryBeginsASlice's. -/
def Obligations.CheckClaimVerifiesAndGoesOn : Prop :=
  ∀ (g : Lane) (s : State) (op : Operation) (n : Nat) (sl : Slice), (s.engine g).op = some op → op.work = .check n →
    s.check.slice = some sl →
    let next := nextChecked s (sl.first + 64) 16 (sl.parts.get g).next
    let ends := next = none ∧ ∀ m, m ≠ g → (sl.parts.get m).inHand = false
    ∃ t, exec (.checkClaim g) s = .next t ∧
      ((op.record.state = .free ∨ op.record.verifies = true) → t.accounts = s.accounts ∧ t.notices = s.notices) ∧
      (op.record.state ≠ .free → op.record.verifies = false →
        t.record n = { s.record n with suspect := true } ∧ s.otherRecords t n ∧
        s.noticed t (if (s.record n).suspect = true then [] else
          [.suspectFound n (s.record n).gen (s.record n).state .shortCheck])) ∧
      (∀ m, next = some m → t.engine g = { s.engine g with op := none, check := some m } ∧
        t.check = { s.check with slice := some { sl with parts := sl.parts.set g ⟨m + 4, true⟩ } }) ∧
      (∀ m, next = none → m ≠ g → (sl.parts.get m).inHand = true → t.engine g = { s.engine g with op := none } ∧
        t.check = { s.check with slice := some { sl with parts := sl.parts.set g ⟨sl.first + 64, false⟩ } }) ∧
      (ends → s.check.owed = false → t.engine g = { s.engine g with op := none } ∧
        t.check = { s.check with slice := none }) ∧
      (ends → s.check.owed = true → t.check.owed = false) ∧
      (¬(ends ∧ s.check.owed = true) → s.otherEngines t g) ∧
      (∀ m, t.engine m = { s.engine m with op := if m = g then none else (s.engine m).op,
                                           check := (t.engine m).check }) ∧
      t.check = { s.check with slice := t.check.slice, cursor := t.check.cursor, owed := t.check.owed } ∧
      t = { s with accounts := t.accounts, notices := t.notices, engines := t.engines, check := t.check }

/-! ### Key index and enrolment -/

/-- R109, R110, R113, R114: a key finds the account that one way of its bucket names, where the account's record holds the
key and is ACTIVE, FROZEN or CLOSING, and nothing else. A LOOKUP answers its link and frees its slot; a FIND completes
with the handle and the whole record; neither writes an entry or a record. -/
def Obligations.LookupAndFindAnswerFromTheIndex : Prop :=
  (∀ (s : State) (key : Key) (n : Nat), s.findAccount key = some n →
    (∃ w, 8 * (key.toNat % 1021) ≤ w ∧ w < 8 * (key.toNat % 1021) + 8 ∧ s.way w = some ⟨key, n⟩) ∧
      ((s.record n).state = .active ∨ (s.record n).state = .frozen ∨ (s.record n).state = .closing) ∧
      (s.record n).key = key) ∧
  (∀ (s : State) (key : Key) (n w : Nat), 8 * (key.toNat % 1021) ≤ w → w < 8 * (key.toNat % 1021) + 8 →
    s.way w = some ⟨key, n⟩ →
    (∀ v m, 8 * (key.toNat % 1021) ≤ v → v < 8 * (key.toNat % 1021) + 8 → s.way v = some ⟨key, m⟩ → v = w) →
    ((s.record n).state = .active ∨ (s.record n).state = .frozen ∨ (s.record n).state = .closing) →
    (s.record n).key = key → s.findAccount key = some n) ∧
  (∀ (s : State) (l : Lane) (w : LookupWork), s.indexUnit.op = some (.link l) → s.indexUnit.lookups.get l = some w →
    ∃ t, exec .lookup s = .next t ∧ t.indexUnit = { s.indexUnit with op := none, lookups := s.indexUnit.lookups.set l none } ∧
      t = { s with links := t.links, indexUnit := t.indexUnit } ∧
      ((w.key = 0 ∨ w.key = 4294967295) → s.answered t w.origin .badRange .bare) ∧
      (∀ n, w.key ≠ 0 → w.key ≠ 4294967295 → s.findAccount w.key = some n →
        s.answered t w.origin .ok (.lookup ⟨BitVec.ofNat 16 n, (s.record n).gen⟩
          (reportOf (s.record n) (storedConds (s.record n))))) ∧
      (w.key ≠ 0 → w.key ≠ 4294967295 → s.findAccount w.key = none → s.answered t w.origin .notFound .bare)) ∧
  (∀ (s : State) (key : Key), s.indexUnit.op = some .mgmt → s.indexUnit.mgmt = some (.find key) →
    ∃ t, exec (.find .completion) s = .next t ∧ t = { s with cmd := t.cmd, indexUnit := t.indexUnit } ∧
      t.indexUnit = { s.indexUnit with op := none, mgmt := none } ∧
      (∀ n, s.findAccount key = some n →
        let r := s.record n
        t.cmd = s.unitAnswers ⟨2, .ok, .found ⟨BitVec.ofNat 16 n, r.gen⟩ r.state r.key r.gen r.balance.sent r.floor r.lowMark
          r.tariffs r.suspect r.held r.holds r.spendable (storedConds r)⟩) ∧
      (s.findAccount key = none → t.cmd = s.unitAnswers ⟨2, .notFound, .bare⟩))

/-- R6, R27, R115, R116: what follows an enrolment's search. A create step whose group queue is full is held by the
command unit. -/
def Obligations.EnrolSearchDecidesTheEnrolment : Prop :=
  ∀ (s : State) (e : EnrolFields), s.indexUnit.op = some .mgmt → s.indexUnit.mgmt = some (.search e) →
    let create := fun n => MgmtReq.create n e.key e.balance e.floor e.lowMark e.tariffs
    ∃ t, exec .enrolSearch s = .next t ∧ t.indexUnit = { s.indexUnit with op := none, mgmt := none } ∧
      t = { s with cmd := t.cmd, indexUnit := t.indexUnit, engines := t.engines } ∧
      ((s.wayOfKey e.key).isSome = true →
        t.cmd = s.unitAnswers ⟨1, .duplicateKey, .bare⟩ ∧ t.engines = s.engines) ∧
      (s.wayOfKey e.key = none → s.freeWay e.key = none →
        t.cmd = s.unitAnswers ⟨1, .indexFull, .bare⟩ ∧ t.engines = s.engines) ∧
      (s.wayOfKey e.key = none → (s.freeWay e.key).isSome = true → (∀ n, n < 4096 → (s.record n).state ≠ .free) →
        t.cmd = s.unitAnswers ⟨1, .tableFull, .bare⟩ ∧ t.engines = s.engines) ∧
      (∀ n, s.wayOfKey e.key = none → (s.freeWay e.key).isSome = true → n < 4096 → (s.record n).state = .free →
        (∀ m, m < n → (s.record m).state ≠ .free) →
        let g := laneOf n
        ((s.engine g).queue.length < 8 → t.cmd = s.cmd ∧ s.otherEngines t g ∧
          t.engine g = { s.engine g with queue := (s.engine g).queue ++ [.mgmt (create n)] }) ∧
        (8 ≤ (s.engine g).queue.length → t.engines = s.engines ∧
          t.cmd = { s.cmd with held := some (g, .mgmt (create n)) }))

/-- R11, R12, R27, R117, R118: the create step writes the slot NEW and posts the insert; the insert writes the lowest free
way of a bucket that has one (without one: log entry 19, not stated here) and places the activate step, which the command
unit holds where the group queue is full; the activate step writes ACTIVE and answers the handle, OK where the flag is
clear and the check code matches, else SUSPECT (log entry 29). The create and the activate step decide by the record as
read at the taking, and write into the record as it stands (log entry 11). The SUSPECT_FOUND of the activate step tells
the state before its own write, NEW (log entry 20). -/
def Obligations.EnrolmentStepsWriteTheirStores : Prop :=
  (∀ (g : Lane) (s : State) (op : Operation) (n : Nat) (key : Key) (bal : S8) (floor low : B6) (set : TariffSet),
    s.mgmtOp g = some (op, .create n key bal floor low set) →
    ∃ t, exec (.createStep g) s = .next t ∧ t.engine g = { s.engine g with op := none } ∧ s.otherEngines t g ∧
      (op.record.state = .free →
        (t.record n).state = .new ∧ (t.record n).key = key ∧ (t.record n).balance = S8.ofInt bal.value ∧
        (t.record n).floor = floor ∧ (t.record n).lowMark = low ∧ (t.record n).tariffs = set ∧
        (t.record n).gen = (s.record n).gen ∧ (t.record n).suspect = false ∧
        (t.record n).checkCode = crc16 (t.record n).covered ∧ (t.record n).held = 0 ∧ (t.record n).holds = [] ∧
        s.otherRecords t n ∧ t.indexUnit = { s.indexUnit with updates := s.indexUnit.updates ++ [.insert key n] } ∧
        t = { s with accounts := t.accounts, indexUnit := t.indexUnit, engines := t.engines }) ∧
      (op.record.state ≠ .free → t.cmd = s.unitAnswers ⟨1, .tableFull, .bare⟩ ∧
        t = { s with cmd := t.cmd, engines := t.engines })) ∧
  (∀ (s : State) (key : Key) (n w : Nat), s.indexUnit.op = some (.update (.insert key n)) → s.freeWay key = some w →
    let g := laneOf n
    ∃ t, exec .indexInsert s = .next t ∧ t.way w = some ⟨key, n⟩ ∧ (∀ v, v ≠ w → t.way v = s.way v) ∧
      t.indexUnit = { s.indexUnit with op := none } ∧
      ((s.engine g).queue.length < 8 → t.cmd = s.cmd ∧ s.otherEngines t g ∧
        t.engine g = { s.engine g with queue := (s.engine g).queue ++ [.mgmt (.activate n)] }) ∧
      (8 ≤ (s.engine g).queue.length → t.engines = s.engines ∧
        t.cmd = { s.cmd with held := some (g, .mgmt (.activate n)) }) ∧
      t = { s with index := t.index, indexUnit := t.indexUnit, engines := t.engines, cmd := t.cmd }) ∧
  (∀ (g : Lane) (s : State) (op : Operation) (n : Nat), s.mgmtOp g = some (op, .activate n) →
    ∃ t, exec (.activateStep g) s = .next t ∧ t.engine g = { s.engine g with op := none } ∧ s.otherEngines t g ∧
      (t.record n).state = .active ∧ (t.record n).checkCode = crc16 (t.record n).covered ∧
      (t.record n).suspect = ((s.record n).suspect || !op.record.verifies) ∧ (t.record n).key = (s.record n).key ∧
      (t.record n).gen = (s.record n).gen ∧ (t.record n).balance = (s.record n).balance ∧
      (t.record n).floor = (s.record n).floor ∧ (t.record n).lowMark = (s.record n).lowMark ∧
      (t.record n).tariffs = (s.record n).tariffs ∧ (t.record n).held = (s.record n).held ∧
      (t.record n).holds = (s.record n).holds ∧ s.otherRecords t n ∧
      t.cmd = s.unitAnswers ⟨1, if op.record.suspect = false ∧ op.record.verifies = true then .ok else .suspect,
        .enrolled ⟨BitVec.ofNat 16 n, op.record.gen⟩⟩ ∧
      s.noticed t (if op.record.verifies = false ∧ (s.record n).suspect = false then
        [.suspectFound n (s.record n).gen (s.record n).state .operation] else []) ∧
      t = { s with accounts := t.accounts, notices := t.notices, engines := t.engines, cmd := t.cmd })

/-- R19, R120: a removal frees the way that holds the key and the slot, or else every way that names the slot, and posts
the slot-free claim. -/
def Obligations.KeyRemovalFreesTheWay : Prop :=
  ∀ (s : State) (key : Key) (n : Nat), s.indexUnit.op = some (.update (.remove key n)) →
    ∃ t, exec .keyRemoval s = .next t ∧ t.indexUnit = { s.indexUnit with op := none } ∧
      (let g := laneOf n
       t.engine g = { s.engine g with slotFree := (s.engine g).slotFree ++ [n] } ∧ s.otherEngines t g) ∧
      (∀ w, s.wayOfEntry key n = some w → t.way w = none ∧ ∀ v, v ≠ w → t.way v = s.way v) ∧
      (s.canonical → s.wayOfEntry key n = none →
        ∀ w, t.way w = if namesSlot n (s.way w) = true then none else s.way w) ∧
      t = { s with index := t.index, indexUnit := t.indexUnit, engines := t.engines }

/-! ### Transfers -/

/-- R33, R59, R61 to R63: the checks of a transfer's source and receiver in their order; a same-group transfer that passes
them moves the amount in one completion; one that fails writes no balance and names the side. A record whose check code
does not match gets its flag, the source's first; the destination is verified where both handles are current (log
entry 18). The items of an answer are those of the balances written, none where the flag alone was (log entry 34), the
source's first (log entry 37). Checks and new balances are those of the records as read at the taking, written into the
records as they stand (log entry 11). -/
def Obligations.SameGroupTransferMovesTheAmount : Prop :=
  (∀ (src : Handle) (all : Bool) (a : S8) (r : Record),
    (∀ st, handleTest src r = some st → sourceCheck src all a r = .error (st, a)) ∧
    (handleTest src r = none → r.state = .closing →
      ∃ field, sourceCheck src all a r = .error (.closing, field) ∧ (all = false → field = a)) ∧
    (handleTest src r = none → (r.state = .active ∨ r.state = .frozen) → (r.suspect = true ∨ r.verifies = false) →
      ∃ field, sourceCheck src all a r = .error (.suspect, field) ∧ (all = false → field = a)) ∧
    (handleTest src r = none → (r.state = .active ∨ r.state = .frozen) → r.sound →
      (all = false → a.value ≤ r.bal - r.held → sourceCheck src all a r = .ok a.value) ∧
      (all = false → r.bal - r.held < a.value → sourceCheck src all a r = .error (.short, a)) ∧
      (all = true → 0 < r.bal - r.held → sourceCheck src all a r = .ok (r.bal - r.held)) ∧
      (all = true → r.bal - r.held ≤ 0 → ∃ field, sourceCheck src all a r = .error (.short, field)))) ∧
  (∀ (h : Handle) (v : Int) (r : Record), (∀ st, handleTest h r = some st → receiverCheck h v r = some st) ∧
    (handleTest h r = none → receiverCheck h v r =
      if r.state = .closing then some .closing else if r.suspect = true ∨ r.verifies = false then some .suspect
      else if 99999999 < r.bal + v then some .overRange else none)) ∧
  (∀ (g : Lane) (s : State) (op : Operation) (src dst : Handle) (all : Bool) (a : S8),
    s.mgmtOp g = some (op, .sameTransfer src dst all a) → src.slot ≠ dst.slot →
    let bad := handleTest src op.record = none ∧ op.record.verifies = false
    let bad2 := handleTest src op.record = none ∧ handleTest dst op.record2 = none ∧ op.record2.verifies = false
    let flagged := fun t : State =>
      t.record src.slot.toNat = s.flagSet src.slot.toNat (decide bad) ∧
        t.record dst.slot.toNat = s.flagSet dst.slot.toNat (decide bad2) ∧
        (∀ n, n ≠ src.slot.toNat → n ≠ dst.slot.toNat → t.record n = s.record n) ∧
        s.noticed t (s.suspectNotice src.slot.toNat (decide bad) ++ s.suspectNotice dst.slot.toNat (decide bad2)) ∧
        (¬bad → ¬bad2 → t.accounts = s.accounts ∧ t.notices = s.notices)
    ∃ t, exec (.sameGroupTransfer g) s = .next t ∧ t.engine g = { s.engine g with op := none } ∧ s.otherEngines t g ∧
      t.transit = s.transit ∧
      (∀ v, sourceCheck src all a op.record = .ok v → receiverCheck dst v op.record2 = none →
        t.record src.slot.toNat = { s.record src.slot.toNat with balance := S8.ofInt (op.record.bal - v) }.seal ∧
        t.record dst.slot.toNat = { s.record dst.slot.toNat with balance := S8.ofInt (op.record2.bal + v) }.seal ∧
        (∀ n, n ≠ src.slot.toNat → n ≠ dst.slot.toNat → t.record n = s.record n) ∧
        t.cmd = s.unitAnswers ⟨10, .ok, .transfer .none false (S8.ofInt v)
          [⟨.source, S8.ofInt (op.record.bal - v), balanceConds (op.record.bal - v) op.record.lowValue⟩,
            ⟨.destination, S8.ofInt (op.record2.bal + v), balanceConds (op.record2.bal + v) op.record2.lowValue⟩]⟩ ∧
        s.noticed t (if crossesLow op.record (op.record.bal - v) = true then
          [.lowBalance ⟨BitVec.ofNat 16 src.slot.toNat, op.record.gen⟩ (S8.ofInt (op.record.bal - v))] else [])) ∧
      (∀ v st, sourceCheck src all a op.record = .ok v → receiverCheck dst v op.record2 = some st → flagged t ∧
        t.cmd = s.unitAnswers ⟨10, st, .transfer .destination false (S8.ofInt v) []⟩) ∧
      (∀ st field, sourceCheck src all a op.record = .error (st, field) → flagged t ∧
        t.cmd = s.unitAnswers ⟨10, st, .transfer .source false field []⟩) ∧
      t = { s with accounts := t.accounts, notices := t.notices, engines := t.engines, cmd := t.cmd })

/-- R65, R66, R69: step 1 takes the amount from the source into the register, OUT, and posts step 2 to the destination's
engine, and its refusal leaves the register as it is; step 2 credits the destination and empties the register, or leaves
the balance, writes RETURNING and posts the return step; the return step gives the source its amount back and empties the
register, or writes it STRANDED and posts TRANSFER_STRANDED; a return posted at READY answers nobody. A step refused on a
record whose check code does not match sets its flag and posts SUSPECT_FOUND first (R33). R61: the answers
carry the balances written, as their last writes left them (log entry 34), the source's first (log entry 37). A step goes
by the register as read at its taking, whatever state that register is in and whatever has become of it since (log
entry 40). Each step's checks and new balance are those of the record as read at the taking, written into the record as
it stands (log entry 11). A claim posted takes the place of one that waits already (log entry 42), and step 1 writes the
register whatever it holds (log entry 43). -/
def Obligations.CrossGroupTransferGoesThroughTheRegister : Prop :=
  (∀ (g : Lane) (s : State) (op : Operation) (src dst : Handle) (all : Bool) (a : S8),
    s.mgmtOp g = some (op, .step1 src dst all a) →
    ∃ t, exec (.transferStep1 g) s = .next t ∧
      (∀ m, t.engine m = { s.engine m with op := if m = g then none else (s.engine m).op,
                                           transit := (t.engine m).transit }) ∧
      (∀ v, sourceCheck src all a op.record = .ok v →
        t.record src.slot.toNat = { s.record src.slot.toNat with balance := S8.ofInt (op.record.bal - v) }.seal ∧
        s.otherRecords t src.slot.toNat ∧
        t.transit = { state := .out, src := src, dst := dst, amount := v.toNat } ∧
        (∀ m, (t.engine m).transit = if m = laneOf dst.slot.toNat then some .step2 else (s.engine m).transit) ∧
        t.isBusy = true ∧
        t.cmd = { s.cmd with state := .busy (.transfer (some
          ⟨.source, S8.ofInt (op.record.bal - v), balanceConds (op.record.bal - v) op.record.lowValue⟩)) } ∧
        s.noticed t (if crossesLow op.record (op.record.bal - v) = true then
          [.lowBalance ⟨BitVec.ofNat 16 src.slot.toNat, op.record.gen⟩ (S8.ofInt (op.record.bal - v))] else [])) ∧
      (∀ st field, sourceCheck src all a op.record = .error (st, field) →
        t.cmd = s.unitAnswers ⟨10, st, .transfer .source false field []⟩ ∧
        (∀ m, (t.engine m).transit = (s.engine m).transit) ∧
        s.onlyFlags t src.slot.toNat (decide (handleTest src op.record = none ∧ op.record.verifies = false)) ∧
        t = { s with accounts := t.accounts, notices := t.notices, engines := t.engines, cmd := t.cmd }) ∧
      t = { s with accounts := t.accounts, notices := t.notices, engines := t.engines, cmd := t.cmd, transit := t.transit }) ∧
  (∀ (g : Lane) (s : State) (op : Operation), s.transitOp g = some (op, .step2) →
    let dst := op.transit.dst
    ∃ t, exec (.transitStep g) s = .next t ∧
      (∀ m, t.engine m = { s.engine m with op := if m = g then none else (s.engine m).op,
                                           transit := (t.engine m).transit }) ∧
      (receiverCheck op.transit.dst op.transit.amount op.record = none →
        t.record op.transit.dst.slot.toNat =
          { s.record op.transit.dst.slot.toNat with balance := S8.ofInt (op.record.bal + op.transit.amount) }.seal ∧
        s.otherRecords t op.transit.dst.slot.toNat ∧ t.transit.state = .empty ∧ t.notices = s.notices ∧
        (∀ m, (t.engine m).transit = (s.engine m).transit) ∧
        (∃ items, t.cmd = s.unitAnswers ⟨10, .ok, .transfer .none false (S8.ofInt op.transit.amount) items⟩) ∧
        ∀ source, s.cmd.state = .busy (.transfer (some source)) →
          t.cmd = s.unitAnswers ⟨10, .ok, .transfer .none false (S8.ofInt op.transit.amount)
            [source, ⟨.destination, S8.ofInt (op.record.bal + op.transit.amount),
              balanceConds (op.record.bal + op.transit.amount) op.record.lowValue⟩]⟩) ∧
      (∀ st, receiverCheck op.transit.dst op.transit.amount op.record = some st →
        t.transit = { s.transit with state := .returning } ∧ t.cmd = s.cmd ∧
        s.onlyFlags t dst.slot.toNat (decide (handleTest dst op.record = none ∧ op.record.verifies = false)) ∧
        ∀ m, (t.engine m).transit =
          if m = laneOf op.transit.src.slot.toNat then some (.ret (some st)) else (s.engine m).transit) ∧
      t = { s with accounts := t.accounts, notices := t.notices, engines := t.engines, cmd := t.cmd,
                   transit := t.transit }) ∧
  (∀ (g : Lane) (s : State) (op : Operation) (refusal : Option Status), s.transitOp g = some (op, .ret refusal) →
    let src := op.transit.src
    let mismatch := decide (handleTest src op.record = none ∧ op.record.verifies = false)
    ∃ t, exec (.returnStep g) s = .next t ∧ t.engine g = { s.engine g with op := none } ∧ s.otherEngines t g ∧
      (receiverCheck op.transit.src op.transit.amount op.record = none →
        t.record op.transit.src.slot.toNat =
          { s.record op.transit.src.slot.toNat with balance := S8.ofInt (op.record.bal + op.transit.amount) }.seal ∧
        s.otherRecords t op.transit.src.slot.toNat ∧ t.transit.state = .empty ∧ t.notices = s.notices ∧
        ∀ st, refusal = some st →
          t.cmd = s.unitAnswers ⟨10, st, .transfer .destination true (S8.ofInt op.transit.amount)
            [⟨.source, S8.ofInt (op.record.bal + op.transit.amount),
              balanceConds (op.record.bal + op.transit.amount) op.record.lowValue⟩]⟩) ∧
      (∀ st, receiverCheck op.transit.src op.transit.amount op.record = some st →
        t.record src.slot.toNat = s.flagSet src.slot.toNat mismatch ∧ s.otherRecords t src.slot.toNat ∧
        (mismatch = false → t.accounts = s.accounts) ∧ t.transit = { s.transit with state := .stranded } ∧
        s.noticed t (s.suspectNotice src.slot.toNat mismatch ++
          [.transferStranded op.transit.src op.transit.dst op.transit.amount refusal st]) ∧
        (refusal.isSome = true → ∃ items,
          t.cmd = s.unitAnswers ⟨10, .stranded, .transfer .none false (S8.ofInt op.transit.amount) items⟩) ∧
        ∀ source, refusal.isSome = true → s.cmd.state = .busy (.transfer (some source)) →
          t.cmd = s.unitAnswers ⟨10, .stranded, .transfer .none false (S8.ofInt op.transit.amount) [source]⟩) ∧
      (refusal = none → t.cmd = s.cmd) ∧
      t = { s with accounts := t.accounts, notices := t.notices, engines := t.engines, cmd := t.cmd, transit := t.transit })

/-! ### Management port -/

/-- R27, R153, R154, R164: MSEL wakes the chip; a read returns the block of the unit's state, which SDO carries from the
second byte of the period on, with 255 behind it; a read ended sooner takes nothing; a period that carries a command
block has 255 on SDO in every byte (log entry 22 for the first byte of a read). A held request is placed when a place is
free. -/
def Obligations.ThePortReadsAndPlaces : Prop :=
  (∀ s : State,
    (s.powered = true →
      exec .mselAssert s = .next { s.wake with cmd := { s.cmd with selected := true, sdo := [] } }) ∧
    (s.powered = true → s.cmd.armed = false →
      (∀ r, s.cmd.state = .reply r → exec .responseRead s =
        .next { s.wake with cmd := { s.cmd with state := .idle, selected := false, sdo := r.bytes,
                                                lastRead := some r.bytes } }) ∧
      (s.cmd.state = .idle → exec .responseRead s =
        .next { s.wake with cmd := { s.cmd with selected := false, sdo := MgmtResponse.bytes ⟨255, .ok, .bare⟩
                                                lastRead := some (MgmtResponse.bytes ⟨255, .ok, .bare⟩) } }) ∧
      (∀ job, s.cmd.state = .busy job → exec .responseRead s =
        .next { s.wake with cmd := { s.cmd with selected := false, immediate := none,
                                                sdo := (s.cmd.immediate.getD ⟨255, .busy, .bare⟩).bytes
                                                lastRead := some (s.cmd.immediate.getD ⟨255, .busy, .bare⟩).bytes } })) ∧
    (∀ g r, s.cmd.held = some (g, r) → (s.engine g).queue.length < 8 →
      exec .managementRequestPlaced s =
        .next ({ s with cmd := { s.cmd with held := none } }.setEngine g
          { s.engine g with queue := (s.engine g).queue ++ [r] }))) ∧
  (∀ (s : State) (rest : List Byte) (block : MgmtResponse), s.powered = true → s.cmd.armed = false →
    (s.cmd.state = .reply block ∨ (s.cmd.state = .idle ∧ block = ⟨255, .ok, .bare⟩) ∨
      ((∃ job, s.cmd.state = .busy job) ∧ block = s.cmd.immediate.getD ⟨255, .busy, .bare⟩)) →
    (rest.length < block.bytes.length → exec (.undecodableBlock (255 :: rest)) s =
      .next { s.wake with cmd := { s.cmd with selected := false, sdo := block.bytes.take rest.length } }) ∧
    (block.bytes.length ≤ rest.length → exec (.undecodableBlock (255 :: rest)) s = exec .responseRead s) ∧
    ∃ t, exec .responseRead s = .next t ∧ t.sdoByte 0 = 255 ∧
      (∀ i, t.sdoByte (i + 1) = if h : i < block.bytes.length then block.bytes[i] else 255)) ∧
  (∀ (s t : State) (c : Command), s.powered = true → exec (rowOf c) s = .next t → ∀ i, t.sdoByte i = 255) ∧
  (∀ s : State, s.powered = true → s.cmd.armed = false →
    exec (.undecodableBlock []) s = .next { s.wake with cmd := { s.cmd with selected := false, sdo := [] } })

/-- R153 to R155: the screening of a block: an extent that is not complete or a wrong CRC first, then an opcode above 24,
then a length other than the table's. One that fails is answered with its refusal; every command but POLL is answered
STARTING in STARTING and BUSY in BUSY; in BUSY the answer goes to the immediate slot; nothing outside the
command unit changes, but for the wake from STANDBY. -/
def Obligations.BlocksAreScreened : Prop :=
  (∀ (bytes : List Byte) (b len : Byte) (rest : List Byte), bytes = b :: len :: rest →
    let n := len.toNat
    let crcMatches := (bytes.drop (n + 2)).take 2 = crcBytes (bytes.take (n + 2))
    (rest.length < n + 2 → decodeBlock bytes = .error .crcError) ∧
    (n + 2 ≤ rest.length →
      (¬crcMatches → decodeBlock bytes = .error .crcError) ∧
      (crcMatches → 24 < b.toNat → decodeBlock bytes = .error .badCommand) ∧
      (crcMatches → b.toNat ≤ 24 → commandLength b.toNat ≠ some n → decodeBlock bytes = .error .badLength) ∧
      (crcMatches → commandLength b.toNat = some n → ∃ c, decodeBlock bytes = .ok c ∧ c.opcode = b))) ∧
  (∀ bytes : List Byte, bytes.length < 2 → decodeBlock bytes = .error .crcError) ∧
  (∀ (bytes : List Byte) (b : Byte) (rest : List Byte) (e : BlockError) (s : State), bytes = b :: rest → b ≠ 255 →
    decodeBlock bytes = .error e → s.powered = true → s.cmd.armed = false →
    exec (.undecodableBlock bytes) s = .next (
      if s.isBusy = true then
        { s.wake with cmd := { s.cmd with immediate := some ⟨b, blockErrorStatus e, .bare⟩, selected := false, sdo := [] } }
      else s.replied b (blockErrorStatus e) .bare)) ∧
  (∀ (c : Command) (s : State), c.opcode ≠ 0 → s.powered = true → s.cmd.armed = false →
    (s.isReady = false → s.isBusy = false → exec (rowOf c) s = .next (s.replied c.opcode .starting .bare)) ∧
    (s.isReady = true → s.isBusy = true → exec (rowOf c) s =
      .next { s.wake with cmd := { s.cmd with immediate := some ⟨c.opcode, .busy, .bare⟩, selected := false, sdo := [] } }))

/-- R156: POLL. -/
def Obligations.PollAnswersThePhase : Prop :=
  ∀ s : State, s.powered = true → s.cmd.armed = false →
    let answer : MgmtResponse := ⟨0, .ok, .poll (decide (s.power.stage = .ready)) s.wake.power.mode s.isBusy
      s.notices.list.length s.notices.lost s.transit.state⟩
    (s.isBusy = false → ∃ t, exec .poll s = .next t ∧ t.cmd.state = .reply answer ∧ t.isBusy = false ∧
      t = { s.wake with cmd := { s.cmd with state := .reply answer, immediate := none, selected := false, sdo := [] } }) ∧
    (s.isBusy = true → ∃ t, exec .poll s = .next t ∧ t.cmd.immediate = some answer ∧ t.cmd.state = s.cmd.state ∧
      t.isBusy = true ∧ t = { s.wake with cmd := { s.cmd with immediate := some answer, selected := false, sdo := [] } })

/-- R126: TARIFF_READ answers the entry as it stands, and after a TARIFF_SET's answer what that TARIFF_SET wrote. -/
def Obligations.TariffReadAnswersTheEntry : Prop :=
  (∀ (s : State) (n : Byte), s.portOpen →
    (15 < n.toNat → exec (.tariffRead n) s = .next (s.replied 17 .badRange .bare)) ∧
    (n.toNat ≤ 15 → exec (.tariffRead n) s = .next (s.replied 17 .ok (.tariff (s.tariff n.toNat))))) ∧
  (∀ (s t u : State) (n enabled action : Byte) (price maxUnits : B4) (window : B6) (entry : Tariff), s.portOpen →
    exec (.tariffSet n enabled price maxUnits window action) s = .next t →
    t.cmd.state = .reply ⟨16, .ok, .tariff entry⟩ → u.portOpen → u.tariffs = t.tariffs →
    exec (.tariffRead n) u = .next (u.replied 17 .ok (.tariff entry)))

/-- R125: TARIFF_SET writes all five fields of the entry, or refuses with BAD_DIGIT or BAD_RANGE and writes nothing. -/
def Obligations.TariffSetWritesTheWholeEntry : Prop :=
  ∀ (s : State) (n enabled action : Byte) (price maxUnits : B4) (window : B6), s.portOpen →
    (¬(B4.ok price = true ∧ B4.ok maxUnits = true ∧ B6.ok window = true) →
      exec (.tariffSet n enabled price maxUnits window action) s = .next (s.replied 16 .badDigit .bare)) ∧
    (B4.ok price = true → B4.ok maxUnits = true → B6.ok window = true →
      (¬(n.toNat ≤ 15 ∧ enabled.toNat ≤ 1 ∧ 1 ≤ B4.value price ∧ 1 ≤ B4.value maxUnits ∧ 10 ≤ B6.value window ∧
        B6.value window ≤ 43200 ∧ action.toNat ≤ 1) →
        exec (.tariffSet n enabled price maxUnits window action) s = .next (s.replied 16 .badRange .bare)) ∧
      (n.toNat ≤ 15 → enabled.toNat ≤ 1 → 1 ≤ B4.value price → 1 ≤ B4.value maxUnits → 10 ≤ B6.value window →
        B6.value window ≤ 43200 → action.toNat ≤ 1 →
        ∃ t entry, exec (.tariffSet n enabled price maxUnits window action) s = .next t ∧ t.tariff n.toNat = entry ∧
          entry = ⟨enabled == 1, B4.value price, B4.value maxUnits, B6.value window,
            if action = 1 then .capture else .release⟩ ∧
          (∀ m, m ≠ n.toNat → t.tariff m = s.tariff m) ∧
          t = { s.replied 16 .ok (.tariff entry) with tariffs := t.tariffs }))

/-- R146, R149, R150: LINK_SET refuses out-of-range settings with BAD_RANGE and fast bauds in ECONOMY with BAUD_LIMIT; a
disable or a baud change of an enabled link clears the link and raises its epoch. RDY is tested against the new marks, and
between them keeps its level. HLD's level, the counter and the flag of the link stay. -/
def Obligations.LinkSetWritesTheSettings : Prop :=
  ∀ (s : State) (link enable baud high resume : Byte), s.portOpen →
    (¬(link.toNat ≤ 3 ∧ enable.toNat ≤ 1 ∧ baud.toNat ≤ 5 ∧ 1 ≤ high.toNat ∧ high.toNat ≤ 16 ∧
      resume.toNat < high.toNat) →
      exec (.linkSet link enable baud high resume) s = .next (s.replied 18 .badRange .bare)) ∧
    (link.toNat ≤ 3 → enable.toNat ≤ 1 → baud.toNat ≤ 5 → 1 ≤ high.toNat → high.toNat ≤ 16 →
      resume.toNat < high.toNat →
      let l := laneOf link.toNat
      let k := s.link l
      let cleared := k.enabled = true ∧ (enable = 0 ∨ k.baud.val ≠ baud.toNat)
      (s.wake.power.mode = .economy → 1 < baud.toNat →
        exec (.linkSet link enable baud high resume) s = .next (s.replied 18 .baudLimit .bare)) ∧
      ((s.wake.power.mode ≠ .economy ∨ baud.toNat ≤ 1) →
        ∃ t, exec (.linkSet link enable baud high resume) s = .next t ∧
          (t.link l).enabled = (enable == 1) ∧ (t.link l).baud.val = baud.toNat ∧ (t.link l).high = high.toNat ∧
          (t.link l).resume = resume.toNat ∧
          (cleared → (t.link l).epoch = k.epoch + 1 ∧ (t.link l).fifo = [] ∧ (t.link l).queue = [] ∧
            (t.link l).tags = Four.all false ∧ (t.link l).receiver = .idle ∧ (t.link l).sending = false) ∧
          (¬cleared → (t.link l).epoch = k.epoch ∧ (t.link l).fifo = k.fifo ∧ (t.link l).queue = k.queue ∧
            (t.link l).tags = k.tags ∧ (t.link l).receiver = k.receiver ∧ (t.link l).sending = k.sending) ∧
          (t.link l).badCrc = k.badCrc ∧ (t.link l).overrun = k.overrun ∧ (t.link l).hld = k.hld ∧
          (t.link l).lastSent = k.lastSent ∧
          ((t.link l).rdy = true → enable = 1 ∧ (t.link l).fifo.length < high.toNat) ∧
          (enable = 1 → (t.link l).fifo.length ≤ resume.toNat → (t.link l).rdy = true) ∧
          (enable = 1 → resume.toNat < (t.link l).fifo.length → (t.link l).fifo.length < high.toNat →
            (t.link l).rdy = k.rdy) ∧
          (∀ m, m ≠ l → t.link m = s.link m) ∧
          t = { s.replied 18 .ok (.linkSet (enable == 1) (t.link l).baud high.toNat resume.toNat (t.link l).epoch) with
                  links := t.links }))

/-- R151: LINK_READ answers the link's settings and state, and the same completion clears the count and the flag. -/
def Obligations.LinkReadAnswersAndClears : Prop :=
  ∀ (s : State) (link : Byte), s.portOpen →
    (3 < link.toNat → exec (.linkRead link) s = .next (s.replied 19 .badRange .bare)) ∧
    (link.toNat ≤ 3 →
      let l := laneOf link.toNat
      let k := s.link l
      exec (.linkRead link) s =
        .next ((s.replied 19 .ok (.linkRead k.enabled k.baud k.high k.resume k.epoch (decide (k.receiver ≠ .idle))
          k.fifo.length ([k.tags.at0, k.tags.at1, k.tags.at2, k.tags.at3].count true) k.queue.length k.rdy k.hld k.badCrc
          k.overrun)).setLink l { k with badCrc := 0, overrun := false }))

/-- R159, R161, R168: CONFIG, TIME_READ, NOTICE_READ and RESET. -/
def Obligations.UnitCommandsAnswerAtOnce : Prop :=
  ∀ (s : State) (interval : Half) (threshold : Byte), s.portOpen →
    exec .timeRead s = .next (s.replied 23 .ok (.time s.timebase)) ∧
    (∃ t, exec .reset s = .next t ∧ t.cmd = { (s.replied 24 .ok .bare).cmd with armed := true } ∧
      t = { s.wake with cmd := t.cmd }) ∧
    (¬(1 ≤ interval.toNat ∧ interval.toNat ≤ 3600 ∧ 1 ≤ threshold.toNat ∧ threshold.toNat ≤ 32) →
      exec (.config interval threshold) s = .next (s.replied 21 .badRange .bare)) ∧
    (1 ≤ interval.toNat → interval.toNat ≤ 3600 → 1 ≤ threshold.toNat → threshold.toNat ≤ 32 →
      ∃ t, exec (.config interval threshold) s = .next t ∧
        t.cmd = { (s.replied 21 .ok (.config interval.toNat threshold.toNat)).cmd with
                    interval := interval.toNat, threshold := threshold.toNat } ∧
        t.check = { s.check with timer := some interval.toNat } ∧
        t.notices = { s.notices with attn := decide (threshold.toNat ≤ s.notices.list.length) } ∧
        t = { s.wake with cmd := t.cmd, check := t.check, notices := t.notices }) ∧
    (∃ t, exec .noticeRead s = .next t ∧ t.notices.list = s.notices.list.drop 4 ∧ t.notices.lost = false ∧
      t.notices.attn = decide (s.cmd.threshold ≤ (s.notices.list.drop 4).length) ∧
      t = { s.replied 20 .ok (.notices (s.notices.list.take 4) (s.notices.list.drop 4).length s.notices.lost) with
              notices := t.notices })

/-- R162, R163, R165: MODE. One that names the mode held changes nothing. An OK answer of RUN, ECONOMY or STANDBY carries
the mode (log entry 16). The entry into RETAIN is a reset event (R23, R38, R74, R122, R143, R153, R160): the volatile
stores are cleared, the retained ones kept, the answer is lost, and the cause of the next start is RETAIN_WAKE. -/
def Obligations.ModeChangesOnItsConditions : Prop :=
  ∀ s : State, s.portOpen → (s.wake.power.mode = .run ∨ s.wake.power.mode = .economy) →
    (∀ code : Byte, 3 < code.toNat → exec (.mode code) s = .next (s.replied 22 .badRange .bare)) ∧
    (s.wake.power.mode = .run → s.anyFastBaud = true → exec (.mode 1) s = .next (s.replied 22 .baudLimit .bare)) ∧
    (s.wake.power.mode = .economy → exec (.mode 1) s = .next (s.replied 22 .ok (.mode .economy))) ∧
    (s.wake.power.mode = .run → exec (.mode 0) s = .next (s.replied 22 .ok (.mode .run))) ∧
    (s.anyFastBaud = false → exec (.mode 1) s =
      .next { s.replied 22 .ok (.mode .economy) with power := { s.wake.power with mode := .economy } }) ∧
    exec (.mode 0) s = .next { s.replied 22 .ok (.mode .run) with power := { s.wake.power with mode := .run } } ∧
    (s.quiet = false → exec (.mode 2) s = .next (s.replied 22 .notIdle .bare)) ∧
    ((s.quiet = false ∨ s.notices.list ≠ []) → exec (.mode 3) s = .next (s.replied 22 .notIdle .bare)) ∧
    (s.quiet = true → exec (.mode 2) s = .next { s.replied 22 .ok (.mode .standby) with
      power := { s.wake.power with mode := .standby, resume := s.wake.power.mode } }) ∧
    (s.quiet = true → s.notices.list = [] → s.noHolds = false → exec (.mode 3) s = .next (s.replied 22 .holdsLive .bare)) ∧
    (s.quiet = true → s.notices.list = [] → s.noHolds = true → ∃ t, exec (.mode 3) s = .next t ∧
      t.power = { s.wake.power with stage := .held, mode := .retain, resume := .run, cause := .retainWake } ∧
      t.cmd.state = .idle ∧ t.timebase = 0 ∧ (∀ l, (t.link l).rdy = false) ∧
      t.notices = { list := [], lost := false, attn := false } ∧ t.tariffs = s.tariffs ∧ t.index = s.index ∧
      t.transit = s.transit ∧ t.power.mark = s.power.mark ∧ t.cmd.interval = s.cmd.interval ∧
      t.cmd.threshold = s.cmd.threshold ∧ t.cmd.immediate = none ∧ t.cmd.held = none ∧ t.cmd.armed = false ∧
      t.engines = Four.all Engine.cleared ∧ t.indexUnit = IndexUnit.cleared ∧ t.deadlines = [] ∧ t.router = 0 ∧
      t.allocPtr = 0 ∧ t.check = CheckUnit.cleared ∧
      (∀ l, (t.link l).enabled = (s.link l).enabled ∧ (t.link l).baud = (s.link l).baud ∧
        (t.link l).high = (s.link l).high ∧ (t.link l).resume = (s.link l).resume ∧ (t.link l).epoch = 0 ∧
        (t.link l).fifo = [] ∧ (t.link l).queue = [] ∧ (t.link l).tags = Four.all false) ∧
      (s.canonical → (∀ n, t.record n = { s.record n with held := 0, holds := [] }) ∧
        ∀ n, t.hold n = HoldEntry.freed (s.hold n).serial))

/-- R27, R60, R68, R86, R114, R115: what the command unit does with ENROL, FIND, TRANSFER and TRANSIT_CLEAR before any
engine takes part, and with every command of an engine: it is BUSY, with the request at the tail of the group queue,
whatever waits there before it, or held for a place where the queue is full. -/
def Obligations.CommandUnitStartsOrRefuses : Prop :=
  ∀ (s : State) (key : Key) (bal : S8) (floor low : B6) (set : TariffSet) (src dst : Handle) (how : Byte) (a : S8),
    s.portOpen →
    (bal.ok = true → B6.ok floor = true → B6.ok low = true → key ≠ 0 → key ≠ 4294967295 → 0 ≤ bal.value →
      exec (.enrol key bal floor low set) s = .next { s.begun .enrol with
        indexUnit := { s.indexUnit with mgmt := some (.search ⟨key, bal, floor, low, set⟩) } }) ∧
    (¬(bal.ok = true ∧ B6.ok floor = true ∧ B6.ok low = true) →
      exec (.enrol key bal floor low set) s = .next (s.replied 1 .badDigit .bare)) ∧
    (bal.ok = true → B6.ok floor = true → B6.ok low = true → (key = 0 ∨ key = 4294967295 ∨ bal.value < 0) →
      exec (.enrol key bal floor low set) s = .next (s.replied 1 .badRange .bare)) ∧
    ((key = 0 ∨ key = 4294967295) → exec (.find (.block key)) s = .next (s.replied 2 .badRange .bare)) ∧
    (key ≠ 0 → key ≠ 4294967295 → exec (.find (.block key)) s =
      .next { s.begun .find with indexUnit := { s.indexUnit with mgmt := some (.find key) } }) ∧
    (a.ok = false → exec (.transfer src dst how a) s = .next (s.replied 10 .badDigit (.transfer .none false a []))) ∧
    (a.ok = true → (1 < how.toNat ∨ (how = 0 ∧ a.value < 1) ∨ src.slot = dst.slot) →
      exec (.transfer src dst how a) s = .next (s.replied 10 .badRange (.transfer .none false a []))) ∧
    (a.ok = true → how.toNat ≤ 1 → (how = 0 → 1 ≤ a.value) → src.slot ≠ dst.slot →
      (s.transit.state ≠ .empty →
        exec (.transfer src dst how a) s = .next (s.replied 10 .transitBusy (.transfer .none false a []))) ∧
      (s.transit.state = .empty →
        let m := if laneOf src.slot.toNat = laneOf dst.slot.toNat then MgmtReq.sameTransfer src dst (how == 1) a
          else .step1 src dst (how == 1) a
        ((s.engine (laneOf src.slot.toNat)).queue.length < 8 → exec (.transfer src dst how a) s =
          .next ((s.begun (.transfer none)).enqueue (laneOf src.slot.toNat) (.mgmt m))) ∧
        (8 ≤ (s.engine (laneOf src.slot.toNat)).queue.length → exec (.transfer src dst how a) s =
          .next (s.begunHeld (.transfer none) (laneOf src.slot.toNat) m)))) ∧
    ((s.transit.state ≠ .stranded ∨ 1 < how.toNat) →
      exec (.transitClear how src) s = .next (s.replied 11 .badRange .bare)) ∧
    (s.transit.state = .stranded → ∃ t, exec (.transitClear 0 src) s = .next t ∧ t.transit.state = .empty ∧
      t = { s.replied 11 .ok (.dropped s.transit.amount) with transit := t.transit }) ∧
    (let g := laneOf src.slot.toNat
     let starts := fun c m =>
       ((s.engine g).queue.length < 8 → exec (rowOf c) s = .next ((s.begun .account).enqueue g (.mgmt m))) ∧
       (8 ≤ (s.engine g).queue.length → exec (rowOf c) s = .next (s.begunHeld .account g m))
     starts (.read src 0) (.read src false) ∧ starts (.read src 1) (.read src true) ∧
       starts (.freeze src) (.freeze src) ∧ starts (.thaw src) (.thaw src) ∧ starts (.retire src) (.retire src) ∧
       (∀ mask : Byte, 1 ≤ mask.toNat → mask.toNat ≤ 7 → (mask.getLsbD 0 = true → B6.ok floor = true) →
         (mask.getLsbD 1 = true → B6.ok low = true) →
         starts (.update src mask floor low set) (.update src mask floor low set)) ∧
       (a.ok = true → 1 ≤ a.value → starts (.topup src a) (.topup src a)) ∧
       (a.ok = true → a.value ≠ 0 → starts (.adjust src a) (.adjust src a)) ∧
       (bal.ok = true → B6.ok floor = true → B6.ok low = true →
         starts (.restore src bal floor low set) (.restore src bal floor low set)) ∧
       (s.transit.state = .stranded → starts (.transitClear 1 src) (.transitCredit src))) ∧
    (∀ tk : Ticket,
      let g := laneOf (s.hold tk.entry.toNat).slot
      let starts := fun c m =>
        ((s.engine g).queue.length < 8 → exec (rowOf c) s = .next ((s.begun .account).enqueue g (.mgmt m))) ∧
        (8 ≤ (s.engine g).queue.length → exec (rowOf c) s = .next (s.begunHeld .account g m))
      ticketCurrent tk (s.hold tk.entry.toNat) = true →
      starts (.holdRead tk) (.holdRead tk) ∧ starts (.holdRelease tk) (.holdRelease tk) ∧
        starts (.holdCapture tk) (.holdCapture tk))

/-- R7, R13 to R17, R33: FREEZE, THAW and RETIRE from the block to the answer: refused by the handle test, with CLOSING or
with SUSPECT; without a change where the state stands already; and with the state written. A RETIRE proceeds on a suspect
account. A handle refused, or refused with CLOSING or SUSPECT, is answered bare (log entry 16). A RETIRE's SUSPECT_FOUND
tells the state before the RETIRE's own write (log entry 20). Then the completion of each in any state that has it in
progress: it decides by the record as read at the taking, and writes into the record as it stands (log entry 11). -/
def Obligations.AccountStatesChangeOnCommand : Prop :=
  (∀ (s : State) (h : Handle), s.portOpen → s.engineFree (laneOf h.slot.toNat) →
      let g := laneOf h.slot.toNat
      let r := s.record h.slot.toNat
      let suspected := { r with suspect := r.suspect || !r.verifies }
      let found := if r.verifies = false ∧ r.suspect = false then
        [Notice.suspectFound h.slot.toNat r.gen r.state .operation] else []
      let written := fun (t : State) (st : AcctState) =>
        t.record h.slot.toNat = { suspected with stateCode := st.code }.seal ∧ s.otherRecords t h.slot.toNat
      let standing := fun (st : AcctState) => MgmtBody.standing st r.balance.sent r.held r.holds.length
      (∀ st, handleTest h r = some st →
        AccountCommandRuns (.freeze h) g s (s.replied 5 st .bare) ∧
        AccountCommandRuns (.thaw h) g s (s.replied 6 st .bare) ∧
        AccountCommandRuns (.retire h) g s (s.replied 7 st .bare)) ∧
      (handleTest h r = none → r.state = .closing →
        (∃ t, AccountCommandRuns (.freeze h) g s t ∧ s.onlyAnswers t h.slot.toNat 5 .closing .bare) ∧
        (∃ t, AccountCommandRuns (.thaw h) g s t ∧ s.onlyAnswers t h.slot.toNat 6 .closing .bare) ∧
        (∃ t, AccountCommandRuns (.retire h) g s t ∧ s.onlyAnswers t h.slot.toNat 7 .ok (standing .closing))) ∧
      (handleTest h r = none → r.state ≠ .closing → (r.suspect = true ∨ r.verifies = false) →
        (∃ t, AccountCommandRuns (.freeze h) g s t ∧ s.onlyAnswers t h.slot.toNat 5 .suspect .bare) ∧
        (∃ t, AccountCommandRuns (.thaw h) g s t ∧ s.onlyAnswers t h.slot.toNat 6 .suspect .bare)) ∧
      (s.soundAccount h →
        (r.state = .frozen → AccountCommandRuns (.freeze h) g s (s.replied 5 .ok (standing .frozen))) ∧
        (r.state = .active → AccountCommandRuns (.thaw h) g s (s.replied 6 .ok (standing .active))) ∧
        (r.state = .active → ∃ t, AccountCommandRuns (.freeze h) g s t ∧ written t .frozen ∧
          t = { s.replied 5 .ok (standing .frozen) with accounts := t.accounts }) ∧
        (r.state = .frozen → ∃ t, AccountCommandRuns (.thaw h) g s t ∧ written t .active ∧
          t = { s.replied 6 .ok (standing .active) with accounts := t.accounts })) ∧
      (handleTest h r = none → r.state ≠ .closing → r.holds = [] →
        ∃ t, AccountCommandRuns (.retire h) g s t ∧ written t .gone ∧
          s.noticed t found ∧
          t.indexUnit = { s.indexUnit with updates := s.indexUnit.updates ++ [.remove r.key h.slot.toNat] } ∧
          (r.verifies = true → t.notices = s.notices) ∧
          t = { s.replied 7 .ok (.retired .gone r.balance.sent 0) with
                  accounts := t.accounts, indexUnit := t.indexUnit, notices := t.notices }) ∧
      (handleTest h r = none → r.state ≠ .closing → r.holds ≠ [] →
        ∃ t, AccountCommandRuns (.retire h) g s t ∧ written t .closing ∧
          s.noticed t found ∧
          (r.verifies = true → t.notices = s.notices) ∧
          t = { s.replied 7 .ok (standing .closing) with accounts := t.accounts, notices := t.notices })) ∧
  (∀ (g : Lane) (s : State) (op : Operation) (h : Handle) (m : MgmtReq) (opcode : Byte) (target : AcctState),
    s.mgmtOp g = some (op, m) →
    ((m = .freeze h ∧ opcode = 5 ∧ target = .frozen) ∨ (m = .thaw h ∧ opcode = 6 ∧ target = .active)) →
    let slot := h.slot.toNat
    let r := op.record
    let answer := MgmtBody.standing target r.balance.sent r.held r.holds.length
    ∃ t, exec (.managementRequestComplete g) s = .next t ∧
      (∀ st, handleTest h r = some st → t = s.completed g opcode st .bare) ∧
      (handleTest h r = none → r.state = .closing → s.completedNoted t g slot r opcode .closing .bare) ∧
      (handleTest h r = none → r.state ≠ .closing → (r.suspect = true ∨ r.verifies = false) →
        s.completedNoted t g slot r opcode .suspect .bare) ∧
      (handleTest h r = none → r.sound → r.state = target → t = s.completed g opcode .ok answer) ∧
      (handleTest h r = none → r.sound → r.state ≠ .closing → r.state ≠ target →
        t.record slot = { s.record slot with stateCode := target.code }.seal ∧ s.otherRecords t slot ∧
        t = { s.completed g opcode .ok answer with accounts := t.accounts })) ∧
  (∀ (g : Lane) (s : State) (op : Operation) (h : Handle), s.mgmtOp g = some (op, .retire h) →
    let slot := h.slot.toNat
    let r := op.record
    let standing := MgmtBody.standing .closing r.balance.sent r.held r.holds.length
    ∃ t, exec (.managementRequestComplete g) s = .next t ∧
      (∀ st, handleTest h r = some st → t = s.completed g 7 st .bare) ∧
      (handleTest h r = none → r.state = .closing → s.completedNoted t g slot r 7 .ok standing) ∧
      (handleTest h r = none → r.state ≠ .closing →
        t.record slot = { s.flagSet slot (!r.verifies) with
          stateCode := AcctState.code (if r.holds = [] then .gone else .closing) }.seal ∧
        s.otherRecords t slot ∧ s.noticed t (s.suspectNotice slot (!r.verifies)) ∧
        (r.verifies = true → t.notices = s.notices) ∧
        (r.holds = [] →
          t.indexUnit = { s.indexUnit with updates := s.indexUnit.updates ++ [.remove r.key slot] } ∧
          t = { s.completed g 7 .ok (.retired .gone r.balance.sent 0) with
                  accounts := t.accounts, indexUnit := t.indexUnit, notices := t.notices }) ∧
        (r.holds ≠ [] → t = { s.completed g 7 .ok standing with accounts := t.accounts, notices := t.notices })))

/-- R7, R33, R49, R57 to R59, R68: TOPUP, ADJUST and the credit of TRANSIT_CLEAR, from the block to the answer: refused by
the command unit with BAD_DIGIT or BAD_RANGE, at the engine by the handle test, with CLOSING (an ADJUST is not), SUSPECT
or OVER, and written on a sound account. A refusal with CLOSING or OVER carries the stored figures and the would-be
conditions, any other none (log entry 16). Then the completion of each in any state that has it in progress: it decides by
the record as read at the taking, and writes into the record as it stands (log entry 11); the credit of TRANSIT_CLEAR
takes the amount from the register as read, whatever has become of the register since (log entry 40). -/
def Obligations.CreditsAreWrittenOnCommand : Prop :=
  (∀ (s : State) (h : Handle) (a : S8), s.portOpen →
      let g := laneOf h.slot.toNat
      let r := s.record h.slot.toNat
      let credited := fun v : Int => { r with balance := S8.ofInt v }
      let body := fun v : Int =>
        MgmtBody.value (S8.ofInt v).sent r.held (credited v).spendable r.holds.length (storedConds (credited v))
      let inRange := fun v : Int => -99999999 ≤ v ∧ v ≤ 99999999
      let refused := fun v : Int => MgmtBody.valueRefused r.balance.sent r.held r.spendable
        { balanceConds (r.bal + v) r.lowValue with overRange := decide (¬inRange (r.bal + v)) }
      (a.ok = false → exec (.topup h a) s = .next (s.replied 8 .badDigit .bare) ∧
        exec (.adjust h a) s = .next (s.replied 9 .badDigit .bare)) ∧
      (a.ok = true → a.value < 1 → exec (.topup h a) s = .next (s.replied 8 .badRange .bare)) ∧
      (a.ok = true → a.value = 0 → exec (.adjust h a) s = .next (s.replied 9 .badRange .bare)) ∧
      (s.engineFree g → a.ok = true →
        (∀ st, handleTest h r = some st →
          (1 ≤ a.value → AccountCommandRuns (.topup h a) g s (s.replied 8 st .bare)) ∧
          (a.value ≠ 0 → AccountCommandRuns (.adjust h a) g s (s.replied 9 st .bare)) ∧
          (s.transit.state = .stranded → AccountCommandRuns (.transitClear 1 h) g s (s.replied 11 st .bare))) ∧
        (handleTest h r = none → r.state = .closing →
          (1 ≤ a.value → ∃ t, AccountCommandRuns (.topup h a) g s t ∧
            s.onlyAnswers t h.slot.toNat 8 .closing (refused a.value)) ∧
          (s.transit.state = .stranded → ∃ t, AccountCommandRuns (.transitClear 1 h) g s t ∧
            s.onlyAnswers t h.slot.toNat 11 .closing (refused s.transit.amount))) ∧
        (handleTest h r = none → (r.suspect = true ∨ r.verifies = false) →
          (1 ≤ a.value → r.state ≠ .closing → ∃ t, AccountCommandRuns (.topup h a) g s t ∧
            s.onlyAnswers t h.slot.toNat 8 .suspect .bare) ∧
          (a.value ≠ 0 → ∃ t, AccountCommandRuns (.adjust h a) g s t ∧
            s.onlyAnswers t h.slot.toNat 9 .suspect .bare) ∧
          (s.transit.state = .stranded → r.state ≠ .closing → ∃ t, AccountCommandRuns (.transitClear 1 h) g s t ∧
            s.onlyAnswers t h.slot.toNat 11 .suspect .bare)) ∧
        (s.soundAccount h →
          (a.value ≠ 0 → ¬inRange (r.bal + a.value) →
            AccountCommandRuns (.adjust h a) g s (s.replied 9 .overRange (refused a.value))) ∧
          (s.transit.state = .stranded → r.state ≠ .closing → ¬inRange (r.bal + s.transit.amount) →
            AccountCommandRuns (.transitClear 1 h) g s (s.replied 11 .overRange (refused s.transit.amount))) ∧
          (1 ≤ a.value → r.state ≠ .closing → inRange (r.bal + a.value) →
            ∃ t, AccountCommandRuns (.topup h a) g s t ∧
              t.record h.slot.toNat = (credited (r.bal + a.value)).seal ∧ s.otherRecords t h.slot.toNat ∧
              t = { s.replied 8 .ok (body (r.bal + a.value)) with accounts := t.accounts }) ∧
          (1 ≤ a.value → r.state ≠ .closing → 99999999 < r.bal + a.value →
            AccountCommandRuns (.topup h a) g s (s.replied 8 .overRange (.valueRefused r.balance.sent r.held r.spendable
              { balanceConds (r.bal + a.value) r.lowValue with overRange := true }))) ∧
          (a.value ≠ 0 → inRange (r.bal + a.value) →
            ∃ t, AccountCommandRuns (.adjust h a) g s t ∧
              t.record h.slot.toNat = (credited (r.bal + a.value)).seal ∧ s.otherRecords t h.slot.toNat ∧
              s.noticed t (if (r.lowValue : Int) ≤ r.bal ∧ r.bal + a.value < r.lowValue then
                [.lowBalance ⟨BitVec.ofNat 16 h.slot.toNat, r.gen⟩ (S8.ofInt (r.bal + a.value))] else []) ∧
              t = { s.replied 9 .ok (body (r.bal + a.value)) with accounts := t.accounts, notices := t.notices }) ∧
          (s.transit.state = .stranded → r.state ≠ .closing → inRange (r.bal + s.transit.amount) →
            ∃ t, AccountCommandRuns (.transitClear 1 h) g s t ∧ t.transit.state = .empty ∧
              t.record h.slot.toNat = (credited (r.bal + s.transit.amount)).seal ∧ s.otherRecords t h.slot.toNat ∧
              t = { s.replied 11 .ok (.credited (S8.ofInt (r.bal + s.transit.amount))
                      (balanceConds (r.bal + s.transit.amount) r.lowValue)) with
                    accounts := t.accounts, transit := t.transit })))) ∧
  (∀ (g : Lane) (s : State) (op : Operation) (h : Handle) (a : S8) (m : MgmtReq) (opcode : Byte) (v : Int),
    s.mgmtOp g = some (op, m) →
    ((m = .topup h a ∧ opcode = 8 ∧ v = a.value) ∨ (m = .adjust h a ∧ opcode = 9 ∧ v = a.value) ∨
      (m = .transitCredit h ∧ opcode = 11 ∧ v = op.transit.amount)) →
    let slot := h.slot.toNat
    let r := op.record
    let credited := { r with balance := S8.ofInt (r.bal + v) }
    let inRange := -99999999 ≤ r.bal + v ∧ r.bal + v ≤ 99999999
    let closes := r.state = .closing ∧ opcode ≠ 9
    let refused := MgmtBody.valueRefused r.balance.sent r.held r.spendable
      { balanceConds (r.bal + v) r.lowValue with overRange := decide (¬inRange) }
    let low : List Notice := if (r.lowValue : Int) ≤ r.bal ∧ r.bal + v < r.lowValue then
      [.lowBalance ⟨BitVec.ofNat 16 slot, r.gen⟩ (S8.ofInt (r.bal + v))] else []
    ∃ t, exec (.managementRequestComplete g) s = .next t ∧
      (∀ st, handleTest h r = some st → t = s.completed g opcode st .bare) ∧
      (handleTest h r = none → closes → s.completedNoted t g slot r opcode .closing refused) ∧
      (handleTest h r = none → ¬closes → (r.suspect = true ∨ r.verifies = false) →
        s.completedNoted t g slot r opcode .suspect .bare) ∧
      (handleTest h r = none → ¬closes → r.sound → ¬inRange → t = s.completed g opcode .overRange refused) ∧
      (handleTest h r = none → ¬closes → r.sound → inRange →
        t.record slot = { s.record slot with balance := S8.ofInt (r.bal + v) }.seal ∧ s.otherRecords t slot ∧
        s.noticed t low ∧ (0 ≤ v → t.notices = s.notices) ∧
        (opcode ≠ 11 → t = { s.completed g opcode .ok (.value (S8.ofInt (r.bal + v)).sent r.held credited.spendable
          r.holds.length (storedConds credited)) with accounts := t.accounts, notices := t.notices }) ∧
        (opcode = 11 → t.transit.state = .empty ∧
          t = { s.completed g 11 .ok (.credited (S8.ofInt (r.bal + v)) (balanceConds (r.bal + v) r.lowValue)) with
                  accounts := t.accounts, transit := t.transit })))

/-- R5, R7, R33, R94, R101, R103, R139 to R141, R157, R158: the management READ, UPDATE and RESTORE, from the block to the
answer: refused by the command unit with BAD_DIGIT or BAD_RANGE, at the engine by the handle test, an UPDATE with SUSPECT;
a READ answered, suspect or not; an UPDATE and a RESTORE of a sound account written and answered. An UPDATE with an empty
mask is answered OK with no fields, and the refusals are bare (log entry 16). Then the completion of each in any state
that has it in progress: it decides by the record as read at the taking, a READ answers that record with the flag as it
stands, an UPDATE and a RESTORE write into the record as it stands and answer it (log entry 11). The completion of any
RESTORE whose handle is current clears the flag, writes a matching check code, and re-arms the STALLED holds on the list
that it read: each is LIVE with the timebase as its deadline and its other fields as they were, and their claims are
posted at once in hold-list order. The answer tells the record as written (log entry 11), and a mismatch found has posted
its SUSPECT_FOUND. -/
def Obligations.RecordsAreReadAndRewrittenOnCommand : Prop :=
  (∀ (s : State) (h : Handle) (mask : Byte) (bal : S8) (floor low : B6) (set : TariffSet), s.portOpen →
    let g := laneOf h.slot.toNat
    let r := s.record h.slot.toNat
    let flag := r.suspect || !r.verifies
    let badDigit := (mask.getLsbD 0 = true ∧ B6.ok floor = false) ∨ (mask.getLsbD 1 = true ∧ B6.ok low = false)
    (∀ form : Byte, 1 < form.toNat → exec (.managementRead h form) s = .next (s.replied 3 .badRange .bare)) ∧
    (badDigit → exec (.update h mask floor low set) s = .next (s.replied 4 .badDigit .bare)) ∧
    (¬badDigit → 7 < mask.toNat → exec (.update h mask floor low set) s = .next (s.replied 4 .badRange .bare)) ∧
    exec (.update h 0 floor low set) s = .next (s.replied 4 .ok .bare) ∧
    (¬(bal.ok = true ∧ B6.ok floor = true ∧ B6.ok low = true) →
      exec (.restore h bal floor low set) s = .next (s.replied 12 .badDigit .bare)) ∧
    (s.engineFree g →
      (∀ st, handleTest h r = some st →
        (∀ form : Byte, form.toNat ≤ 1 → AccountCommandRuns (.managementRead h form) g s (s.replied 3 st .bare)) ∧
        (¬badDigit → 1 ≤ mask.toNat → mask.toNat ≤ 7 →
          AccountCommandRuns (.update h mask floor low set) g s (s.replied 4 st .bare)) ∧
        (bal.ok = true → B6.ok floor = true → B6.ok low = true →
          AccountCommandRuns (.restore h bal floor low set) g s (s.replied 12 st .bare))) ∧
      (handleTest h r = none →
        (∃ t, AccountCommandRuns (.managementRead h 0) g s t ∧
          s.onlyAnswers t h.slot.toNat 3 .ok (.brief r.state r.balance.sent r.held flag)) ∧
        (∃ t, AccountCommandRuns (.managementRead h 1) g s t ∧
          s.onlyAnswers t h.slot.toNat 3 .ok (.full r.state r.balance.sent r.held flag r.key r.gen r.floor r.lowMark
            r.tariffs r.holds r.spendable r.holds.length (storedConds r))) ∧
        (¬badDigit → 1 ≤ mask.toNat → mask.toNat ≤ 7 → flag = true →
          ∃ t, AccountCommandRuns (.update h mask floor low set) g s t ∧
            s.onlyAnswers t h.slot.toNat 4 .suspect .bare)) ∧
      (s.soundAccount h → ¬badDigit → 1 ≤ mask.toNat → mask.toNat ≤ 7 →
        let new := { r with floor := if mask.getLsbD 0 then floor else r.floor,
                            lowMark := if mask.getLsbD 1 then low else r.lowMark,
                            tariffs := if mask.getLsbD 2 then set else r.tariffs }
        ∃ t, AccountCommandRuns (.update h mask floor low set) g s t ∧ t.record h.slot.toNat = new.seal ∧
          s.otherRecords t h.slot.toNat ∧
          t = { s.replied 4 .ok (.updated new.floor new.lowMark new.tariffs r.balance.sent r.held
                  (r.bal + B6.value new.floor - r.held) r.holds.length (balanceConds r.bal (B6.value new.lowMark))) with
                accounts := t.accounts }) ∧
      (s.soundAccount h → bal.ok = true → B6.ok floor = true → B6.ok low = true →
        (∀ tk ∈ r.holds, (s.hold tk.entry.toNat).state ≠ .stalled) → (∀ i ∈ s.deadlines, s.timebase < i.deadline) →
        let new := { r with balance := S8.ofInt bal.value, floor := floor, lowMark := low, tariffs := set }
        ∃ t, AccountCommandRuns (.restore h bal floor low set) g s t ∧ t.record h.slot.toNat = new.seal ∧
          s.otherRecords t h.slot.toNat ∧
          t = { s.replied 12 .ok (.restored r.state r.key r.gen (S8.ofInt bal.value).sent floor low set false false
                  true r.held new.spendable r.holds.length 0 (storedConds new)) with accounts := t.accounts }))) ∧
  (∀ (g : Lane) (s : State) (op : Operation) (h : Handle) (full : Bool), s.mgmtOp g = some (op, .read h full) →
    let slot := h.slot.toNat
    let r := op.record
    let flag := (s.record slot).suspect || !r.verifies
    ∃ t, exec (.managementRequestComplete g) s = .next t ∧
      (∀ st, handleTest h r = some st → t = s.completed g 3 st .bare) ∧
      (handleTest h r = none → s.completedNoted t g slot r 3 .ok (if full then
        .full r.state r.balance.sent r.held flag r.key r.gen r.floor r.lowMark r.tariffs r.holds r.spendable r.holds.length
          (storedConds r)
        else .brief r.state r.balance.sent r.held flag))) ∧
  (∀ (g : Lane) (s : State) (op : Operation) (h : Handle) (mask : Byte) (floor low : B6) (set : TariffSet),
    s.mgmtOp g = some (op, .update h mask floor low set) →
    let slot := h.slot.toNat
    let r := op.record
    let old := s.record slot
    let new := { old with floor := if mask.getLsbD 0 then floor else old.floor,
                          lowMark := if mask.getLsbD 1 then low else old.lowMark,
                          tariffs := if mask.getLsbD 2 then set else old.tariffs }
    ∃ t, exec (.managementRequestComplete g) s = .next t ∧
      (∀ st, handleTest h r = some st → t = s.completed g 4 st .bare) ∧
      (handleTest h r = none → (r.suspect = true ∨ r.verifies = false) →
        s.completedNoted t g slot r 4 .suspect .bare) ∧
      (handleTest h r = none → r.sound → t.record slot = new.seal ∧ s.otherRecords t slot ∧
        t = { s.completed g 4 .ok (.updated new.floor new.lowMark new.tariffs old.balance.sent old.held
                (old.bal + B6.value new.floor - old.held) old.holds.length (balanceConds old.bal (B6.value new.lowMark))) with
              accounts := t.accounts })) ∧
  (∀ (g : Lane) (s : State) (op : Operation) (h : Handle) (bal : S8) (floor low : B6) (set : TariffSet) (st : Status),
    s.mgmtOp g = some (op, .restore h bal floor low set) → handleTest h op.record = some st →
    exec (.managementRequestComplete g) s = .next (s.completed g 12 st .bare)) ∧
  (∀ (g : Lane) (s : State) (op : Operation) (h : Handle) (bal : S8) (floor low : B6) (set : TariffSet),
    s.mgmtOp g = some (op, .restore h bal floor low set) → handleTest h op.record = none →
    let old := s.record h.slot.toNat
    let rearmed := op.record.holds.filter fun tk => (s.hold tk.entry.toNat).state == .stalled
    ∃ t, exec (.managementRequestComplete g) s = .next t ∧ (t.engine g).op = none ∧
      (t.record h.slot.toNat).suspect = false ∧ (t.record h.slot.toNat).balance = S8.ofInt bal.value ∧
      (t.record h.slot.toNat).floor = floor ∧ (t.record h.slot.toNat).lowMark = low ∧
      (t.record h.slot.toNat).tariffs = set ∧ (t.record h.slot.toNat).state = old.state ∧
      (t.record h.slot.toNat).key = old.key ∧ (t.record h.slot.toNat).gen = old.gen ∧
      (t.record h.slot.toNat).held = old.held ∧ (t.record h.slot.toNat).holds = old.holds ∧
      (t.record h.slot.toNat).checkCode = crc16 (t.record h.slot.toNat).covered ∧ s.otherRecords t h.slot.toNat ∧
      (∀ tk ∈ rearmed, t.hold tk.entry.toNat =
        { s.hold tk.entry.toNat with state := .live, deadline := s.timebase }) ∧
      (∀ n, (∀ tk ∈ rearmed, tk.entry.toNat ≠ n) → t.hold n = s.hold n) ∧
      (s.isReady = true → (∀ i ∈ s.deadlines, s.timebase < i.deadline) → t.deadlines = s.deadlines ∧
        t.power = (if rearmed = [] then s.power else s.wake.power) ∧
        ∀ m, (t.engine m).expiry = (s.engine m).expiry ++
          rearmed.filter fun tk => laneOf (s.hold tk.entry.toNat).slot == m) ∧
      t.cmd = s.unitAnswers ⟨12, .ok, .restored old.state old.key old.gen (S8.ofInt bal.value).sent floor low set false
        old.suspect op.record.verifies old.held (bal.value + B6.value floor - old.held) old.holds.length rearmed.length
        (balanceConds bal.value (B6.value low))⟩ ∧
      s.noticed t (if op.record.verifies = false ∧ old.suspect = false then
        [.suspectFound h.slot.toNat old.gen old.state .operation] else []) ∧
      (op.record.verifies = true → t.notices = s.notices) ∧
      (∀ m, t.engine m = { s.engine m with op := if m = g then none else (s.engine m).op,
                                           expiry := (t.engine m).expiry }) ∧
      t = { s with accounts := t.accounts, holds := t.holds, deadlines := t.deadlines, engines := t.engines, cmd := t.cmd,
                   notices := t.notices, power := t.power })

/-- R35, R36, R86 to R89, R94, R102: HOLD_READ, HOLD_RELEASE and HOLD_CAPTURE of a LIVE or STALLED hold of a sound or
suspect account, from the block to the answer; a HOLD_CAPTURE is refused with SUSPECT on a STALLED hold and on a suspect
account. A stale ticket is answered HOLD_GONE at once, and one that an engine finds stale at its taking, at the
completion. A SUSPECT_FOUND tells the state before the ending (log entry 20). held after an ending whose amount is above
it is a free value (log entry 35); an ending of a ticket that is on no list is log entry 36. Then the completion of each
in any state that has it in progress: it decides by the entry and the record as read at the taking, and writes into the
record as it stands (log entry 11). A hold whose expiry claim waits at the engine by then is read CLAIMED, and a release
or capture withdraws the claim. -/
def Obligations.HoldCommandsActOnTheHold : Prop :=
  (∀ (s : State) (tk : Ticket), s.portOpen →
    (ticketCurrent tk (s.hold tk.entry.toNat) = false →
      exec (.holdRead tk) s = .next (s.replied 13 .holdGone .bare) ∧
      exec (.holdRelease tk) s = .next (s.replied 14 .holdGone .bare) ∧
      exec (.holdCapture tk) s = .next (s.replied 15 .holdGone .bare)) ∧
    (let e := s.hold tk.entry.toNat
     let g := laneOf e.slot
     let r := s.record e.slot
     let charge : Int := if r.bal - e.amount < -99999999 then r.bal + 99999999 else e.amount
     let found := if r.verifies = false ∧ r.suspect = false then
       [Notice.suspectFound e.slot r.gen r.state .operation] else []
     let left := r.holds.filter (· ≠ tk)
     let ended := fun (t : State) (body : MgmtBody) (opcode : Byte) =>
       (∀ m, t.engine m = { s.engine m with expiry := (t.engine m).expiry }) ∧
       ((∀ i ∈ s.deadlines, s.timebase < i.deadline) → t.power = s.wake.power) ∧
       t = { s.replied opcode .ok body with
               accounts := t.accounts, holds := t.holds, deadlines := t.deadlines, engines := t.engines,
               indexUnit := t.indexUnit, notices := t.notices, power := t.power }
     ticketCurrent tk e = true → s.engineFree g →
      (∃ t, AccountCommandRuns (.holdRead tk) g s t ∧
        s.onlyAnswers t e.slot 13 .ok (.hold e.state e.serial e.slot e.gen e.link e.epoch e.tariff e.units e.price e.amount
          e.deadline e.extensions e.action
          (if e.state = .stalled then .none else if s.isQueued tk = true then .queued else .claimed)
          (r.suspect || !r.verifies))) ∧
      (∃ t, AccountCommandRuns (.holdRelease tk) g s t ∧ s.holdEnded t g tk e r none ∧ s.noticed t found ∧
        ended t (.holdReleased tk r.balance.sent (heldWithout r.held e.amount)
          (r.bal + r.floorValue - (heldWithout r.held e.amount : Nat)) left.length (balanceConds r.bal r.lowValue)) 14 ∧
        (r.verifies = true → t.notices = s.notices)) ∧
      (e.state = .live → r.sound → ∃ t, AccountCommandRuns (.holdCapture tk) g s t ∧
        s.holdEnded t g tk e r (if 0 < charge then some (r.bal - charge) else none) ∧
        ended t (.holdCaptured tk charge.toNat
          (if 0 < charge then (S8.ofInt (r.bal - charge)).sent else r.balance.sent) (heldWithout r.held e.amount)
          (r.bal - charge + r.floorValue - (heldWithout r.held e.amount : Nat)) left.length
          { balanceConds (r.bal - charge) r.lowValue with overRange := decide (r.bal - e.amount < -99999999) }) 15 ∧
        s.noticed t (if 0 < charge ∧ (r.lowValue : Int) ≤ r.bal ∧ r.bal - charge < r.lowValue then
          [.lowBalance ⟨BitVec.ofNat 16 e.slot, r.gen⟩ (S8.ofInt (r.bal - charge))] else [])) ∧
      ((e.state = .stalled ∨ r.suspect = true ∨ r.verifies = false) →
        ∃ t, AccountCommandRuns (.holdCapture tk) g s t ∧ s.onlyAnswers t e.slot 15 .suspect .bare))) ∧
  (∀ (g : Lane) (s : State) (op : Operation) (tk : Ticket) (m : MgmtReq) (opcode : Byte),
    s.mgmtOp g = some (op, m) → ticketOfGroup g tk op.entry = false →
    ((m = .holdRead tk ∧ opcode = 13) ∨ (m = .holdRelease tk ∧ opcode = 14) ∨ (m = .holdCapture tk ∧ opcode = 15)) →
    exec (.managementRequestComplete g) s = .next (s.completed g opcode .holdGone .bare)) ∧
  (∀ (g : Lane) (s : State) (op : Operation) (tk : Ticket) (m : MgmtReq), s.mgmtOp g = some (op, m) →
    (m = .holdRead tk ∨ m = .holdRelease tk ∨ m = .holdCapture tk) → ticketOfGroup g tk op.entry = true →
    let e := op.entry
    let r := op.record
    let charge : Int := if r.bal - e.amount < -99999999 then r.bal + 99999999 else e.amount
    let left := r.holds.filter (· ≠ tk)
    let held := heldWithout r.held e.amount
    let ended := fun (t : State) (body : MgmtBody) (opcode : Byte) =>
      (∀ m, t.engine m = { s.engine m with op := if m = g then none else (s.engine m).op,
                                           expiry := (t.engine m).expiry }) ∧
      ((∀ i ∈ s.deadlines, s.timebase < i.deadline) → t.power = s.power) ∧
      t = { s.completed g opcode .ok body with
              accounts := t.accounts, holds := t.holds, deadlines := t.deadlines, engines := t.engines,
              indexUnit := t.indexUnit, notices := t.notices, power := t.power }
    ∃ t, exec (.managementRequestComplete g) s = .next t ∧
      (m = .holdRead tk → s.completedNoted t g e.slot r 13 .ok (.hold e.state e.serial e.slot e.gen e.link e.epoch e.tariff
        e.units e.price e.amount e.deadline e.extensions e.action
        (if e.state = .stalled then .none else if s.isQueued tk = true then .queued else .claimed)
        (r.suspect || !r.verifies))) ∧
      (m = .holdRelease tk → s.holdEnded t g tk e r none ∧ s.noticed t (s.suspectNotice e.slot (!r.verifies)) ∧
        (r.verifies = true → t.notices = s.notices) ∧
        ended t (.holdReleased tk r.balance.sent held (r.bal + r.floorValue - (held : Nat)) left.length
          (balanceConds r.bal r.lowValue)) 14) ∧
      (m = .holdCapture tk → e.state ≠ .stalled → r.sound →
        s.holdEnded t g tk e r (if 0 < charge then some (r.bal - charge) else none) ∧
        ended t (.holdCaptured tk charge.toNat
          (if 0 < charge then (S8.ofInt (r.bal - charge)).sent else r.balance.sent) held
          (r.bal - charge + r.floorValue - (held : Nat)) left.length
          { balanceConds (r.bal - charge) r.lowValue with overRange := decide (r.bal - e.amount < -99999999) }) 15 ∧
        s.noticed t (if 0 < charge ∧ (r.lowValue : Int) ≤ r.bal ∧ r.bal - charge < r.lowValue then
          [.lowBalance ⟨BitVec.ofNat 16 e.slot, r.gen⟩ (S8.ofInt (r.bal - charge))] else [])) ∧
      (m = .holdCapture tk → (e.state = .stalled ∨ r.suspect = true ∨ r.verifies = false) →
        s.completedNoted t g e.slot r 15 .suspect .bare))

/-! ### Resets and starts -/

/-- R23, R38, R74, R97, R122, R143, R153, R160, R166 to R168: RST_FALL, MAIN_SUPPLY_LOSS and the end of the select period
after a RESET's are reset events: what each clears, what each keeps, and the cause it records. The period after a RESET
may be a read, which returns the RESET's answer before the reset takes effect, carry a command block, which is not taken,
or carry other bytes, or end by itself as SOFT_RESET_EFFECT. -/
def Obligations.ResetEventsClearTheVolatileStores : Prop :=
  ∀ (s : State) (c : Instr), s.powered = true → s.canonical →
    let reset := s.cmd.armed = true ∧ (c = .softResetEffect ∨ c = .responseRead ∨ (∃ k, c = rowOf k) ∨
      ∃ bytes, c = .undecodableBlock bytes)
    (c = .rstFall ∨ c = .mainSupplyLoss ∨ reset) →
    ∃ t, exec c s = .next t ∧
      (∀ n, t.record n = { s.record n with held := 0, holds := [] }) ∧
      (∀ n, (t.hold n).state = .free ∧ (t.hold n).serial = (s.hold n).serial) ∧
      t.engines = Four.all Engine.cleared ∧ t.indexUnit = IndexUnit.cleared ∧ t.deadlines = [] ∧ t.timebase = 0 ∧
      t.router = 0 ∧ t.allocPtr = 0 ∧ t.check = CheckUnit.cleared ∧
      t.notices = { list := [], lost := false, attn := false } ∧ t.cmd.state = .idle ∧ t.cmd.immediate = none ∧
      t.cmd.held = none ∧ t.cmd.armed = false ∧ t.cmd.interval = s.cmd.interval ∧ t.cmd.threshold = s.cmd.threshold ∧
      (∀ l, (t.link l).fifo = [] ∧ (t.link l).queue = [] ∧ (t.link l).tags = Four.all false ∧ (t.link l).epoch = 0 ∧
        (t.link l).rdy = false ∧ (t.link l).receiver = .idle ∧ (t.link l).badCrc = 0 ∧ (t.link l).overrun = false ∧
        (t.link l).enabled = (s.link l).enabled ∧ (t.link l).baud = (s.link l).baud ∧
        (t.link l).high = (s.link l).high ∧ (t.link l).resume = (s.link l).resume) ∧
      t.index = s.index ∧ t.tariffs = s.tariffs ∧ t.transit = s.transit ∧ t.isReady = false ∧ t.power.mode = .run ∧
      t.power.mark = s.power.mark ∧
      (c = .rstFall → t.power.cause = .pinReset ∧ t.power.rstLow = true ∧ t.power.stage = .held) ∧
      (c = .mainSupplyLoss → t.power.cause = .powerReturn ∧ t.power.supply = false ∧ t.power.stage = .held) ∧
      (∀ r, s.cmd.armed = true → s.cmd.state = .reply r → (c = .responseRead ∨
        ∃ rest : List Byte, c = .undecodableBlock (255 :: rest) ∧ r.bytes.length ≤ rest.length) →
        t.cmd.lastRead = some r.bytes ∧ t.cmd.sdo = r.bytes) ∧
      (reset → t.power.cause = (if s.power.mark = true then .cold else .softReset) ∧ t.power.stage = .warmUp)

/-- R165 to R167: RST_RELEASE, MAIN_SUPPLY_RETURN and WAKE_EDGE begin the start-up sequence with their causes, COLD when
the mark is set; BACKUP_SUPPLY_LOW sets the mark while the main domain is off (log entry 41 for one before that). RST
falling in RETAIN is no reset event, and the start at its release keeps the cause that the entry into RETAIN recorded. -/
def Obligations.StartsBeginWithTheirCauses : Prop :=
  ∀ s : State,
    let started := fun (cause : StartCause) => { s with power :=
      { s.power with stage := .warmUp, mode := .run, resume := .run, rstLow := false, supply := true,
                     cause := if s.power.mark = true then .cold else cause } }
    (s.power.mode = .retain → s.power.rstLow = false → exec .rstFall s =
      .next { s with power := { s.power with rstLow := true } }) ∧
    (s.power.rstLow = true → s.power.supply = true → exec .rstRelease s = .next (started s.power.cause)) ∧
    (s.power.supply = false → s.power.rstLow = false → s.power.mode ≠ .retain →
      exec .mainSupplyReturn s = .next (started .powerReturn)) ∧
    (s.power.supply = false → s.power.mode = .retain →
      exec .mainSupplyReturn s = .next { s with power := { s.power with supply := true } }) ∧
    (s.power.mode = .retain → s.power.supply = true → s.power.rstLow = false →
      exec .wakeEdge s = .next (started .retainWake)) ∧
    ((s.power.mode ≠ .retain ∨ s.power.supply = false) → exec .wakeEdge s = .next s) ∧
    ((s.power.supply = false ∨ s.power.mode = .retain) → exec .backupSupplyLow s =
      .next { s with power := { s.power with mark := true } }) ∧
    (s.power.supply = true → s.power.mode ≠ .retain → exec .backupSupplyLow s = .next s)

/-- R25, R74, R109, R123, R143, R159, R64, R166: with the mark set, OSCILLATOR_WARM_UP_DONE writes every cold default and
clears the mark; with it clear it writes none. Then the long check stands at slot 0. -/
def Obligations.WarmUpWritesTheColdDefaults : Prop :=
  ∀ s : State, s.power.stage = .warmUp →
    ∃ t, exec .oscillatorWarmUpDone s = .next t ∧ t.power.stage = .longCheck ∧ t.check.stage = .scan 0 ∧
      t.check.count = 0 ∧ t.power.mark = false ∧ t.power.cause = s.power.cause ∧
      (s.power.mark = true →
        (∀ n, (t.record n).state = .free ∧ (t.record n).gen = 0 ∧ (t.record n).key = 0 ∧ (t.record n).bal = 0 ∧
          (t.record n).floorValue = 0 ∧ (t.record n).lowValue = 0 ∧ (t.record n).tariffs = 0 ∧
          (t.record n).suspect = false ∧ (t.record n).verifies = true ∧ (t.record n).held = 0 ∧ (t.record n).holds = []) ∧
        (∀ n, t.way n = none) ∧ (∀ n, (t.hold n).state = .free ∧ (t.hold n).serial = 0) ∧
        (∀ n, t.tariff n = { enabled := false, price := 1, maxUnits := 9999, window := 600, action := .release }) ∧
        (∀ l, (t.link l).enabled = false ∧ (t.link l).baud = 2 ∧ (t.link l).high = 12 ∧ (t.link l).resume = 4) ∧
        t.cmd.interval = 60 ∧ t.cmd.threshold = 1 ∧ t.transit.state = .empty) ∧
      (s.power.mark = false → t.accounts = s.accounts ∧ t.index = s.index ∧ t.holds = s.holds ∧ t.tariffs = s.tariffs ∧
        t.links = s.links ∧ t.cmd = s.cmd ∧ t.transit = s.transit)

/-- R20, R24, R69, R133: the visits of the long check: a slot by its state, with the way of its index entry, searched in
the bucket of the key stored; a bucket's ways that name FREE slots; the transit register. Where several ways of the bucket
name the slot, the lowest-numbered is the one freed: the model's choice (log entry 44). Of the check unit a visit
changes the stage and, for a mismatch, the count, and nothing of the chip beside the stores it visits. -/
def Obligations.TheLongCheckVisitsTheStores : Prop :=
  (∀ (s : State) (n : Nat), s.check.stage = .scan n →
    let t := s.longCheckVisit
    let r := s.record n
    t.check = { s.check with
      stage := if n + 1 < 4096 then .scan (n + 1) else .sweep 0
      count := if (r.state = .active ∨ r.state = .frozen) ∧ r.verifies = false then s.check.count + 1 else s.check.count } ∧
    t = { s with accounts := t.accounts, index := t.index, check := t.check } ∧ s.otherRecords t n ∧
    (r.state = .free → t.accounts = s.accounts ∧ t.index = s.index) ∧
    (r.state = .new → (t.record n).state = .free ∧ (t.record n).gen = r.gen ∧ (t.record n).verifies = true) ∧
    ((r.state = .closing ∨ r.state = .gone) →
      (t.record n).state = .free ∧ (t.record n).gen = r.gen + 1 ∧ (t.record n).verifies = true ∧ (t.record n).key = 0 ∧
        (t.record n).bal = 0 ∧ (t.record n).suspect = false) ∧
    ((r.state = .new ∨ r.state = .closing ∨ r.state = .gone) →
      ((t.record n).key = 0 ∧ (t.record n).bal = 0 ∧ (t.record n).floorValue = 0 ∧ (t.record n).lowValue = 0 ∧
        (t.record n).tariffs = 0 ∧ (t.record n).suspect = false ∧ (t.record n).held = 0 ∧ (t.record n).holds = []) ∧
      (∀ w key, 8 * (r.key.toNat % 1021) ≤ w → w < 8 * (r.key.toNat % 1021) + 8 → s.way w = some ⟨key, n⟩ →
        (∀ v k, 8 * (r.key.toNat % 1021) ≤ v → v < w → s.way v ≠ some ⟨k, n⟩) →
        t.way w = none ∧ ∀ v, v ≠ w → t.way v = s.way v) ∧
      ((∀ w key, 8 * (r.key.toNat % 1021) ≤ w → w < 8 * (r.key.toNat % 1021) + 8 → s.way w ≠ some ⟨key, n⟩) →
        t.index = s.index)) ∧
    ((r.state = .active ∨ r.state = .frozen) → r.verifies = true → t.accounts = s.accounts ∧ t.index = s.index) ∧
    ((r.state = .active ∨ r.state = .frozen) → r.verifies = false →
      t.record n = { r with suspect := true } ∧ t.index = s.index)) ∧
  (∀ (s : State) (b : Nat), s.check.stage = .sweep b → s.canonical →
    let t := s.longCheckVisit
    t.check = { s.check with stage := if b + 1 < 1021 then .sweep (b + 1) else .transit } ∧
      t = { s with index := t.index, check := t.check } ∧
      (∀ w e, s.way w = some e → t.way w = if w / 8 = b ∧ (s.record e.slot).state = .free then none else some e) ∧
      (∀ w, s.way w = none → t.way w = none)) ∧
  (∀ s : State, s.check.stage = .transit →
    let r := s.record s.transit.src.slot.toNat
    let passes := handleTest s.transit.src r = none ∧ (r.state = .active ∨ r.state = .frozen) ∧ r.suspect = false
    let t := s.longCheckVisit
    t.check = { s.check with stage := .done, outcome := t.check.outcome } ∧
      t = { s with transit := t.transit, check := t.check } ∧
      t.transit = { s.transit with state := t.transit.state } ∧
      (s.transit.state = .empty → t.transit.state = .empty ∧ t.check.outcome = .none) ∧
      (s.transit.state = .stranded → t.transit.state = .stranded ∧ t.check.outcome = .strandedKept) ∧
      ((s.transit.state = .out ∨ s.transit.state = .returning) → passes →
        t.transit.state = .returning ∧ t.check.outcome = .returnPosted) ∧
      ((s.transit.state = .out ∨ s.transit.state = .returning) → ¬passes →
        t.transit.state = .stranded ∧ t.check.outcome = .strandedNow))

/-- R24, R69, R97, R132, R133, R152, R160, R167: PHASE_READY runs the rest of the long check (log entry 7), the visits
that are left, whose writes of accounts, index, register, count and outcome it keeps; where the check was done it writes
none. The enabled links come up, the timer is loaded, a return step is posted, and the start notice is the first of the
run. -/
def Obligations.ReadyBringsTheChipUp : Prop :=
  ∀ s : State, s.power.stage = .longCheck → s.restsUntilReady → s.rdyRule → (∀ l, (s.link l).fifo = []) →
    1 ≤ s.cmd.threshold → s.canonical →
    ∃ t visits, exec .phaseReady s = .next t ∧ t.isReady = true ∧ t.timebase = 0 ∧ t.check.timer = some s.cmd.interval ∧
      (let u := Nat.repeat State.longCheckVisit visits s
       u.check.stage = .done ∧ t.check = { u.check with timer := some s.cmd.interval } ∧
        t = { u with power := { s.power with stage := .ready }, links := t.links, check := t.check, engines := t.engines,
                     notices := t.notices }) ∧
      (s.check.stage = .done → t.accounts = s.accounts ∧ t.index = s.index ∧ t.check.count = s.check.count) ∧
      (∀ l, t.link l = { s.link l with rdy := (s.link l).enabled }) ∧
      t.notices.list = [if s.power.cause = .cold then .coldStart .cold
        else .warmStart s.power.cause t.check.count t.check.outcome] ∧
      t.notices.attn = decide (s.cmd.threshold ≤ 1) ∧
      (t.check.outcome ≠ .returnPosted → t.engines = s.engines) ∧
      (t.check.outcome = .returnPosted →
        (let g := laneOf t.transit.src.slot.toNat
         t.engine g = { s.engine g with transit := some (.ret none) } ∧ s.otherEngines t g) ∧
        (s.check.stage ≠ .done → t.transit.state = .returning)) ∧
      (s.check.stage = .done → t.check.outcome = s.check.outcome ∧ t.transit = s.transit) ∧
      t.tariffs = s.tariffs ∧ t.holds = s.holds ∧ t.cmd = s.cmd

/-- R4, R64, R166: a disturbance changes one stored field of one record, or the transit register, and nothing else, at any
moment (log entry 12). -/
def Obligations.DisturbancesChangeStoredFieldsAlone : Prop :=
  ∀ (s : State),
    (∀ (n : Nat) (change : RecordChange), n < 4096 →
      ∃ t, exec (.retainedStoreDisturbance (.record n change)) s = .next t ∧ s.otherRecords t n ∧
        t = { s with accounts := t.accounts } ∧
        (∀ v, change = .stateCode v → t.record n = { s.record n with stateCode := v }) ∧
        (∀ v, change = .key v → t.record n = { s.record n with key := v }) ∧
        (∀ v, change = .generation v → t.record n = { s.record n with gen := v }) ∧
        (∀ v, change = .balance v → t.record n = { s.record n with balance := v }) ∧
        (∀ v, change = .floor v → t.record n = { s.record n with floor := v }) ∧
        (∀ v, change = .lowMark v → t.record n = { s.record n with lowMark := v }) ∧
        (∀ v, change = .tariffSet v → t.record n = { s.record n with tariffs := v }) ∧
        (∀ v, change = .suspect v → t.record n = { s.record n with suspect := v }) ∧
        (∀ v, change = .checkCode v → t.record n = { s.record n with checkCode := v })) ∧
    (∀ v : Transit, exec (.retainedStoreDisturbance (.transit v)) s = .next { s with transit := v })

end
end

