-- ==== Sys2Proof/Laws/State.lean ====
section
/-! SUPPORT. What each update of State changes and what it leaves: one simp lemma per field and update, so that no later
proof unfolds a record update. -/

namespace Sys2Proof.Machine

/-! ### Reading back what an update wrote -/

@[simp] theorem Four.get_set_same (f : Four α) (i : Lane) (x : α) : (f.set i x).get i = x := by
  match i with
  | 0 => rfl
  | 1 => rfl
  | 2 => rfl
  | 3 => rfl

theorem Four.get_set_ne (f : Four α) {i j : Lane} (x : α) (h : j ≠ i) : (f.set i x).get j = f.get j := by
  match i, j with
  | 0, 0 | 1, 1 | 2, 2 | 3, 3 => exact absurd rfl h
  | 0, 1 | 0, 2 | 0, 3 | 1, 0 | 1, 2 | 1, 3 | 2, 0 | 2, 1 | 2, 3 | 3, 0 | 3, 1 | 3, 2 => rfl

@[simp] theorem Four.get_all (x : α) (i : Lane) : (Four.all x).get i = x := by
  match i with
  | 0 => rfl
  | 1 => rfl
  | 2 => rfl
  | 3 => rfl

@[simp] theorem Four.get_map (g : α → β) (f : Four α) (i : Lane) : (f.map g).get i = g (f.get i) := by
  match i with
  | 0 => rfl
  | 1 => rfl
  | 2 => rfl
  | 3 => rfl

/-- Two families that agree in every lane are one. -/
theorem Four.ext_get {f f' : Four α} (h : ∀ i, f.get i = f'.get i) : f = f' := by
  obtain ⟨a, b, c, d⟩ := f
  obtain ⟨a', b', c', d'⟩ := f'
  have h0 := h 0
  have h1 := h 1
  have h2 := h 2
  have h3 := h 3
  simp only [Four.get] at h0 h1 h2 h3
  rw [h0, h1, h2, h3]

theorem Four.set_get_same (f : Four α) (i : Lane) : f.set i (f.get i) = f := by
  match i with
  | 0 => rfl
  | 1 => rfl
  | 2 => rfl
  | 3 => rfl

namespace Table

theorem get_erase_same (d : α) (n : Nat) (t : List (Nat × α)) : get d (erase n t) n = d := by
  induction t with
  | nil => rfl
  | cons p t ih =>
    obtain ⟨k, w⟩ := p
    by_cases h : k = n <;> simp [erase, get, h, ih]

theorem get_erase_ne (d : α) {n m : Nat} (h : m ≠ n) (t : List (Nat × α)) : get d (erase n t) m = get d t m := by
  induction t with
  | nil => rfl
  | cons p t ih =>
    obtain ⟨k, w⟩ := p
    by_cases hk : k = n
    · subst hk
      simp [erase, get, ih, Ne.symm h]
    · simp [erase, get, hk, ih]

theorem get_place_same (d v : α) (n : Nat) (t : List (Nat × α)) (h : get d t n = d) (h' : ∀ p ∈ t, p.1 ≠ n) :
    get d (place n v t) n = v := by
  induction t with
  | nil => simp [place, get]
  | cons p t ih =>
    obtain ⟨k, w⟩ := p
    have hk : k ≠ n := h' (k, w) (List.mem_cons_self ..)
    by_cases hlt : n < k
    · simp [place, get, hlt]
    · simp only [place, hlt, if_false, get, hk]
      simp only [get, hk, if_false] at h
      exact ih h fun p hp => h' p (List.mem_cons_of_mem _ hp)

theorem get_place_ne (d v : α) {n m : Nat} (h : m ≠ n) (t : List (Nat × α)) : get d (place n v t) m = get d t m := by
  induction t with
  | nil => simp [place, get, Ne.symm h]
  | cons p t ih =>
    obtain ⟨k, w⟩ := p
    by_cases hlt : n < k
    · simp [place, get, hlt, Ne.symm h]
    · simp [place, get, hlt, ih]

theorem mem_erase {n : Nat} {p : Nat × α} {t : List (Nat × α)} (h : p ∈ erase n t) : p ∈ t ∧ p.1 ≠ n := by
  induction t with
  | nil => cases h
  | cons q t ih =>
    obtain ⟨k, w⟩ := q
    by_cases hk : k = n
    · simp only [erase, hk, if_true] at h
      exact ⟨List.mem_cons_of_mem _ (ih h).1, (ih h).2⟩
    · simp only [erase, hk, if_false, List.mem_cons] at h
      rcases h with h | h
      · subst h
        exact ⟨List.mem_cons_self .., hk⟩
      · exact ⟨List.mem_cons_of_mem _ (ih h).1, (ih h).2⟩

/-- What was written is read back. -/
@[simp] theorem get_put_same [DecidableEq α] (d v : α) (n : Nat) (t : List (Nat × α)) : get d (put d n v t) n = v := by
  unfold put
  split
  · rename_i h
    rw [h, get_erase_same]
  · exact get_place_same d v n _ (get_erase_same d n t) fun p hp => (mem_erase hp).2

/-- Every other number reads as before. -/
theorem get_put_ne [DecidableEq α] (d v : α) {n m : Nat} (h : m ≠ n) (t : List (Nat × α)) :
    get d (put d n v t) m = get d t m := by
  unfold put
  split
  · exact get_erase_ne d h t
  · rw [get_place_ne d v h, get_erase_ne d h]

theorem wfFrom_mono [DecidableEq α] (d : α) {lo lo' : Nat} (h : lo ≤ lo') (t : List (Nat × α)) :
    wfFrom d lo' t = true → wfFrom d lo t = true := by
  cases t with
  | nil => intro _; rfl
  | cons p t =>
    obtain ⟨k, v⟩ := p
    simp only [wfFrom, Bool.and_eq_true, decide_eq_true_eq]
    rintro ⟨⟨h1, h2⟩, h3⟩
    exact ⟨⟨Nat.le_trans h h1, h2⟩, h3⟩

theorem wfFrom_erase [DecidableEq α] (d : α) (n : Nat) : ∀ (t : List (Nat × α)) (lo : Nat),
    wfFrom d lo t = true → wfFrom d lo (erase n t) = true := by
  intro t
  induction t with
  | nil => intro _ _; rfl
  | cons p t ih =>
    obtain ⟨k, v⟩ := p
    intro lo h
    simp only [wfFrom, Bool.and_eq_true, decide_eq_true_eq] at h
    by_cases hk : k = n
    · simp only [erase, hk, if_true]
      exact ih lo (wfFrom_mono d (by omega) t h.2)
    · simp only [erase, hk, if_false, wfFrom, Bool.and_eq_true, decide_eq_true_eq]
      exact ⟨h.1, ih (k + 1) h.2⟩

theorem wfFrom_place [DecidableEq α] (d v : α) (hv : v ≠ d) (n : Nat) : ∀ (t : List (Nat × α)) (lo : Nat),
    lo ≤ n → (∀ p ∈ t, p.1 ≠ n) → wfFrom d lo t = true → wfFrom d lo (place n v t) = true := by
  intro t
  induction t with
  | nil =>
    intro lo hlo _ _
    simp [place, wfFrom, hlo, hv]
  | cons p t ih =>
    obtain ⟨k, w⟩ := p
    intro lo hlo hne h
    simp only [wfFrom, Bool.and_eq_true, decide_eq_true_eq] at h
    have hk : k ≠ n := hne (k, w) (List.mem_cons_self ..)
    by_cases hlt : n < k
    · simp only [place, hlt, if_true, wfFrom, Bool.and_eq_true, decide_eq_true_eq]
      exact ⟨⟨hlo, hv⟩, ⟨⟨hlt, h.1.2⟩, h.2⟩⟩
    · simp only [place, hlt, if_false, wfFrom, Bool.and_eq_true, decide_eq_true_eq]
      exact ⟨h.1, ih (k + 1) (by omega) (fun p hp => hne p (List.mem_cons_of_mem _ hp)) h.2⟩

/-- A write keeps the canonical form. -/
theorem wf_put [DecidableEq α] (d v : α) (n : Nat) (t : List (Nat × α)) (h : wf d t = true) : wf d (put d n v t) = true := by
  unfold put
  split
  · exact wfFrom_erase d n t 0 h
  · rename_i hv
    exact wfFrom_place d v hv n _ 0 (Nat.zero_le n) (fun p hp => (mem_erase hp).2) (wfFrom_erase d n t 0 h)

/-- The rest of a table in canonical form, and where its numbers lie. -/
theorem wfFrom_tail [DecidableEq α] {d : α} {lo : Nat} {p : Nat × α} {t : List (Nat × α)} (h : wfFrom d lo (p :: t) = true) :
    wfFrom d (p.1 + 1) t = true := by
  simp only [wfFrom, Bool.and_eq_true] at h
  exact h.2

theorem le_of_wfFrom [DecidableEq α] {d : α} : ∀ {t : List (Nat × α)} {lo : Nat}, wfFrom d lo t = true →
    ∀ q ∈ t, lo ≤ q.1
  | [], _, _, _, hq => (List.not_mem_nil hq).elim
  | p :: t, lo, h, q, hq => by
    have hp := h
    simp only [wfFrom, Bool.and_eq_true, decide_eq_true_eq] at hp
    rcases List.mem_cons.mp hq with rfl | hq
    · exact hp.1.1
    · have := le_of_wfFrom (wfFrom_tail h) q hq
      omega

theorem lt_of_wfFrom [DecidableEq α] {d : α} {t : List (Nat × α)} {lo : Nat} {p : Nat × α} (h : wfFrom d lo (p :: t) = true)
    (q : Nat × α) (hq : q ∈ t) : p.1 < q.1 := le_of_wfFrom (wfFrom_tail h) q hq

theorem get_of_not_mem (d : α) : ∀ (t : List (Nat × α)) (n : Nat), (∀ p ∈ t, p.1 ≠ n) → get d t n = d
  | [], _, _ => rfl
  | p :: t, n, h => by
    rw [get, if_neg (h p List.mem_cons_self)]
    exact get_of_not_mem d t n fun q hq => h q (List.mem_cons_of_mem _ hq)

theorem wfFrom_filter [DecidableEq α] (d : α) (p : Nat × α → Bool) : ∀ (t : List (Nat × α)) (lo : Nat),
    wfFrom d lo t = true → wfFrom d lo (t.filter p) = true := by
  intro t
  induction t with
  | nil => intro _ _; rfl
  | cons q t ih =>
    obtain ⟨k, v⟩ := q
    intro lo h
    simp only [wfFrom, Bool.and_eq_true, decide_eq_true_eq] at h
    by_cases hp : p (k, v) = true
    · simp only [List.filter_cons, hp, if_true, wfFrom, Bool.and_eq_true, decide_eq_true_eq]
      exact ⟨h.1, ih (k + 1) h.2⟩
    · simp only [List.filter_cons, hp]
      exact ih lo (wfFrom_mono d (by omega) t h.2)

/-- Taking entries out keeps the canonical form. -/
theorem wf_filter [DecidableEq α] (d : α) (p : Nat × α → Bool) (t : List (Nat × α)) (h : wf d t = true) :
    wf d (t.filter p) = true := wfFrom_filter d p t 0 h

theorem wfFrom_mapTable [DecidableEq α] (d : α) (f : α → α) : ∀ (t : List (Nat × α)) (lo : Nat),
    wfFrom d lo t = true → wfFrom d lo (mapTable d f t) = true := by
  intro t
  induction t with
  | nil => intro _ _; rfl
  | cons q t ih =>
    obtain ⟨k, v⟩ := q
    intro lo h
    simp only [wfFrom, Bool.and_eq_true, decide_eq_true_eq] at h
    by_cases hv : f v = d
    · simp only [mapTable, hv, if_true]
      exact ih lo (wfFrom_mono d (by omega) t h.2)
    · simp only [mapTable, hv, if_false, wfFrom, Bool.and_eq_true, decide_eq_true_eq]
      exact ⟨⟨h.1.1, hv⟩, ih (k + 1) h.2⟩

/-- A function applied to every listed value keeps the canonical form. -/
theorem wf_mapTable [DecidableEq α] (d : α) (f : α → α) (t : List (Nat × α)) (h : wf d t = true) :
    wf d (mapTable d f t) = true := wfFrom_mapTable d f t 0 h

theorem get_of_lt [DecidableEq α] (d : α) : ∀ (t : List (Nat × α)) (lo n : Nat), wfFrom d lo t = true → n < lo → get d t n = d := by
  intro t
  induction t with
  | nil => intro _ _ _ _; rfl
  | cons q t ih =>
    obtain ⟨k, v⟩ := q
    intro lo n h hn
    simp only [wfFrom, Bool.and_eq_true, decide_eq_true_eq] at h
    have hk : k ≠ n := by omega
    simp only [get, hk, if_false]
    exact ih (k + 1) n h.2 (by omega)

/-- Reading a mapped table, whose default maps to itself. -/
theorem get_mapTable [DecidableEq α] (d : α) (f : α → α) (hd : f d = d) : ∀ (t : List (Nat × α)) (lo n : Nat),
    wfFrom d lo t = true → get d (mapTable d f t) n = f (get d t n) := by
  intro t
  induction t with
  | nil => intro _ _ _; exact hd.symm
  | cons q t ih =>
    obtain ⟨k, v⟩ := q
    intro lo n h
    simp only [wfFrom, Bool.and_eq_true, decide_eq_true_eq] at h
    by_cases hv : f v = d
    · simp only [mapTable, hv, if_true, get]
      split
      · rename_i hk
        rw [ih (k + 1) n h.2, get_of_lt d t (k + 1) n h.2 (by omega), hd, hv]
      · exact ih (k + 1) n h.2
    · simp only [mapTable, hv, if_false, get]
      split
      · rfl
      · exact ih (k + 1) n h.2

/-- Reading a filtered table. -/
theorem get_filter [DecidableEq α] (d : α) (p : Nat × α → Bool) : ∀ (t : List (Nat × α)) (lo n : Nat),
    wfFrom d lo t = true → get d (t.filter p) n = if p (n, get d t n) = true then get d t n else d := by
  intro t
  induction t with
  | nil =>
    intro _ n _
    cases hp : p (n, d) <;> simp [get, hp]
  | cons q t ih =>
    obtain ⟨k, v⟩ := q
    intro lo n h
    simp only [wfFrom, Bool.and_eq_true, decide_eq_true_eq] at h
    by_cases hk : k = n
    · subst hk
      by_cases hp : p (k, v) = true
      · simp [hp, get]
      · have := ih (k + 1) k h.2
        rw [get_of_lt d t (k + 1) k h.2 (by omega)] at this
        simp only [List.filter_cons, hp, get, if_true]
        simpa using this
    · have := ih (k + 1) n h.2
      by_cases hp : p (k, v) = true <;> simp [hp, get, hk, this]

end Table

@[simp] theorem State.record_setRecord_same (s : State) (n : Nat) (r : Record) : (s.setRecord n r).record n = r :=
  Table.get_put_same ..
theorem State.record_setRecord_ne (s : State) {n m : Nat} (r : Record) (h : m ≠ n) :
    (s.setRecord n r).record m = s.record m := Table.get_put_ne _ _ h _
@[simp] theorem State.hold_setHold_same (s : State) (n : Nat) (e : HoldEntry) : (s.setHold n e).hold n = e :=
  Table.get_put_same ..
theorem State.hold_setHold_ne (s : State) {n m : Nat} (e : HoldEntry) (h : m ≠ n) : (s.setHold n e).hold m = s.hold m :=
  Table.get_put_ne _ _ h _
@[simp] theorem State.tariff_setTariff_same (s : State) (n : Nat) (e : Tariff) : (s.setTariff n e).tariff n = e :=
  Table.get_put_same ..
theorem State.tariff_setTariff_ne (s : State) {n m : Nat} (e : Tariff) (h : m ≠ n) :
    (s.setTariff n e).tariff m = s.tariff m := Table.get_put_ne _ _ h _
@[simp] theorem State.way_setWay_same (s : State) (n : Nat) (e : Option IndexEntry) : (s.setWay n e).way n = e :=
  Table.get_put_same ..
theorem State.way_setWay_ne (s : State) {n m : Nat} (e : Option IndexEntry) (h : m ≠ n) : (s.setWay n e).way m = s.way m :=
  Table.get_put_ne _ _ h _
@[simp] theorem State.link_setLink_same (s : State) (l : Lane) (k : Link) : (s.setLink l k).link l = k :=
  Four.get_set_same ..
@[simp] theorem State.setLink_link (s : State) (l : Lane) : s.setLink l (s.link l) = s := by
  simp [State.setLink, State.link, Four.set_get_same]

theorem State.link_setLink_ne (s : State) {l m : Lane} (k : Link) (h : m ≠ l) : (s.setLink l k).link m = s.link m :=
  Four.get_set_ne _ _ h
@[simp] theorem State.engine_setEngine_same (s : State) (g : Lane) (e : Engine) : (s.setEngine g e).engine g = e :=
  Four.get_set_same ..
theorem State.engine_setEngine_ne (s : State) {g m : Lane} (e : Engine) (h : m ≠ g) :
    (s.setEngine g e).engine m = s.engine m := Four.get_set_ne _ _ h
@[simp] theorem State.record_modifyRecord_same (s : State) (n : Nat) (f : Record → Record) :
    (s.modifyRecord n f).record n = f (s.record n) := State.record_setRecord_same ..
theorem State.record_modifyRecord_ne (s : State) {n m : Nat} (f : Record → Record) (h : m ≠ n) :
    (s.modifyRecord n f).record m = s.record m := State.record_setRecord_ne _ _ h
@[simp] theorem State.link_modifyLink_same (s : State) (l : Lane) (f : Link → Link) :
    (s.modifyLink l f).link l = f (s.link l) := State.link_setLink_same ..
theorem State.link_modifyLink_ne (s : State) {l m : Lane} (f : Link → Link) (h : m ≠ l) :
    (s.modifyLink l f).link m = s.link m := State.link_setLink_ne _ _ h
@[simp] theorem State.engine_modifyEngine_same (s : State) (g : Lane) (f : Engine → Engine) :
    (s.modifyEngine g f).engine g = f (s.engine g) := State.engine_setEngine_same ..
theorem State.engine_modifyEngine_ne (s : State) {g m : Lane} (f : Engine → Engine) (h : m ≠ g) :
    (s.modifyEngine g f).engine m = s.engine m := State.engine_setEngine_ne _ _ h

/-! ### What each update leaves as it was -/

@[simp] theorem State.setRecord_frame (s : State) (k : Nat) (x : Record) :
    (s.setRecord k x).index = s.index ∧ (s.setRecord k x).holds = s.holds ∧ (s.setRecord k x).tariffs = s.tariffs ∧
      (s.setRecord k x).transit = s.transit ∧ (s.setRecord k x).links = s.links ∧
      (s.setRecord k x).router = s.router ∧ (s.setRecord k x).engines = s.engines ∧
      (s.setRecord k x).allocPtr = s.allocPtr ∧ (s.setRecord k x).deadlines = s.deadlines ∧
      (s.setRecord k x).timebase = s.timebase ∧ (s.setRecord k x).indexUnit = s.indexUnit ∧
      (s.setRecord k x).check = s.check ∧ (s.setRecord k x).cmd = s.cmd ∧ (s.setRecord k x).notices = s.notices ∧
      (s.setRecord k x).power = s.power ∧ (s.setRecord k x).pending = s.pending ∧
      (∀ n, (s.setRecord k x).hold n = s.hold n) ∧ (∀ n, (s.setRecord k x).tariff n = s.tariff n) ∧
      (∀ n, (s.setRecord k x).way n = s.way n) ∧ (∀ l, (s.setRecord k x).link l = s.link l) ∧
      (∀ g, (s.setRecord k x).engine g = s.engine g) ∧ (s.setRecord k x).isReady = s.isReady ∧
      (s.setRecord k x).working = s.working ∧ (s.setRecord k x).powered = s.powered ∧
      (s.setRecord k x).isBusy = s.isBusy := by
  repeat' (first | (refine ⟨?_, ?_⟩) | (intro; rfl) | rfl)

@[simp] theorem State.setHold_frame (s : State) (k : Nat) (x : HoldEntry) :
    (s.setHold k x).accounts = s.accounts ∧ (s.setHold k x).index = s.index ∧ (s.setHold k x).tariffs = s.tariffs ∧
      (s.setHold k x).transit = s.transit ∧ (s.setHold k x).links = s.links ∧ (s.setHold k x).router = s.router ∧
      (s.setHold k x).engines = s.engines ∧ (s.setHold k x).allocPtr = s.allocPtr ∧
      (s.setHold k x).deadlines = s.deadlines ∧ (s.setHold k x).timebase = s.timebase ∧
      (s.setHold k x).indexUnit = s.indexUnit ∧ (s.setHold k x).check = s.check ∧ (s.setHold k x).cmd = s.cmd ∧
      (s.setHold k x).notices = s.notices ∧ (s.setHold k x).power = s.power ∧ (s.setHold k x).pending = s.pending ∧
      (∀ n, (s.setHold k x).record n = s.record n) ∧ (∀ n, (s.setHold k x).tariff n = s.tariff n) ∧
      (∀ n, (s.setHold k x).way n = s.way n) ∧ (∀ l, (s.setHold k x).link l = s.link l) ∧
      (∀ g, (s.setHold k x).engine g = s.engine g) ∧ (s.setHold k x).isReady = s.isReady ∧
      (s.setHold k x).working = s.working ∧ (s.setHold k x).powered = s.powered ∧ (s.setHold k x).isBusy = s.isBusy := by
  repeat' (first | (refine ⟨?_, ?_⟩) | (intro; rfl) | rfl)

@[simp] theorem State.setTariff_frame (s : State) (k : Nat) (x : Tariff) :
    (s.setTariff k x).accounts = s.accounts ∧ (s.setTariff k x).index = s.index ∧ (s.setTariff k x).holds = s.holds ∧
      (s.setTariff k x).transit = s.transit ∧ (s.setTariff k x).links = s.links ∧
      (s.setTariff k x).router = s.router ∧ (s.setTariff k x).engines = s.engines ∧
      (s.setTariff k x).allocPtr = s.allocPtr ∧ (s.setTariff k x).deadlines = s.deadlines ∧
      (s.setTariff k x).timebase = s.timebase ∧ (s.setTariff k x).indexUnit = s.indexUnit ∧
      (s.setTariff k x).check = s.check ∧ (s.setTariff k x).cmd = s.cmd ∧ (s.setTariff k x).notices = s.notices ∧
      (s.setTariff k x).power = s.power ∧ (s.setTariff k x).pending = s.pending ∧
      (∀ n, (s.setTariff k x).record n = s.record n) ∧ (∀ n, (s.setTariff k x).hold n = s.hold n) ∧
      (∀ n, (s.setTariff k x).way n = s.way n) ∧ (∀ l, (s.setTariff k x).link l = s.link l) ∧
      (∀ g, (s.setTariff k x).engine g = s.engine g) ∧ (s.setTariff k x).isReady = s.isReady ∧
      (s.setTariff k x).working = s.working ∧ (s.setTariff k x).powered = s.powered ∧
      (s.setTariff k x).isBusy = s.isBusy := by
  repeat' (first | (refine ⟨?_, ?_⟩) | (intro; rfl) | rfl)

@[simp] theorem State.setWay_frame (s : State) (k : Nat) (x : Option IndexEntry) :
    (s.setWay k x).accounts = s.accounts ∧ (s.setWay k x).holds = s.holds ∧ (s.setWay k x).tariffs = s.tariffs ∧
      (s.setWay k x).transit = s.transit ∧ (s.setWay k x).links = s.links ∧ (s.setWay k x).router = s.router ∧
      (s.setWay k x).engines = s.engines ∧ (s.setWay k x).allocPtr = s.allocPtr ∧
      (s.setWay k x).deadlines = s.deadlines ∧ (s.setWay k x).timebase = s.timebase ∧
      (s.setWay k x).indexUnit = s.indexUnit ∧ (s.setWay k x).check = s.check ∧ (s.setWay k x).cmd = s.cmd ∧
      (s.setWay k x).notices = s.notices ∧ (s.setWay k x).power = s.power ∧ (s.setWay k x).pending = s.pending ∧
      (∀ n, (s.setWay k x).record n = s.record n) ∧ (∀ n, (s.setWay k x).hold n = s.hold n) ∧
      (∀ n, (s.setWay k x).tariff n = s.tariff n) ∧ (∀ l, (s.setWay k x).link l = s.link l) ∧
      (∀ g, (s.setWay k x).engine g = s.engine g) ∧ (s.setWay k x).isReady = s.isReady ∧
      (s.setWay k x).working = s.working ∧ (s.setWay k x).powered = s.powered ∧ (s.setWay k x).isBusy = s.isBusy := by
  repeat' (first | (refine ⟨?_, ?_⟩) | (intro; rfl) | rfl)

@[simp] theorem State.setLink_frame (s : State) (k : Lane) (x : Link) :
    (s.setLink k x).accounts = s.accounts ∧ (s.setLink k x).index = s.index ∧ (s.setLink k x).holds = s.holds ∧
      (s.setLink k x).tariffs = s.tariffs ∧ (s.setLink k x).transit = s.transit ∧ (s.setLink k x).router = s.router ∧
      (s.setLink k x).engines = s.engines ∧ (s.setLink k x).allocPtr = s.allocPtr ∧
      (s.setLink k x).deadlines = s.deadlines ∧ (s.setLink k x).timebase = s.timebase ∧
      (s.setLink k x).indexUnit = s.indexUnit ∧ (s.setLink k x).check = s.check ∧ (s.setLink k x).cmd = s.cmd ∧
      (s.setLink k x).notices = s.notices ∧ (s.setLink k x).power = s.power ∧ (s.setLink k x).pending = s.pending ∧
      (∀ n, (s.setLink k x).record n = s.record n) ∧ (∀ n, (s.setLink k x).hold n = s.hold n) ∧
      (∀ n, (s.setLink k x).tariff n = s.tariff n) ∧ (∀ n, (s.setLink k x).way n = s.way n) ∧
      (∀ g, (s.setLink k x).engine g = s.engine g) ∧ (s.setLink k x).isReady = s.isReady ∧
      (s.setLink k x).working = s.working ∧ (s.setLink k x).powered = s.powered ∧ (s.setLink k x).isBusy = s.isBusy := by
  repeat' (first | (refine ⟨?_, ?_⟩) | (intro; rfl) | rfl)

@[simp] theorem State.setEngine_frame (s : State) (k : Lane) (x : Engine) :
    (s.setEngine k x).accounts = s.accounts ∧ (s.setEngine k x).index = s.index ∧ (s.setEngine k x).holds = s.holds ∧
      (s.setEngine k x).tariffs = s.tariffs ∧ (s.setEngine k x).transit = s.transit ∧
      (s.setEngine k x).links = s.links ∧ (s.setEngine k x).router = s.router ∧
      (s.setEngine k x).allocPtr = s.allocPtr ∧ (s.setEngine k x).deadlines = s.deadlines ∧
      (s.setEngine k x).timebase = s.timebase ∧ (s.setEngine k x).indexUnit = s.indexUnit ∧
      (s.setEngine k x).check = s.check ∧ (s.setEngine k x).cmd = s.cmd ∧ (s.setEngine k x).notices = s.notices ∧
      (s.setEngine k x).power = s.power ∧ (s.setEngine k x).pending = s.pending ∧
      (∀ n, (s.setEngine k x).record n = s.record n) ∧ (∀ n, (s.setEngine k x).hold n = s.hold n) ∧
      (∀ n, (s.setEngine k x).tariff n = s.tariff n) ∧ (∀ n, (s.setEngine k x).way n = s.way n) ∧
      (∀ l, (s.setEngine k x).link l = s.link l) ∧ (s.setEngine k x).isReady = s.isReady ∧
      (s.setEngine k x).working = s.working ∧ (s.setEngine k x).powered = s.powered ∧
      (s.setEngine k x).isBusy = s.isBusy := by
  repeat' (first | (refine ⟨?_, ?_⟩) | (intro; rfl) | rfl)

@[simp] theorem State.modifyRecord_frame (s : State) (k : Nat) (f : Record → Record) :
    (s.modifyRecord k f).index = s.index ∧ (s.modifyRecord k f).holds = s.holds ∧
      (s.modifyRecord k f).tariffs = s.tariffs ∧ (s.modifyRecord k f).transit = s.transit ∧
      (s.modifyRecord k f).links = s.links ∧ (s.modifyRecord k f).router = s.router ∧
      (s.modifyRecord k f).engines = s.engines ∧ (s.modifyRecord k f).allocPtr = s.allocPtr ∧
      (s.modifyRecord k f).deadlines = s.deadlines ∧ (s.modifyRecord k f).timebase = s.timebase ∧
      (s.modifyRecord k f).indexUnit = s.indexUnit ∧ (s.modifyRecord k f).check = s.check ∧
      (s.modifyRecord k f).cmd = s.cmd ∧ (s.modifyRecord k f).notices = s.notices ∧
      (s.modifyRecord k f).power = s.power ∧ (s.modifyRecord k f).pending = s.pending ∧
      (∀ n, (s.modifyRecord k f).hold n = s.hold n) ∧ (∀ n, (s.modifyRecord k f).tariff n = s.tariff n) ∧
      (∀ n, (s.modifyRecord k f).way n = s.way n) ∧ (∀ l, (s.modifyRecord k f).link l = s.link l) ∧
      (∀ g, (s.modifyRecord k f).engine g = s.engine g) ∧ (s.modifyRecord k f).isReady = s.isReady ∧
      (s.modifyRecord k f).working = s.working ∧ (s.modifyRecord k f).powered = s.powered ∧
      (s.modifyRecord k f).isBusy = s.isBusy := by
  repeat' (first | (refine ⟨?_, ?_⟩) | (intro; rfl) | rfl)

@[simp] theorem State.modifyLink_frame (s : State) (k : Lane) (f : Link → Link) :
    (s.modifyLink k f).accounts = s.accounts ∧ (s.modifyLink k f).index = s.index ∧
      (s.modifyLink k f).holds = s.holds ∧ (s.modifyLink k f).tariffs = s.tariffs ∧
      (s.modifyLink k f).transit = s.transit ∧ (s.modifyLink k f).router = s.router ∧
      (s.modifyLink k f).engines = s.engines ∧ (s.modifyLink k f).allocPtr = s.allocPtr ∧
      (s.modifyLink k f).deadlines = s.deadlines ∧ (s.modifyLink k f).timebase = s.timebase ∧
      (s.modifyLink k f).indexUnit = s.indexUnit ∧ (s.modifyLink k f).check = s.check ∧
      (s.modifyLink k f).cmd = s.cmd ∧ (s.modifyLink k f).notices = s.notices ∧ (s.modifyLink k f).power = s.power ∧
      (s.modifyLink k f).pending = s.pending ∧ (∀ n, (s.modifyLink k f).record n = s.record n) ∧
      (∀ n, (s.modifyLink k f).hold n = s.hold n) ∧ (∀ n, (s.modifyLink k f).tariff n = s.tariff n) ∧
      (∀ n, (s.modifyLink k f).way n = s.way n) ∧ (∀ g, (s.modifyLink k f).engine g = s.engine g) ∧
      (s.modifyLink k f).isReady = s.isReady ∧ (s.modifyLink k f).working = s.working ∧
      (s.modifyLink k f).powered = s.powered ∧ (s.modifyLink k f).isBusy = s.isBusy := by
  repeat' (first | (refine ⟨?_, ?_⟩) | (intro; rfl) | rfl)

@[simp] theorem State.modifyEngine_frame (s : State) (k : Lane) (f : Engine → Engine) :
    (s.modifyEngine k f).accounts = s.accounts ∧ (s.modifyEngine k f).index = s.index ∧
      (s.modifyEngine k f).holds = s.holds ∧ (s.modifyEngine k f).tariffs = s.tariffs ∧
      (s.modifyEngine k f).transit = s.transit ∧ (s.modifyEngine k f).links = s.links ∧
      (s.modifyEngine k f).router = s.router ∧ (s.modifyEngine k f).allocPtr = s.allocPtr ∧
      (s.modifyEngine k f).deadlines = s.deadlines ∧ (s.modifyEngine k f).timebase = s.timebase ∧
      (s.modifyEngine k f).indexUnit = s.indexUnit ∧ (s.modifyEngine k f).check = s.check ∧
      (s.modifyEngine k f).cmd = s.cmd ∧ (s.modifyEngine k f).notices = s.notices ∧
      (s.modifyEngine k f).power = s.power ∧ (s.modifyEngine k f).pending = s.pending ∧
      (∀ n, (s.modifyEngine k f).record n = s.record n) ∧ (∀ n, (s.modifyEngine k f).hold n = s.hold n) ∧
      (∀ n, (s.modifyEngine k f).tariff n = s.tariff n) ∧ (∀ n, (s.modifyEngine k f).way n = s.way n) ∧
      (∀ l, (s.modifyEngine k f).link l = s.link l) ∧ (s.modifyEngine k f).isReady = s.isReady ∧
      (s.modifyEngine k f).working = s.working ∧ (s.modifyEngine k f).powered = s.powered ∧
      (s.modifyEngine k f).isBusy = s.isBusy := by
  repeat' (first | (refine ⟨?_, ?_⟩) | (intro; rfl) | rfl)

@[simp] theorem State.withPending_frame (s : State) (q : List Instr) :
    (s.withPending q).accounts = s.accounts ∧ (s.withPending q).index = s.index ∧ (s.withPending q).holds = s.holds ∧
      (s.withPending q).tariffs = s.tariffs ∧ (s.withPending q).transit = s.transit ∧
      (s.withPending q).links = s.links ∧ (s.withPending q).router = s.router ∧
      (s.withPending q).engines = s.engines ∧ (s.withPending q).allocPtr = s.allocPtr ∧
      (s.withPending q).deadlines = s.deadlines ∧ (s.withPending q).timebase = s.timebase ∧
      (s.withPending q).indexUnit = s.indexUnit ∧ (s.withPending q).check = s.check ∧ (s.withPending q).cmd = s.cmd ∧
      (s.withPending q).notices = s.notices ∧ (s.withPending q).power = s.power ∧
      (∀ n, (s.withPending q).record n = s.record n) ∧ (∀ n, (s.withPending q).hold n = s.hold n) ∧
      (∀ n, (s.withPending q).tariff n = s.tariff n) ∧ (∀ n, (s.withPending q).way n = s.way n) ∧
      (∀ l, (s.withPending q).link l = s.link l) ∧ (∀ g, (s.withPending q).engine g = s.engine g) ∧
      (s.withPending q).isReady = s.isReady ∧ (s.withPending q).working = s.working ∧
      (s.withPending q).powered = s.powered ∧ (s.withPending q).isBusy = s.isBusy := by
  repeat' (first | (refine ⟨?_, ?_⟩) | (intro; rfl) | rfl)

@[simp] theorem State.withPending_pending (s : State) (q : List Instr) : (s.withPending q).pending = q := rfl

end Sys2Proof.Machine
end

