-- ==== Sys2Proof/Laws/Ops.lean ====
section
/-! SUPPORT. The shared operations: what each leaves as it was (the _frame lemmas, for simp), and what it does. -/

namespace Sys2Proof.Machine

@[simp] theorem State.wake_frame (s : State) :
    (s.wake).accounts = s.accounts ∧ (s.wake).index = s.index ∧ (s.wake).holds = s.holds ∧
      (s.wake).tariffs = s.tariffs ∧ (s.wake).transit = s.transit ∧ (s.wake).links = s.links ∧
      (s.wake).router = s.router ∧ (s.wake).engines = s.engines ∧ (s.wake).allocPtr = s.allocPtr ∧
      (s.wake).deadlines = s.deadlines ∧ (s.wake).timebase = s.timebase ∧ (s.wake).indexUnit = s.indexUnit ∧
      (s.wake).check = s.check ∧ (s.wake).cmd = s.cmd ∧ (s.wake).notices = s.notices ∧ (s.wake).pending = s.pending ∧
      (∀ n, (s.wake).record n = s.record n) ∧ (∀ n, (s.wake).hold n = s.hold n) ∧
      (∀ n, (s.wake).tariff n = s.tariff n) ∧ (∀ n, (s.wake).way n = s.way n) ∧ (∀ l, (s.wake).link l = s.link l) ∧
      (∀ g, (s.wake).engine g = s.engine g) ∧ (s.wake).isBusy = s.isBusy := by
  unfold State.wake
  (repeat' split) <;> (repeat' (first | (refine ⟨?_, ?_⟩) | (intro; rfl) | rfl))

@[simp] theorem State.wake_stage (s : State) : s.wake.power.stage = s.power.stage := by
  unfold State.wake
  split <;> rfl

/-- R164: what a wake leaves of power control: the mode held before STANDBY, and all else as it was. -/
theorem State.power_wake_eq (s : State) :
    s.wake.power = if s.power.mode = .standby then { s.power with mode := s.power.resume } else s.power := by
  unfold State.wake
  by_cases h : s.power.mode = .standby <;> simp [h]

@[simp] theorem State.wake_isReady (s : State) : s.wake.isReady = s.isReady := by
  simp [State.isReady]

@[simp] theorem State.testAttn_frame (s : State) :
    (s.testAttn).accounts = s.accounts ∧ (s.testAttn).index = s.index ∧ (s.testAttn).holds = s.holds ∧
      (s.testAttn).tariffs = s.tariffs ∧ (s.testAttn).transit = s.transit ∧ (s.testAttn).links = s.links ∧
      (s.testAttn).router = s.router ∧ (s.testAttn).engines = s.engines ∧ (s.testAttn).allocPtr = s.allocPtr ∧
      (s.testAttn).deadlines = s.deadlines ∧ (s.testAttn).timebase = s.timebase ∧
      (s.testAttn).indexUnit = s.indexUnit ∧ (s.testAttn).check = s.check ∧ (s.testAttn).cmd = s.cmd ∧
      (s.testAttn).power = s.power ∧ (s.testAttn).pending = s.pending ∧ (∀ n, (s.testAttn).record n = s.record n) ∧
      (∀ n, (s.testAttn).hold n = s.hold n) ∧ (∀ n, (s.testAttn).tariff n = s.tariff n) ∧
      (∀ n, (s.testAttn).way n = s.way n) ∧ (∀ l, (s.testAttn).link l = s.link l) ∧
      (∀ g, (s.testAttn).engine g = s.engine g) ∧ (s.testAttn).isReady = s.isReady ∧
      (s.testAttn).working = s.working ∧ (s.testAttn).powered = s.powered ∧ (s.testAttn).isBusy = s.isBusy := by
  unfold State.testAttn
  repeat' (first | (refine ⟨?_, ?_⟩) | (intro; rfl) | rfl)

@[simp] theorem State.post_frame (s : State) (x : Notice) :
    (s.post x).accounts = s.accounts ∧ (s.post x).index = s.index ∧ (s.post x).holds = s.holds ∧
      (s.post x).tariffs = s.tariffs ∧ (s.post x).transit = s.transit ∧ (s.post x).links = s.links ∧
      (s.post x).router = s.router ∧ (s.post x).engines = s.engines ∧ (s.post x).allocPtr = s.allocPtr ∧
      (s.post x).deadlines = s.deadlines ∧ (s.post x).timebase = s.timebase ∧ (s.post x).indexUnit = s.indexUnit ∧
      (s.post x).check = s.check ∧ (s.post x).cmd = s.cmd ∧ (s.post x).power = s.power ∧
      (s.post x).pending = s.pending ∧ (∀ n, (s.post x).record n = s.record n) ∧
      (∀ n, (s.post x).hold n = s.hold n) ∧ (∀ n, (s.post x).tariff n = s.tariff n) ∧
      (∀ n, (s.post x).way n = s.way n) ∧ (∀ l, (s.post x).link l = s.link l) ∧
      (∀ g, (s.post x).engine g = s.engine g) ∧ (s.post x).isReady = s.isReady ∧ (s.post x).working = s.working ∧
      (s.post x).powered = s.powered ∧ (s.post x).isBusy = s.isBusy := by
  unfold State.post State.testAttn
  (repeat' split) <;> (repeat' (first | (refine ⟨?_, ?_⟩) | (intro; rfl) | rfl))

@[simp] theorem State.endOp_frame (s : State) (g' : Lane) :
    (s.endOp g').accounts = s.accounts ∧ (s.endOp g').index = s.index ∧ (s.endOp g').holds = s.holds ∧
      (s.endOp g').tariffs = s.tariffs ∧ (s.endOp g').transit = s.transit ∧ (s.endOp g').links = s.links ∧
      (s.endOp g').router = s.router ∧ (s.endOp g').allocPtr = s.allocPtr ∧ (s.endOp g').deadlines = s.deadlines ∧
      (s.endOp g').timebase = s.timebase ∧ (s.endOp g').indexUnit = s.indexUnit ∧ (s.endOp g').check = s.check ∧
      (s.endOp g').cmd = s.cmd ∧ (s.endOp g').notices = s.notices ∧ (s.endOp g').power = s.power ∧
      (s.endOp g').pending = s.pending ∧ (∀ n, (s.endOp g').record n = s.record n) ∧
      (∀ n, (s.endOp g').hold n = s.hold n) ∧ (∀ n, (s.endOp g').tariff n = s.tariff n) ∧
      (∀ n, (s.endOp g').way n = s.way n) ∧ (∀ l, (s.endOp g').link l = s.link l) ∧
      (s.endOp g').isReady = s.isReady ∧ (s.endOp g').working = s.working ∧ (s.endOp g').powered = s.powered ∧
      (s.endOp g').isBusy = s.isBusy := by
  unfold State.endOp
  simp

@[simp] theorem State.answer_frame (s : State) (o : Origin) (st : Status) (body : TermBody) :
    (s.answer o st body).accounts = s.accounts ∧ (s.answer o st body).index = s.index ∧
      (s.answer o st body).holds = s.holds ∧ (s.answer o st body).tariffs = s.tariffs ∧
      (s.answer o st body).transit = s.transit ∧ (s.answer o st body).router = s.router ∧
      (s.answer o st body).engines = s.engines ∧ (s.answer o st body).allocPtr = s.allocPtr ∧
      (s.answer o st body).deadlines = s.deadlines ∧ (s.answer o st body).timebase = s.timebase ∧
      (s.answer o st body).indexUnit = s.indexUnit ∧ (s.answer o st body).check = s.check ∧
      (s.answer o st body).cmd = s.cmd ∧ (s.answer o st body).notices = s.notices ∧
      (s.answer o st body).power = s.power ∧ (s.answer o st body).pending = s.pending ∧
      (∀ n, (s.answer o st body).record n = s.record n) ∧ (∀ n, (s.answer o st body).hold n = s.hold n) ∧
      (∀ n, (s.answer o st body).tariff n = s.tariff n) ∧ (∀ n, (s.answer o st body).way n = s.way n) ∧
      (∀ g, (s.answer o st body).engine g = s.engine g) ∧ (s.answer o st body).isReady = s.isReady ∧
      (s.answer o st body).working = s.working ∧ (s.answer o st body).powered = s.powered ∧
      (s.answer o st body).isBusy = s.isBusy := by
  unfold State.answer
  simp

@[simp] theorem State.noteMismatch_frame (s : State) (k : Nat) (b : Bool) (x : Finder) :
    (s.noteMismatch k b x).index = s.index ∧ (s.noteMismatch k b x).holds = s.holds ∧
      (s.noteMismatch k b x).tariffs = s.tariffs ∧ (s.noteMismatch k b x).transit = s.transit ∧
      (s.noteMismatch k b x).links = s.links ∧ (s.noteMismatch k b x).router = s.router ∧
      (s.noteMismatch k b x).engines = s.engines ∧ (s.noteMismatch k b x).allocPtr = s.allocPtr ∧
      (s.noteMismatch k b x).deadlines = s.deadlines ∧ (s.noteMismatch k b x).timebase = s.timebase ∧
      (s.noteMismatch k b x).indexUnit = s.indexUnit ∧ (s.noteMismatch k b x).check = s.check ∧
      (s.noteMismatch k b x).cmd = s.cmd ∧ (s.noteMismatch k b x).power = s.power ∧
      (s.noteMismatch k b x).pending = s.pending ∧ (∀ n, (s.noteMismatch k b x).hold n = s.hold n) ∧
      (∀ n, (s.noteMismatch k b x).tariff n = s.tariff n) ∧ (∀ n, (s.noteMismatch k b x).way n = s.way n) ∧
      (∀ l, (s.noteMismatch k b x).link l = s.link l) ∧ (∀ g, (s.noteMismatch k b x).engine g = s.engine g) ∧
      (s.noteMismatch k b x).isReady = s.isReady ∧ (s.noteMismatch k b x).working = s.working ∧
      (s.noteMismatch k b x).powered = s.powered ∧ (s.noteMismatch k b x).isBusy = s.isBusy := by
  unfold State.noteMismatch
  dsimp only
  (repeat' split) <;> simp

@[simp] theorem State.writeBalance_frame (s : State) (k : Nat) (v : Int) :
    (s.writeBalance k v).index = s.index ∧ (s.writeBalance k v).holds = s.holds ∧
      (s.writeBalance k v).tariffs = s.tariffs ∧ (s.writeBalance k v).transit = s.transit ∧
      (s.writeBalance k v).links = s.links ∧ (s.writeBalance k v).router = s.router ∧
      (s.writeBalance k v).engines = s.engines ∧ (s.writeBalance k v).allocPtr = s.allocPtr ∧
      (s.writeBalance k v).deadlines = s.deadlines ∧ (s.writeBalance k v).timebase = s.timebase ∧
      (s.writeBalance k v).indexUnit = s.indexUnit ∧ (s.writeBalance k v).check = s.check ∧
      (s.writeBalance k v).cmd = s.cmd ∧ (s.writeBalance k v).notices = s.notices ∧
      (s.writeBalance k v).power = s.power ∧ (s.writeBalance k v).pending = s.pending ∧
      (∀ n, (s.writeBalance k v).hold n = s.hold n) ∧ (∀ n, (s.writeBalance k v).tariff n = s.tariff n) ∧
      (∀ n, (s.writeBalance k v).way n = s.way n) ∧ (∀ l, (s.writeBalance k v).link l = s.link l) ∧
      (∀ g, (s.writeBalance k v).engine g = s.engine g) ∧ (s.writeBalance k v).isReady = s.isReady ∧
      (s.writeBalance k v).working = s.working ∧ (s.writeBalance k v).powered = s.powered ∧
      (s.writeBalance k v).isBusy = s.isBusy := by
  unfold State.writeBalance
  simp

@[simp] theorem State.writeState_frame (s : State) (k : Nat) (x : AcctState) :
    (s.writeState k x).index = s.index ∧ (s.writeState k x).holds = s.holds ∧
      (s.writeState k x).tariffs = s.tariffs ∧ (s.writeState k x).transit = s.transit ∧
      (s.writeState k x).links = s.links ∧ (s.writeState k x).router = s.router ∧
      (s.writeState k x).engines = s.engines ∧ (s.writeState k x).allocPtr = s.allocPtr ∧
      (s.writeState k x).deadlines = s.deadlines ∧ (s.writeState k x).timebase = s.timebase ∧
      (s.writeState k x).indexUnit = s.indexUnit ∧ (s.writeState k x).check = s.check ∧
      (s.writeState k x).cmd = s.cmd ∧ (s.writeState k x).notices = s.notices ∧ (s.writeState k x).power = s.power ∧
      (s.writeState k x).pending = s.pending ∧ (∀ n, (s.writeState k x).hold n = s.hold n) ∧
      (∀ n, (s.writeState k x).tariff n = s.tariff n) ∧ (∀ n, (s.writeState k x).way n = s.way n) ∧
      (∀ l, (s.writeState k x).link l = s.link l) ∧ (∀ g, (s.writeState k x).engine g = s.engine g) ∧
      (s.writeState k x).isReady = s.isReady ∧ (s.writeState k x).working = s.working ∧
      (s.writeState k x).powered = s.powered ∧ (s.writeState k x).isBusy = s.isBusy := by
  unfold State.writeState
  simp

@[simp] theorem State.postLow_frame (s : State) (k : Nat) (r : Record) (v : Int) :
    (s.postLow k r v).accounts = s.accounts ∧ (s.postLow k r v).index = s.index ∧ (s.postLow k r v).holds = s.holds ∧
      (s.postLow k r v).tariffs = s.tariffs ∧ (s.postLow k r v).transit = s.transit ∧
      (s.postLow k r v).links = s.links ∧ (s.postLow k r v).router = s.router ∧
      (s.postLow k r v).engines = s.engines ∧ (s.postLow k r v).allocPtr = s.allocPtr ∧
      (s.postLow k r v).deadlines = s.deadlines ∧ (s.postLow k r v).timebase = s.timebase ∧
      (s.postLow k r v).indexUnit = s.indexUnit ∧ (s.postLow k r v).check = s.check ∧ (s.postLow k r v).cmd = s.cmd ∧
      (s.postLow k r v).power = s.power ∧ (s.postLow k r v).pending = s.pending ∧
      (∀ n, (s.postLow k r v).record n = s.record n) ∧ (∀ n, (s.postLow k r v).hold n = s.hold n) ∧
      (∀ n, (s.postLow k r v).tariff n = s.tariff n) ∧ (∀ n, (s.postLow k r v).way n = s.way n) ∧
      (∀ l, (s.postLow k r v).link l = s.link l) ∧ (∀ g, (s.postLow k r v).engine g = s.engine g) ∧
      (s.postLow k r v).isReady = s.isReady ∧ (s.postLow k r v).working = s.working ∧
      (s.postLow k r v).powered = s.powered ∧ (s.postLow k r v).isBusy = s.isBusy := by
  unfold State.postLow
  split <;> simp

@[simp] theorem State.postRemoval_frame (s : State) (k : Nat) (x : Key) :
    (s.postRemoval k x).accounts = s.accounts ∧ (s.postRemoval k x).index = s.index ∧
      (s.postRemoval k x).holds = s.holds ∧ (s.postRemoval k x).tariffs = s.tariffs ∧
      (s.postRemoval k x).transit = s.transit ∧ (s.postRemoval k x).links = s.links ∧
      (s.postRemoval k x).router = s.router ∧ (s.postRemoval k x).engines = s.engines ∧
      (s.postRemoval k x).allocPtr = s.allocPtr ∧ (s.postRemoval k x).deadlines = s.deadlines ∧
      (s.postRemoval k x).timebase = s.timebase ∧ (s.postRemoval k x).check = s.check ∧
      (s.postRemoval k x).cmd = s.cmd ∧ (s.postRemoval k x).notices = s.notices ∧
      (s.postRemoval k x).power = s.power ∧ (s.postRemoval k x).pending = s.pending ∧
      (∀ n, (s.postRemoval k x).record n = s.record n) ∧ (∀ n, (s.postRemoval k x).hold n = s.hold n) ∧
      (∀ n, (s.postRemoval k x).tariff n = s.tariff n) ∧ (∀ n, (s.postRemoval k x).way n = s.way n) ∧
      (∀ l, (s.postRemoval k x).link l = s.link l) ∧ (∀ g, (s.postRemoval k x).engine g = s.engine g) ∧
      (s.postRemoval k x).isReady = s.isReady ∧ (s.postRemoval k x).working = s.working ∧
      (s.postRemoval k x).powered = s.powered ∧ (s.postRemoval k x).isBusy = s.isBusy := by
  unfold State.postRemoval
  repeat' (first | (refine ⟨?_, ?_⟩) | (intro; rfl) | rfl)

@[simp] theorem State.insertDeadline_frame (s : State) (t : Ticket) (d : Nat) :
    (s.insertDeadline t d).accounts = s.accounts ∧ (s.insertDeadline t d).index = s.index ∧
      (s.insertDeadline t d).holds = s.holds ∧ (s.insertDeadline t d).tariffs = s.tariffs ∧
      (s.insertDeadline t d).transit = s.transit ∧ (s.insertDeadline t d).links = s.links ∧
      (s.insertDeadline t d).router = s.router ∧ (s.insertDeadline t d).engines = s.engines ∧
      (s.insertDeadline t d).allocPtr = s.allocPtr ∧ (s.insertDeadline t d).timebase = s.timebase ∧
      (s.insertDeadline t d).indexUnit = s.indexUnit ∧ (s.insertDeadline t d).check = s.check ∧
      (s.insertDeadline t d).cmd = s.cmd ∧ (s.insertDeadline t d).notices = s.notices ∧
      (s.insertDeadline t d).power = s.power ∧ (s.insertDeadline t d).pending = s.pending ∧
      (∀ n, (s.insertDeadline t d).record n = s.record n) ∧ (∀ n, (s.insertDeadline t d).hold n = s.hold n) ∧
      (∀ n, (s.insertDeadline t d).tariff n = s.tariff n) ∧ (∀ n, (s.insertDeadline t d).way n = s.way n) ∧
      (∀ l, (s.insertDeadline t d).link l = s.link l) ∧ (∀ g, (s.insertDeadline t d).engine g = s.engine g) ∧
      (s.insertDeadline t d).isReady = s.isReady ∧ (s.insertDeadline t d).working = s.working ∧
      (s.insertDeadline t d).powered = s.powered ∧ (s.insertDeadline t d).isBusy = s.isBusy := by
  unfold State.insertDeadline
  repeat' (first | (refine ⟨?_, ?_⟩) | (intro; rfl) | rfl)

@[simp] theorem State.removeDeadline_frame (s : State) (t : Ticket) :
    (s.removeDeadline t).accounts = s.accounts ∧ (s.removeDeadline t).index = s.index ∧
      (s.removeDeadline t).holds = s.holds ∧ (s.removeDeadline t).tariffs = s.tariffs ∧
      (s.removeDeadline t).transit = s.transit ∧ (s.removeDeadline t).links = s.links ∧
      (s.removeDeadline t).router = s.router ∧ (s.removeDeadline t).engines = s.engines ∧
      (s.removeDeadline t).allocPtr = s.allocPtr ∧ (s.removeDeadline t).timebase = s.timebase ∧
      (s.removeDeadline t).indexUnit = s.indexUnit ∧ (s.removeDeadline t).check = s.check ∧
      (s.removeDeadline t).cmd = s.cmd ∧ (s.removeDeadline t).notices = s.notices ∧
      (s.removeDeadline t).power = s.power ∧ (s.removeDeadline t).pending = s.pending ∧
      (∀ n, (s.removeDeadline t).record n = s.record n) ∧ (∀ n, (s.removeDeadline t).hold n = s.hold n) ∧
      (∀ n, (s.removeDeadline t).tariff n = s.tariff n) ∧ (∀ n, (s.removeDeadline t).way n = s.way n) ∧
      (∀ l, (s.removeDeadline t).link l = s.link l) ∧ (∀ g, (s.removeDeadline t).engine g = s.engine g) ∧
      (s.removeDeadline t).isReady = s.isReady ∧ (s.removeDeadline t).working = s.working ∧
      (s.removeDeadline t).powered = s.powered ∧ (s.removeDeadline t).isBusy = s.isBusy := by
  unfold State.removeDeadline
  repeat' (first | (refine ⟨?_, ?_⟩) | (intro; rfl) | rfl)

@[simp] theorem State.replaceDeadline_frame (s : State) (t : Ticket) (d : Nat) :
    (s.replaceDeadline t d).accounts = s.accounts ∧ (s.replaceDeadline t d).index = s.index ∧
      (s.replaceDeadline t d).holds = s.holds ∧ (s.replaceDeadline t d).tariffs = s.tariffs ∧
      (s.replaceDeadline t d).transit = s.transit ∧ (s.replaceDeadline t d).links = s.links ∧
      (s.replaceDeadline t d).router = s.router ∧ (s.replaceDeadline t d).engines = s.engines ∧
      (s.replaceDeadline t d).allocPtr = s.allocPtr ∧ (s.replaceDeadline t d).timebase = s.timebase ∧
      (s.replaceDeadline t d).indexUnit = s.indexUnit ∧ (s.replaceDeadline t d).check = s.check ∧
      (s.replaceDeadline t d).cmd = s.cmd ∧ (s.replaceDeadline t d).notices = s.notices ∧
      (s.replaceDeadline t d).power = s.power ∧ (s.replaceDeadline t d).pending = s.pending ∧
      (∀ n, (s.replaceDeadline t d).record n = s.record n) ∧ (∀ n, (s.replaceDeadline t d).hold n = s.hold n) ∧
      (∀ n, (s.replaceDeadline t d).tariff n = s.tariff n) ∧ (∀ n, (s.replaceDeadline t d).way n = s.way n) ∧
      (∀ l, (s.replaceDeadline t d).link l = s.link l) ∧ (∀ g, (s.replaceDeadline t d).engine g = s.engine g) ∧
      (s.replaceDeadline t d).isReady = s.isReady ∧ (s.replaceDeadline t d).working = s.working ∧
      (s.replaceDeadline t d).powered = s.powered ∧ (s.replaceDeadline t d).isBusy = s.isBusy := by
  unfold State.replaceDeadline
  simp

@[simp] theorem State.dropDeadline_frame (s : State) (g' : Lane) (t : Ticket) :
    (s.dropDeadline g' t).accounts = s.accounts ∧ (s.dropDeadline g' t).index = s.index ∧
      (s.dropDeadline g' t).holds = s.holds ∧ (s.dropDeadline g' t).tariffs = s.tariffs ∧
      (s.dropDeadline g' t).transit = s.transit ∧ (s.dropDeadline g' t).links = s.links ∧
      (s.dropDeadline g' t).router = s.router ∧ (s.dropDeadline g' t).allocPtr = s.allocPtr ∧
      (s.dropDeadline g' t).timebase = s.timebase ∧ (s.dropDeadline g' t).indexUnit = s.indexUnit ∧
      (s.dropDeadline g' t).check = s.check ∧ (s.dropDeadline g' t).cmd = s.cmd ∧
      (s.dropDeadline g' t).notices = s.notices ∧ (s.dropDeadline g' t).power = s.power ∧
      (s.dropDeadline g' t).pending = s.pending ∧ (∀ n, (s.dropDeadline g' t).record n = s.record n) ∧
      (∀ n, (s.dropDeadline g' t).hold n = s.hold n) ∧ (∀ n, (s.dropDeadline g' t).tariff n = s.tariff n) ∧
      (∀ n, (s.dropDeadline g' t).way n = s.way n) ∧ (∀ l, (s.dropDeadline g' t).link l = s.link l) ∧
      (s.dropDeadline g' t).isReady = s.isReady ∧ (s.dropDeadline g' t).working = s.working ∧
      (s.dropDeadline g' t).powered = s.powered ∧ (s.dropDeadline g' t).isBusy = s.isBusy := by
  unfold State.dropDeadline
  split <;> simp

@[simp] theorem State.postExpiry_frame (s : State) (t : Ticket) :
    (s.postExpiry t).accounts = s.accounts ∧ (s.postExpiry t).index = s.index ∧ (s.postExpiry t).holds = s.holds ∧
      (s.postExpiry t).tariffs = s.tariffs ∧ (s.postExpiry t).transit = s.transit ∧
      (s.postExpiry t).links = s.links ∧ (s.postExpiry t).router = s.router ∧
      (s.postExpiry t).allocPtr = s.allocPtr ∧ (s.postExpiry t).deadlines = s.deadlines ∧
      (s.postExpiry t).timebase = s.timebase ∧ (s.postExpiry t).indexUnit = s.indexUnit ∧
      (s.postExpiry t).check = s.check ∧ (s.postExpiry t).cmd = s.cmd ∧ (s.postExpiry t).notices = s.notices ∧
      (s.postExpiry t).power = s.power ∧ (s.postExpiry t).pending = s.pending ∧
      (∀ n, (s.postExpiry t).record n = s.record n) ∧ (∀ n, (s.postExpiry t).hold n = s.hold n) ∧
      (∀ n, (s.postExpiry t).tariff n = s.tariff n) ∧ (∀ n, (s.postExpiry t).way n = s.way n) ∧
      (∀ l, (s.postExpiry t).link l = s.link l) ∧ (s.postExpiry t).isReady = s.isReady ∧
      (s.postExpiry t).working = s.working ∧ (s.postExpiry t).powered = s.powered ∧ (s.postExpiry t).isBusy = s.isBusy := by
  unfold State.postExpiry
  simp

@[simp] theorem postDue_frame (s : State) (q : List DeadlineItem) :
    (postDue q s).accounts = s.accounts ∧ (postDue q s).index = s.index ∧ (postDue q s).holds = s.holds ∧
      (postDue q s).tariffs = s.tariffs ∧ (postDue q s).transit = s.transit ∧ (postDue q s).links = s.links ∧
      (postDue q s).router = s.router ∧ (postDue q s).allocPtr = s.allocPtr ∧ (postDue q s).timebase = s.timebase ∧
      (postDue q s).indexUnit = s.indexUnit ∧ (postDue q s).check = s.check ∧ (postDue q s).cmd = s.cmd ∧
      (postDue q s).notices = s.notices ∧ (postDue q s).power = s.power ∧ (postDue q s).pending = s.pending ∧
      (∀ n, (postDue q s).record n = s.record n) ∧ (∀ n, (postDue q s).hold n = s.hold n) ∧
      (∀ n, (postDue q s).tariff n = s.tariff n) ∧ (∀ n, (postDue q s).way n = s.way n) ∧
      (∀ l, (postDue q s).link l = s.link l) ∧ (postDue q s).isReady = s.isReady ∧
      (postDue q s).working = s.working ∧ (postDue q s).powered = s.powered ∧ (postDue q s).isBusy = s.isBusy := by
  induction q generalizing s with
  | nil => unfold postDue; (repeat' (first | (refine ⟨?_, ?_⟩) | (intro; rfl) | rfl))
  | cons i q ih =>
    unfold postDue
    split
    · simp [ih]
    · (repeat' (first | (refine ⟨?_, ?_⟩) | (intro; rfl) | rfl))

@[simp] theorem State.dueTest_frame (s : State) :
    (s.dueTest).accounts = s.accounts ∧ (s.dueTest).index = s.index ∧ (s.dueTest).holds = s.holds ∧
      (s.dueTest).tariffs = s.tariffs ∧ (s.dueTest).transit = s.transit ∧ (s.dueTest).links = s.links ∧
      (s.dueTest).router = s.router ∧ (s.dueTest).allocPtr = s.allocPtr ∧ (s.dueTest).timebase = s.timebase ∧
      (s.dueTest).indexUnit = s.indexUnit ∧ (s.dueTest).check = s.check ∧ (s.dueTest).cmd = s.cmd ∧
      (s.dueTest).notices = s.notices ∧ (s.dueTest).pending = s.pending ∧ (∀ n, (s.dueTest).record n = s.record n) ∧
      (∀ n, (s.dueTest).hold n = s.hold n) ∧ (∀ n, (s.dueTest).tariff n = s.tariff n) ∧
      (∀ n, (s.dueTest).way n = s.way n) ∧ (∀ l, (s.dueTest).link l = s.link l) ∧ (s.dueTest).isBusy = s.isBusy := by
  unfold State.dueTest
  split <;> simp

@[simp] theorem State.dueTest_stage (s : State) : s.dueTest.power.stage = s.power.stage := by
  unfold State.dueTest
  split <;> simp

@[simp] theorem State.dueTest_isReady (s : State) : s.dueTest.isReady = s.isReady := by
  simp [State.isReady]

@[simp] theorem State.endHold_frame (s : State) (g' : Lane) (t : Ticket) (e : HoldEntry) (r : Record) (v : Option Int) :
    (s.endHold g' t e r v).index = s.index ∧ (s.endHold g' t e r v).tariffs = s.tariffs ∧
      (s.endHold g' t e r v).transit = s.transit ∧ (s.endHold g' t e r v).links = s.links ∧
      (s.endHold g' t e r v).router = s.router ∧ (s.endHold g' t e r v).allocPtr = s.allocPtr ∧
      (s.endHold g' t e r v).timebase = s.timebase ∧ (s.endHold g' t e r v).check = s.check ∧
      (s.endHold g' t e r v).cmd = s.cmd ∧ (s.endHold g' t e r v).notices = s.notices ∧
      (s.endHold g' t e r v).pending = s.pending ∧ (∀ n, (s.endHold g' t e r v).tariff n = s.tariff n) ∧
      (∀ n, (s.endHold g' t e r v).way n = s.way n) ∧ (∀ l, (s.endHold g' t e r v).link l = s.link l) ∧
      (s.endHold g' t e r v).isBusy = s.isBusy := by
  unfold State.endHold
  dsimp only
  split <;> simp

@[simp] theorem State.enqueue_frame (s : State) (g' : Lane) (r : Request) :
    (s.enqueue g' r).accounts = s.accounts ∧ (s.enqueue g' r).index = s.index ∧ (s.enqueue g' r).holds = s.holds ∧
      (s.enqueue g' r).tariffs = s.tariffs ∧ (s.enqueue g' r).transit = s.transit ∧
      (s.enqueue g' r).links = s.links ∧ (s.enqueue g' r).router = s.router ∧
      (s.enqueue g' r).allocPtr = s.allocPtr ∧ (s.enqueue g' r).deadlines = s.deadlines ∧
      (s.enqueue g' r).timebase = s.timebase ∧ (s.enqueue g' r).indexUnit = s.indexUnit ∧
      (s.enqueue g' r).check = s.check ∧ (s.enqueue g' r).cmd = s.cmd ∧ (s.enqueue g' r).notices = s.notices ∧
      (s.enqueue g' r).power = s.power ∧ (s.enqueue g' r).pending = s.pending ∧
      (∀ n, (s.enqueue g' r).record n = s.record n) ∧ (∀ n, (s.enqueue g' r).hold n = s.hold n) ∧
      (∀ n, (s.enqueue g' r).tariff n = s.tariff n) ∧ (∀ n, (s.enqueue g' r).way n = s.way n) ∧
      (∀ l, (s.enqueue g' r).link l = s.link l) ∧ (s.enqueue g' r).isReady = s.isReady ∧
      (s.enqueue g' r).working = s.working ∧ (s.enqueue g' r).powered = s.powered ∧ (s.enqueue g' r).isBusy = s.isBusy := by
  unfold State.enqueue
  simp

@[simp] theorem State.placeMgmt_frame (s : State) (g' : Lane) (m : MgmtReq) :
    (s.placeMgmt g' m).accounts = s.accounts ∧ (s.placeMgmt g' m).index = s.index ∧
      (s.placeMgmt g' m).holds = s.holds ∧ (s.placeMgmt g' m).tariffs = s.tariffs ∧
      (s.placeMgmt g' m).transit = s.transit ∧ (s.placeMgmt g' m).links = s.links ∧
      (s.placeMgmt g' m).router = s.router ∧ (s.placeMgmt g' m).allocPtr = s.allocPtr ∧
      (s.placeMgmt g' m).deadlines = s.deadlines ∧ (s.placeMgmt g' m).timebase = s.timebase ∧
      (s.placeMgmt g' m).indexUnit = s.indexUnit ∧ (s.placeMgmt g' m).check = s.check ∧
      (s.placeMgmt g' m).notices = s.notices ∧ (s.placeMgmt g' m).power = s.power ∧
      (s.placeMgmt g' m).pending = s.pending ∧ (∀ n, (s.placeMgmt g' m).record n = s.record n) ∧
      (∀ n, (s.placeMgmt g' m).hold n = s.hold n) ∧ (∀ n, (s.placeMgmt g' m).tariff n = s.tariff n) ∧
      (∀ n, (s.placeMgmt g' m).way n = s.way n) ∧ (∀ l, (s.placeMgmt g' m).link l = s.link l) ∧
      (s.placeMgmt g' m).isReady = s.isReady ∧ (s.placeMgmt g' m).working = s.working ∧
      (s.placeMgmt g' m).powered = s.powered := by
  unfold State.placeMgmt
  split
  · simp
  · (repeat' (first | (refine ⟨?_, ?_⟩) | (intro; rfl) | rfl))

@[simp] theorem State.reply_frame (s : State) (op : Byte) (st : Status) (body : MgmtBody) :
    (s.reply op st body).accounts = s.accounts ∧ (s.reply op st body).index = s.index ∧
      (s.reply op st body).holds = s.holds ∧ (s.reply op st body).tariffs = s.tariffs ∧
      (s.reply op st body).transit = s.transit ∧ (s.reply op st body).links = s.links ∧
      (s.reply op st body).router = s.router ∧ (s.reply op st body).engines = s.engines ∧
      (s.reply op st body).allocPtr = s.allocPtr ∧ (s.reply op st body).deadlines = s.deadlines ∧
      (s.reply op st body).timebase = s.timebase ∧ (s.reply op st body).indexUnit = s.indexUnit ∧
      (s.reply op st body).check = s.check ∧ (s.reply op st body).notices = s.notices ∧
      (s.reply op st body).power = s.power ∧ (s.reply op st body).pending = s.pending ∧
      (∀ n, (s.reply op st body).record n = s.record n) ∧ (∀ n, (s.reply op st body).hold n = s.hold n) ∧
      (∀ n, (s.reply op st body).tariff n = s.tariff n) ∧ (∀ n, (s.reply op st body).way n = s.way n) ∧
      (∀ l, (s.reply op st body).link l = s.link l) ∧ (∀ g, (s.reply op st body).engine g = s.engine g) ∧
      (s.reply op st body).isReady = s.isReady ∧ (s.reply op st body).working = s.working ∧
      (s.reply op st body).powered = s.powered := by
  unfold State.reply
  repeat' (first | (refine ⟨?_, ?_⟩) | (intro; rfl) | rfl)

@[simp] theorem State.busy_frame (s : State) (j : Job) :
    (s.busy j).accounts = s.accounts ∧ (s.busy j).index = s.index ∧ (s.busy j).holds = s.holds ∧
      (s.busy j).tariffs = s.tariffs ∧ (s.busy j).transit = s.transit ∧ (s.busy j).links = s.links ∧
      (s.busy j).router = s.router ∧ (s.busy j).engines = s.engines ∧ (s.busy j).allocPtr = s.allocPtr ∧
      (s.busy j).deadlines = s.deadlines ∧ (s.busy j).timebase = s.timebase ∧ (s.busy j).indexUnit = s.indexUnit ∧
      (s.busy j).check = s.check ∧ (s.busy j).notices = s.notices ∧ (s.busy j).power = s.power ∧
      (s.busy j).pending = s.pending ∧ (∀ n, (s.busy j).record n = s.record n) ∧
      (∀ n, (s.busy j).hold n = s.hold n) ∧ (∀ n, (s.busy j).tariff n = s.tariff n) ∧
      (∀ n, (s.busy j).way n = s.way n) ∧ (∀ l, (s.busy j).link l = s.link l) ∧
      (∀ g, (s.busy j).engine g = s.engine g) ∧ (s.busy j).isReady = s.isReady ∧ (s.busy j).working = s.working ∧
      (s.busy j).powered = s.powered := by
  unfold State.busy
  repeat' (first | (refine ⟨?_, ?_⟩) | (intro; rfl) | rfl)

@[simp] theorem State.answerAtOnce_frame (s : State) (op : Byte) (st : Status) (body : MgmtBody) :
    (s.answerAtOnce op st body).accounts = s.accounts ∧ (s.answerAtOnce op st body).index = s.index ∧
      (s.answerAtOnce op st body).holds = s.holds ∧ (s.answerAtOnce op st body).tariffs = s.tariffs ∧
      (s.answerAtOnce op st body).transit = s.transit ∧ (s.answerAtOnce op st body).links = s.links ∧
      (s.answerAtOnce op st body).router = s.router ∧ (s.answerAtOnce op st body).engines = s.engines ∧
      (s.answerAtOnce op st body).allocPtr = s.allocPtr ∧ (s.answerAtOnce op st body).deadlines = s.deadlines ∧
      (s.answerAtOnce op st body).timebase = s.timebase ∧ (s.answerAtOnce op st body).indexUnit = s.indexUnit ∧
      (s.answerAtOnce op st body).check = s.check ∧ (s.answerAtOnce op st body).notices = s.notices ∧
      (s.answerAtOnce op st body).power = s.power ∧ (s.answerAtOnce op st body).pending = s.pending ∧
      (∀ n, (s.answerAtOnce op st body).record n = s.record n) ∧
      (∀ n, (s.answerAtOnce op st body).hold n = s.hold n) ∧
      (∀ n, (s.answerAtOnce op st body).tariff n = s.tariff n) ∧ (∀ n, (s.answerAtOnce op st body).way n = s.way n) ∧
      (∀ l, (s.answerAtOnce op st body).link l = s.link l) ∧
      (∀ g, (s.answerAtOnce op st body).engine g = s.engine g) ∧ (s.answerAtOnce op st body).isReady = s.isReady ∧
      (s.answerAtOnce op st body).working = s.working ∧ (s.answerAtOnce op st body).powered = s.powered := by
  unfold State.answerAtOnce State.reply
  (repeat' split) <;> (repeat' (first | (refine ⟨?_, ?_⟩) | (intro; rfl) | rfl))

@[simp] theorem State.openSelect_frame (s : State) :
    (s.openSelect).accounts = s.accounts ∧ (s.openSelect).index = s.index ∧ (s.openSelect).holds = s.holds ∧
      (s.openSelect).tariffs = s.tariffs ∧ (s.openSelect).transit = s.transit ∧ (s.openSelect).links = s.links ∧
      (s.openSelect).router = s.router ∧ (s.openSelect).engines = s.engines ∧ (s.openSelect).allocPtr = s.allocPtr ∧
      (s.openSelect).deadlines = s.deadlines ∧ (s.openSelect).timebase = s.timebase ∧
      (s.openSelect).indexUnit = s.indexUnit ∧ (s.openSelect).check = s.check ∧ (s.openSelect).notices = s.notices ∧
      (s.openSelect).pending = s.pending ∧ (∀ n, (s.openSelect).record n = s.record n) ∧
      (∀ n, (s.openSelect).hold n = s.hold n) ∧ (∀ n, (s.openSelect).tariff n = s.tariff n) ∧
      (∀ n, (s.openSelect).way n = s.way n) ∧ (∀ l, (s.openSelect).link l = s.link l) ∧
      (∀ g, (s.openSelect).engine g = s.engine g) := by
  unfold State.openSelect
  simp only [State.record, State.hold, State.tariff, State.way, State.link, State.engine, State.wake_frame]
  simp

@[simp] theorem State.closeSelect_frame (s : State) :
    (s.closeSelect).accounts = s.accounts ∧ (s.closeSelect).index = s.index ∧ (s.closeSelect).holds = s.holds ∧
      (s.closeSelect).tariffs = s.tariffs ∧ (s.closeSelect).transit = s.transit ∧ (s.closeSelect).links = s.links ∧
      (s.closeSelect).router = s.router ∧ (s.closeSelect).engines = s.engines ∧
      (s.closeSelect).allocPtr = s.allocPtr ∧ (s.closeSelect).deadlines = s.deadlines ∧
      (s.closeSelect).timebase = s.timebase ∧ (s.closeSelect).indexUnit = s.indexUnit ∧
      (s.closeSelect).check = s.check ∧ (s.closeSelect).notices = s.notices ∧ (s.closeSelect).power = s.power ∧
      (s.closeSelect).pending = s.pending ∧ (∀ n, (s.closeSelect).record n = s.record n) ∧
      (∀ n, (s.closeSelect).hold n = s.hold n) ∧ (∀ n, (s.closeSelect).tariff n = s.tariff n) ∧
      (∀ n, (s.closeSelect).way n = s.way n) ∧ (∀ l, (s.closeSelect).link l = s.link l) ∧
      (∀ g, (s.closeSelect).engine g = s.engine g) ∧ (s.closeSelect).isReady = s.isReady ∧
      (s.closeSelect).working = s.working ∧ (s.closeSelect).powered = s.powered := by
  unfold State.closeSelect
  repeat' (first | (refine ⟨?_, ?_⟩) | (intro; rfl) | rfl)

@[simp] theorem State.writeNewBalance_frame (s : State) (k : Nat) (r : Record) (v : Option Int) :
    (s.writeNewBalance k r v).index = s.index ∧ (s.writeNewBalance k r v).holds = s.holds ∧
      (s.writeNewBalance k r v).tariffs = s.tariffs ∧ (s.writeNewBalance k r v).transit = s.transit ∧
      (s.writeNewBalance k r v).links = s.links ∧ (s.writeNewBalance k r v).router = s.router ∧
      (s.writeNewBalance k r v).engines = s.engines ∧ (s.writeNewBalance k r v).allocPtr = s.allocPtr ∧
      (s.writeNewBalance k r v).deadlines = s.deadlines ∧ (s.writeNewBalance k r v).timebase = s.timebase ∧
      (s.writeNewBalance k r v).indexUnit = s.indexUnit ∧ (s.writeNewBalance k r v).check = s.check ∧
      (s.writeNewBalance k r v).cmd = s.cmd ∧ (s.writeNewBalance k r v).power = s.power ∧
      (s.writeNewBalance k r v).pending = s.pending ∧ (∀ n, (s.writeNewBalance k r v).hold n = s.hold n) ∧
      (∀ n, (s.writeNewBalance k r v).tariff n = s.tariff n) ∧ (∀ n, (s.writeNewBalance k r v).way n = s.way n) ∧
      (∀ l, (s.writeNewBalance k r v).link l = s.link l) ∧ (∀ g, (s.writeNewBalance k r v).engine g = s.engine g) ∧
      (s.writeNewBalance k r v).isReady = s.isReady ∧ (s.writeNewBalance k r v).working = s.working ∧
      (s.writeNewBalance k r v).powered = s.powered ∧ (s.writeNewBalance k r v).isBusy = s.isBusy := by
  unfold State.writeNewBalance
  split <;> simp

@[simp] theorem State.completeTerminal_frame (s : State) (g' : Lane) (op : Operation) (o : Origin) (k : Nat) (b : Bool) (v : Option Int) (st : Status)
    (body : TermBody) :
    (s.completeTerminal g' op o k b v st body).index = s.index ∧
      (s.completeTerminal g' op o k b v st body).holds = s.holds ∧
      (s.completeTerminal g' op o k b v st body).tariffs = s.tariffs ∧
      (s.completeTerminal g' op o k b v st body).transit = s.transit ∧
      (s.completeTerminal g' op o k b v st body).router = s.router ∧
      (s.completeTerminal g' op o k b v st body).allocPtr = s.allocPtr ∧
      (s.completeTerminal g' op o k b v st body).deadlines = s.deadlines ∧
      (s.completeTerminal g' op o k b v st body).timebase = s.timebase ∧
      (s.completeTerminal g' op o k b v st body).indexUnit = s.indexUnit ∧
      (s.completeTerminal g' op o k b v st body).check = s.check ∧
      (s.completeTerminal g' op o k b v st body).cmd = s.cmd ∧
      (s.completeTerminal g' op o k b v st body).power = s.power ∧
      (s.completeTerminal g' op o k b v st body).pending = s.pending ∧
      (∀ n, (s.completeTerminal g' op o k b v st body).hold n = s.hold n) ∧
      (∀ n, (s.completeTerminal g' op o k b v st body).tariff n = s.tariff n) ∧
      (∀ n, (s.completeTerminal g' op o k b v st body).way n = s.way n) ∧
      (s.completeTerminal g' op o k b v st body).isReady = s.isReady ∧
      (s.completeTerminal g' op o k b v st body).working = s.working ∧
      (s.completeTerminal g' op o k b v st body).powered = s.powered ∧
      (s.completeTerminal g' op o k b v st body).isBusy = s.isBusy := by
  unfold State.completeTerminal
  simp

@[simp] theorem State.chargeHold_frame (s : State) (g' : Lane) (t : Ticket) (e : HoldEntry) (r : Record) (c : Int) :
    (s.chargeHold g' t e r c).index = s.index ∧ (s.chargeHold g' t e r c).tariffs = s.tariffs ∧
      (s.chargeHold g' t e r c).transit = s.transit ∧ (s.chargeHold g' t e r c).links = s.links ∧
      (s.chargeHold g' t e r c).router = s.router ∧ (s.chargeHold g' t e r c).allocPtr = s.allocPtr ∧
      (s.chargeHold g' t e r c).timebase = s.timebase ∧ (s.chargeHold g' t e r c).check = s.check ∧
      (s.chargeHold g' t e r c).cmd = s.cmd ∧ (s.chargeHold g' t e r c).pending = s.pending ∧
      (∀ n, (s.chargeHold g' t e r c).tariff n = s.tariff n) ∧ (∀ n, (s.chargeHold g' t e r c).way n = s.way n) ∧
      (∀ l, (s.chargeHold g' t e r c).link l = s.link l) ∧ (s.chargeHold g' t e r c).isBusy = s.isBusy := by
  unfold State.chargeHold
  dsimp only
  split <;> simp

end Sys2Proof.Machine
end

