-- ==== Sys2Proof/Laws/Spec.lean ====
section
/-! SUPPORT. What the shared operations do: notices, answers, verification, balances, the deadline unit, the ending of a
hold. Statements about commands cite these and do not unfold the operations. -/

namespace Sys2Proof.Machine

/-- Two states with the same fields are one. -/
theorem State.eq_of_fields {s t : State} (h1 : s.accounts = t.accounts) (h2 : s.index = t.index) (h3 : s.holds = t.holds)
    (h4 : s.tariffs = t.tariffs) (h5 : s.transit = t.transit) (h6 : s.links = t.links) (h7 : s.router = t.router)
    (h8 : s.engines = t.engines) (h9 : s.allocPtr = t.allocPtr) (h10 : s.deadlines = t.deadlines)
    (h11 : s.timebase = t.timebase) (h12 : s.indexUnit = t.indexUnit) (h13 : s.check = t.check) (h14 : s.cmd = t.cmd)
    (h15 : s.notices = t.notices) (h16 : s.power = t.power) (h17 : s.pending = t.pending) : s = t := by
  cases s
  cases t
  simp only at *
  subst_vars
  rfl

/-! ### Notices -/

theorem State.noticed_of_eq {s t : State} (h : t.notices = s.notices) : s.noticed t [] := by
  simp [State.noticed, h]

theorem State.noticed_post {s t : State} (n : Notice) (h : t.notices = (s.post n).notices) : s.noticed t [n] := by
  unfold State.noticed
  rw [h]
  unfold State.post State.testAttn
  by_cases hlt : s.notices.list.length < Config.noticePlaces
  · obtain ⟨k, hk⟩ : ∃ k, Config.noticePlaces - s.notices.list.length = k + 1 := ⟨_, (Nat.succ_pred_eq_of_pos (by omega)).symm⟩
    simp [hlt, hk]
  · have hk : Config.noticePlaces - s.notices.list.length = 0 := by omega
    simp [hlt, hk]

/-- Two postings in a row; between them the threshold stays. -/
theorem State.noticed_trans {s t u : State} {a b : List Notice} (h1 : s.noticed t a) (h2 : t.noticed u b)
    (hc : t.cmd.threshold = s.cmd.threshold := by first | rfl | simp) : s.noticed u (a ++ b) := by
  obtain ⟨l1, f1, at1⟩ := h1
  obtain ⟨l2, f2, at2⟩ := h2
  rw [hc] at at2
  have hroom : Config.noticePlaces - t.notices.list.length = Config.noticePlaces - s.notices.list.length - a.length := by
    rw [l1, List.length_append, List.length_take]
    omega
  rw [hroom] at l2 f2 at2
  have hl : u.notices.list = s.notices.list ++ (a ++ b).take (Config.noticePlaces - s.notices.list.length) := by
    rw [l2, l1, List.take_append, List.append_assoc]
  refine ⟨hl, ?_, ?_⟩
  · rw [f2, f1, Bool.or_assoc]
    congr 1
    simp only [List.length_take, List.length_append]
    rw [← Bool.decide_or]
    exact decide_eq_decide.2 (by omega)
  · rw [at2, at1]
    simp only [List.take_append, List.append_eq_nil_iff]
    split
    · rename_i hb
      have : u.notices.list = t.notices.list := by rw [l2, hb, List.append_nil]
      rw [this]
      simp [hb]
    · rename_i hb
      simp [hb]

theorem State.noticed_congr {s s' t t' : State} {a : List Notice} (h : s.notices = s'.notices) (h' : t.notices = t'.notices)
    (hn : s.noticed t a) (hc : s.cmd.threshold = s'.cmd.threshold := by first | rfl | simp) : s'.noticed t' a := by
  unfold State.noticed at *
  rwa [← h, ← h', ← hc]

/-- A notice posted to a queue that is not full stands at its tail; a full queue keeps its notices and is marked lost. -/
theorem State.post_notices (s : State) (n : Notice) : (s.post n).notices =
    if s.notices.list.length < 32 then
      { list := s.notices.list ++ [n], lost := s.notices.lost,
        attn := decide (s.cmd.threshold ≤ s.notices.list.length + 1) }
    else { s.notices with lost := true } := by
  unfold State.post State.testAttn
  split <;> simp

/-! ### Reception -/

theorem Four.set_set (f : Four α) (i : Lane) (x y : α) : (f.set i x).set i y = f.set i y := by
  match i with
  | 0 => rfl
  | 1 => rfl
  | 2 => rfl
  | 3 => rfl

@[simp] theorem State.setLink_setLink (s : State) (l : Lane) (k k' : Link) : (s.setLink l k).setLink l k' = s.setLink l k' := by
  simp [State.setLink, Four.set_set]

@[simp] theorem State.setEngine_setEngine (s : State) (g : Lane) (e e' : Engine) :
    (s.setEngine g e).setEngine g e' = s.setEngine g e' := by
  simp [State.setEngine, Four.set_set]

/-- What a complete frame does does not depend on the bytes the receiver holds. -/
theorem State.frameDone_inFrame (s : State) (l : Lane) (x : Receiver) (frame : List Byte) :
    (s.setLink l { s.link l with receiver := x }).frameDone l frame = s.frameDone l frame := by
  simp [State.frameDone, Link.discard, Link.pushFrame]

theorem State.runTimer_of_time {s : State} {l : Lane} {f : List Byte} (hi : (s.link l).receiver = .inFrame f)
    (ht : (s.link l).baud ≠ 0 ∨ f.length < 20) : s.runTimer l = s := by
  have : (s.link l).timerUp = false := by
    simp only [Link.timerUp, hi, Config.slowFrame]
    rcases ht with ht | ht
    · simp [ht]
    · simp [Nat.not_le.2 ht]
  simp [State.runTimer, this]

theorem State.runTimer_of_idle {s : State} {l : Lane} (hi : (s.link l).receiver = .idle) : s.runTimer l = s := by
  simp [State.runTimer, Link.timerUp, hi]

/-- R144: one byte of a frame of the right length that arrives in time: the last completes the frame. -/
theorem State.receiveByte_inFrame {s : State} {l : Lane} {f rest : List Byte} (b : Byte) (hr : s.isReady = true)
    (he : (s.link l).enabled = true) (hi : (s.link l).receiver = .inFrame f) (hf : f ≠ [])
    (ht : (s.link l).baud ≠ 0 ∨ f.length < 20)
    (htot : (((f ++ b :: rest).drop 1).headD 0).toNat = (f ++ b :: rest).length) (h5 : 5 ≤ (f ++ b :: rest).length)
    (h32 : (f ++ b :: rest).length ≤ 32) :
    s.receiveByte l b =
      if rest = [] then s.frameDone l (f ++ [b]) else s.setLink l { s.link l with receiver := .inFrame (f ++ [b]) } := by
  have hhead : (((f ++ [b]).drop 1).headD 0) = (((f ++ b :: rest).drop 1).headD 0) := by
    cases f with
    | nil => exact absurd rfl hf
    | cons a f => cases f <;> simp
  have hlen : (f ++ b :: rest).length = f.length + 1 + rest.length := by simp; omega
  unfold State.receiveByte State.takeByte
  rw [State.runTimer_of_time hi ht]
  simp only [hr, he, hi, hhead, htot, Bool.and_self, if_true]
  have h1 : ¬((f ++ b :: rest).length < Config.minFrame) := by simpa [Config.minFrame] using h5
  have h2 : ¬(Config.maxFrame < (f ++ b :: rest).length) := by simpa [Config.maxFrame] using h32
  simp only [h1, h2, decide_false, Bool.or_self, Bool.false_eq_true, if_false]
  by_cases h3 : rest = []
  · simp [h3]
  · have h4 : 0 < rest.length := List.length_pos_iff.2 h3
    have h6 : (f ++ [b]).length < (f ++ b :: rest).length := by simp; omega
    simp [h3, h4]

/-- R144: the bytes of a frame of the right length, short of its last, as they arrive in time. -/
theorem State.receivePart (l : Lane) {rest : List Byte} (hrest : rest ≠ []) (bytes : List Byte) :
    ∀ (s : State) (f : List Byte), s.isReady = true → (s.link l).enabled = true → (s.link l).receiver = .inFrame f →
    f ≠ [] → ((s.link l).baud ≠ 0 ∨ (f ++ bytes).length ≤ 20) →
    (((f ++ (bytes ++ rest)).drop 1).headD 0).toNat = (f ++ (bytes ++ rest)).length →
    5 ≤ (f ++ (bytes ++ rest)).length → (f ++ (bytes ++ rest)).length ≤ 32 →
    bytes.foldl (fun s b => s.receiveByte l b) s = s.setLink l { s.link l with receiver := .inFrame (f ++ bytes) } := by
  induction bytes with
  | nil =>
    intro s f _ _ hi _ _ _ _ _
    have : { s.link l with receiver := .inFrame (f ++ []) } = s.link l := by rw [List.append_nil, ← hi]
    rw [this, State.setLink_link]
    rfl
  | cons b bytes ih =>
    intro s f hr he hi hf ht htot h5 h32
    have hb := State.receiveByte_inFrame (rest := bytes ++ rest) b hr he hi hf
      (ht.imp_right fun h => by simp at h; omega) htot h5 h32
    rw [if_neg (by simp [hrest])] at hb
    simp only [List.foldl_cons, hb]
    rw [ih _ (f ++ [b]) (by simpa using hr) (by simpa using he) (by simp) (by simp) (by simpa using ht)
      (by simpa using htot) (by simpa using h5) (by simpa using h32)]
    simp

/-- R144: the rest of a frame of the right length, as it arrives in time. -/
theorem State.receiveBytes (l : Lane) (bytes : List Byte) (s : State) (f : List Byte) (hr : s.isReady = true)
    (he : (s.link l).enabled = true) (hi : (s.link l).receiver = .inFrame f) (hf : f ≠ []) (hb : bytes ≠ [])
    (ht : (s.link l).baud ≠ 0 ∨ (f ++ bytes).length ≤ 20)
    (htot : (((f ++ bytes).drop 1).headD 0).toNat = (f ++ bytes).length) (h5 : 5 ≤ (f ++ bytes).length)
    (h32 : (f ++ bytes).length ≤ 32) :
    bytes.foldl (fun s b => s.receiveByte l b) s = s.frameDone l (f ++ bytes) := by
  obtain ⟨front, last, rfl⟩ : ∃ front last, bytes = front ++ [last] :=
    ⟨_, _, (List.dropLast_concat_getLast hb).symm⟩
  rw [List.foldl_append, State.receivePart l (List.cons_ne_nil last []) front s f hr he hi hf
    (ht.imp_right fun h => by simp at h ⊢; omega) htot h5 h32]
  simp only [List.foldl_cons, List.foldl_nil]
  rw [State.receiveByte_inFrame (f := f ++ front) (rest := []) last (by simpa using hr) (by simpa using he) (by simp)
    (by simp [hf]) (by simpa using ht.imp_right fun h => by simp at h; omega) (by simpa using htot) (by simpa using h5)
    (by simpa using h32), if_pos rfl, State.frameDone_inFrame, List.append_assoc]

/-- R144: a frame of more than 20 bytes at 9,600 baud: the timer discards it, and the bytes left are read from IDLE. -/
theorem State.receiveBytes_slow (l : Lane) (bytes : List Byte) (s : State) (f : List Byte) (hr : s.isReady = true)
    (he : (s.link l).enabled = true) (hi : (s.link l).receiver = .inFrame f) (hf : f ≠ []) (hl : f.length ≤ 20)
    (h0 : (s.link l).baud = 0) (hlong : 20 < (f ++ bytes).length)
    (htot : (((f ++ bytes).drop 1).headD 0).toNat = (f ++ bytes).length) (h32 : (f ++ bytes).length ≤ 32) :
    bytes.foldl (fun s b => s.receiveByte l b) s =
      (bytes.drop (20 - f.length)).foldl (fun s b => s.receiveByte l b) (s.setLink l (s.link l).discard) := by
  have hlong' : 20 < f.length + bytes.length := by simpa using hlong
  have hrest : bytes.drop (20 - f.length) ≠ [] := by simp; omega
  have hpart := State.receivePart l hrest (bytes.take (20 - f.length)) s f hr he hi hf
    (.inr (by simp; omega)) (by simpa using htot) (by rw [List.take_append_drop]; omega)
    (by simpa using h32)
  conv => lhs; rw [← List.take_append_drop (20 - f.length) bytes, List.foldl_append, hpart]
  have hfull : (f ++ bytes.take (20 - f.length)).length = 20 := by simp; omega
  generalize f ++ bytes.take (20 - f.length) = g at hfull ⊢
  cases hd : bytes.drop (20 - f.length) with
  | nil => exact absurd hd hrest
  | cons b rest =>
    simp only [List.foldl_cons]
    congr 1
    unfold State.receiveByte
    rw [State.runTimer_of_idle (s := s.setLink l (s.link l).discard) (by simp [Link.discard])]
    congr 1
    simp [State.runTimer, Link.timerUp, h0, hfull, State.discardFrame, hr, he, Link.discard]

/-- R144: an idle receiver ignores every byte but a start byte. -/
theorem State.receiveBytes_idle (l : Lane) (bytes : List Byte) (s : State) (hi : (s.link l).receiver = .idle)
    (h : (165 : Byte) ∉ bytes) : bytes.foldl (fun s b => s.receiveByte l b) s = s := by
  induction bytes with
  | nil => rfl
  | cons b rest ih =>
    have hb : (b == Config.startByte) = false := beq_eq_false_iff_ne.2 fun e => h (e ▸ List.mem_cons_self ..)
    have : s.receiveByte l b = s := by
      unfold State.receiveByte State.takeByte
      rw [State.runTimer_of_idle hi]
      simp only [hi, hb]
      simp
    rw [List.foldl_cons, this]
    exact ih fun e => h (List.mem_cons_of_mem _ e)

/-! ### Answers -/

theorem State.answered_answer {s s' : State} (o : Origin) (st : Status) (body : TermBody) (h : s'.links = s.links) :
    s.answered (s'.answer o st body) o st body := by
  have hl : ∀ l, s'.link l = s.link l := fun l => by simp [State.link, h]
  constructor
  · simp [State.answer, hl]
  · intro l hne
    simp [State.answer, State.link_modifyLink_ne _ _ hne, hl]

theorem State.answered_congr {s t t' : State} {o : Origin} {st : Status} {body : TermBody} (h : t'.links = t.links)
    (ha : s.answered t o st body) : s.answered t' o st body := by
  have hl : ∀ l, t'.link l = t.link l := fun l => by simp [State.link, h]
  unfold State.answered at *
  simpa [hl] using ha

/-- R147: an answer whose tag is busy and unanswered, in the link's epoch, joins the response queue. -/
theorem Link.arrive_queue {k : Link} {epoch : Byte} {r : Response} (h1 : k.epoch = epoch)
    (h2 : k.tags.get (commandTag r.cmd) = true) (h3 : ∀ q ∈ k.queue, commandTag q.cmd ≠ commandTag r.cmd) :
    (k.arrive epoch r).queue = k.queue ++ [r] := by
  have h4 : (k.queue.any fun q => commandTag q.cmd == commandTag r.cmd) = false := by
    simpa using h3
  simp only [Link.arrive, h1, h2, h4, beq_self_eq_true, Bool.not_false, Bool.and_self, if_true, Link.txBegin]
  split <;> rfl

/-- An arriving answer touches the response queue and the transmitter alone. -/
theorem Link.arrive_frame (k : Link) (epoch : Byte) (r : Response) :
    k.arrive epoch r = { k with queue := (k.arrive epoch r).queue, sending := (k.arrive epoch r).sending } := by
  unfold Link.arrive Link.txBegin
  split
  · split <;> rfl
  · rfl

/-! ### Verification -/

theorem State.noteMismatch_false (s : State) (n : Nat) (f : Finder) : s.noteMismatch n false f = s := rfl

theorem State.record_noteMismatch_same (s : State) (n : Nat) (b : Bool) (f : Finder) :
    (s.noteMismatch n b f).record n = { s.record n with suspect := (s.record n).suspect || b } := by
  unfold State.noteMismatch
  cases b
  · simp
  · simp only [if_true, Bool.or_true]
    split
    · rename_i h
      cases hr : s.record n
      simp_all
    · simp

theorem State.record_noteMismatch_ne (s : State) {n m : Nat} (b : Bool) (f : Finder) (h : m ≠ n) :
    (s.noteMismatch n b f).record m = s.record m := by
  unfold State.noteMismatch
  dsimp only
  (repeat' split) <;> simp [State.record_setRecord_ne _ _ h]

/-- R33, R139: one SUSPECT_FOUND where a mismatch is found and the flag was clear, else nothing. -/
theorem State.noticed_noteMismatch (s : State) (n : Nat) (b : Bool) (f : Finder) :
    s.noticed (s.noteMismatch n b f) (if b = true ∧ (s.record n).suspect = false then
      [.suspectFound n (s.record n).gen (s.record n).state f] else []) := by
  unfold State.noteMismatch
  cases b
  · simp [State.noticed_of_eq]
  · cases h : (s.record n).suspect
    · simp only [if_true, h, and_self]
      exact State.noticed_congr (s := s.setRecord n { s.record n with suspect := true }) (by simp) rfl
        (State.noticed_post _ rfl)
    · simp [h, State.noticed_of_eq]

theorem Record.found_of_verifies {r : Record} (h : r.verifies = true) : r.found = r := by
  unfold Record.found
  simp [h]

theorem Record.found_of_sound {r : Record} (h : r.sound) : r.found = r := Record.found_of_verifies h.2

/-- R20, R25: a FREE slot reads as FREE, with no account in it, and verifies. -/
theorem Record.freed_spec (gen : Byte) :
    (Record.freed gen).state = .free ∧ (Record.freed gen).gen = gen ∧ (Record.freed gen).key = 0 ∧
      (Record.freed gen).bal = 0 ∧ (Record.freed gen).floorValue = 0 ∧ (Record.freed gen).lowValue = 0 ∧
      (Record.freed gen).tariffs = 0 ∧ (Record.freed gen).suspect = false ∧ (Record.freed gen).verifies = true ∧
      (Record.freed gen).held = 0 ∧ (Record.freed gen).holds = [] := by
  have hb : S8.value (S8.ofInt 0) = 0 := by decide
  have hd : (Record.freed gen).decodable = true := by
    have h1 : (S8.ofInt 0).ok = true := by decide
    have h2 : B6.ok 0 = true := by decide
    have h3 : (AcctState.code .free).toNat ≤ 5 := by decide
    unfold Record.decodable
    simp only [Record.freed, Record.seal, h1, h2, h3, decide_true, Bool.and_self]
  have hf : B6.value 0 = 0 := by decide
  have hv : (Record.freed gen).verifies = true := by
    unfold Record.verifies
    rw [hd]
    exact beq_self_eq_true (crc16 (Record.freed gen).covered)
  exact ⟨rfl, rfl, rfl, hb, hf, hf, rfl, rfl, hv, rfl, rfl⟩

/-! ### Balances -/

@[simp] theorem State.record_writeBalance_same (s : State) (n : Nat) (v : Int) :
    (s.writeBalance n v).record n = { s.record n with balance := S8.ofInt v }.seal := by
  simp [State.writeBalance, Record.withBalance]

theorem State.record_writeBalance_ne (s : State) {n m : Nat} (v : Int) (h : m ≠ n) :
    (s.writeBalance n v).record m = s.record m := by
  simp [State.writeBalance, State.record_modifyRecord_ne _ _ h]

@[simp] theorem State.record_writeState_same (s : State) (n : Nat) (st : AcctState) :
    (s.writeState n st).record n = { s.record n with stateCode := st.code }.seal := by
  simp [State.writeState]

theorem State.record_writeState_ne (s : State) {n m : Nat} (st : AcctState) (h : m ≠ n) :
    (s.writeState n st).record m = s.record m := by
  simp [State.writeState, State.record_modifyRecord_ne _ _ h]

theorem State.noticed_postLow {s t : State} (n : Nat) (r : Record) (v : Int)
    (h : t.notices = (s.postLow n r v).notices) : s.noticed t (if crossesLow r v = true then
      [.lowBalance ⟨BitVec.ofNat 16 n, r.gen⟩ (S8.ofInt v)] else []) := by
  unfold State.postLow at h
  split at h
  · rename_i hc
    simp only [hc, if_true]
    exact State.noticed_post _ h
  · rename_i hc
    simp only [hc]
    exact State.noticed_of_eq h

theorem crossesLow_iff (r : Record) (v : Int) :
    crossesLow r v = true ↔ v < r.bal ∧ (r.lowValue : Int) ≤ r.bal ∧ v < r.lowValue := by
  simp [crossesLow, and_assoc]

/-! ### The deadline queue -/

theorem mem_insertItem {i j : DeadlineItem} {q : List DeadlineItem} : j ∈ insertItem i q ↔ j = i ∨ j ∈ q := by
  induction q with
  | nil => simp [insertItem]
  | cons k q ih =>
    unfold insertItem
    split
    · simp only [List.mem_cons, ih]
      constructor
      · rintro (h | h | h) <;> simp [h]
      · rintro (h | h | h) <;> simp [h]
    · simp only [List.mem_cons]

/-- R99: an insertion keeps the queue ordered. -/
theorem ordered_insertItem (i : DeadlineItem) (q : List DeadlineItem) (h : ordered q) : ordered (insertItem i q) := by
  induction q with
  | nil => exact ⟨fun j hj => (List.not_mem_nil hj).elim, trivial⟩
  | cons k q ih =>
    unfold insertItem
    split
    · rename_i hk
      refine ⟨fun j hj => ?_, ih h.2⟩
      rcases mem_insertItem.1 hj with hj | hj
      · exact hj ▸ hk
      · exact h.1 j hj
    · rename_i hk
      refine ⟨fun j hj => ?_, h⟩
      rcases List.mem_cons.1 hj with hj | hj
      · subst hj
        omega
      · have := h.1 j hj
        omega

theorem ordered_filter (p : DeadlineItem → Bool) (q : List DeadlineItem) (h : ordered q) : ordered (q.filter p) := by
  induction q with
  | nil => trivial
  | cons k q ih =>
    rw [List.filter_cons]
    split
    · exact ⟨fun j hj => h.1 j (List.mem_filter.1 hj).1, ih h.2⟩
    · exact ih h.2

/-- R103: the claims posted by the due test for one engine. -/
def dueTickets (s : State) (q : List DeadlineItem) (g : Lane) : List Ticket :=
  (q.filter fun i => decide (i.deadline ≤ s.timebase) && laneOf (s.hold i.ticket.entry.toNat).slot == g).map
    DeadlineItem.ticket

theorem State.engine_postExpiry (s : State) (t : Ticket) (g : Lane) : (s.postExpiry t).engine g =
    { s.engine g with
        expiry := (s.engine g).expiry ++ (if laneOf (s.hold t.entry.toNat).slot = g then [t] else []) } := by
  by_cases h : laneOf (s.hold t.entry.toNat).slot = g
  · subst h
    simp [State.postExpiry]
  · simp [State.postExpiry, State.engine_modifyEngine_ne _ _ (Ne.symm h), h]

/-- R103: what the removal of the due items of an ordered queue leaves, and what it posts. -/
theorem postDue_spec (q : List DeadlineItem) : ∀ s : State, ordered q →
    (postDue q s).deadlines = q.filter (fun i => decide (s.timebase < i.deadline)) ∧
      ∀ g, (postDue q s).engine g = { s.engine g with expiry := (s.engine g).expiry ++ dueTickets s q g } := by
  induction q with
  | nil =>
    intro s _
    exact ⟨rfl, fun g => by simp [postDue, dueTickets]; rfl⟩
  | cons i q ih =>
    intro s h
    unfold postDue
    split
    · rename_i hi
      have := ih (s.postExpiry i.ticket) h.2
      refine ⟨?_, fun g => ?_⟩
      · rw [this.1]
        have hn : ¬s.timebase < i.deadline := by omega
        simp [hn]
      · rw [this.2 g, State.engine_postExpiry]
        by_cases hg : laneOf (s.hold i.ticket.entry.toNat).slot = g
        · simp [dueTickets, hi, hg]
        · simp [dueTickets, hg]
    · rename_i hi
      have hrest : ∀ j ∈ q, s.timebase < j.deadline := fun j hj => by
        have := h.1 j hj
        omega
      refine ⟨?_, fun g => ?_⟩
      · have : s.timebase < i.deadline := by omega
        simp only [List.filter_cons, this, decide_true, if_true]
        rw [List.filter_eq_self.2 fun j hj => decide_eq_true (hrest j hj)]
      · have : dueTickets s (i :: q) g = [] := by
          unfold dueTickets
          rw [List.map_eq_nil_iff, List.filter_eq_nil_iff]
          intro j hj
          have : ¬j.deadline ≤ s.timebase := by
            rcases List.mem_cons.1 hj with hj | hj
            · subst hj
              exact hi
            · have := hrest j hj
              omega
          simp [this]
        simp [this]
        rfl

theorem dueTickets_wake (s : State) (q : List DeadlineItem) (g : Lane) : dueTickets s.wake q g = dueTickets s q g := by
  simp [dueTickets]

theorem State.headDue_iff_any {s : State} (h : ordered s.deadlines) :
    s.headDue = s.deadlines.any fun i => decide (i.deadline ≤ s.timebase) := by
  unfold State.headDue
  split
  · rename_i hd
    simp [hd]
  · rename_i i q hd
    rw [hd] at h ⊢
    simp only [List.any_cons]
    by_cases hi : i.deadline ≤ s.timebase
    · simp [hi]
    · simp only [hi, decide_false, Bool.false_or]
      symm
      rw [List.any_eq_false]
      intro j hj
      have := h.1 j hj
      simp
      omega

/-- R103: with every item above the timebase the due test does nothing. -/
theorem State.dueTest_of_ahead {s : State} (h : ∀ i ∈ s.deadlines, s.timebase < i.deadline) : s.dueTest = s := by
  have : s.headDue = false := by
    unfold State.headDue
    split
    · rfl
    · rename_i i q hd
      have := h i (by simp [hd])
      simp
      omega
  simp [State.dueTest, this]

/-- R103, R108: the due test in READY on an ordered queue. -/
theorem State.dueTest_spec {s : State} (hr : s.isReady = true) (h : ordered s.deadlines) :
    s.dueTest.deadlines = s.deadlines.filter (fun i => decide (s.timebase < i.deadline)) ∧
      (∀ g, s.dueTest.engine g =
        { s.engine g with expiry := (s.engine g).expiry ++ dueTickets s s.deadlines g }) ∧
      s.dueTest.power =
        (if (s.deadlines.any fun i => decide (i.deadline ≤ s.timebase)) = true then s.wake.power else s.power) := by
  rw [← State.headDue_iff_any h]
  cases hd : s.headDue
  · have hall : ∀ i ∈ s.deadlines, s.timebase < i.deadline := by
      rw [State.headDue_iff_any h, List.any_eq_false] at hd
      intro i hi
      have := hd i hi
      simp only [decide_eq_true_eq] at this
      omega
    rw [State.dueTest_of_ahead hall]
    refine ⟨(List.filter_eq_self.2 fun j hj => decide_eq_true (hall j hj)).symm, fun g => ?_, by simp⟩
    have : dueTickets s s.deadlines g = [] := by
      unfold dueTickets
      rw [List.map_eq_nil_iff, List.filter_eq_nil_iff]
      intro j hj
      have := hall j hj
      have : ¬j.deadline ≤ s.timebase := by omega
      simp [this]
    simp [this]
  · have := postDue_spec s.deadlines s.wake h
    simp only [State.dueTest, hr, hd, Bool.and_self, if_true]
    refine ⟨by simpa using this.1, fun g => ?_, by simp⟩
    rw [this.2 g, dueTickets_wake]
    simp

/-- R103: a queue whose due items stand first loses just these, and posts their claims. -/
theorem postDue_append (due ahead : List DeadlineItem) : ∀ s : State, (∀ i ∈ due, i.deadline ≤ s.timebase) →
    (∀ i ∈ ahead, s.timebase < i.deadline) →
    (postDue (due ++ ahead) s).deadlines = ahead ∧
      ∀ g, (postDue (due ++ ahead) s).engine g =
        { s.engine g with expiry := (s.engine g).expiry ++ dueTickets s due g } := by
  induction due with
  | nil =>
    intro s _ h2
    have h : postDue ahead s = { s with deadlines := ahead } := by
      cases ahead with
      | nil => rfl
      | cons i q =>
        have := h2 i (List.mem_cons_self ..)
        unfold postDue
        rw [if_neg (by omega)]
    rw [List.nil_append, h]
    exact ⟨rfl, fun g => by simp [dueTickets]; rfl⟩
  | cons i due ih =>
    intro s h1 h2
    have hi := h1 i (List.mem_cons_self ..)
    have h := ih (s.postExpiry i.ticket) (fun j hj => h1 j (List.mem_cons_of_mem _ hj)) h2
    rw [List.cons_append, postDue, if_pos hi]
    refine ⟨h.1, fun g => ?_⟩
    rw [h.2 g, State.engine_postExpiry]
    by_cases hg : laneOf (s.hold i.ticket.entry.toNat).slot = g
    · simp [dueTickets, hi, hg]
    · simp [dueTickets, hg]

/-- R103: the due test on a queue whose due items stand first. -/
theorem State.dueTest_append {s : State} {due ahead : List DeadlineItem} (hr : s.isReady = true)
    (hq : s.deadlines = due ++ ahead) (h1 : ∀ i ∈ due, i.deadline ≤ s.timebase)
    (h2 : ∀ i ∈ ahead, s.timebase < i.deadline) :
    s.dueTest.deadlines = ahead ∧
      ∀ g, s.dueTest.engine g = { s.engine g with expiry := (s.engine g).expiry ++ dueTickets s due g } := by
  cases due with
  | nil =>
    rw [State.dueTest_of_ahead (by rw [hq]; exact h2)]
    exact ⟨hq, fun g => by simp [dueTickets]⟩
  | cons i due =>
    have hd : s.headDue = true := by
      have := h1 i (List.mem_cons_self ..)
      simp [State.headDue, hq, this]
    have h := postDue_append (i :: due) ahead s.wake (by simpa using h1) (by simpa using h2)
    simp only [State.dueTest, hr, hd, Bool.and_self, if_true, hq]
    refine ⟨h.1, fun g => ?_⟩
    rw [h.2 g, dueTickets_wake]
    simp

/-- R108: the due test wakes the chip where the head of a READY chip is due. -/
theorem State.power_dueTest (s : State) :
    s.dueTest.power = if s.isReady = true ∧ s.headDue = true then s.wake.power else s.power := by
  unfold State.dueTest
  by_cases h : s.isReady = true ∧ s.headDue = true
  · simp [h]
  · rw [if_neg (by simpa using h), if_neg h]

theorem State.power_wake {s t : State} (h : s.power = t.power) : s.wake.power = t.wake.power := by
  unfold State.wake
  rw [h]
  split
  · rfl
  · exact h

/-- R99, R100, R103: the due test after an insertion into a queue of items ahead of the timebase: an item that is due
already leaves at once and its claim is posted. -/
theorem State.dueTest_insert {x : State} {tk : Ticket} {d : Nat} {others : List DeadlineItem}
    (hq : x.deadlines = insertItem ⟨tk, d⟩ others) (hahead : ∀ i ∈ others, x.timebase < i.deadline)
    (hr : d ≤ x.timebase → x.isReady = true) :
    x.dueTest = { x with deadlines := if d ≤ x.timebase then others else insertItem ⟨tk, d⟩ others,
                         engines := x.dueTest.engines, power := if d ≤ x.timebase then x.wake.power else x.power } ∧
      ∀ m, x.dueTest.engine m = { x.engine m with
        expiry := if d ≤ x.timebase ∧ m = laneOf (x.hold tk.entry.toNat).slot then (x.engine m).expiry ++ [tk]
          else (x.engine m).expiry } := by
  by_cases hd : d ≤ x.timebase
  · have hi : insertItem ⟨tk, d⟩ others = ⟨tk, d⟩ :: others := by
      cases others with
      | nil => rfl
      | cons j rest =>
        have := hahead j List.mem_cons_self
        rw [insertItem, if_neg (by show ¬j.deadline ≤ d; omega)]
    have he : x.dueTest = { x.wake.postExpiry tk with deadlines := others } := by
      unfold State.dueTest State.headDue
      rw [hr hd, hq, hi]
      simp only [Bool.true_and, decide_eq_true_eq, if_pos hd]
      rw [postDue, if_pos (by simpa using hd)]
      cases others with
      | nil => rfl
      | cons j rest =>
        have := hahead j List.mem_cons_self
        rw [postDue, if_neg (by simp; omega)]
    refine ⟨?_, fun m => ?_⟩
    · rw [he]
      apply State.eq_of_fields <;> simp [hd]
    · rw [he]
      show (x.wake.postExpiry tk).engine m = _
      rw [State.engine_postExpiry]
      have hw : x.wake.engine m = x.engine m := by simp
      have hl : x.wake.hold tk.entry.toNat = x.hold tk.entry.toNat := by simp
      rw [hw, hl]
      by_cases hm : m = laneOf (x.hold tk.entry.toNat).slot
      · simp [hd, hm]
      · simp [hm, Ne.symm hm]
  · have he : x.dueTest = x := State.dueTest_of_ahead fun i hi => by
      rw [hq] at hi
      rcases mem_insertItem.1 hi with rfl | hi
      · show x.timebase < d
        omega
      · exact hahead i hi
    rw [he]
    refine ⟨?_, fun m => by simp [hd]⟩
    simp only [if_neg hd, ← hq]

/-- R99: an item goes behind those of its own deadline and ahead of the later ones. -/
theorem insertItem_between (i : DeadlineItem) (now later : List DeadlineItem) (h1 : ∀ j ∈ now, j.deadline = i.deadline)
    (h2 : ∀ j ∈ later, i.deadline < j.deadline) : insertItem i (now ++ later) = now ++ i :: later := by
  induction now with
  | nil =>
    cases later with
    | nil => rfl
    | cons j later =>
      have := h2 j (List.mem_cons_self ..)
      simp only [List.nil_append, insertItem]
      rw [if_neg (by omega)]
  | cons j now ih =>
    have := h1 j (List.mem_cons_self ..)
    rw [List.cons_append, insertItem, if_pos (by omega), ih fun k hk => h1 k (List.mem_cons_of_mem _ hk)]
    rfl

/-- R101, R141: re-arming the holds of a list: each is LIVE with the timebase as its deadline, the others are as they were,
and the items stand ahead of the queue in the order of the list. -/
theorem State.rearm_all_spec (list : List Ticket) : ∀ (s : State) (now later : List DeadlineItem),
    s.deadlines = now ++ later → (∀ i ∈ now, i.deadline = s.timebase) → (∀ i ∈ later, s.timebase < i.deadline) →
    (list.foldl State.rearm s).deadlines = now ++ list.map (fun t => ⟨t, s.timebase⟩) ++ later := by
  induction list with
  | nil => exact fun s now later h _ _ => by simp [h]
  | cons tk list ih =>
    intro s now later h h1 h2
    have hd : (s.rearm tk).deadlines = (now ++ [⟨tk, s.timebase⟩]) ++ later := by
      simp only [State.rearm, State.insertDeadline]
      show insertItem ⟨tk, s.timebase⟩ s.deadlines = _
      rw [h, insertItem_between _ _ _ h1 h2]
      simp
    have := ih (s.rearm tk) (now ++ [⟨tk, s.timebase⟩]) later hd
      (fun i hi => by
        rcases List.mem_append.1 hi with hi | hi
        · exact h1 i hi
        · rw [List.mem_singleton.1 hi]
          rfl)
      h2
    rw [List.foldl_cons, this]
    show _ ++ List.map (fun t => ⟨t, s.timebase⟩) list ++ later = _
    simp

theorem State.hold_rearm_all (list : List Ticket) : ∀ s : State,
    (∀ tk ∈ list, (list.foldl State.rearm s).hold tk.entry.toNat =
      { s.hold tk.entry.toNat with state := .live, deadline := s.timebase }) ∧
    ∀ n, (∀ tk ∈ list, tk.entry.toNat ≠ n) → (list.foldl State.rearm s).hold n = s.hold n := by
  induction list with
  | nil => exact fun s => ⟨fun tk h => (List.not_mem_nil h).elim, fun n _ => rfl⟩
  | cons t list ih =>
    intro s
    have h := ih (s.rearm t)
    have hsame : (s.rearm t).hold t.entry.toNat = { s.hold t.entry.toNat with state := .live, deadline := s.timebase } := by
      simp [State.rearm]
    have hne : ∀ n, t.entry.toNat ≠ n → (s.rearm t).hold n = s.hold n := fun n hn => by
      simp [State.rearm, State.hold_setHold_ne _ _ (Ne.symm hn)]
    refine ⟨fun tk htk => ?_, fun n hn => ?_⟩
    · rw [List.foldl_cons]
      by_cases hin : ∃ u ∈ list, u.entry.toNat = tk.entry.toNat
      · obtain ⟨u, hu, hut⟩ := hin
        rw [← hut, h.1 u hu]
        show HoldEntry.mk _ _ _ _ _ _ _ _ _ _ s.timebase _ _ = _
        by_cases he : t.entry.toNat = u.entry.toNat
        · rw [← he, hsame]
        · rw [hne _ he]
      · rw [h.2 _ fun u hu hut => hin ⟨u, hu, hut⟩]
        by_cases he : t.entry.toNat = tk.entry.toNat
        · rw [← he, hsame]
        · rcases List.mem_cons.1 htk with rfl | htk
          · exact absurd rfl he
          · exact absurd ⟨tk, htk, rfl⟩ hin
    · rw [List.foldl_cons, h.2 n fun u hu => hn u (List.mem_cons_of_mem _ hu), hne n (hn t (List.mem_cons_self ..))]

/-- The due test only takes items out of the queue. -/
theorem postDue_sub (q : List DeadlineItem) : ∀ s : State,
    (∀ i ∈ (postDue q s).deadlines, i ∈ q) ∧ ∀ g, ∃ more, (postDue q s).engine g =
      { s.engine g with expiry := (s.engine g).expiry ++ more } ∧ ∀ t ∈ more, ∃ i ∈ q, i.ticket = t := by
  induction q with
  | nil =>
    intro s
    exact ⟨fun i hi => hi, fun g => ⟨[], by simp [postDue]; rfl, fun t ht => (List.not_mem_nil ht).elim⟩⟩
  | cons j q ih =>
    intro s
    unfold postDue
    split
    · obtain ⟨h1, h2⟩ := ih (s.postExpiry j.ticket)
      refine ⟨fun i hi => List.mem_cons_of_mem _ (h1 i hi), fun g => ?_⟩
      obtain ⟨more, h3, h4⟩ := h2 g
      refine ⟨_, by rw [h3, State.engine_postExpiry, List.append_assoc], ?_⟩
      intro t ht
      rcases List.mem_append.1 ht with ht | ht
      · split at ht
        · exact ⟨j, List.mem_cons_self .., (List.mem_singleton.1 ht).symm⟩
        · exact (List.not_mem_nil ht).elim
      · obtain ⟨i, hi, hit⟩ := h4 t ht
        exact ⟨i, List.mem_cons_of_mem _ hi, hit⟩
    · exact ⟨fun i hi => hi, fun g => ⟨[], by simp; rfl, fun t ht => (List.not_mem_nil ht).elim⟩⟩

theorem State.dueTest_sub (s : State) :
    (∀ i ∈ s.dueTest.deadlines, i ∈ s.deadlines) ∧ ∀ g, ∃ more, s.dueTest.engine g =
      { s.engine g with expiry := (s.engine g).expiry ++ more } ∧ ∀ t ∈ more, ∃ i ∈ s.deadlines, i.ticket = t := by
  unfold State.dueTest
  split
  · have := postDue_sub s.deadlines s.wake
    simpa using this
  · exact ⟨fun i hi => hi, fun g => ⟨[], by simp, fun t ht => (List.not_mem_nil ht).elim⟩⟩

/-! ### The ending of a hold -/

@[simp] theorem Record.seal_suspect (r : Record) : r.seal.suspect = r.suspect := rfl

/-- A code reads back as its state. -/
theorem Record.state_of_code (r : Record) (st : AcctState) : { r with stateCode := st.code }.state = st := by
  cases st <;> rfl

theorem recordAfterEnding_spec (r : Record) (last : Bool) (t : Ticket) (amount : Nat) (newBal : Option Int) :
    let r' := recordAfterEnding r last t amount newBal
    r'.held = heldWithout r.held amount ∧ r'.holds = r.holds.filter (· ≠ t) ∧
      r'.balance = (match newBal with | some v => S8.ofInt v | none => r.balance) ∧
      r'.stateCode = (if last = true then AcctState.gone.code else r.stateCode) ∧
      r'.checkCode = (if newBal.isSome = true ∨ last = true then crc16 r'.covered else r.checkCode) ∧
      r'.suspect = r.suspect ∧ r'.key = r.key ∧ r'.gen = r.gen ∧ r'.floor = r.floor ∧ r'.lowMark = r.lowMark ∧
      r'.tariffs = r.tariffs := by
  unfold recordAfterEnding
  cases newBal <;> cases last <;> simp [Record.withoutHold, Record.withBalance, Record.seal, Record.covered]

theorem endsClosing_iff (r : Record) (t : Ticket) :
    endsClosing r t = true ↔ r.state = .closing ∧ r.holds.filter (· ≠ t) = [] := by
  simp [endsClosing]

/-- R36, R102: what taking an ended hold out of the deadline unit's keeping leaves. -/
theorem State.dropDeadline_spec (s : State) (g : Lane) (t : Ticket) :
    (s.dropDeadline g t).deadlines = s.deadlines.filter (fun i => i.ticket != t) ∧
      ∀ m, ((s.dropDeadline g t).engine m).expiry = if s.isQueued t = false ∧ m = g then
        (s.engine m).expiry.filter (fun c => c != t) else (s.engine m).expiry := by
  unfold State.dropDeadline
  cases hq : s.isQueued t
  · simp only [Bool.false_eq_true, if_false, true_and]
    refine ⟨?_, fun m => ?_⟩
    · simp only [State.isQueued, List.any_eq_false, beq_iff_eq] at hq
      rw [List.filter_eq_self.2 fun i hi => by simpa using hq i hi]
      simp
    · by_cases hm : m = g
      · subst hm
        simp
      · simp [hm, State.engine_modifyEngine_ne _ _ hm]
  · exact ⟨rfl, fun m => by simp⟩

/-- An ending is a due test behind the removal of the hold from the deadline unit's keeping. -/
theorem State.endHold_due (s : State) (g : Lane) (tk : Ticket) (e : HoldEntry) (r : Record) (v : Option Int) :
    ∃ x : State, s.endHold g tk e r v = x.dueTest ∧ x.deadlines = s.deadlines.filter (fun i => i.ticket != tk) ∧
      (∀ m, (x.engine m).expiry = if s.isQueued tk = false ∧ m = g then
        (s.engine m).expiry.filter (fun c => c != tk) else (s.engine m).expiry) ∧ x.timebase = s.timebase ∧
      x.power = s.power := by
  have h0 := State.dropDeadline_spec ((s.modifyRecord e.slot fun stored => recordAfterEnding stored (endsClosing r tk) tk
    e.amount v).setHold tk.entry.toNat (HoldEntry.freed (e.serial + 1))) g tk
  have hq : ((s.modifyRecord e.slot fun stored => recordAfterEnding stored (endsClosing r tk) tk e.amount v).setHold
    tk.entry.toNat (HoldEntry.freed (e.serial + 1))).isQueued tk = s.isQueued tk := by simp [State.isQueued]
  rw [hq] at h0
  unfold State.endHold
  dsimp only
  split
  · exact ⟨_, rfl, by simpa using h0.1, fun m => by simpa using h0.2 m, by simp, by simp⟩
  · exact ⟨_, rfl, by simpa using h0.1, fun m => by simpa using h0.2 m, by simp, by simp⟩

/-- What an ending leaves of the deadline queue and of the claims. -/
theorem State.endHold_keeping (s : State) (g : Lane) (tk : Ticket) (e : HoldEntry) (r : Record) (v : Option Int) :
    (s.endHold g tk e r v).isQueued tk = false ∧
      (s.isQueued tk = false → (s.endHold g tk e r v).isClaimed g tk = false) ∧
      ((∀ i ∈ s.deadlines, s.timebase < i.deadline) →
        (s.endHold g tk e r v).deadlines = s.deadlines.filter (fun i => i.ticket != tk) ∧
          ∀ m, ((s.endHold g tk e r v).engine m).expiry = if s.isQueued tk = false ∧ m = g then
            (s.engine m).expiry.filter (fun c => c != tk) else (s.engine m).expiry) := by
  obtain ⟨x, hx, hd, he, ht, _⟩ := s.endHold_due g tk e r v
  rw [hx]
  obtain ⟨h1, h2⟩ := State.dueTest_sub x
  have hnot : ∀ i ∈ x.deadlines, i.ticket ≠ tk := fun i hi => by
    rw [hd] at hi
    simpa using (List.mem_filter.1 hi).2
  refine ⟨?_, fun hq => ?_, fun hahead => ?_⟩
  · simp only [State.isQueued, List.any_eq_false]
    exact fun i hi => by simpa using hnot i (h1 i hi)
  · obtain ⟨more, h3, h4⟩ := h2 g
    simp only [State.isClaimed, List.any_eq_false, h3, he g, hq, and_self, if_true]
    intro c hc
    rcases List.mem_append.1 hc with hc | hc
    · simpa using (List.mem_filter.1 hc).2
    · obtain ⟨i, hi, hit⟩ := h4 c hc
      simpa using hit ▸ hnot i hi
  · have : x.dueTest = x := State.dueTest_of_ahead fun i hi => by
      rw [ht]
      exact hahead i (List.mem_filter.1 (hd ▸ hi)).1
    rw [this]
    exact ⟨hd, he⟩

/-- An ending with no deadline reached leaves power control alone: no due test wakes the chip. -/
theorem State.power_endHold (s : State) (g : Lane) (tk : Ticket) (e : HoldEntry) (r : Record) (v : Option Int)
    (h : ∀ i ∈ s.deadlines, s.timebase < i.deadline) : (s.endHold g tk e r v).power = s.power := by
  obtain ⟨x, hx, hd, _, ht, hp⟩ := s.endHold_due g tk e r v
  rw [hx, State.dueTest_of_ahead fun i hi => by
    rw [ht]
    exact h i (List.mem_filter.1 (hd ▸ hi)).1, hp]

theorem State.record_endHold_same (s : State) (g : Lane) (tk : Ticket) (e : HoldEntry) (r : Record) (v : Option Int) :
    (s.endHold g tk e r v).record e.slot = recordAfterEnding (s.record e.slot) (endsClosing r tk) tk e.amount v := by
  unfold State.endHold
  dsimp only
  split <;> simp

theorem State.record_endHold_ne (s : State) (g : Lane) (tk : Ticket) (e : HoldEntry) (r : Record) (v : Option Int)
    {n : Nat} (h : n ≠ e.slot) : (s.endHold g tk e r v).record n = s.record n := by
  unfold State.endHold
  dsimp only
  split <;> simp [State.record_modifyRecord_ne _ _ h]

theorem State.hold_endHold_same (s : State) (g : Lane) (tk : Ticket) (e : HoldEntry) (r : Record) (v : Option Int) :
    (s.endHold g tk e r v).hold tk.entry.toNat = HoldEntry.freed (e.serial + 1) := by
  unfold State.endHold
  dsimp only
  split <;> simp

theorem State.hold_endHold_ne (s : State) (g : Lane) (tk : Ticket) (e : HoldEntry) (r : Record) (v : Option Int)
    {n : Nat} (h : n ≠ tk.entry.toNat) : (s.endHold g tk e r v).hold n = s.hold n := by
  unfold State.endHold
  dsimp only
  split <;> simp [State.hold_setHold_ne _ _ h]

theorem State.indexUnit_endHold (s : State) (g : Lane) (tk : Ticket) (e : HoldEntry) (r : Record) (v : Option Int) :
    (s.endHold g tk e r v).indexUnit = { s.indexUnit with
      updates := s.indexUnit.updates ++ (if endsClosing r tk = true then [.remove r.key e.slot] else []) } := by
  unfold State.endHold
  dsimp only
  split <;> simp [State.postRemoval]

/-- R79: what an ending writes, behind the verification of the record read. -/
theorem State.holdEnded_endHold (s : State) (g : Lane) (tk : Ticket) (e : HoldEntry) (r : Record) (v : Option Int)
    (f : Finder) :
    s.holdEnded (((s.endOp g).noteMismatch e.slot (!r.verifies) f).endHold g tk e r v) g tk e r v := by
  obtain ⟨x, hx, hsame, hne, hh, hd, ht, hu, he⟩ : ∃ x : State, (s.endOp g).noteMismatch e.slot (!r.verifies) f = x ∧
      x.record e.slot = { s.record e.slot with suspect := (s.record e.slot).suspect || !r.verifies } ∧
      (∀ n, n ≠ e.slot → x.record n = s.record n) ∧ x.holds = s.holds ∧ x.deadlines = s.deadlines ∧
      x.timebase = s.timebase ∧ x.indexUnit = s.indexUnit ∧ ∀ m, (x.engine m).expiry = (s.engine m).expiry := by
    refine ⟨_, rfl, by simp [State.record_noteMismatch_same], fun n hn => by simp [State.record_noteMismatch_ne _ _ _ hn],
      by simp, by simp, by simp, by simp, fun m => ?_⟩
    by_cases hm : m = g
    · subst hm
      simp [State.endOp]
    · simp [State.endOp, State.engine_modifyEngine_ne _ _ hm]
  rw [hx]
  have hspec := recordAfterEnding_spec (x.record e.slot) (endsClosing r tk) tk e.amount v
  have hkeep := x.endHold_keeping g tk e r v
  have hq : x.isQueued tk = s.isQueued tk := by simp [State.isQueued, hd]
  simp only [hq, hd, ht, he] at hkeep
  unfold State.holdEnded
  simp only [← endsClosing_iff, State.record_endHold_same]
  simp only [hsame] at hspec ⊢
  refine ⟨hspec, fun n hn => ?_, State.hold_endHold_same .., fun n hn => ?_, hkeep.1, hkeep.2.1, hkeep.2.2, ?_⟩
  · rw [State.record_endHold_ne _ _ _ _ _ _ hn, hne n hn]
  · rw [State.hold_endHold_ne _ _ _ _ _ _ hn]
    simp [State.hold, hh]
  · rw [State.indexUnit_endHold, hu]

/-- The ending as seen in states that agree with those around it in what an ending reads and writes. -/
theorem State.holdEnded_congr {s s' t t' : State} {g : Lane} {tk : Ticket} {e : HoldEntry} {r : Record} {v : Option Int}
    (ha : s'.accounts = s.accounts) (hh : s'.holds = s.holds) (hd : s'.deadlines = s.deadlines)
    (ht : s'.timebase = s.timebase) (hu : s'.indexUnit = s.indexUnit)
    (he : ∀ m, (s'.engine m).expiry = (s.engine m).expiry) (ha' : t'.accounts = t.accounts) (hh' : t'.holds = t.holds)
    (hd' : t'.deadlines = t.deadlines) (hu' : t'.indexUnit = t.indexUnit)
    (he' : ∀ m, (t'.engine m).expiry = (t.engine m).expiry) (h : s.holdEnded t g tk e r v) :
    s'.holdEnded t' g tk e r v := by
  have hrec : ∀ n, s'.record n = s.record n := fun n => by simp [State.record, ha]
  have hrec' : ∀ n, t'.record n = t.record n := fun n => by simp [State.record, ha']
  have hhold : ∀ n, s'.hold n = s.hold n := fun n => by simp [State.hold, hh]
  have hhold' : ∀ n, t'.hold n = t.hold n := fun n => by simp [State.hold, hh']
  have hq : s'.isQueued tk = s.isQueued tk := by simp [State.isQueued, hd]
  have hq' : t'.isQueued tk = t.isQueued tk := by simp [State.isQueued, hd']
  have hc' : t'.isClaimed g tk = t.isClaimed g tk := by simp [State.isClaimed, he']
  unfold State.holdEnded State.otherRecords State.otherHolds at *
  simp only [hrec, hrec', hhold, hhold', hq, hq', hc', hu, hu', hd, hd', he, he', ht]
  exact h

/-! ### Completions -/

@[simp] theorem State.engine_endOp_same (s : State) (g : Lane) : (s.endOp g).engine g = { s.engine g with op := none } := by
  simp [State.endOp]

theorem State.engine_endOp_ne (s : State) {g m : Lane} (h : m ≠ g) : (s.endOp g).engine m = s.engine m := by
  simp [State.endOp, State.engine_modifyEngine_ne _ _ h]

/-- The engines of a state in which the operation of one has ended. -/
theorem State.otherEngines_endOp {s t : State} {g : Lane} (h : t.engines = (s.endOp g).engines) : s.otherEngines t g :=
  fun m hm => by
    have : t.engine m = (s.endOp g).engine m := by simp only [State.engine, h]
    rw [this, State.engine_endOp_ne s hm]

/-- R33: what acting on a mismatch comes to, in a state whose records and notices nothing else has changed. -/
theorem State.onlyFlags_noteMismatch {s x t : State} (slot : Nat) (b : Bool) (h1 : x.accounts = s.accounts)
    (h2 : x.notices = s.notices) (h3 : t.accounts = (x.noteMismatch slot b .operation).accounts)
    (h4 : t.notices = (x.noteMismatch slot b .operation).notices) (hc : x.cmd = s.cmd := by first | rfl | simp) :
    s.onlyFlags t slot b := by
  have hx : ∀ n, x.record n = s.record n := fun n => by simp only [State.record, h1]
  have ht : ∀ n, t.record n = (x.noteMismatch slot b .operation).record n := fun n => by simp only [State.record, h3]
  refine ⟨?_, fun n hn => ?_, ?_, ?_⟩
  · rw [ht, State.record_noteMismatch_same, hx]
    rfl
  · rw [ht, State.record_noteMismatch_ne _ _ _ hn, hx]
  · have := State.noticed_noteMismatch x slot b .operation
    rw [hx] at this
    exact State.noticed_congr h2 h4.symm this (by rw [hc])
  · rintro rfl
    exact ⟨h3.trans h1, h4.trans h2⟩

theorem State.otherEngines_completeTerminal (s : State) (g : Lane) (op : Operation) (o : Origin) (slot : Nat) (ver : Bool)
    (v : Option Int) (st : Status) (body : TermBody) : s.otherEngines (s.completeTerminal g op o slot ver v st body) g := by
  refine State.otherEngines_endOp ?_
  unfold State.completeTerminal State.writeNewBalance
  cases v <;> simp

/-- R31, R33: a completion of a terminal request that writes no balance. -/
theorem State.completeTerminal_spec (s : State) (g : Lane) (op : Operation) (o : Origin) (slot : Nat) (ver : Bool)
    (st : Status) (body : TermBody) :
    let t := s.completeTerminal g op o slot ver none st body
    s.answered t o st body ∧ t.engine g = { s.engine g with op := none } ∧ s.otherEngines t g ∧
      s.onlyFlags t slot (ver && !op.record.verifies) ∧
      t = { s with accounts := t.accounts, notices := t.notices, engines := t.engines, links := t.links } := by
  unfold State.completeTerminal State.writeNewBalance
  refine ⟨State.answered_answer _ _ _ (by simp), by simp, State.otherEngines_endOp (by simp),
    State.onlyFlags_noteMismatch (x := s.endOp g) _ _ (by simp) (by simp) (by simp) (by simp), ?_⟩
  apply State.eq_of_fields <;> simp

/-- R31: a completion of a terminal request that writes no balance, on a record whose verification found no mismatch. -/
theorem State.completeTerminal_quiet (s : State) (g : Lane) (op : Operation) (o : Origin) (slot : Nat) (ver : Bool)
    (st : Status) (body : TermBody) (h : (ver && !op.record.verifies) = false) :
    let t := s.completeTerminal g op o slot ver none st body
    t.engine g = { s.engine g with op := none } ∧ s.answered t o st body ∧
      t = { s with engines := t.engines, links := t.links } := by
  simp only [State.completeTerminal, h, State.noteMismatch_false, State.writeNewBalance]
  exact ⟨by simp, State.answered_answer _ _ _ (by simp), by apply State.eq_of_fields <;> simp⟩

/-- R4, R59: a completion that writes a balance on a record whose verification found no mismatch. -/
theorem State.completeTerminal_balance (s : State) (g : Lane) (op : Operation) (o : Origin) (slot : Nat) (ver : Bool)
    (v : Int) (st : Status) (body : TermBody) (h : (ver && !op.record.verifies) = false) :
    let t := s.completeTerminal g op o slot ver (some v) st body
    t.engine g = { s.engine g with op := none } ∧ s.answered t o st body ∧
      t.record slot = { s.record slot with balance := S8.ofInt v }.seal ∧ s.otherRecords t slot ∧
      s.noticed t (if crossesLow op.record v = true then
        [.lowBalance ⟨BitVec.ofNat 16 slot, op.record.gen⟩ (S8.ofInt v)] else []) ∧
      t = { s with accounts := t.accounts, notices := t.notices, engines := t.engines, links := t.links } := by
  simp only [State.completeTerminal, State.writeNewBalance, h, State.noteMismatch_false]
  refine ⟨by simp, State.answered_answer _ _ _ (by simp), by simp, fun n hn => ?_, ?_, ?_⟩
  · simp [State.record_writeBalance_ne _ _ hn]
  · exact State.noticed_congr (s := (s.endOp g).writeBalance slot v) (by simp) rfl
      (State.noticed_postLow slot op.record v (by simp))
  · apply State.eq_of_fields <;> simp

end Sys2Proof.Machine
end

