-- ==== Sys2Proof/Laws/Port.lean ====
section
/-! SUPPORT. Select periods of the management port: what a command block does to a port that takes it. -/

namespace Sys2Proof.Machine

theorem State.openSelect_eq (s : State) : s.openSelect = { s.wake with cmd := { s.cmd with selected := true, sdo := [] } } := rfl

@[simp] theorem State.openSelect_cmd (s : State) : s.openSelect.cmd = { s.cmd with selected := true, sdo := [] } := rfl

@[simp] theorem State.openSelect_power (s : State) : s.openSelect.power = s.wake.power := rfl

@[simp] theorem State.openSelect_isReady (s : State) : s.openSelect.isReady = s.isReady := by
  show s.wake.isReady = _
  simp

@[simp] theorem State.openSelect_isBusy (s : State) : s.openSelect.isBusy = s.isBusy := rfl

/-- A powered port with no RESET armed: the block acts on the state of the open select period. -/
theorem State.command_unarmed {s : State} (op : Byte) (take : State → State) (hp : s.powered = true)
    (ha : s.cmd.armed = false) : s.command op take = (s.openSelect.screened op take).closeSelect := by
  simp [State.command, State.blockPeriod, hp, ha]

/-- R155: a port that takes the command. -/
theorem State.command_open {s : State} (op : Byte) (take : State → State) (h : s.portOpen) :
    s.command op take = (take s.openSelect).closeSelect := by
  obtain ⟨hp, hr, hb, ha⟩ := h
  rw [State.command_unarmed op take hp ha]
  simp [State.screened, hr, hb]

/-- A command that is answered at once. -/
theorem State.reply_closeSelect (s : State) (op : Byte) (st : Status) (body : MgmtBody) :
    (s.openSelect.reply op st body).closeSelect = s.replied op st body := rfl

/-- R153: an answer given at once goes to the immediate slot in BUSY, else to REPLY. -/
theorem State.answerAtOnce_closeSelect (s : State) (op : Byte) (st : Status) (body : MgmtBody) :
    (s.openSelect.answerAtOnce op st body).closeSelect =
      if s.isBusy = true then
        { s.wake with cmd := { s.cmd with immediate := some ⟨op, st, body⟩, selected := false, sdo := [] } }
      else s.replied op st body := by
  unfold State.answerAtOnce
  rw [State.openSelect_isBusy]
  cases s.isBusy <;> rfl

/-- R155: in STARTING, and in BUSY, a command other than POLL is answered so. -/
theorem State.command_notTaken {s : State} (op : Byte) (take : State → State) (hp : s.powered = true)
    (ha : s.cmd.armed = false) (ho : op ≠ 0) :
    (s.isReady = false → s.command op take = (s.openSelect.answerAtOnce op .starting .bare).closeSelect) ∧
      (s.isReady = true → s.isBusy = true →
        s.command op take = (s.openSelect.answerAtOnce op .busy .bare).closeSelect) := by
  have h : (op != 0) = true := bne_iff_ne.2 ho
  rw [State.command_unarmed op take hp ha]
  constructor
  · intro hr
    simp only [State.screened, h, State.openSelect_isReady, hr, Bool.not_false, Bool.and_self, if_true]
  · intro hr hb
    simp only [State.screened, h, State.openSelect_isReady, hr, State.openSelect_isBusy, hb, Bool.not_true, Bool.false_and,
      Bool.and_self, Bool.false_eq_true, if_true, if_false]

/-- A command that makes the unit BUSY. -/
theorem State.busy_closeSelect (s : State) (job : Job) : (s.openSelect.busy job).closeSelect = s.begun job := rfl

@[simp] theorem State.replied_frame (s : State) (op : Byte) (st : Status) (body : MgmtBody) :
    (s.replied op st body).accounts = s.accounts ∧ (s.replied op st body).index = s.index ∧
      (s.replied op st body).holds = s.holds ∧ (s.replied op st body).tariffs = s.tariffs ∧
      (s.replied op st body).transit = s.transit ∧ (s.replied op st body).links = s.links ∧
      (s.replied op st body).router = s.router ∧ (s.replied op st body).engines = s.engines ∧
      (s.replied op st body).allocPtr = s.allocPtr ∧ (s.replied op st body).deadlines = s.deadlines ∧
      (s.replied op st body).timebase = s.timebase ∧ (s.replied op st body).indexUnit = s.indexUnit ∧
      (s.replied op st body).check = s.check ∧ (s.replied op st body).notices = s.notices ∧
      (s.replied op st body).pending = s.pending ∧ (∀ n, (s.replied op st body).record n = s.record n) ∧
      (∀ n, (s.replied op st body).hold n = s.hold n) ∧ (∀ n, (s.replied op st body).tariff n = s.tariff n) ∧
      (∀ n, (s.replied op st body).way n = s.way n) ∧ (∀ l, (s.replied op st body).link l = s.link l) ∧
      (∀ g, (s.replied op st body).engine g = s.engine g) ∧ (s.replied op st body).power = s.wake.power ∧
      (s.replied op st body).isReady = s.isReady := by
  have h : (s.replied op st body).isReady = s.wake.isReady := rfl
  refine ⟨?_, ?_, ?_, ?_, ?_, ?_, ?_, ?_, ?_, ?_, ?_, ?_, ?_, ?_, ?_, ?_, ?_, ?_, ?_, ?_, ?_, rfl, by rw [h, State.wake_isReady]⟩ <;>
    simp [State.replied, State.record, State.hold, State.tariff, State.way, State.link, State.engine]

@[simp] theorem State.begun_frame (s : State) (job : Job) :
    (s.begun job).accounts = s.accounts ∧ (s.begun job).index = s.index ∧ (s.begun job).holds = s.holds ∧
      (s.begun job).tariffs = s.tariffs ∧ (s.begun job).transit = s.transit ∧ (s.begun job).links = s.links ∧
      (s.begun job).router = s.router ∧ (s.begun job).engines = s.engines ∧ (s.begun job).allocPtr = s.allocPtr ∧
      (s.begun job).deadlines = s.deadlines ∧ (s.begun job).timebase = s.timebase ∧
      (s.begun job).indexUnit = s.indexUnit ∧ (s.begun job).check = s.check ∧ (s.begun job).notices = s.notices ∧
      (s.begun job).pending = s.pending ∧ (∀ n, (s.begun job).record n = s.record n) ∧
      (∀ n, (s.begun job).hold n = s.hold n) ∧ (∀ n, (s.begun job).tariff n = s.tariff n) ∧
      (∀ n, (s.begun job).way n = s.way n) ∧ (∀ l, (s.begun job).link l = s.link l) ∧
      (∀ g, (s.begun job).engine g = s.engine g) ∧ (s.begun job).power = s.wake.power ∧
      (s.begun job).isReady = s.isReady := by
  have h : (s.begun job).isReady = s.wake.isReady := rfl
  refine ⟨?_, ?_, ?_, ?_, ?_, ?_, ?_, ?_, ?_, ?_, ?_, ?_, ?_, ?_, ?_, ?_, ?_, ?_, ?_, ?_, ?_, rfl, by rw [h, State.wake_isReady]⟩ <;>
    simp [State.begun, State.record, State.hold, State.tariff, State.way, State.link, State.engine]

/-- R27: a request placed in a queue that has room. -/
theorem State.placeMgmt_room {s : State} {g : Lane} (m : MgmtReq) (h : (s.engine g).queue.length < 8) :
    s.placeMgmt g m = s.enqueue g (.mgmt m) := by
  simp [State.placeMgmt, State.queueRoom, h]

/-! ### Reads (R153, R154) -/

/-- A read touches the command unit alone. -/
theorem State.readTaken_frame (s : State) : s.readTaken = { s with cmd := s.readTaken.cmd } := by
  unfold State.readTaken
  dsimp only
  split <;> rfl

theorem State.readOut_frame (s : State) : s.readOut = { s with cmd := s.readOut.cmd } :=
  State.readTaken_frame (s.shiftOut s.readBlock.bytes.length)

theorem State.readPeriod_frame (s : State) (rest : List Byte) :
    s.readPeriod rest = { s with cmd := (s.readPeriod rest).cmd } := by
  unfold State.readPeriod
  dsimp only
  split
  · exact State.readTaken_frame (s.shiftOut rest.length)
  · rfl

theorem State.readOut_power (s : State) : s.readOut.power = s.power := by rw [State.readOut_frame]

theorem State.readPeriod_power (s : State) (rest : List Byte) : (s.readPeriod rest).power = s.power := by
  rw [State.readPeriod_frame]

end Sys2Proof.Machine
end

