-- ==== Sys2Proof/Laws/Runs.lean ====
section
/-! SUPPORT. An account command from its block to its answer (R26 to R32): the block is taken, the request is placed, an
idle engine takes it, and its completion answers. -/

namespace Sys2Proof.Machine

/-- A command that places a request at an engine whose queue has room. -/
theorem State.startAccount_closeSelect {s : State} {g : Lane} (m : MgmtReq) (h : (s.engine g).queue.length < 8) :
    (s.openSelect.startAccount g m).closeSelect = (s.begun .account).enqueue g (.mgmt m) := by
  unfold State.startAccount
  rw [State.placeMgmt_room m (by simpa using h)]
  apply State.eq_of_fields <;>
    simp [State.enqueue, State.closeSelect, State.begun, State.busy, State.modifyEngine, State.setEngine] <;> rfl

/-- R30: what an engine reads depends on the stores alone. -/
theorem State.readFor_congr {s t : State} (w : Work) (h1 : t.accounts = s.accounts) (h2 : t.holds = s.holds)
    (h3 : t.tariffs = s.tariffs) (h4 : t.transit = s.transit) (h5 : t.timebase = s.timebase) :
    t.readFor w = s.readFor w := by
  simp [State.readFor, State.workSlot, State.record, State.hold, State.tariff, h1, h2, h3, h4, h5]

/-- What an engine reads for a management request. -/
abbrev State.readMgmt (s : State) (m : MgmtReq) : Operation := s.readFor (.request (.mgmt m))

/-- A request by handle reads the record of its slot. -/
theorem State.readMgmt_record {s : State} {m : MgmtReq} {n : Nat} (hm : m.ticket? = none) (hn : m.slot = n) :
    (s.readMgmt m).record = s.record n := by
  simp [State.readFor, State.workSlot, Work.ticket?, Request.ticket?, hm, Request.slot, hn]

/-- A request by ticket reads the entry and the record of its account. -/
theorem State.readMgmt_ticket {s : State} {m : MgmtReq} {t : Ticket} (hm : m.ticket? = some t) :
    (s.readMgmt m).entry = s.hold t.entry.toNat ∧ (s.readMgmt m).record = s.record (s.hold t.entry.toNat).slot := by
  simp [State.readFor, State.workSlot, Work.ticket?, Request.ticket?, hm]

/-- The three steps of an account command: the state at the completion has the request in progress, and ending the
operation there leaves what the block left. -/
theorem AccountCommandRuns.intro {c : Instr} {m : MgmtReq} {s : State} {g : Lane} (opcode : Byte) (take : State → State)
    (hp : s.portOpen) (hf : s.engineFree g) (hc : exec c s = .next (s.command opcode take))
    (ht : take s.openSelect = s.openSelect.startAccount g m) :
    ∃ t2 : State, t2.mgmtOp g = some (s.readMgmt m, m) ∧ t2.endOp g = s.begun .account ∧
      AccountCommandRuns c g s (t2.completeMgmt g (s.readMgmt m) m) := by
  obtain ⟨he, hw⟩ := hf
  obtain ⟨t1, ht1⟩ : ∃ t1, t1 = (s.begun .account).enqueue g (.mgmt m) := ⟨_, rfl⟩
  have hx : exec c s = .next t1 := by
    rw [hc, State.command_open _ _ hp, ht, State.startAccount_closeSelect m (by rw [he]; decide), ht1]
  have e1 : t1.engine g = { Engine.cleared with queue := [.mgmt m] } := by
    rw [ht1]
    simp [State.enqueue, he, Engine.cleared]
  obtain ⟨t2, ht2⟩ : ∃ t2, t2 = t1.setEngine g { Engine.cleared with op := some (s.readMgmt m) } := ⟨_, rfl⟩
  have w1 : t1.working = true := by
    rw [ht1]
    simp only [State.enqueue_frame]
    exact hw
  have r1 : t1.readFor (.request (.mgmt m)) = s.readMgmt m := by
    rw [ht1]
    exact State.readFor_congr _ (by simp) (by simp) (by simp) (by simp) (by simp)
  have htake : exec (.engineTakeWork g) t1 = .next t2 := by
    simp only [exec, execEngineTakeWork, w1, e1]
    simp only [Engine.cleared, Engine.nextWork, Option.isNone_none, Bool.and_self, if_true]
    rw [ht2, r1]
    rfl
  have hop : t2.mgmtOp g = some (s.readMgmt m, m) := by
    rw [ht2]
    simp [State.mgmtOp]
    rfl
  refine ⟨t2, hop, ?_, t1, t2, hx, htake, ?_⟩
  · rw [ht2, ht1]
    apply State.eq_of_fields <;> simp
    simp [State.endOp, State.modifyEngine, State.setEngine, State.enqueue, State.engine, Four.set_set]
    have h : Engine.cleared = s.engines.get g := he.symm
    show s.engines.set g Engine.cleared = _
    rw [h, Four.set_get_same]
  · simp only [exec, execManagementRequestComplete, hop]

/-- R33: what the verification of a record has written and posted when an account command's own part begins. -/
abbrev State.notedFor (s : State) (slot : Nat) : State :=
  (s.begun .account).noteMismatch slot (!(s.record slot).verifies) .operation

theorem State.notedFor_verified {s : State} {slot : Nat} (h : (s.record slot).verifies = true) :
    s.notedFor slot = s.begun .account := by
  simp [State.notedFor, h, State.noteMismatch_false]

/-- An account command that answers and writes nothing of its own. -/
theorem State.onlyAnswers_reply (s : State) (slot : Nat) (opcode : Byte) (st : Status) (body : MgmtBody) :
    s.onlyAnswers ((s.notedFor slot).reply opcode st body) slot opcode st body := by
  unfold State.onlyAnswers
  dsimp only
  refine ⟨by simp [State.record_noteMismatch_same], fun n hn => by simp [State.record_noteMismatch_ne _ _ _ hn], ?_,
    fun h => ?_, ?_⟩
  · have h := State.noticed_noteMismatch (s.begun .account) slot (!(s.record slot).verifies) .operation
    simp only [State.begun_frame, Bool.not_eq_true'] at h
    exact State.noticed_congr (by simp) (by simp) h
  · rw [State.notedFor_verified h]
    rfl
  · apply State.eq_of_fields <;> simp [State.reply] <;> rfl

/-- R7: an account command by handle whose handle is refused. -/
theorem AccountCommandRuns.refused {c : Instr} {m : MgmtReq} {s : State} {h : Handle} {st : Status} (opcode : Byte)
    (take act : State → State) (hp : s.portOpen) (hf : s.engineFree (laneOf h.slot.toNat))
    (hs : handleTest h (s.record h.slot.toNat) = some st) (hc : exec c s = .next (s.command opcode take))
    (ht : take s.openSelect = s.openSelect.startAccount (laneOf h.slot.toNat) m) (hm : m.ticket? = none)
    (hn : m.slot = h.slot.toNat)
    (ha : ∀ t : State, t.endOp (laneOf h.slot.toNat) = s.begun .account →
      t.completeMgmt (laneOf h.slot.toNat) (s.readMgmt m) m =
        t.completeByHandle (laneOf h.slot.toNat) (s.readMgmt m) opcode h act) :
    AccountCommandRuns c (laneOf h.slot.toNat) s (s.replied opcode st .bare) := by
  obtain ⟨t2, _, h2, h3⟩ := AccountCommandRuns.intro opcode take hp hf hc ht
  have hr := State.readMgmt_record (s := s) hm hn
  rw [ha t2 h2] at h3
  unfold State.completeByHandle at h3
  rw [hr, hs, h2] at h3
  exact h3

/-- An account command by a current handle: its own part acts on what the block and the verification left. -/
theorem AccountCommandRuns.current {c : Instr} {m : MgmtReq} {s : State} {h : Handle} (opcode : Byte)
    (take act : State → State) (hp : s.portOpen) (hf : s.engineFree (laneOf h.slot.toNat))
    (hs : handleTest h (s.record h.slot.toNat) = none) (hc : exec c s = .next (s.command opcode take))
    (ht : take s.openSelect = s.openSelect.startAccount (laneOf h.slot.toNat) m) (hm : m.ticket? = none)
    (hn : m.slot = h.slot.toNat)
    (ha : ∀ t : State, t.endOp (laneOf h.slot.toNat) = s.begun .account →
      t.completeMgmt (laneOf h.slot.toNat) (s.readMgmt m) m =
        t.completeByHandle (laneOf h.slot.toNat) (s.readMgmt m) opcode h act) :
    AccountCommandRuns c (laneOf h.slot.toNat) s (act (s.notedFor h.slot.toNat)) := by
  obtain ⟨t2, _, h2, h3⟩ := AccountCommandRuns.intro opcode take hp hf hc ht
  have hr := State.readMgmt_record (s := s) hm hn
  rw [ha t2 h2] at h3
  unfold State.completeByHandle State.endVerified at h3
  rw [hr, hs, h2] at h3
  exact h3

/-- An account command by a current ticket. -/
theorem AccountCommandRuns.currentTicket {c : Instr} {m : MgmtReq} {s : State} {t : Ticket} (opcode : Byte)
    (take act : State → State) (hp : s.portOpen) (hf : s.engineFree (laneOf (s.hold t.entry.toNat).slot))
    (hcur : ticketCurrent t (s.hold t.entry.toNat) = true) (hc : exec c s = .next (s.command opcode take))
    (ht : take s.openSelect = s.openSelect.startAccount (laneOf (s.hold t.entry.toNat).slot) m)
    (hm : m.ticket? = some t)
    (ha : ∀ x : State, x.completeMgmt (laneOf (s.hold t.entry.toNat).slot) (s.readMgmt m) m =
      x.completeByTicket (laneOf (s.hold t.entry.toNat).slot) (s.readMgmt m) opcode t act) :
    AccountCommandRuns c (laneOf (s.hold t.entry.toNat).slot) s (act (s.notedFor (s.hold t.entry.toNat).slot)) := by
  obtain ⟨t2, _, h2, h3⟩ := AccountCommandRuns.intro opcode take hp hf hc ht
  have hr := State.readMgmt_ticket (s := s) hm
  rw [ha] at h3
  unfold State.completeByTicket State.endVerified at h3
  have hg : ticketOfGroup (laneOf (s.hold t.entry.toNat).slot) t (s.hold t.entry.toNat) = true := by
    simp [ticketOfGroup, hcur]
  rw [hr.1, hr.2, hg, h2] at h3
  exact h3

/-- An account command by handle on a sound account: its own part acts on what the block left. -/
theorem AccountCommandRuns.byHandle {c : Instr} {m : MgmtReq} {s : State} {h : Handle} (opcode : Byte)
    (take act : State → State) (hp : s.portOpen) (hf : s.engineFree (laneOf h.slot.toNat)) (hs : s.soundAccount h)
    (hc : exec c s = .next (s.command opcode take))
    (ht : take s.openSelect = s.openSelect.startAccount (laneOf h.slot.toNat) m) (hm : m.ticket? = none)
    (hn : m.slot = h.slot.toNat)
    (ha : ∀ t : State, t.endOp (laneOf h.slot.toNat) = s.begun .account →
      t.completeMgmt (laneOf h.slot.toNat) (s.readMgmt m) m =
        t.completeByHandle (laneOf h.slot.toNat) (s.readMgmt m) opcode h act) :
    AccountCommandRuns c (laneOf h.slot.toNat) s (act (s.begun .account)) := by
  have h1 := AccountCommandRuns.current opcode take act hp hf hs.1 hc ht hm hn ha
  rwa [State.notedFor_verified hs.2.2] at h1

/-- An account command by a current ticket of a sound account. -/
theorem AccountCommandRuns.byTicket {c : Instr} {m : MgmtReq} {s : State} {t : Ticket} (opcode : Byte)
    (take act : State → State) (hp : s.portOpen) (hf : s.engineFree (laneOf (s.hold t.entry.toNat).slot))
    (hcur : ticketCurrent t (s.hold t.entry.toNat) = true) (hs : (s.record (s.hold t.entry.toNat).slot).verifies = true)
    (hc : exec c s = .next (s.command opcode take))
    (ht : take s.openSelect = s.openSelect.startAccount (laneOf (s.hold t.entry.toNat).slot) m)
    (hm : m.ticket? = some t)
    (ha : ∀ x : State, x.completeMgmt (laneOf (s.hold t.entry.toNat).slot) (s.readMgmt m) m =
      x.completeByTicket (laneOf (s.hold t.entry.toNat).slot) (s.readMgmt m) opcode t act) :
    AccountCommandRuns c (laneOf (s.hold t.entry.toNat).slot) s (act (s.begun .account)) := by
  have h1 := AccountCommandRuns.currentTicket opcode take act hp hf hcur hc ht hm ha
  rwa [State.notedFor_verified hs] at h1

end Sys2Proof.Machine
end

