-- ==== Sys2Proof/Laws/Slices.lean ====
section
/-! SUPPORT. Slices of the short check: which slot of a group is claimed next, and what a claim changes. -/

namespace Sys2Proof.Machine

/-- Only the states of the records count. -/
theorem nextChecked_congr {s t : State} (h : ∀ n, (t.record n).state = (s.record n).state) (bound : Nat) :
    ∀ fuel n, nextChecked t bound fuel n = nextChecked s bound fuel n := by
  intro fuel
  induction fuel with
  | zero => intro n; rfl
  | succ fuel ih =>
    intro n
    simp only [nextChecked, h, ih]

/-- The first slot of a group, stepping by four, that is not FREE. -/
theorem nextChecked_first {s : State} {bound : Nat} : ∀ (fuel n k : Nat), k < fuel → n + 4 * k < bound →
    (s.record (n + 4 * k)).state ≠ .free → (∀ j, j < k → (s.record (n + 4 * j)).state = .free) →
    nextChecked s bound fuel n = some (n + 4 * k) := by
  intro fuel
  induction fuel with
  | zero => intro n k h; omega
  | succ fuel ih =>
    intro n k h1 h2 h3 h4
    have hn : n < bound := by omega
    simp only [nextChecked, hn, if_true]
    cases k with
    | zero =>
      simp only [Nat.mul_zero, Nat.add_zero] at h3 ⊢
      simp [h3]
    | succ k =>
      have h0 := h4 0 (by omega)
      have e : n + 4 * (k + 1) = n + 4 + 4 * k := by omega
      rw [e] at h2 h3 ⊢
      simp only [Nat.mul_zero, Nat.add_zero] at h0
      simp only [h0, beq_self_eq_true, if_true]
      refine ih (n + 4) k (by omega) h2 h3 fun j hj => ?_
      have := h4 (j + 1) (by omega)
      rwa [show n + 4 * (j + 1) = n + 4 + 4 * j by omega] at this

/-- Where every slot of a group is FREE, none is found. -/
theorem nextChecked_none {s : State} {bound : Nat} : ∀ (fuel n : Nat),
    (∀ k, k < fuel → n + 4 * k < bound → (s.record (n + 4 * k)).state = .free) → nextChecked s bound fuel n = none := by
  intro fuel
  induction fuel with
  | zero => exact fun _ _ => rfl
  | succ fuel ih =>
    intro n h
    simp only [nextChecked]
    split
    · rename_i hn
      have h0 := h 0 (by omega) (by omega)
      simp only [Nat.mul_zero, Nat.add_zero] at h0
      simp only [h0, beq_self_eq_true, if_true]
      refine ih (n + 4) fun k hk hb => ?_
      have := h (k + 1) (by omega) (by omega)
      rwa [show n + 4 * (k + 1) = n + 4 + 4 * k by omega] at this
    · rfl

theorem nextChecked_ne_none {s : State} {bound : Nat} : ∀ (fuel n k : Nat), k < fuel → n + 4 * k < bound →
    (s.record (n + 4 * k)).state ≠ .free → nextChecked s bound fuel n ≠ none := by
  intro fuel
  induction fuel with
  | zero => intro n k h; omega
  | succ fuel ih =>
    intro n k h1 h2 h3
    have hn : n < bound := by omega
    simp only [nextChecked, hn, if_true]
    split
    · rename_i hf
      cases k with
      | zero =>
        simp only [Nat.mul_zero, Nat.add_zero] at h3
        exact absurd (by simpa using hf) h3
      | succ k =>
        have e : n + 4 * (k + 1) = n + 4 + 4 * k := by omega
        rw [e] at h2 h3
        exact ih (n + 4) k (by omega) h2 h3
    · simp

/-- A slot that is found is one of the group's, and not FREE. -/
theorem nextChecked_some {s : State} {bound : Nat} : ∀ (fuel n m : Nat), nextChecked s bound fuel n = some m →
    (s.record m).state ≠ .free ∧ m < bound ∧ ∃ k, m = n + 4 * k := by
  intro fuel
  induction fuel with
  | zero =>
    intro n m h
    simp [nextChecked] at h
  | succ fuel ih =>
    intro n m h
    simp only [nextChecked] at h
    split at h
    · split at h
      · obtain ⟨h1, h2, k, hk⟩ := ih _ _ h
        exact ⟨h1, h2, k + 1, by omega⟩
      · rename_i hb hf
        simp only [Option.some.injEq] at h
        subst h
        exact ⟨by simpa using hf, hb, 0, rfl⟩
    · simp at h

/-- A claim changes one engine's check alone. -/
theorem State.claimNext_frame (s : State) (sl : Slice) (g : Lane) :
    (s.claimNext sl g).2 = { s with engines := (s.claimNext sl g).2.engines } ∧
      (∀ m, (s.claimNext sl g).2.engine m = { s.engine m with check := ((s.claimNext sl g).2.engine m).check }) ∧
      (∀ m, m ≠ g → (s.claimNext sl g).2.engine m = s.engine m) ∧
      ((s.claimNext sl g).2.engine g).check =
        (match nextChecked s (sl.first + 64) 16 (sl.parts.get g).next with
          | some n => some n
          | none => (s.engine g).check) ∧
      (s.claimNext sl g).1.first = sl.first ∧ (∀ m, m ≠ g → (s.claimNext sl g).1.parts.get m = sl.parts.get m) ∧
      ((s.claimNext sl g).1.parts.get g).inHand = (nextChecked s (sl.first + 64) 16 (sl.parts.get g).next).isSome := by
  unfold State.claimNext
  dsimp only
  cases h : nextChecked s (sl.first + 64) 16 (sl.parts.get g).next with
  | some n =>
    refine ⟨by apply State.eq_of_fields <;> simp, fun m => ?_, fun m hm => State.engine_modifyEngine_ne _ _ hm, by simp, rfl,
      fun m hm => Four.get_set_ne _ _ hm, by simp⟩
    by_cases hm : m = g
    · subst hm
      simp
    · simp [State.engine_modifyEngine_ne _ _ hm]
  | none =>
    exact ⟨rfl, fun m => rfl, fun m _ => rfl, rfl, rfl, fun m hm => Four.get_set_ne _ _ hm, by simp⟩

/-- A slice touches the check unit and the engines' check claims alone. -/
def checksOnly (s t : State) : Prop :=
  t = { s with check := t.check, engines := t.engines } ∧
    ∀ m, t.engine m = { s.engine m with check := (t.engine m).check }

theorem checksOnly_refl (s : State) : checksOnly s s := ⟨rfl, fun _ => rfl⟩

theorem checksOnly_check (s : State) (c : CheckUnit) : checksOnly s { s with check := c } := ⟨rfl, fun _ => rfl⟩

theorem checksOnly_trans {s t u : State} (h1 : checksOnly s t) (h2 : checksOnly t u) : checksOnly s u := by
  refine ⟨?_, fun m => ?_⟩
  · rw [h2.1, h1.1]
  · rw [h2.2 m, h1.2 m]

theorem checksOnly_claimNext (s : State) (sl : Slice) (g : Lane) : checksOnly s (s.claimNext sl g).2 := by
  have h := State.claimNext_frame s sl g
  refine ⟨?_, h.2.1⟩
  conv => lhs; rw [h.1]
  conv => rhs; rw [show (s.claimNext sl g).2.check = s.check by rw [h.1]]

theorem State.record_of_checksOnly {s t : State} (h : checksOnly s t) (n : Nat) : t.record n = s.record n := by
  rw [h.1]
  rfl

theorem Slice.done_iff (sl : Slice) : sl.done = true ↔ ∀ g, (sl.parts.get g).inHand = false := by
  unfold Slice.done
  simp only [Bool.not_eq_true', Bool.or_eq_false_iff]
  constructor
  · rintro ⟨⟨⟨h0, h1⟩, h2⟩, h3⟩ g
    match g with
    | 0 => exact h0
    | 1 => exact h1
    | 2 => exact h2
    | 3 => exact h3
  · exact fun h => ⟨⟨⟨h 0, h 1⟩, h 2⟩, h 3⟩

/-- R135, R136: what the beginning of a slice claims in each group. -/
theorem State.beginSlice_spec (s : State) :
    checksOnly s s.beginSlice ∧ s.beginSlice.check.cursor = (s.check.cursor + 64) % 4096 ∧
      s.beginSlice.check.timer = s.check.timer ∧ s.beginSlice.check.owed = s.check.owed ∧
      (∀ g : Lane, (s.beginSlice.engine g).check =
        (match nextChecked s (s.check.cursor + 64) 16 (s.check.cursor + g.val) with
          | some n => some n
          | none => (s.engine g).check)) ∧
      (s.beginSlice.check.slice = none ↔
        ∀ g : Lane, nextChecked s (s.check.cursor + 64) 16 (s.check.cursor + g.val) = none) := by
  obtain ⟨s0, hs0⟩ : ∃ s0 : State, s0 = { s with check := { s.check with cursor := (s.check.cursor + 64) % 4096 } } := ⟨_, rfl⟩
  obtain ⟨sl, hsl⟩ : ∃ sl : Slice, sl = { first := s.check.cursor, parts := ⟨⟨s.check.cursor, false⟩,
    ⟨s.check.cursor + 1, false⟩, ⟨s.check.cursor + 2, false⟩, ⟨s.check.cursor + 3, false⟩⟩ } := ⟨_, rfl⟩
  obtain ⟨c0, hc0⟩ : ∃ c0, c0 = s0.claimNext sl 0 := ⟨_, rfl⟩
  obtain ⟨c1, hc1⟩ : ∃ c1, c1 = c0.2.claimNext c0.1 1 := ⟨_, rfl⟩
  obtain ⟨c2, hc2⟩ : ∃ c2, c2 = c1.2.claimNext c1.1 2 := ⟨_, rfl⟩
  obtain ⟨c3, hc3⟩ : ∃ c3, c3 = c2.2.claimNext c2.1 3 := ⟨_, rfl⟩
  have hb : s.beginSlice = c3.2.withSlice c3.1 := by
    subst hc3 hc2 hc1 hc0 hsl hs0
    rfl
  have f0 := State.claimNext_frame s0 sl 0
  have f1 := State.claimNext_frame c0.2 c0.1 1
  have f2 := State.claimNext_frame c1.2 c1.1 2
  have f3 := State.claimNext_frame c2.2 c2.1 3
  rw [← hc0] at f0
  rw [← hc1] at f1
  rw [← hc2] at f2
  rw [← hc3] at f3
  have k0 : checksOnly s s0 := hs0 ▸ checksOnly_check s _
  have k1 : checksOnly s c0.2 := checksOnly_trans k0 (hc0 ▸ checksOnly_claimNext s0 sl 0)
  have k2 : checksOnly s c1.2 := checksOnly_trans k1 (hc1 ▸ checksOnly_claimNext c0.2 c0.1 1)
  have k3 : checksOnly s c2.2 := checksOnly_trans k2 (hc2 ▸ checksOnly_claimNext c1.2 c1.1 2)
  have k4 : checksOnly s c3.2 := checksOnly_trans k3 (hc3 ▸ checksOnly_claimNext c2.2 c2.1 3)
  have hchk : c3.2.check = s0.check := by
    rw [f3.1]
    show c2.2.check = _
    rw [f2.1]
    show c1.2.check = _
    rw [f1.1]
    show c0.2.check = _
    rw [f0.1]
  have hcheck : s0.check = { s.check with cursor := (s.check.cursor + 64) % 4096 } := by rw [hs0]
  have heng : ∀ g, s.beginSlice.engine g = c3.2.engine g := fun g => by rw [hb]; rfl
  have r : ∀ {t : State}, checksOnly s t → ∀ b f n, nextChecked t b f n = nextChecked s b f n := fun h b f n =>
    nextChecked_congr (fun m => by rw [State.record_of_checksOnly h]) b f n
  refine ⟨?_, ?_, ?_, ?_, fun g => ?_, ?_⟩
  · rw [hb]
    exact checksOnly_trans k4 (checksOnly_check _ _)
  · rw [hb]
    show c3.2.check.cursor = _
    rw [hchk, hcheck]
  · rw [hb]
    show c3.2.check.timer = _
    rw [hchk, hcheck]
  · rw [hb]
    show c3.2.check.owed = _
    rw [hchk, hcheck]
  · rw [heng]
    have he0 : ∀ m, s0.engine m = s.engine m := fun m => by rw [hs0]; rfl
    match g with
    | 0 =>
      rw [f3.2.2.1 0 (by decide), f2.2.2.1 0 (by decide), f1.2.2.1 0 (by decide), f0.2.2.2.1, r k0, he0, hsl]
      rfl
    | 1 =>
      rw [f3.2.2.1 1 (by decide), f2.2.2.1 1 (by decide), f1.2.2.2.1, r k1, f0.2.2.1 1 (by decide), he0,
        f0.2.2.2.2.2.1 1 (by decide), f0.2.2.2.2.1, hsl]
      rfl
    | 2 =>
      rw [f3.2.2.1 2 (by decide), f2.2.2.2.1, r k2, f1.2.2.1 2 (by decide), f0.2.2.1 2 (by decide), he0,
        f1.2.2.2.2.2.1 2 (by decide), f0.2.2.2.2.2.1 2 (by decide), f1.2.2.2.2.1, f0.2.2.2.2.1, hsl]
      rfl
    | 3 =>
      rw [f3.2.2.2.1, r k3, f2.2.2.1 3 (by decide), f1.2.2.1 3 (by decide), f0.2.2.1 3 (by decide), he0,
        f2.2.2.2.2.2.1 3 (by decide), f1.2.2.2.2.2.1 3 (by decide), f0.2.2.2.2.2.1 3 (by decide), f2.2.2.2.2.1, f1.2.2.2.2.1,
        f0.2.2.2.2.1, hsl]
      rfl
  · have hsl' : s.beginSlice.check.slice = if c3.1.done then none else some c3.1 := by rw [hb]; rfl
    have p0 : (c3.1.parts.get 0).inHand = (nextChecked s (s.check.cursor + 64) 16 (s.check.cursor + (0 : Lane).val)).isSome := by
      rw [f3.2.2.2.2.2.1 0 (by decide), f2.2.2.2.2.2.1 0 (by decide), f1.2.2.2.2.2.1 0 (by decide), f0.2.2.2.2.2.2, r k0, hsl]
      rfl
    have p1 : (c3.1.parts.get 1).inHand = (nextChecked s (s.check.cursor + 64) 16 (s.check.cursor + (1 : Lane).val)).isSome := by
      rw [f3.2.2.2.2.2.1 1 (by decide), f2.2.2.2.2.2.1 1 (by decide), f1.2.2.2.2.2.2, r k1, f0.2.2.2.2.2.1 1 (by decide),
        f0.2.2.2.2.1, hsl]
      rfl
    have p2 : (c3.1.parts.get 2).inHand = (nextChecked s (s.check.cursor + 64) 16 (s.check.cursor + (2 : Lane).val)).isSome := by
      rw [f3.2.2.2.2.2.1 2 (by decide), f2.2.2.2.2.2.2, r k2, f1.2.2.2.2.2.1 2 (by decide),
        f0.2.2.2.2.2.1 2 (by decide), f1.2.2.2.2.1, f0.2.2.2.2.1, hsl]
      rfl
    have p3 : (c3.1.parts.get 3).inHand = (nextChecked s (s.check.cursor + 64) 16 (s.check.cursor + (3 : Lane).val)).isSome := by
      rw [f3.2.2.2.2.2.2, r k3, f2.2.2.2.2.2.1 3 (by decide), f1.2.2.2.2.2.1 3 (by decide),
        f0.2.2.2.2.2.1 3 (by decide), f2.2.2.2.2.1, f1.2.2.2.2.1, f0.2.2.2.2.1, hsl]
      rfl
    have hall : ∀ g : Lane, (c3.1.parts.get g).inHand =
        (nextChecked s (s.check.cursor + 64) 16 (s.check.cursor + g.val)).isSome := by
      intro g
      match g with
      | 0 => exact p0
      | 1 => exact p1
      | 2 => exact p2
      | 3 => exact p3
    rw [hsl']
    have hdone := Slice.done_iff c3.1
    simp only [hall, Option.isSome_eq_false_iff, Option.isNone_iff_eq_none] at hdone
    rw [← hdone]
    cases c3.1.done <;> simp

theorem State.check_claimNext (s : State) (sl : Slice) (g : Lane) : (s.claimNext sl g).2.check = s.check := by
  rw [(State.claimNext_frame s sl g).1]

/-- The beginning of a slice changes of the check unit the cursor and the slice. -/
theorem State.check_beginSlice (s : State) :
    s.beginSlice.check = { s.check with cursor := s.beginSlice.check.cursor, slice := s.beginSlice.check.slice } := by
  simp only [State.beginSlice, State.withSlice, State.check_claimNext]

/-- R135, R136: the beginning of a slice, said of the slots. -/
theorem State.sliceBegun_beginSlice (s : State) (h1 : s.check.cursor % 64 = 0) (h2 : s.check.cursor ≤ 4032) :
    s.sliceBegun s.beginSlice := by
  have h := State.beginSlice_spec s
  have hlane : ∀ n g, laneOf n = g → n % 4 = g.val := fun n g hg => by
    rw [← hg]
    rfl
  have hnone : ∀ g : Lane, (∀ n, s.check.cursor ≤ n → n < s.check.cursor + 64 → laneOf n = g →
      (s.record n).state = .free) → nextChecked s (s.check.cursor + 64) 16 (s.check.cursor + g.val) = none := fun g hf =>
    nextChecked_none 16 _ fun k _ hb => hf _ (by omega) hb (Fin.ext (by
      have := g.isLt
      show (s.check.cursor + g.val + 4 * k) % 4 = g.val
      omega))
  refine ⟨?_, fun g n h3 h4 h5 h6 h7 => ?_, fun g hf => ?_, ?_⟩
  · rw [h.2.1]
    split <;> omega
  · rw [h.2.2.2.2.1 g]
    have hg := hlane n g h5
    have hgl := g.isLt
    obtain ⟨k, hk⟩ : ∃ k, n = s.check.cursor + g.val + 4 * k := ⟨(n - s.check.cursor) / 4, by omega⟩
    rw [nextChecked_first (s := s) (bound := s.check.cursor + 64) 16 (s.check.cursor + g.val) k (by omega) (by omega)
      (by rw [← hk]; exact h6) (fun j hj => h7 _ (by omega) (by omega) (Fin.ext (by
        show (s.check.cursor + g.val + 4 * j) % 4 = g.val
        omega))), ← hk]
  · rw [h.2.2.2.2.1 g, hnone g hf]
  · rw [h.2.2.2.2.2]
    constructor
    · intro hn n h3 h4
      refine Decidable.byContradiction fun h6 => ?_
      obtain ⟨m, hm⟩ : ∃ m, nextChecked s (s.check.cursor + 64) 16 (s.check.cursor + (laneOf n).val) = some m := by
        refine Option.ne_none_iff_exists'.1 fun hx => ?_
        have hg : n % 4 = (laneOf n).val := rfl
        have key : ∀ k, n = s.check.cursor + (laneOf n).val + 4 * k → k < 16 →
            nextChecked s (s.check.cursor + 64) 16 (s.check.cursor + (laneOf n).val) ≠ none := by
          intro k hk hlt
          refine nextChecked_ne_none 16 _ k hlt (by omega) ?_
          rw [← hk]
          exact h6
        have hgl := (laneOf n).isLt
        exact key ((n - s.check.cursor) / 4) (by omega) (by omega) hx
      rw [hn] at hm
      simp at hm
    · exact fun hf g => hnone g fun n h3 h4 _ => hf n h3 h4

/-- R135: an interval expiry touches the check unit and the engines' check claims alone. -/
theorem State.intervalExpired_frame (s : State) :
    checksOnly s s.intervalExpired ∧ s.intervalExpired.check.timer = some s.cmd.interval := by
  unfold State.intervalExpired
  dsimp only
  split
  · have h := State.beginSlice_spec { s with check := { s.check with timer := some s.cmd.interval } }
    exact ⟨checksOnly_trans (checksOnly_check s _) h.1, h.2.2.1⟩
  · exact ⟨checksOnly_check s _, rfl⟩

/-- R135: an interval expiry changes of the check unit the timer, the cursor, the slice and the owed mark. -/
theorem State.check_intervalExpired (s : State) :
    s.intervalExpired.check = { s.check with
      timer := s.intervalExpired.check.timer, cursor := s.intervalExpired.check.cursor
      slice := s.intervalExpired.check.slice, owed := s.intervalExpired.check.owed } := by
  unfold State.intervalExpired
  dsimp only
  split
  · rw [State.check_beginSlice]
  · rfl

theorem State.countTimer_frame (s : State) : checksOnly s s.countTimer := by
  unfold State.countTimer
  split
  · exact checksOnly_refl s
  · split
    · exact (State.intervalExpired_frame s).1
    · exact checksOnly_check s _

/-- R135: a second in RUN or ECONOMY, of the check unit: the timer counts down, or its expiry falls. -/
theorem State.check_countTimer (s : State) :
    (s.check.timer = none → s.countTimer = s) ∧
      (∀ n, s.check.timer = some n → s.countTimer.check.timer = some (if n ≤ 1 then s.cmd.interval else n - 1)) ∧
      s.countTimer.check = { s.check with
        timer := s.countTimer.check.timer, cursor := s.countTimer.check.cursor, slice := s.countTimer.check.slice
        owed := s.countTimer.check.owed } := by
  unfold State.countTimer
  cases h : s.check.timer with
  | none => exact ⟨fun _ => rfl, nofun, rfl⟩
  | some n =>
    dsimp only
    refine ⟨nofun, fun k hk => ?_, ?_⟩
    · cases hk
      split
      · exact (State.intervalExpired_frame s).2
      · rfl
    · split
      · exact State.check_intervalExpired s
      · rfl

end Sys2Proof.Machine
end

