-- ==== Sys2Proof/Laws/Closed.lean ====
section
/-! SUPPORT. What a step can do, said once: a property of states that the atomic updates keep is kept by the commands
made of them. -/

namespace Sys2Proof.Machine

/-- R135, R136: what one update may do to the timer and the cursor of the short check: load the timer with the interval, set
it to a number of seconds to come, move the cursor on to the next slice. -/
def checkMoves (s : State) (c : CheckUnit) : Prop :=
  (c.timer = s.check.timer ∨ ∃ n, c.timer = some n ∧ (1 ≤ n ∨ n = s.cmd.interval)) ∧
    (c.cursor = s.check.cursor ∨ c.cursor = (s.check.cursor + 64) % 4096)

theorem checkMoves_same {s : State} {c : CheckUnit} (h1 : c.timer = s.check.timer) (h2 : c.cursor = s.check.cursor) :
    checkMoves s c := ⟨.inl h1, .inl h2⟩

theorem checkMoves_beginSlice (s : State) : checkMoves s s.beginSlice.check :=
  have h := State.beginSlice_spec s
  ⟨.inl h.2.2.1, .inr h.2.1⟩

theorem checkMoves_intervalExpired (s : State) : checkMoves s s.intervalExpired.check := by
  unfold State.intervalExpired
  dsimp only
  split
  · have h := State.beginSlice_spec { s with check := { s.check with timer := some s.cmd.interval } }
    exact ⟨.inr ⟨_, h.2.2.1, .inr rfl⟩, .inr h.2.1⟩
  · exact ⟨.inr ⟨_, rfl, .inr rfl⟩, .inl rfl⟩

theorem checkMoves_countTimer (s : State) : checkMoves s s.countTimer.check := by
  unfold State.countTimer
  split
  · exact checkMoves_same rfl rfl
  · split
    · exact checkMoves_intervalExpired s
    · exact ⟨.inr ⟨_, rfl, .inl (by omega)⟩, .inl rfl⟩

/-- A property of states that the atomic updates of the units keep. -/
structure Closed (P : State → Prop) : Prop where
  setRecord : ∀ s n r, P s → P (s.setRecord n r)
  setHold : ∀ s n e, P s → P (s.setHold n e)
  setTariff : ∀ s n e, P s → P (s.setTariff n e)
  setWay : ∀ s n e, P s → P (s.setWay n e)
  filterIndex : ∀ (s : State) p, P s → P { s with index := s.index.filter p }
  transit : ∀ (s : State) v, P s → P { s with transit := v }
  setEngine : ∀ s g e, e.queue.length ≤ (s.engine g).queue.length → P s → P (s.setEngine g e)
  enqueue : ∀ s g r, s.queueRoom g = true → P s → P (s.enqueue g r)
  allocPtr : ∀ (s : State) p, P s → P { s with allocPtr := p }
  indexUnit : ∀ (s : State) u, P s → P { s with indexUnit := u }
  check : ∀ (s : State) c, checkMoves s c → P s → P { s with check := c }
  cmd : ∀ (s : State) c, c.threshold = s.cmd.threshold ∧ c.interval = s.cmd.interval → P s → P { s with cmd := c }
  post : ∀ s n, P s → P (s.post n)
  answer : ∀ s o st b, P s → P (s.answer o st b)
  wake : ∀ s, P s → P s.wake
  removeDeadline : ∀ s t, P s → P (s.removeDeadline t)
  dueTest : ∀ s, P s → P s.dueTest
  insertDue : ∀ s t d o st b, P s → P ((s.insertDeadline t d).answer o st b).dueTest
  replaceDue : ∀ s t d o st b, P s → P ((s.replaceDeadline t d).answer o st b).dueTest
  rearmDue : ∀ s (list : List Ticket), P s → P (list.foldl State.rearm s).dueTest
  raise : ∀ (s : State) c es, checkMoves s c → (∀ g, (Four.get es g).queue = (s.engine g).queue) → P s →
    P ({ s with timebase := s.timebase + 1, check := c, engines := es } : State).dueTest

/-- The pins of a powered port, once it is selected. -/
theorem powered_openSelect {s : State} (h : s.powered = true) :
    s.openSelect.power.supply = true ∧ s.openSelect.power.rstLow = false := by
  simp only [State.powered, Bool.and_eq_true, Bool.not_eq_true'] at h
  show s.wake.power.supply = true ∧ s.wake.power.rstLow = false
  unfold State.wake
  split <;> exact h.1

/-- R164, R165: the mode of a chip whose port has been selected: neither STANDBY nor RETAIN, but where a wake returns
to one of them. -/
def State.awake (s : State) : Prop := (s.power.mode = .standby ∨ s.power.mode = .retain) → s.power.resume = s.power.mode

theorem awake_openSelect {s : State} (hp : s.powered = true) : s.openSelect.awake := by
  show (s.wake.power.mode = .standby ∨ s.wake.power.mode = .retain) → s.wake.power.resume = s.wake.power.mode
  unfold State.wake
  split
  · exact fun _ => rfl
  · rename_i h
    rintro (h' | h')
    · exact absurd (by rw [h']; rfl) h
    · simp [State.powered, h'] at hp

namespace Closed

variable {P : State → Prop} (hP : Closed P)
include hP

theorem modifyRecord (s : State) (n : Nat) (f : Record → Record) (h : P s) : P (s.modifyRecord n f) :=
  hP.setRecord _ _ _ h

theorem modifyEngine (s : State) (g : Lane) (f : Engine → Engine)
    (hf : (f (s.engine g)).queue.length ≤ (s.engine g).queue.length) (h : P s) : P (s.modifyEngine g f) :=
  hP.setEngine _ _ _ hf h

theorem endOp (s : State) (g : Lane) (h : P s) : P (s.endOp g) := hP.modifyEngine _ _ _ (Nat.le_refl _) h

theorem noteMismatch (s : State) (n : Nat) (b : Bool) (f : Finder) (h : P s) : P (s.noteMismatch n b f) := by
  unfold State.noteMismatch
  dsimp only
  repeat' split
  · exact h
  · exact hP.post _ _ (hP.setRecord _ _ _ h)
  · exact h

theorem writeBalance (s : State) (n : Nat) (v : Int) (h : P s) : P (s.writeBalance n v) := hP.modifyRecord _ _ _ h

theorem writeState (s : State) (n : Nat) (st : AcctState) (h : P s) : P (s.writeState n st) := hP.modifyRecord _ _ _ h

theorem postLow (s : State) (n : Nat) (r : Record) (v : Int) (h : P s) : P (s.postLow n r v) := by
  unfold State.postLow
  split
  · exact hP.post _ _ h
  · exact h

theorem writeNewBalance (s : State) (n : Nat) (r : Record) (v : Option Int) (h : P s) : P (s.writeNewBalance n r v) := by
  cases v
  · exact h
  · exact hP.postLow _ _ _ _ (hP.writeBalance _ _ _ h)

theorem completeTerminal (s : State) (g : Lane) (op : Operation) (o : Origin) (n : Nat) (b : Bool) (v : Option Int)
    (st : Status) (body : TermBody) (h : P s) : P (s.completeTerminal g op o n b v st body) :=
  hP.answer _ _ _ _ (hP.writeNewBalance _ _ _ _ (hP.noteMismatch _ _ _ _ (hP.endOp _ _ h)))

theorem dropDeadline (s : State) (g : Lane) (t : Ticket) (h : P s) : P (s.dropDeadline g t) := by
  unfold State.dropDeadline
  split
  · exact hP.removeDeadline _ _ h
  · exact hP.modifyEngine _ _ _ (Nat.le_refl _) h

theorem endHold (s : State) (g : Lane) (t : Ticket) (e : HoldEntry) (r : Record) (v : Option Int) (h : P s) :
    P (s.endHold g t e r v) := by
  unfold State.endHold
  dsimp only
  have h1 := hP.dropDeadline _ g t (hP.setHold _ t.entry.toNat (HoldEntry.freed (e.serial + 1))
    (hP.setRecord _ e.slot (recordAfterEnding (s.record e.slot) (endsClosing r t) t e.amount v) h))
  split
  · exact hP.dueTest _ (hP.indexUnit _ _ h1)
  · exact hP.dueTest _ h1

theorem chargeHold (s : State) (g : Lane) (t : Ticket) (e : HoldEntry) (r : Record) (c : Int) (h : P s) :
    P (s.chargeHold g t e r c) := by
  unfold State.chargeHold
  dsimp only
  split
  · exact hP.postLow _ _ _ _ (hP.endHold _ _ _ _ _ _ h)
  · exact hP.endHold _ _ _ _ _ _ h

theorem reply (s : State) (op : Byte) (st : Status) (b : MgmtBody) (h : P s) : P (s.reply op st b) := hP.cmd _ _ ⟨rfl, rfl⟩ h

theorem busy (s : State) (j : Job) (h : P s) : P (s.busy j) := hP.cmd _ _ ⟨rfl, rfl⟩ h

theorem placeMgmt (s : State) (g : Lane) (m : MgmtReq) (h : P s) : P (s.placeMgmt g m) := by
  unfold State.placeMgmt
  split
  · rename_i hr
    exact hP.enqueue _ _ _ hr h
  · exact hP.cmd _ _ ⟨rfl, rfl⟩ h

theorem startAccount (s : State) (g : Lane) (m : MgmtReq) (h : P s) : P (s.startAccount g m) :=
  hP.placeMgmt _ _ _ (hP.busy _ _ h)

theorem answerAtOnce (s : State) (op : Byte) (st : Status) (b : MgmtBody) (h : P s) : P (s.answerAtOnce op st b) := by
  unfold State.answerAtOnce
  split
  · exact hP.cmd _ _ ⟨rfl, rfl⟩ h
  · exact hP.reply _ _ _ _ h

theorem openSelect (s : State) (h : P s) : P s.openSelect :=
  hP.cmd s.wake _ (by simp) (hP.wake _ h)

theorem closeSelect (s : State) (h : P s) : P s.closeSelect := hP.cmd _ _ ⟨rfl, rfl⟩ h

theorem screened (s : State) (op : Byte) (take : State → State) (ht : (s.isReady = true ∨ op = 0) → P s → P (take s))
    (h : P s) : P (s.screened op take) := by
  unfold State.screened
  split
  · exact hP.answerAtOnce _ _ _ _ h
  · rename_i hr
    split
    · exact hP.answerAtOnce _ _ _ _ h
    · refine ht ?_ h
      by_cases ho : op = 0
      · exact .inr ho
      · left
        have h1 : (op != 0) = true := bne_iff_ne.2 ho
        cases hs : s.isReady
        · exact absurd (by rw [hs, h1]; rfl) hr
        · rfl

/-- A select period with a block, where a soft reset keeps the property too. -/
theorem command (hreset : ∀ x : State, x.power.supply = true → x.power.rstLow = false → P x → P x.softReset) (s : State)
    (op : Byte) (take : State → State) (ht : ∀ x, x.awake → (x.isReady = true ∨ op = 0) → P x → P (take x)) (h : P s) :
    P (s.command op take) := by
  unfold State.command State.blockPeriod
  split
  · rename_i hp
    have h1 := hP.openSelect s h
    dsimp only
    split
    · exact hreset _ (powered_openSelect hp).1 (powered_openSelect hp).2 h1
    · exact hP.closeSelect _ (hP.screened _ _ _ (ht _ (awake_openSelect hp)) h1)
  · exact h

/-! ### Commands of the engines -/

theorem execEngineTakeWork (g : Lane) {s t : State} (h : P s) (ht : execEngineTakeWork g s = .next t) : P t := by
  unfold Machine.execEngineTakeWork at ht
  injection ht with ht
  subst ht
  split
  · split
    · rename_i w e hw
      refine hP.setEngine _ _ _ ?_ h
      show e.queue.length ≤ _
      unfold Engine.nextWork at hw
      repeat' split at hw
      all_goals first
        | (simp only [Option.some.injEq, Prod.mk.injEq] at hw; obtain ⟨_, rfl⟩ := hw; simp [*])
        | (simp at hw)
    · exact h
  · exact h

theorem execTerminalRead (g : Lane) {s t : State} (h : P s) (ht : execTerminalRead g s = .next t) : P t := by
  unfold Machine.execTerminalRead at ht
  injection ht with ht
  subst ht
  split
  · exact hP.completeTerminal _ _ _ _ _ _ _ _ _ h
  · exact h

theorem execDebit (g : Lane) {s t : State} (h : P s) (ht : execDebit g s = .next t) : P t := by
  unfold Machine.execDebit at ht
  injection ht with ht
  subst ht
  split
  · exact hP.completeTerminal _ _ _ _ _ _ _ _ _ h
  · exact h

theorem execProbe (g : Lane) {s t : State} (h : P s) (ht : execProbe g s = .next t) : P t := by
  unfold Machine.execProbe at ht
  injection ht with ht
  subst ht
  split
  · exact hP.completeTerminal _ _ _ _ _ _ _ _ _ h
  · exact h

theorem execAuthorize (g : Lane) {s t : State} (h : P s) (ht : execAuthorize g s = .next t) : P t := by
  unfold Machine.execAuthorize at ht
  injection ht with ht
  subst ht
  split
  · split
    · exact h
    · exact hP.insertDue _ _ _ _ _ _ (hP.modifyRecord _ _ _ (hP.setHold _ _ _ (hP.endOp _ _ h)))
    · exact hP.completeTerminal _ _ _ _ _ _ _ _ _ h
    · split
      · exact hP.completeTerminal _ _ _ _ _ _ _ _ _ h
      · exact h
  · exact h

theorem execHoldEntryAllocation {s t : State} (h : P s) (ht : execHoldEntryAllocation s = .next t) : P t := by
  unfold Machine.execHoldEntryAllocation at ht
  injection ht with ht
  subst ht
  split
  · exact h
  · refine hP.allocPtr _ _ (hP.modifyEngine _ _ _ ?_ h)
    unfold Engine.allotted
    split <;> exact Nat.le_refl _

theorem execSettle (g : Lane) {s t : State} (h : P s) (ht : execSettle g s = .next t) : P t := by
  unfold Machine.execSettle at ht
  injection ht with ht
  subst ht
  split
  · dsimp only
    split
    · exact hP.completeTerminal _ _ _ _ _ _ _ _ _ h
    · exact hP.answer _ _ _ _ (hP.chargeHold _ _ _ _ _ _ (hP.endOp _ _ h))
  · exact h

theorem execCancel (g : Lane) {s t : State} (h : P s) (ht : execCancel g s = .next t) : P t := by
  unfold Machine.execCancel at ht
  injection ht with ht
  subst ht
  split
  · dsimp only
    split
    · exact hP.completeTerminal _ _ _ _ _ _ _ _ _ h
    · exact hP.answer _ _ _ _ (hP.endHold _ _ _ _ _ _ (hP.noteMismatch _ _ _ _ (hP.endOp _ _ h)))
  · exact h

theorem execExtend (g : Lane) {s t : State} (h : P s) (ht : execExtend g s = .next t) : P t := by
  unfold Machine.execExtend at ht
  injection ht with ht
  subst ht
  split
  · dsimp only
    split
    · exact hP.completeTerminal _ _ _ _ _ _ _ _ _ h
    · exact hP.replaceDue _ _ _ _ _ _ (hP.setHold _ _ _ (hP.endOp _ _ h))
  · exact h

theorem expire (s : State) (g : Lane) (t : Ticket) (e : HoldEntry) (r : Record) (h : P s) : P (s.expire g t e r) := by
  unfold State.expire
  split
  · exact hP.post _ _ (hP.endHold _ _ _ _ _ _ h)
  · split
    · exact hP.post _ _ (hP.setHold _ _ _ h)
    · unfold State.captureExpired
      dsimp only
      have h1 := hP.post _ (holdExpired t e .capture (clampCharge r.bal e.amount).1.toNat (clampCharge r.bal e.amount).2)
        (hP.endHold s g t e r (chargedBalance r (clampCharge r.bal e.amount).1) h)
      split
      · exact hP.postLow _ _ _ _ h1
      · exact h1

theorem execExpiry (g : Lane) {s t : State} (h : P s) (ht : execExpiry g s = .next t) : P t := by
  unfold Machine.execExpiry at ht
  injection ht with ht
  subst ht
  split
  · split
    · split
      · exact hP.expire _ _ _ _ _ (hP.noteMismatch _ _ _ _ (hP.endOp _ _ h))
      · exact hP.endOp _ _ h
    · exact h
  · exact h

theorem execSlotFree (g : Lane) {s t : State} (h : P s) (ht : execSlotFree g s = .next t) : P t := by
  unfold Machine.execSlotFree at ht
  injection ht with ht
  subst ht
  split
  · split
    · exact hP.post _ _ (hP.setRecord _ _ _ (hP.endOp _ _ h))
    · exact h
  · exact h

/-! ### Commands of the check and deadline units -/

theorem checksOnly {s t : State} (hm : checkMoves s t.check) (hc : checksOnly s t) (h : P s) : P t := by
  have hset : ∀ (x : State) (g : Lane), (x.engine g).queue = (s.engine g).queue → P x → P (x.setEngine g (t.engine g)) :=
    fun x g hx => hP.setEngine x g _ (Nat.le_of_eq (by rw [hx, hc.2 g]))
  have h1 : P { s with check := t.check } := hP.check _ _ hm h
  have h2 : P (((({ s with check := t.check } : State).setEngine 0 (t.engine 0)).setEngine 1 (t.engine 1)).setEngine 2
      (t.engine 2) |>.setEngine 3 (t.engine 3)) :=
    hset _ 3 rfl (hset _ 2 rfl (hset _ 1 rfl (hset _ 0 rfl h1)))
  rw [hc.1]
  exact h2

theorem reportCheck (s : State) (g : Lane) (h : P s) : P (s.reportCheck g) := by
  unfold State.reportCheck
  split
  · exact h
  · rename_i sl _
    have hc : (s.claimNext sl g).2.check = s.check := by rw [(State.claimNext_frame s sl g).1]
    have h1 := hP.checksOnly (checkMoves_same (by rw [hc]) (by rw [hc])) (checksOnly_claimNext s sl g) h
    have h2 : P ((s.claimNext sl g).2.withSlice (s.claimNext sl g).1) := hP.check _ _ (checkMoves_same rfl rfl) h1
    dsimp only
    split
    · exact hP.checksOnly (checkMoves_beginSlice _) (State.beginSlice_spec _).1
        (hP.check _ _ (checkMoves_same rfl rfl) h2)
    · exact h2

theorem execCheckClaim (g : Lane) {s t : State} (h : P s) (ht : execCheckClaim g s = .next t) : P t := by
  unfold Machine.execCheckClaim at ht
  injection ht with ht
  subst ht
  split
  · split
    · exact hP.reportCheck _ _ (hP.noteMismatch _ _ _ _ (hP.endOp _ _ h))
    · exact h
  · exact h

theorem execTimebaseRaise {s t : State} (h : P s) (ht : execTimebaseRaise s = .next t) : P t := by
  unfold Machine.execTimebaseRaise at ht
  injection ht with ht
  subst ht
  split
  · dsimp only
    obtain ⟨u, hu⟩ : ∃ u : State, u = if s.working = true then ({ s with timebase := s.timebase + 1 } : State).countTimer
        else { s with timebase := s.timebase + 1 } := ⟨_, rfl⟩
    rw [← hu]
    have hc : Machine.checksOnly { s with timebase := s.timebase + 1 } u := by
      rw [hu]
      split
      · exact State.countTimer_frame _
      · exact checksOnly_refl _
    have hm : checkMoves s u.check := by
      rw [hu]
      split
      · exact checkMoves_countTimer { s with timebase := s.timebase + 1 }
      · exact checkMoves_same rfl rfl
    rw [hc.1]
    exact hP.raise s _ _ hm (fun g => by
      have := hc.2 g
      show (u.engine g).queue = _
      rw [this]
      rfl) h
  · exact h

theorem execHoldFallsDue {s t : State} (h : P s) (ht : execHoldFallsDue s = .next t) : P t := by
  unfold Machine.execHoldFallsDue at ht
  injection ht with ht
  subst ht
  exact hP.dueTest _ h

theorem execShortCheckIntervalExpiry {s t : State} (h : P s) (ht : execShortCheckIntervalExpiry s = .next t) : P t := by
  unfold Machine.execShortCheckIntervalExpiry at ht
  injection ht with ht
  subst ht
  split
  · exact hP.checksOnly (checkMoves_intervalExpired s) (State.intervalExpired_frame s).1 h
  · exact h

/-! ### Commands of the index unit and of enrolment -/

theorem execIndexTakeWork {s t : State} (h : P s) (ht : execIndexTakeWork s = .next t) : P t := by
  unfold Machine.execIndexTakeWork at ht
  injection ht with ht
  subst ht
  split
  · exact hP.indexUnit _ _ h
  · exact h

theorem execLookup {s t : State} (h : P s) (ht : execLookup s = .next t) : P t := by
  unfold Machine.execLookup at ht
  injection ht with ht
  subst ht
  split
  · split
    · exact hP.answer _ _ _ _ (hP.indexUnit _ _ h)
    · exact hP.indexUnit _ _ h
  · exact h

theorem completeFind (s : State) (h : P s) : P s.completeFind := by
  unfold State.completeFind
  split
  · exact hP.reply _ _ _ _ (hP.indexUnit _ _ h)
  · exact h

theorem execEnrolSearch {s t : State} (h : P s) (ht : execEnrolSearch s = .next t) : P t := by
  unfold Machine.execEnrolSearch at ht
  injection ht with ht
  subst ht
  split
  · have h1 : P s.endMgmtLookup := hP.indexUnit _ _ h
    unfold State.afterSearch
    repeat' split
    · exact hP.reply _ _ _ _ h1
    · exact hP.reply _ _ _ _ h1
    · exact hP.reply _ _ _ _ h1
    · exact hP.placeMgmt _ _ _ h1
  · exact h

theorem execCreateStep (g : Lane) {s t : State} (h : P s) (ht : execCreateStep g s = .next t) : P t := by
  unfold Machine.execCreateStep at ht
  injection ht with ht
  subst ht
  split
  · split
    · exact hP.indexUnit _ _ (hP.modifyRecord _ _ _ (hP.endOp _ _ h))
    · exact hP.reply _ _ _ _ (hP.endOp _ _ h)
  · exact h

theorem execIndexInsert {s t : State} (h : P s) (ht : execIndexInsert s = .next t) : P t := by
  unfold Machine.execIndexInsert at ht
  injection ht with ht
  subst ht
  split
  · have h1 : P s.endUpdate := hP.indexUnit _ _ h
    refine hP.placeMgmt _ _ _ ?_
    unfold State.insertKey
    split
    · exact hP.setWay _ _ _ h1
    · exact h1
  · exact h

theorem execActivateStep (g : Lane) {s t : State} (h : P s) (ht : execActivateStep g s = .next t) : P t := by
  unfold Machine.execActivateStep at ht
  injection ht with ht
  subst ht
  split
  · exact hP.reply _ _ _ _ (hP.writeState _ _ _ (hP.noteMismatch _ _ _ _ (hP.endOp _ _ h)))
  · exact h

theorem execKeyRemoval {s t : State} (h : P s) (ht : execKeyRemoval s = .next t) : P t := by
  unfold Machine.execKeyRemoval at ht
  injection ht with ht
  subst ht
  split
  · have h1 : P s.endUpdate := hP.indexUnit _ _ h
    refine hP.modifyEngine _ _ _ (Nat.le_refl _) ?_
    unfold State.removeKey
    split
    · exact hP.setWay _ _ _ h1
    · exact hP.filterIndex _ _ h1
  · exact h

/-! ### Account commands at the engines -/

theorem completeByHandle (s : State) (g : Lane) (op : Operation) (n : Byte) (hd : Handle) (act : State → State)
    (ha : ∀ x, P x → P (act x)) (h : P s) : P (s.completeByHandle g op n hd act) := by
  unfold State.completeByHandle
  split
  · exact hP.reply _ _ _ _ (hP.endOp _ _ h)
  · exact ha _ (hP.noteMismatch _ _ _ _ (hP.endOp _ _ h))

theorem completeByTicket (s : State) (g : Lane) (op : Operation) (n : Byte) (t : Ticket) (act : State → State)
    (ha : ∀ x, P x → P (act x)) (h : P s) : P (s.completeByTicket g op n t act) := by
  unfold State.completeByTicket
  split
  · exact ha _ (hP.noteMismatch _ _ _ _ (hP.endOp _ _ h))
  · exact hP.reply _ _ _ _ (hP.endOp _ _ h)

theorem execManagementRequestComplete (g : Lane) {s t : State} (h : P s)
    (ht : execManagementRequestComplete g s = .next t) : P t := by
  unfold Machine.execManagementRequestComplete at ht
  injection ht with ht
  subst ht
  split
  · rename_i op m _
    cases m with
    | read hd full => exact hP.completeByHandle _ _ _ _ _ _ (fun x hx => hP.reply _ _ _ _ hx) h
    | update hd mask floor low set =>
      simp only [State.completeMgmt]
      refine hP.completeByHandle _ _ _ _ _ _ (fun x hx => ?_) h
      unfold State.completeUpdate
      split
      · exact hP.reply _ _ _ _ hx
      · exact hP.reply _ _ _ _ (hP.modifyRecord _ _ _ hx)
    | freeze hd =>
      simp only [State.completeMgmt]
      refine hP.completeByHandle _ _ _ _ _ _ (fun x hx => ?_) h
      unfold State.completeFreeze
      repeat' split
      · exact hP.reply _ _ _ _ hx
      · exact hP.reply _ _ _ _ hx
      · exact hP.reply _ _ _ _ hx
      · exact hP.reply _ _ _ _ (hP.writeState _ _ _ hx)
    | thaw hd =>
      simp only [State.completeMgmt]
      refine hP.completeByHandle _ _ _ _ _ _ (fun x hx => ?_) h
      unfold State.completeFreeze
      repeat' split
      · exact hP.reply _ _ _ _ hx
      · exact hP.reply _ _ _ _ hx
      · exact hP.reply _ _ _ _ hx
      · exact hP.reply _ _ _ _ (hP.writeState _ _ _ hx)
    | retire hd =>
      simp only [State.completeMgmt]
      refine hP.completeByHandle _ _ _ _ _ _ (fun x hx => ?_) h
      unfold State.completeRetire
      repeat' split
      · exact hP.reply _ _ _ _ hx
      · exact hP.reply _ _ _ _ (hP.indexUnit _ _ (hP.writeState _ _ _ hx))
      · exact hP.reply _ _ _ _ (hP.writeState _ _ _ hx)
    | topup hd a =>
      simp only [State.completeMgmt]
      refine hP.completeByHandle _ _ _ _ _ _ (fun x hx => ?_) h
      unfold State.completeCredit
      split
      · exact hP.reply _ _ _ _ hx
      · exact hP.reply _ _ _ _ (hP.writeNewBalance _ _ _ _ hx)
    | adjust hd a =>
      simp only [State.completeMgmt]
      refine hP.completeByHandle _ _ _ _ _ _ (fun x hx => ?_) h
      unfold State.completeCredit
      split
      · exact hP.reply _ _ _ _ hx
      · exact hP.reply _ _ _ _ (hP.writeNewBalance _ _ _ _ hx)
    | restore hd bal floor low set =>
      simp only [State.completeMgmt]
      refine hP.completeByHandle _ _ _ _ _ _ (fun x hx => ?_) h
      exact hP.reply _ _ _ _ (hP.rearmDue _ _ (hP.modifyRecord _ _ _ hx))
    | holdRead tk => exact hP.completeByTicket _ _ _ _ _ _ (fun x hx => hP.reply _ _ _ _ hx) h
    | holdRelease tk =>
      exact hP.completeByTicket _ _ _ _ _ _ (fun x hx => hP.reply _ _ _ _ (hP.endHold _ _ _ _ _ _ hx)) h
    | holdCapture tk =>
      simp only [State.completeMgmt]
      refine hP.completeByTicket _ _ _ _ _ _ (fun x hx => ?_) h
      unfold State.completeCapture
      split
      · exact hP.reply _ _ _ _ hx
      · exact hP.reply _ _ _ _ (hP.chargeHold _ _ _ _ _ _ hx)
    | transitCredit hd =>
      simp only [State.completeMgmt]
      refine hP.completeByHandle _ _ _ _ _ _ (fun x hx => ?_) h
      unfold State.completeTransitCredit
      dsimp only
      split
      · exact hP.reply _ _ _ _ hx
      · exact hP.reply _ _ _ _ (hP.transit _ _ (hP.writeNewBalance _ _ _ _ hx))
    | create n key bal floor low set => exact h
    | activate n => exact h
    | sameTransfer src dst all a => exact h
    | step1 src dst all a => exact h
  · exact h

/-! ### Transfers -/

theorem setTransit (s : State) (v : Transit) (h : P s) : P (s.setTransit v) := hP.transit _ _ h

theorem goOnTransfer (s : State) (item : BalanceItem) (h : P s) : P (s.goOnTransfer item) := hP.cmd _ _ ⟨rfl, rfl⟩ h

theorem postTransit (s : State) (g : Lane) (c : TransitClaim) (h : P s) : P (s.postTransit g c) :=
  hP.modifyEngine _ _ _ (Nat.le_refl _) h

theorem execSameGroupTransfer (g : Lane) {s t : State} (h : P s) (ht : execSameGroupTransfer g s = .next t) : P t := by
  unfold Machine.execSameGroupTransfer at ht
  injection ht with ht
  subst ht
  split
  · rename_i op src dst all a _
    have h1 : P ((s.endOp g).noteBoth op src dst) := hP.noteMismatch _ _ _ _ (hP.noteMismatch _ _ _ _ (hP.endOp _ _ h))
    dsimp only
    split
    · exact hP.reply _ _ _ _ h1
    · split
      · exact hP.reply _ _ _ _ h1
      · exact hP.reply _ _ _ _ (hP.postLow _ _ _ _ (hP.writeBalance _ _ _ (hP.writeBalance _ _ _ h1)))
  · exact h

theorem execTransferStep1 (g : Lane) {s t : State} (h : P s) (ht : execTransferStep1 g s = .next t) : P t := by
  unfold Machine.execTransferStep1 at ht
  injection ht with ht
  subst ht
  split
  · rename_i op src dst all a _
    have h1 : P ((s.endOp g).noteAccount src op.record (handleTest src op.record).isNone) :=
      hP.noteMismatch _ _ _ _ (hP.endOp _ _ h)
    dsimp only
    split
    · exact hP.reply _ _ _ _ h1
    · exact hP.postTransit _ _ _ (hP.goOnTransfer _ _ (hP.setTransit _ _ (hP.writeNewBalance _ _ _ _ h1)))
  · exact h

theorem execTransitStep (g : Lane) {s t : State} (h : P s) (ht : execTransitStep g s = .next t) : P t := by
  unfold Machine.execTransitStep at ht
  injection ht with ht
  subst ht
  split
  · rename_i op _
    have h1 : P ((s.endOp g).noteAccount op.transit.dst op.record (handleTest op.transit.dst op.record).isNone) :=
      hP.noteMismatch _ _ _ _ (hP.endOp _ _ h)
    dsimp only
    split
    · exact hP.reply _ _ _ _ (hP.setTransit _ _ (hP.writeBalance _ _ _ h1))
    · exact hP.postTransit _ _ _ (hP.setTransit _ _ h1)
  · exact h

theorem execReturnStep (g : Lane) {s t : State} (h : P s) (ht : execReturnStep g s = .next t) : P t := by
  unfold Machine.execReturnStep at ht
  injection ht with ht
  subst ht
  split
  · rename_i op refusal _
    have h1 : P ((s.endOp g).noteAccount op.transit.src op.record (handleTest op.transit.src op.record).isNone) :=
      hP.noteMismatch _ _ _ _ (hP.endOp _ _ h)
    dsimp only
    split
    · unfold State.returnToSource
      dsimp only
      have h2 := hP.setTransit _ Transit.cleared
        (hP.writeBalance _ op.transit.src.slot.toNat (op.record.bal + op.transit.amount) h1)
      cases refusal
      · exact h2
      · exact hP.reply _ _ _ _ h2
    · rename_i st _
      unfold State.strand
      dsimp only
      cases refusal
      · exact hP.post _ _ (hP.setTransit _ _ h1)
      · exact hP.reply _ _ _ _ (hP.post _ _ (hP.setTransit _ _ h1))
  · exact h

/-! ### The management port -/

theorem execManagementRequestPlaced {s t : State} (h : P s) (ht : execManagementRequestPlaced s = .next t) : P t := by
  unfold Machine.execManagementRequestPlaced at ht
  injection ht with ht
  subst ht
  split
  · split
    · rename_i hr
      exact hP.enqueue _ _ _ hr (hP.cmd _ _ ⟨rfl, rfl⟩ h)
    · exact h
  · exact h

/-! What the command unit does with the commands that touch no link, mode or notice. -/

theorem takePoll (s : State) (h : P s) : P (takePoll s) := hP.answerAtOnce _ _ _ _ h

theorem takeEnrol (key : Key) (bal : S8) (floor low : B6) (set : TariffSet) (s : State) (h : P s) :
    P (takeEnrol key bal floor low set s) := by
  unfold Machine.takeEnrol
  split
  · exact hP.reply _ _ _ _ h
  · exact hP.indexUnit _ _ (hP.busy _ _ h)

theorem takeFind (key : Key) (s : State) (h : P s) : P (takeFind key s) := by
  unfold Machine.takeFind
  split
  · exact hP.reply _ _ _ _ h
  · exact hP.indexUnit _ _ (hP.busy _ _ h)

theorem takeRead (hd : Handle) (form : Byte) (s : State) (h : P s) : P (takeRead hd form s) := by
  unfold Machine.takeRead
  repeat' split
  · exact hP.startAccount _ _ _ h
  · exact hP.startAccount _ _ _ h
  · exact hP.reply _ _ _ _ h

theorem takeUpdate (hd : Handle) (mask : Byte) (floor low : B6) (set : TariffSet) (s : State) (h : P s) :
    P (takeUpdate hd mask floor low set s) := by
  unfold Machine.takeUpdate
  repeat' split
  · exact hP.reply _ _ _ _ h
  · exact hP.reply _ _ _ _ h
  · exact hP.reply _ _ _ _ h
  · exact hP.startAccount _ _ _ h

theorem takeTopup (hd : Handle) (a : S8) (s : State) (h : P s) : P (takeTopup hd a s) := by
  unfold Machine.takeTopup
  split
  · exact hP.reply _ _ _ _ h
  · exact hP.startAccount _ _ _ h

theorem takeAdjust (hd : Handle) (a : S8) (s : State) (h : P s) : P (takeAdjust hd a s) := by
  unfold Machine.takeAdjust
  split
  · exact hP.reply _ _ _ _ h
  · exact hP.startAccount _ _ _ h

theorem takeTransfer (src dst : Handle) (how : Byte) (a : S8) (s : State) (h : P s) : P (takeTransfer src dst how a s) := by
  unfold Machine.takeTransfer
  split
  · exact hP.reply _ _ _ _ h
  · exact hP.placeMgmt _ _ _ (hP.busy _ _ h)

theorem takeTransitClear (sel : Byte) (hd : Handle) (s : State) (h : P s) : P (takeTransitClear sel hd s) := by
  unfold Machine.takeTransitClear
  repeat' split
  · exact hP.reply _ _ _ _ h
  · exact hP.reply _ _ _ _ (hP.transit _ _ h)
  · exact hP.startAccount _ _ _ h

theorem takeRestore (hd : Handle) (bal : S8) (floor low : B6) (set : TariffSet) (s : State) (h : P s) :
    P (takeRestore hd bal floor low set s) := by
  unfold Machine.takeRestore
  split
  · exact hP.reply _ _ _ _ h
  · exact hP.startAccount _ _ _ h

theorem startByTicket (s : State) (op : Byte) (t : Ticket) (m : MgmtReq) (h : P s) : P (s.startByTicket op t m) := by
  unfold State.startByTicket
  dsimp only
  split
  · exact hP.startAccount _ _ _ h
  · exact hP.reply _ _ _ _ h

theorem takeTariffSet (n enabled : Byte) (price most : B4) (window : B6) (action : Byte) (s : State) (h : P s) :
    P (takeTariffSet n enabled price most window action s) := by
  unfold Machine.takeTariffSet
  split
  · exact hP.reply _ _ _ _ h
  · exact hP.reply _ _ _ _ (hP.setTariff _ _ _ h)

theorem takeTariffRead (n : Byte) (s : State) (h : P s) : P (takeTariffRead n s) := by
  unfold Machine.takeTariffRead
  split <;> exact hP.reply _ _ _ _ h

theorem takeReset (s : State) (h : P s) : P (takeReset s) := hP.cmd _ _ ⟨rfl, rfl⟩ (hP.reply _ _ _ _ h)

theorem shiftOut (s : State) (n : Nat) (h : P s) : P (s.shiftOut n) := hP.cmd _ _ ⟨rfl, rfl⟩ h

theorem readTaken (s : State) (h : P s) : P s.readTaken := by
  unfold State.readTaken
  dsimp only
  split <;> exact hP.cmd _ _ ⟨rfl, rfl⟩ h

theorem readOut (s : State) (h : P s) : P s.readOut := hP.readTaken _ (hP.shiftOut _ _ h)

theorem readPeriod (s : State) (rest : List Byte) (h : P s) : P (s.readPeriod rest) := by
  unfold State.readPeriod
  dsimp only
  split
  · exact hP.readTaken _ (hP.shiftOut _ _ h)
  · exact hP.shiftOut _ _ h

end Closed

/-- A property of states that every command keeps, from states in which Q holds. -/
structure Kept (Q P : State → Prop) : Prop extends Closed P where
  takeByte : ∀ s l b, P s → P (s.takeByte l b)
  discardFrame : ∀ s l, P s → P (s.discardFrame l)
  sent : ∀ s l, P s → P (s.modifyLink l Link.sent)
  hldOff : ∀ s l, P s → P (s.modifyLink l fun k => { k with hld := false }.txBegin)
  hldOn : ∀ s l, P s → P (s.modifyLink l fun k => { k with hld := true })
  takeFrame : ∀ s l frame rest, s.takeable l = true → (s.link l).fifo = frame :: rest → P s → P (s.takeFrame l frame)
  linkSet : ∀ s l enable baud high resume, s.isReady = true → s.awake →
    linkRefusal l enable baud high resume s.power.mode = none → P s →
    P (s.setLink (laneOf l.toNat) ((s.link (laneOf l.toNat)).withSettings (enable == 1) (baudOf baud) high.toNat resume.toNat))
  linkRead : ∀ s l, P s → P (s.setLink l { s.link l with badCrc := 0, overrun := false })
  noticeRead : ∀ s : State, P s →
    P ({ s with notices := { s.notices with list := s.notices.list.drop 4, lost := false } } : State).testAttn
  config : ∀ (s : State) (interval threshold : Nat), 1 ≤ interval → 1 ≤ threshold → P s →
    P ({ s with cmd := { s.cmd with interval := interval, threshold := threshold }
                check := { s.check with timer := some interval } } : State).testAttn
  changeMode : ∀ s m, s.isReady = true → s.awake → s.power.mode ≠ m → P s → P (s.changeMode m)
  softReset : ∀ s : State, s.power.supply = true → s.power.rstLow = false → P s → P s.softReset
  rstFall : ∀ s t, Q s → P s → execRstFall s = .next t → P t
  rstRelease : ∀ s t, Q s → P s → execRstRelease s = .next t → P t
  mainSupplyLoss : ∀ s t, Q s → P s → execMainSupplyLoss s = .next t → P t
  mainSupplyReturn : ∀ s t, Q s → P s → execMainSupplyReturn s = .next t → P t
  wakeEdge : ∀ s t, Q s → P s → execWakeEdge s = .next t → P t
  backupSupplyLow : ∀ s t, Q s → P s → execBackupSupplyLow s = .next t → P t
  warmUpDone : ∀ s t, Q s → P s → execOscillatorWarmUpDone s = .next t → P t
  phaseReady : ∀ s t, Q s → P s → execPhaseReady s = .next t → P t

namespace Kept

variable {Q P : State → Prop} (hP : Kept Q P)
include hP

theorem router {s t : State} (h : P s) (ht : execRouterTake s = .next t) : P t := by
  unfold execRouterTake at ht
  injection ht with ht
  subst ht
  split
  · exact h
  · rename_i l hl
    split
    · exact h
    · rename_i frame rest hf
      exact hP.takeFrame _ _ _ _ (List.find?_some hl) hf h

theorem receiveByte (s : State) (l : Lane) (b : Byte) (h : P s) : P (s.receiveByte l b) := by
  refine hP.takeByte _ _ _ ?_
  unfold State.runTimer
  split
  · exact hP.discardFrame _ _ h
  · exact h

theorem bytes (l : Lane) (bs : List Byte) : ∀ s, P s → P (bs.foldl (fun s b => s.receiveByte l b) s) := by
  induction bs with
  | nil => exact fun s h => h
  | cons b bs ih => exact fun s h => ih _ (hP.receiveByte _ _ _ h)

/-- A command that the command unit takes. -/
theorem take (c : Command) (x : State) (ha : x.awake) (hx : x.isReady = true ∨ c.opcode = 0) (h : P x) : P (takeCommand c x) := by
  have hC := hP.toClosed
  cases c with
  | poll => exact hC.takePoll _ h
  | enrol key bal floor low set => exact hC.takeEnrol _ _ _ _ _ _ h
  | find key => exact hC.takeFind _ _ h
  | read hd form => exact hC.takeRead _ _ _ h
  | update hd mask floor low set => exact hC.takeUpdate _ _ _ _ _ _ h
  | freeze hd => exact hC.startAccount _ _ _ h
  | thaw hd => exact hC.startAccount _ _ _ h
  | retire hd => exact hC.startAccount _ _ _ h
  | topup hd a => exact hC.takeTopup _ _ _ h
  | adjust hd a => exact hC.takeAdjust _ _ _ h
  | transfer src dst how a => exact hC.takeTransfer _ _ _ _ _ h
  | transitClear sel hd => exact hC.takeTransitClear _ _ _ h
  | restore hd bal floor low set => exact hC.takeRestore _ _ _ _ _ _ h
  | holdRead tk => exact hC.startByTicket _ _ _ _ h
  | holdRelease tk => exact hC.startByTicket _ _ _ _ h
  | holdCapture tk => exact hC.startByTicket _ _ _ _ h
  | tariffSet n en price most window action => exact hC.takeTariffSet _ _ _ _ _ _ _ h
  | tariffRead n => exact hC.takeTariffRead _ _ h
  | linkSet l en baud high res =>
    show P (takeLinkSet l en baud high res x)
    unfold takeLinkSet
    split
    · exact hC.reply _ _ _ _ h
    · rename_i hr
      exact hC.reply _ _ _ _ (hP.linkSet _ _ _ _ _ _ (hx.resolve_right (show (18 : Byte) ≠ 0 by decide)) ha hr h)
  | linkRead l =>
    show P (takeLinkRead l x)
    unfold takeLinkRead
    split
    · exact hC.reply _ _ _ _ h
    · exact hC.reply _ _ _ _ (hP.linkRead _ _ h)
  | noticeRead => exact hC.reply _ _ _ _ (hP.noticeRead _ h)
  | config interval threshold =>
    show P (takeConfig interval threshold x)
    unfold takeConfig
    split
    · exact hC.reply _ _ _ _ h
    · rename_i hr
      simp only [Bool.or_eq_true, decide_eq_true_eq, not_or, Nat.not_lt] at hr
      exact hC.reply _ _ _ _ (hP.config _ _ _ hr.1.1.1 hr.1.2 h)
  | mode code =>
    show P (takeMode code x)
    unfold takeMode
    split
    · exact hC.reply _ _ _ _ h
    · split
      · exact hC.reply _ _ _ _ h
      · rename_i hm
        exact hP.changeMode _ _ (hx.resolve_right (show (22 : Byte) ≠ 0 by decide)) ha (by simpa using hm) h
  | timeRead => exact hC.reply _ _ _ _ h
  | reset => exact hC.takeReset _ h

theorem command (c : Command) (s : State) (h : P s) : P (s.command c.opcode (takeCommand c)) :=
  hP.toClosed.command hP.softReset s _ _ (hP.take c) h

theorem undecodableBlock (bs : List Byte) {s t : State} (h : P s) (ht : execUndecodableBlock bs s = .next t) : P t := by
  have hC := hP.toClosed
  unfold execUndecodableBlock at ht
  injection ht with ht
  subst ht
  split
  · rename_i hp
    have h1 := hC.openSelect _ h
    have h2 : P (s.openSelect.periodBytes bs) := by
      unfold State.periodBytes
      split
      · exact h1
      · repeat' split
        · exact hC.readPeriod _ _ h1
        · exact h1
        · unfold State.blockBytes
          split
          · exact hC.answerAtOnce _ _ _ _ h1
          · exact hC.screened _ _ _ (hP.take _ _ (awake_openSelect hp)) h1
    unfold State.rawPeriod
    split
    · rename_i ha
      have hq : (s.openSelect.periodBytes bs).power = s.openSelect.power := by
        unfold State.periodBytes
        split
        · rfl
        · have ha' : s.openSelect.cmd.armed = true := ha
          rw [ha']
          repeat' split
          · exact State.readPeriod_power ..
          · rfl
          · rename_i h1
            exact absurd rfl h1
      exact hP.softReset _ (by rw [hq]; exact (powered_openSelect hp).1) (by rw [hq]; exact (powered_openSelect hp).2) h2
    · exact hC.closeSelect _ h2
  · exact h

theorem responseRead {s t : State} (h : P s) (ht : execResponseRead s = .next t) : P t := by
  have hC := hP.toClosed
  unfold execResponseRead at ht
  injection ht with ht
  subst ht
  split
  · rename_i hp
    have h1 := hC.readOut _ (hC.openSelect _ h)
    have h2 : s.openSelect.readOut.power = s.openSelect.power := State.readOut_power ..
    unfold State.endSelect
    split
    · exact hP.softReset _ (by rw [h2]; exact (powered_openSelect hp).1) (by rw [h2]; exact (powered_openSelect hp).2) h1
    · exact hC.closeSelect _ h1
  · exact h

/-- What one command keeps. -/
theorem exec (c : Instr) {s t : State} (hQ : Q s) (h : P s) (ht : exec c s = .next t) : P t := by
  have hC := hP.toClosed
  cases c with
  | startByte l =>
    injection ht with ht
    exact ht ▸ hP.receiveByte _ _ _ h
  | frameComplete l bs =>
    injection ht with ht
    exact ht ▸ hP.bytes _ _ _ h
  | frameTimeout l =>
    injection ht with ht
    exact ht ▸ hP.discardFrame _ _ h
  | frameDiscard l cause =>
    injection ht with ht
    subst ht
    cases cause
    · exact hP.receiveByte _ _ _ h
    · exact hP.discardFrame _ _ h
  | routerTake => exact hP.router h ht
  | responseSent l =>
    injection ht with ht
    exact ht ▸ hP.sent _ _ h
  | hldDeassert l =>
    injection ht with ht
    exact ht ▸ hP.hldOff _ _ h
  | engineTakeWork g => exact hC.execEngineTakeWork g h ht
  | terminalRead g => exact hC.execTerminalRead g h ht
  | debit g => exact hC.execDebit g h ht
  | probe g => exact hC.execProbe g h ht
  | authorize g => exact hC.execAuthorize g h ht
  | holdEntryAllocation => exact hC.execHoldEntryAllocation h ht
  | settle g => exact hC.execSettle g h ht
  | cancel g => exact hC.execCancel g h ht
  | extend g => exact hC.execExtend g h ht
  | expiry g => exact hC.execExpiry g h ht
  | slotFree g => exact hC.execSlotFree g h ht
  | checkClaim g => exact hC.execCheckClaim g h ht
  | timebaseRaise => exact hC.execTimebaseRaise h ht
  | holdFallsDue => exact hC.execHoldFallsDue h ht
  | shortCheckIntervalExpiry => exact hC.execShortCheckIntervalExpiry h ht
  | indexTakeWork => exact hC.execIndexTakeWork h ht
  | lookup => exact hC.execLookup h ht
  | enrolSearch => exact hC.execEnrolSearch h ht
  | createStep g => exact hC.execCreateStep g h ht
  | indexInsert => exact hC.execIndexInsert h ht
  | activateStep g => exact hC.execActivateStep g h ht
  | keyRemoval => exact hC.execKeyRemoval h ht
  | sameGroupTransfer g => exact hC.execSameGroupTransfer g h ht
  | transferStep1 g => exact hC.execTransferStep1 g h ht
  | transitStep g => exact hC.execTransitStep g h ht
  | returnStep g => exact hC.execReturnStep g h ht
  | managementRequestPlaced => exact hC.execManagementRequestPlaced h ht
  | managementRequestComplete g => exact hC.execManagementRequestComplete g h ht
  | mselAssert =>
    injection ht with ht
    subst ht
    split
    · exact hC.openSelect _ h
    · exact h
  | responseRead => exact hP.responseRead h ht
  | undecodableBlock bs => exact hP.undecodableBlock bs h ht
  | poll =>
    injection ht with ht
    exact ht ▸ hP.command .poll s h
  | enrol key bal floor low set =>
    injection ht with ht
    exact ht ▸ hP.command (.enrol key bal floor low set) s h
  | find event =>
    injection ht with ht
    subst ht
    cases event with
    | block key => exact hP.command (.find key) s h
    | completion => exact hC.completeFind _ h
  | managementRead hd form =>
    injection ht with ht
    exact ht ▸ hP.command (.read hd form) s h
  | update hd mask floor low set =>
    injection ht with ht
    exact ht ▸ hP.command (.update hd mask floor low set) s h
  | freeze hd =>
    injection ht with ht
    exact ht ▸ hP.command (.freeze hd) s h
  | thaw hd =>
    injection ht with ht
    exact ht ▸ hP.command (.thaw hd) s h
  | retire hd =>
    injection ht with ht
    exact ht ▸ hP.command (.retire hd) s h
  | topup hd a =>
    injection ht with ht
    exact ht ▸ hP.command (.topup hd a) s h
  | adjust hd a =>
    injection ht with ht
    exact ht ▸ hP.command (.adjust hd a) s h
  | transfer src dst how a =>
    injection ht with ht
    exact ht ▸ hP.command (.transfer src dst how a) s h
  | transitClear sel hd =>
    injection ht with ht
    exact ht ▸ hP.command (.transitClear sel hd) s h
  | restore hd bal floor low set =>
    injection ht with ht
    exact ht ▸ hP.command (.restore hd bal floor low set) s h
  | holdRead tk =>
    injection ht with ht
    exact ht ▸ hP.command (.holdRead tk) s h
  | holdRelease tk =>
    injection ht with ht
    exact ht ▸ hP.command (.holdRelease tk) s h
  | holdCapture tk =>
    injection ht with ht
    exact ht ▸ hP.command (.holdCapture tk) s h
  | tariffSet n en price most window action =>
    injection ht with ht
    exact ht ▸ hP.command (.tariffSet n en price most window action) s h
  | tariffRead n =>
    injection ht with ht
    exact ht ▸ hP.command (.tariffRead n) s h
  | linkSet l en baud high res =>
    injection ht with ht
    exact ht ▸ hP.command (.linkSet l en baud high res) s h
  | linkRead l =>
    injection ht with ht
    exact ht ▸ hP.command (.linkRead l) s h
  | noticeRead =>
    injection ht with ht
    exact ht ▸ hP.command .noticeRead s h
  | config interval threshold =>
    injection ht with ht
    exact ht ▸ hP.command (.config interval threshold) s h
  | mode code =>
    injection ht with ht
    exact ht ▸ hP.command (.mode code) s h
  | timeRead =>
    injection ht with ht
    exact ht ▸ hP.command .timeRead s h
  | reset =>
    injection ht with ht
    exact ht ▸ hP.command .reset s h
  | softResetEffect =>
    injection ht with ht
    subst ht
    split
    · rename_i hp
      simp only [State.powered, Bool.and_eq_true, Bool.not_eq_true'] at hp
      exact hP.softReset _ hp.1.1.1 hp.1.1.2 h
    · exact h
  | rstFall => exact hP.rstFall _ _ hQ h ht
  | rstRelease => exact hP.rstRelease _ _ hQ h ht
  | mainSupplyLoss => exact hP.mainSupplyLoss _ _ hQ h ht
  | mainSupplyReturn => exact hP.mainSupplyReturn _ _ hQ h ht
  | wakeEdge => exact hP.wakeEdge _ _ hQ h ht
  | backupSupplyLow => exact hP.backupSupplyLow _ _ hQ h ht
  | retainedStoreDisturbance d =>
    injection ht with ht
    subst ht
    cases d with
    | record n change =>
      dsimp only
      split
      · exact hC.modifyRecord _ _ _ h
      · exact h
    | transit v => exact hC.transit _ _ h
  | oscillatorWarmUpDone => exact hP.warmUpDone _ _ hQ h ht
  | phaseReady => exact hP.phaseReady _ _ hQ h ht
  | hldAssert l =>
    injection ht with ht
    exact ht ▸ hP.hldOn _ _ h

/-- What one step keeps. -/
theorem step (hQ' : ∀ s q, Q s → Q (s.withPending q)) (hP' : ∀ s q, P s → P (s.withPending q))
    (hv : ∀ s : State, s.power.stage = .longCheck → Q s → P s → P s.longCheckVisit) {s t : State} (hQ : Q s) (h : P s)
    (ht : step s = .next t) : P t := by
  unfold Machine.step at ht
  split at ht
  · injection ht with ht
    subst ht
    unfold State.idle
    split
    · rename_i hs
      exact hv _ (by simpa using hs) hQ h
    · exact h
  · exact hP.exec _ (hQ' _ _ hQ) (hP' _ _ h) ht

end Kept

end Sys2Proof.Machine
end

