-- ==== Sys2Proof/Laws/LongCheck.lean ====
section
/-! SUPPORT. What the long check and the re-arming of holds can change, and that the rest of the long check is its visits. -/

namespace Sys2Proof.Machine

/-- Nothing but the stores that the long check writes has changed, and of the check unit nothing of the short check. -/
def longCheckOnly (s t : State) : Prop :=
  t = { s with accounts := t.accounts, index := t.index, transit := t.transit,
               check := { s.check with stage := t.check.stage, count := t.check.count, outcome := t.check.outcome } }

theorem longCheckOnly_refl (s : State) : longCheckOnly s s := rfl

theorem longCheckOnly_trans {s t u : State} (h1 : longCheckOnly s t) (h2 : longCheckOnly t u) : longCheckOnly s u := by
  unfold longCheckOnly
  rw [h2, h1]

theorem longCheckOnly_scanSlot (s : State) (n : Nat) : longCheckOnly s (s.scanSlot n) := by
  have h1 : ∀ g, longCheckOnly s (s.scanFree n g) := fun g => by
    unfold State.scanFree State.freeWayOfSlot
    split <;> rfl
  unfold State.scanSlot
  dsimp only
  split
  · rfl
  · exact h1 _
  · exact h1 _
  · exact h1 _
  · split <;> rfl
  · split <;> rfl

theorem longCheckOnly_scanFrom (n : Nat) (l : List (Nat × Record)) :
    ∀ s : State, longCheckOnly s (l.foldl (fun s p => if n ≤ p.1 ∧ p.1 < Config.slots then s.scanSlot p.1 else s) s) := by
  induction l with
  | nil => exact longCheckOnly_refl
  | cons p l ih =>
    intro s
    refine longCheckOnly_trans ?_ (ih _)
    dsimp only
    split
    · exact longCheckOnly_scanSlot _ _
    · rfl

/-- R133: what the rest of the long check changes. -/
theorem longCheckOnly_rest (s : State) : longCheckOnly s s.longCheckRest := by
  unfold State.longCheckRest
  split
  · exact longCheckOnly_trans (longCheckOnly_scanSlot _ _) (longCheckOnly_trans (longCheckOnly_scanFrom _ _ _) rfl)
  · rfl
  · rfl
  · rfl

/-- R133: what one visit of the long check changes. -/
theorem longCheckOnly_visit (s : State) : longCheckOnly s s.longCheckVisit := by
  unfold State.longCheckVisit
  split
  · exact longCheckOnly_trans (longCheckOnly_scanSlot _ _) rfl
  · rfl
  · rfl
  · rfl

/-- R140: re-arming holds changes the hold table and the deadline queue alone. -/
theorem State.rearm_all_frame (list : List Ticket) : ∀ s : State, list.foldl State.rearm s =
    { s with holds := (list.foldl State.rearm s).holds, deadlines := (list.foldl State.rearm s).deadlines } := by
  induction list with
  | nil => exact fun s => rfl
  | cons tk list ih => exact fun s => ih (s.rearm tk)

/-! ### The rest of the long check is its visits -/

/-- A run of visits leads from one state to the other. -/
def visitsTo (s t : State) : Prop := ∃ k, Nat.repeat State.longCheckVisit k s = t

theorem visitsTo_refl (s : State) : visitsTo s s := ⟨0, rfl⟩

theorem repeat_succ (f : α → α) (k : Nat) (a : α) : Nat.repeat f (k + 1) a = Nat.repeat f k (f a) := by
  induction k with
  | zero => rfl
  | succ k ih => exact congrArg f ih

theorem visitsTo_step {s t : State} (h : visitsTo s.longCheckVisit t) : visitsTo s t := by
  obtain ⟨k, hk⟩ := h
  exact ⟨k + 1, (repeat_succ _ k s).trans hk⟩

theorem visitsTo_trans {s t u : State} (h1 : visitsTo s t) (h2 : visitsTo t u) : visitsTo s u := by
  obtain ⟨k, hk⟩ := h1
  induction k generalizing s with
  | zero => exact (show s = t from hk) ▸ h2
  | succ k ih => exact visitsTo_step (ih ((repeat_succ _ k s).symm.trans hk))

/-- The visits of the slots n, n + 1, …, without the stage. -/
def State.scanSlots (s : State) (n : Nat) : Nat → State
  | 0 => s
  | k + 1 => (s.scanSlot n).scanSlots (n + 1) k

theorem State.scanSlot_atStage (s : State) (n : Nat) (st : LongStage) :
    (s.atStage st).scanSlot n = (s.scanSlot n).atStage st := by
  have hf : ∀ g, (s.atStage st).scanFree n g = (s.scanFree n g).atStage st := fun g => by
    unfold State.scanFree State.freeWayOfSlot
    show (match (waysOf (bucketOf (s.record n).key)).find? fun m => namesSlot n (s.way m) with
      | some m => ((s.atStage st).setRecord n (Record.freed g)).setWay m none
      | none => (s.atStage st).setRecord n (Record.freed g)) =
      (match (waysOf (bucketOf (s.record n).key)).find? fun m => namesSlot n (s.way m) with
      | some m => (s.setRecord n (Record.freed g)).setWay m none
      | none => s.setRecord n (Record.freed g)).atStage st
    split <;> rfl
  have hr : (s.atStage st).record n = s.record n := rfl
  unfold State.scanSlot
  dsimp only
  rw [hr]
  cases (s.record n).state
  · rfl
  · exact hf _
  · dsimp only
    split <;> rfl
  · dsimp only
    split <;> rfl
  · exact hf _
  · exact hf _

theorem State.scanSlots_atStage (k : Nat) : ∀ (s : State) (n : Nat) (st : LongStage),
    (s.atStage st).scanSlots n k = (s.scanSlots n k).atStage st := by
  induction k with
  | zero => exact fun s n st => rfl
  | succ k ih => exact fun s n st => by rw [State.scanSlots, State.scanSlot_atStage, ih]; rfl

theorem visitsTo_scan (k : Nat) : ∀ (s : State) (n : Nat), s.check.stage = .scan n → n + k + 1 = Config.slots →
    visitsTo s ((s.scanSlots n (k + 1)).atStage (.sweep 0)) := by
  induction k with
  | zero =>
    intro s n h hk
    refine visitsTo_step ?_
    unfold State.longCheckVisit
    rw [h]
    simp only [if_neg (show ¬n + 1 < Config.slots by omega)]
    exact visitsTo_refl _
  | succ k ih =>
    intro s n h hk
    refine visitsTo_step ?_
    unfold State.longCheckVisit
    rw [h]
    simp only [if_pos (show n + 1 < Config.slots by omega)]
    have := ih ((s.scanSlot n).atStage (.scan (n + 1))) (n + 1) rfl (by omega)
    rw [State.scanSlots_atStage] at this
    exact this

theorem State.scanSlot_free {s : State} {n : Nat} (h : (s.record n).state = .free) : s.scanSlot n = s := by
  unfold State.scanSlot
  dsimp only
  rw [h]

theorem State.record_scanSlot_ne (s : State) {n m : Nat} (h : m ≠ n) : (s.scanSlot n).record m = s.record m := by
  have hf : ∀ g, (s.scanFree n g).record m = s.record m := fun g => by
    refine Eq.trans ?_ (State.record_setRecord_ne s (Record.freed g) h)
    unfold State.scanFree State.freeWayOfSlot
    split <;> rfl
  have hm : (s.scanMismatch n).record m = s.record m :=
    State.record_modifyRecord_ne s (fun r => { r with suspect := true }) h
  unfold State.scanSlot
  dsimp only
  split
  · rfl
  · exact hf _
  · exact hf _
  · exact hf _
  · split
    · rfl
    · exact hm
  · split
    · rfl
    · exact hm

/-- Slots that are FREE are passed over. -/
theorem State.scanSlots_skip (j : Nat) : ∀ (s : State) (n k : Nat), (∀ m, n ≤ m → m < n + j → (s.record m).state = .free) →
    s.scanSlots n (j + k) = s.scanSlots (n + j) k := by
  induction j with
  | zero => exact fun s n k _ => by simp
  | succ j ih =>
    intro s n k h
    rw [show j + 1 + k = (j + k) + 1 by omega, State.scanSlots, State.scanSlot_free (h n (Nat.le_refl n) (by omega)),
      ih s (n + 1) k (fun m h1 h2 => h m (by omega) (by omega)), show n + 1 + j = n + (j + 1) by omega]

/-- The visits of the listed slots are the visits of all slots. -/
theorem State.scanList_eq {a b : Nat} (list : List (Nat × Record)) : ∀ (s : State) (lo n k : Nat), a ≤ n → n + k = b →
    Table.wfFrom Record.cold lo list = true → (∀ p ∈ list, p.1 < a ∨ n ≤ p.1) →
    (∀ m, n ≤ m → m < b → (∀ p ∈ list, p.1 ≠ m) → (s.record m).state = .free) →
    list.foldl (fun s p => if a ≤ p.1 ∧ p.1 < b then s.scanSlot p.1 else s) s = s.scanSlots n k := by
  induction list with
  | nil =>
    intro s lo n k han hk hwf hp hfree
    have := State.scanSlots_skip k s n 0 (fun m h1 h2 => hfree m h1 (by omega) (fun p hp => (List.not_mem_nil hp).elim))
    rw [Nat.add_zero] at this
    exact this.symm
  | cons p list ih =>
    intro s lo n k han hk hwf hp hfree
    have hrest : ∀ q ∈ list, p.1 < q.1 := fun q hq => Table.lt_of_wfFrom hwf q hq
    have htail := Table.wfFrom_tail hwf
    rw [List.foldl_cons]
    split
    · rename_i hin
      have hnp : n ≤ p.1 := (hp p List.mem_cons_self).resolve_left (by omega)
      have hskip := State.scanSlots_skip (p.1 - n) s n (b - p.1) (fun m h1 h2 => hfree m h1 (by omega) fun q hq => by
        rcases List.mem_cons.mp hq with rfl | hq
        · omega
        · have := hrest q hq
          omega)
      rw [show k = (p.1 - n) + (b - p.1) by omega, hskip, show n + (p.1 - n) = p.1 by omega,
        show b - p.1 = (b - p.1 - 1) + 1 by omega, State.scanSlots]
      refine ih (s.scanSlot p.1) (p.1 + 1) (p.1 + 1) (b - p.1 - 1) (by omega) (by omega) htail
        (fun q hq => .inr (hrest q hq)) (fun m h1 h2 hq => ?_)
      rw [State.record_scanSlot_ne s (by omega)]
      refine hfree m (by omega) h2 fun q hm => ?_
      rcases List.mem_cons.mp hm with rfl | hm
      · omega
      · exact hq q hm
    · rename_i hout
      refine ih s (p.1 + 1) n k han hk htail (fun q hq => hp q (List.mem_cons_of_mem _ hq)) fun m h1 h2 hq => ?_
      refine hfree m h1 h2 fun q hm => ?_
      rcases List.mem_cons.mp hm with rfl | hm
      · omega
      · exact hq q hm

/-- SWEEP from bucket b on is the visit of b and SWEEP of the others; past the last bucket it changes nothing. -/
theorem State.sweepRest_succ (s : State) {b : Nat} (h : b < Config.buckets) :
    s.sweepRest b = (s.sweepBucket b).sweepRest (b + 1) := by
  have : ∀ (l : List (Nat × Option IndexEntry)), l.filter (fun p =>
        !(decide (b ≤ p.1 / Config.waysPerBucket) && decide (p.1 / Config.waysPerBucket < Config.buckets) && sweptEntry s p.2)) =
      (l.filter fun p => !(p.1 / Config.waysPerBucket == b && sweptEntry s p.2)).filter (fun p =>
        !(decide (b + 1 ≤ p.1 / Config.waysPerBucket) && decide (p.1 / Config.waysPerBucket < Config.buckets) &&
          sweptEntry s p.2)) := fun l => by
    rw [List.filter_filter]
    refine List.filter_congr fun p _ => ?_
    rw [Bool.eq_iff_iff]
    cases sweptEntry s p.2
    · simp
    · simp
      omega
  show { s with index := _ } = { s with index := _ }
  rw [this]
  rfl

theorem State.sweepRest_end (s : State) {b : Nat} (h : Config.buckets ≤ b) : s.sweepRest b = s := by
  have : s.index.filter (fun p =>
      !(decide (b ≤ p.1 / Config.waysPerBucket) && decide (p.1 / Config.waysPerBucket < Config.buckets) && sweptEntry s p.2)) =
      s.index := by
    refine List.filter_eq_self.mpr fun p _ => ?_
    simp
    omega
  show { s with index := _ } = s
  rw [this]

theorem visitsTo_sweep (k : Nat) : ∀ (s : State) (b : Nat), s.check.stage = .sweep b → b + k + 1 = Config.buckets →
    visitsTo s ((s.sweepRest b).atStage .transit) := by
  induction k with
  | zero =>
    intro s b h hk
    refine visitsTo_step ?_
    rw [State.sweepRest_succ s (by omega), State.sweepRest_end _ (by omega)]
    unfold State.longCheckVisit
    rw [h]
    simp only [if_neg (show ¬b + 1 < Config.buckets by omega)]
    exact visitsTo_refl _
  | succ k ih =>
    intro s b h hk
    refine visitsTo_step ?_
    rw [State.sweepRest_succ s (by omega)]
    unfold State.longCheckVisit
    rw [h]
    simp only [if_pos (show b + 1 < Config.buckets by omega)]
    exact ih ((s.sweepBucket b).atStage (.sweep (b + 1))) (b + 1) rfl (by omega)

theorem visitsTo_transit {s : State} (h : s.check.stage = .transit) : visitsTo s s.resolveTransit := by
  refine visitsTo_step ?_
  unfold State.longCheckVisit
  rw [h]
  exact visitsTo_refl _

theorem visitsTo_sweepEnd {s : State} {b : Nat} (h : s.check.stage = .sweep b) :
    visitsTo s ((s.sweepBucket b).sweepRest (b + 1)).resolveTransit := by
  have hr : ∀ x : State, visitsTo (x.atStage .transit) x.resolveTransit := fun x => visitsTo_transit (s := x.atStage .transit) rfl
  by_cases hb : b < Config.buckets
  · rw [← State.sweepRest_succ s hb]
    exact visitsTo_trans (visitsTo_sweep (Config.buckets - b - 1) s b h (by omega)) (hr _)
  · rw [State.sweepRest_end _ (by omega)]
    refine visitsTo_step ?_
    unfold State.longCheckVisit
    rw [h]
    simp only [if_neg (show ¬b + 1 < Config.buckets by omega)]
    exact hr _

theorem State.wf_accounts_scanSlot {s : State} (h : Table.wf Record.cold s.accounts = true) (n : Nat) :
    Table.wf Record.cold (s.scanSlot n).accounts = true := by
  have hput : ∀ r, Table.wf Record.cold (s.setRecord n r).accounts = true := fun r => Table.wf_put _ _ _ _ h
  have hf : ∀ g, Table.wf Record.cold (s.scanFree n g).accounts = true := fun g => by
    unfold State.scanFree State.freeWayOfSlot
    split <;> exact hput _
  unfold State.scanSlot
  dsimp only
  split
  · exact h
  · exact hf _
  · exact hf _
  · exact hf _
  · split
    · exact h
    · exact hput _
  · split
    · exact h
    · exact hput _

/-- R133 (log entry 7): the rest of the long check is its visits from where it stands to the last. -/
theorem visitsTo_rest {s : State} (hc : Table.wf Record.cold s.accounts = true) : visitsTo s s.longCheckRest := by
  have hsweep : ∀ x : State, visitsTo (x.atStage (.sweep 0)) (x.sweepRest 0).resolveTransit := fun x => by
    rw [State.sweepRest_succ x (by decide)]
    exact visitsTo_sweepEnd (s := x.atStage (.sweep 0)) rfl
  unfold State.longCheckRest
  split
  · rename_i n hn
    have hwf := State.wf_accounts_scanSlot hc n
    have hfree : ∀ m, n + 1 ≤ m → m < Config.slots → (∀ p ∈ (s.scanSlot n).accounts, p.1 ≠ m) →
        ((s.scanSlot n).record m).state = .free := fun m _ _ hm => by
      unfold State.record
      rw [Table.get_of_not_mem _ _ _ hm]
      rfl
    refine visitsTo_trans ?_ (hsweep _)
    refine visitsTo_step ?_
    unfold State.longCheckVisit
    rw [hn]
    by_cases hl : n + 1 < Config.slots
    · simp only [if_pos hl]
      have := visitsTo_scan (Config.slots - (n + 1) - 1) ((s.scanSlot n).atStage (.scan (n + 1))) (n + 1) rfl (by omega)
      rw [State.scanSlots_atStage] at this
      have he := State.scanList_eq (a := n + 1) (b := Config.slots) (s.scanSlot n).accounts (s.scanSlot n) 0 (n + 1)
        (Config.slots - (n + 1) - 1 + 1) (Nat.le_refl _) (by omega) hwf (fun p _ => by omega) hfree
      rw [show (s.scanSlot n).scanRest (n + 1) = _ from he]
      exact this
    · simp only [if_neg hl]
      have hid : (s.scanSlot n).scanRest (n + 1) = s.scanSlot n := by
        unfold State.scanRest
        generalize (s.scanSlot n).accounts = list
        generalize s.scanSlot n = x
        induction list generalizing x with
        | nil => rfl
        | cons p list ih =>
          rw [List.foldl_cons, if_neg (by omega)]
          exact ih x
      rw [hid]
      exact visitsTo_refl _
  · exact visitsTo_sweepEnd ‹_›
  · exact visitsTo_transit ‹_›
  · exact visitsTo_refl _

theorem State.longCheckRest_done (s : State) : s.longCheckRest.check.stage = .done := by
  unfold State.longCheckRest
  split
  · rfl
  · rfl
  · rfl
  · assumption

end Sys2Proof.Machine
end

