-- ==== Sys2Proof/Laws/Rest.lean ====
section
/-! SUPPORT. Outside phase READY nothing waits: what each command does to a chip at rest, and how a chip in READY comes to
rest. -/

namespace Sys2Proof.Machine

/-- R37, R97, R122, R160: nothing waits, nothing is in progress and nothing is queued. -/
def State.atRest (s : State) : Prop :=
    s.engines = Four.all Engine.cleared ∧ s.indexUnit = IndexUnit.cleared ∧ s.deadlines = [] ∧ s.timebase = 0 ∧
      (s.power.mode = .run ∨ s.power.mode = .retain) ∧ s.notices = { list := [], lost := false, attn := false } ∧
      s.cmd.held = none ∧ s.isBusy = false

theorem atRest_engine {s : State} (h : State.atRest s) (g : Lane) : s.engine g = Engine.cleared := by
  show s.engines.get g = _; rw [h.1, Four.get_all]

theorem atRest_openSelect {s : State} (h : State.atRest s) :
    s.openSelect = { s with cmd := { s.cmd with selected := true, sdo := [] } } := by
  unfold State.openSelect State.wake
  split
  · rename_i hm
    rcases h.2.2.2.2.1 with h | h <;> simp [h] at hm
  · rfl

theorem atRest_reset (s : State) (c : StartCause) :
    State.atRest (s.resetEvent c) := ⟨rfl, rfl, rfl, rfl, .inl rfl, rfl, rfl, rfl⟩

theorem atRest_answer {s : State} (op st b) (h : State.atRest s) : State.atRest (s.answerAtOnce op st b) := by
  unfold State.answerAtOnce
  rw [if_neg (by rw [h.2.2.2.2.2.2.2]; decide)]
  exact ⟨h.1, h.2.1, h.2.2.1, h.2.2.2.1, h.2.2.2.2.1, h.2.2.2.2.2.1, h.2.2.2.2.2.2.1, rfl⟩

theorem atRest_screened {s : State} (c : Command) (hr : s.isReady = false) (h : State.atRest s) :
    State.atRest (s.screened c.opcode (takeCommand c)) := by
  unfold State.screened
  split
  · exact atRest_answer _ _ _ h
  · rename_i h1
    split
    · exact atRest_answer _ _ _ h
    · simp [hr] at h1
      cases c <;> first | exact atRest_answer _ _ _ h | (exfalso; revert h1; simp [Command.opcode])

/-- Outside READY no command of the port starts anything. -/
theorem atRest_command {s : State} (c : Command) (hr : s.isReady = false) (h : State.atRest s) :
    State.atRest (s.command c.opcode (takeCommand c)) := by
  unfold State.command State.blockPeriod
  split
  · dsimp only
    split
    · exact ⟨rfl, rfl, rfl, rfl, .inl rfl, rfl, rfl, rfl⟩
    · rw [atRest_openSelect h]
      have h1 : State.atRest { s with cmd := { s.cmd with selected := true, sdo := [] } } := h
      exact atRest_screened (s := { s with cmd := { s.cmd with selected := true, sdo := [] } }) c hr h1
  · exact h

theorem not_working {s : State} (hr : s.isReady = false) : s.working = false := by simp [State.working, hr]

/-- R144: no byte is taken outside READY. -/
theorem receiveByte_notReady {s : State} (l : Lane) (b : Byte) (hr : s.isReady = false) : s.receiveByte l b = s := by
  unfold State.receiveByte State.runTimer State.discardFrame State.takeByte
  simp [hr]

theorem receiveBytes_notReady {s : State} (l : Lane) (bs : List Byte) (hr : s.isReady = false) :
    bs.foldl (fun s b => s.receiveByte l b) s = s := by
  induction bs with
  | nil => rfl
  | cons b bs ih => rw [List.foldl_cons, receiveByte_notReady _ _ hr, ih]

/-- R103: no claim is posted outside READY. -/
theorem dueTest_notReady {s : State} (hr : s.isReady = false) : s.dueTest = s := by
  unfold State.dueTest; simp [hr]

theorem atRest_readTaken {s : State} (h : State.atRest s) : State.atRest s.readTaken := by
  unfold State.readTaken
  dsimp only
  split
  · exact ⟨h.1, h.2.1, h.2.2.1, h.2.2.2.1, h.2.2.2.2.1, h.2.2.2.2.2.1, h.2.2.2.2.2.2.1, h.2.2.2.2.2.2.2⟩
  · exact ⟨h.1, h.2.1, h.2.2.1, h.2.2.2.1, h.2.2.2.2.1, h.2.2.2.2.2.1, h.2.2.2.2.2.2.1, h.2.2.2.2.2.2.2⟩
  · exact ⟨h.1, h.2.1, h.2.2.1, h.2.2.2.1, h.2.2.2.2.1, h.2.2.2.2.2.1, h.2.2.2.2.2.2.1, rfl⟩

theorem atRest_shiftOut {s : State} (n : Nat) (h : State.atRest s) : State.atRest (s.shiftOut n) := h

theorem atRest_readOut {s : State} (h : State.atRest s) : State.atRest s.readOut :=
  atRest_readTaken (atRest_shiftOut s.readBlock.bytes.length h)

theorem atRest_readPeriod {s : State} (rest : List Byte) (h : State.atRest s) : State.atRest (s.readPeriod rest) := by
  unfold State.readPeriod
  dsimp only
  split
  · exact atRest_readTaken (atRest_shiftOut rest.length h)
  · exact atRest_shiftOut rest.length h

/-- Outside READY every command but PHASE_READY leaves a chip at rest at rest. -/
theorem exec_atRest (c : Instr) {s t : State} (hr : s.isReady = false) (h : State.atRest s) (hc : c ≠ .phaseReady)
    (ht : exec c s = .next t) : State.atRest t := by
  have he := fun g => atRest_engine h g
  have ho : ∀ g, (s.engine g).op = none := fun g => by rw [he]; rfl
  have hi : s.indexUnit.op = none := by rw [h.2.1]; rfl
  have hto : ∀ g, s.terminalOp g = none := fun g => by simp [State.terminalOp, ho]
  have hmo : ∀ g, s.mgmtOp g = none := fun g => by simp [State.mgmtOp, ho]
  have htr : ∀ g, s.transitOp g = none := fun g => by simp [State.transitOp, ho]
  cases c with
  | startByte l => injection ht with ht; rw [receiveByte_notReady _ _ hr] at ht; exact ht ▸ h
  | frameComplete l bs => injection ht with ht; rw [receiveBytes_notReady _ _ hr] at ht; exact ht ▸ h
  | frameTimeout l => injection ht with ht; unfold State.discardFrame at ht; simp [hr] at ht; exact ht ▸ h
  | frameDiscard l cause =>
    injection ht with ht
    cases cause
    · dsimp only at ht; rw [receiveByte_notReady _ _ hr] at ht; exact ht ▸ h
    · unfold State.discardFrame at ht; simp [hr] at ht; exact ht ▸ h
  | routerTake =>
    injection ht with ht
    have : (rotation s.router).find? s.takeable = none := by
      rw [List.find?_eq_none]
      intro l _
      unfold State.takeable
      dsimp only
      split <;> simp [not_working hr]
    rw [this] at ht; exact ht ▸ h
  | responseSent l => injection ht with ht; exact ht ▸ h
  | hldDeassert l => injection ht with ht; exact ht ▸ h
  | hldAssert l => injection ht with ht; exact ht ▸ h
  | engineTakeWork g => injection ht with ht; simp [not_working hr] at ht; exact ht ▸ h
  | terminalRead g => injection ht with ht; rw [hto] at ht; exact ht ▸ h
  | debit g => injection ht with ht; rw [hto] at ht; exact ht ▸ h
  | probe g => injection ht with ht; rw [hto] at ht; exact ht ▸ h
  | authorize g => injection ht with ht; rw [hto] at ht; exact ht ▸ h
  | holdEntryAllocation =>
    injection ht with ht
    have : (rotation s.allocPtr).find? s.claimsEntry = none := by
      rw [List.find?_eq_none]
      intro l _
      unfold State.claimsEntry
      simp [ho]
    rw [this] at ht; exact ht ▸ h
  | settle g => injection ht with ht; rw [hto] at ht; exact ht ▸ h
  | cancel g => injection ht with ht; rw [hto] at ht; exact ht ▸ h
  | extend g => injection ht with ht; rw [hto] at ht; exact ht ▸ h
  | expiry g => injection ht with ht; rw [ho] at ht; exact ht ▸ h
  | slotFree g => injection ht with ht; rw [ho] at ht; exact ht ▸ h
  | checkClaim g => injection ht with ht; rw [ho] at ht; exact ht ▸ h
  | timebaseRaise => injection ht with ht; simp [hr] at ht; exact ht ▸ h
  | holdFallsDue => injection ht with ht; rw [dueTest_notReady hr] at ht; exact ht ▸ h
  | shortCheckIntervalExpiry => injection ht with ht; simp [not_working hr] at ht; exact ht ▸ h
  | indexTakeWork => injection ht with ht; simp [not_working hr] at ht; exact ht ▸ h
  | lookup => injection ht with ht; rw [hi] at ht; exact ht ▸ h
  | enrolSearch => injection ht with ht; simp [State.searchInProgress, hi] at ht; exact ht ▸ h
  | createStep g => injection ht with ht; rw [hmo] at ht; exact ht ▸ h
  | indexInsert => injection ht with ht; rw [hi] at ht; exact ht ▸ h
  | activateStep g => injection ht with ht; rw [hmo] at ht; exact ht ▸ h
  | keyRemoval => injection ht with ht; rw [hi] at ht; exact ht ▸ h
  | sameGroupTransfer g => injection ht with ht; rw [hmo] at ht; exact ht ▸ h
  | transferStep1 g => injection ht with ht; rw [hmo] at ht; exact ht ▸ h
  | transitStep g => injection ht with ht; rw [htr] at ht; exact ht ▸ h
  | returnStep g => injection ht with ht; rw [htr] at ht; exact ht ▸ h
  | managementRequestPlaced => injection ht with ht; rw [h.2.2.2.2.2.2.1] at ht; exact ht ▸ h
  | managementRequestComplete g => injection ht with ht; rw [hmo] at ht; exact ht ▸ h
  | mselAssert =>
    injection ht with ht
    subst ht
    split
    · rw [atRest_openSelect h]; exact h
    · exact h
  | responseRead =>
    injection ht with ht
    subst ht
    split
    · rw [atRest_openSelect h]
      have h1 : State.atRest { s with cmd := { s.cmd with selected := true, sdo := [] } } := h
      unfold State.endSelect
      split
      · exact ⟨rfl, rfl, rfl, rfl, .inl rfl, rfl, rfl, rfl⟩
      · exact atRest_readOut h1
    · exact h
  | undecodableBlock bs =>
    injection ht with ht
    subst ht
    split
    · unfold State.rawPeriod
      rw [atRest_openSelect h]
      have h1 : State.atRest { s with cmd := { s.cmd with selected := true, sdo := [] } } := h
      split
      · exact ⟨rfl, rfl, rfl, rfl, .inl rfl, rfl, rfl, rfl⟩
      · have : State.atRest (State.periodBytes { s with cmd := { s.cmd with selected := true, sdo := [] } } bs) := by
          unfold State.periodBytes
          split
          · exact h1
          · split
            · exact atRest_readPeriod _ h1
            · unfold State.blockBytes
              split
              · exact atRest_answer _ _ _ h1
              · exact atRest_screened _ hr h1
        exact this
    · exact h
  | poll => injection ht with ht; exact ht ▸ atRest_command .poll hr h
  | enrol key bal floor low set => injection ht with ht; exact ht ▸ atRest_command (.enrol key bal floor low set) hr h
  | find event =>
    injection ht with ht
    subst ht
    cases event with
    | block key => exact atRest_command (.find key) hr h
    | completion => simp only [State.completeFind, State.findInProgress, hi]; exact h
  | managementRead hd form => injection ht with ht; exact ht ▸ atRest_command (.read hd form) hr h
  | update hd mask floor low set =>
    injection ht with ht
    exact ht ▸ atRest_command (.update hd mask floor low set) hr h
  | freeze hd => injection ht with ht; exact ht ▸ atRest_command (.freeze hd) hr h
  | thaw hd => injection ht with ht; exact ht ▸ atRest_command (.thaw hd) hr h
  | retire hd => injection ht with ht; exact ht ▸ atRest_command (.retire hd) hr h
  | topup hd a => injection ht with ht; exact ht ▸ atRest_command (.topup hd a) hr h
  | adjust hd a => injection ht with ht; exact ht ▸ atRest_command (.adjust hd a) hr h
  | transfer src dst how a => injection ht with ht; exact ht ▸ atRest_command (.transfer src dst how a) hr h
  | transitClear sel hd => injection ht with ht; exact ht ▸ atRest_command (.transitClear sel hd) hr h
  | restore hd bal floor low set =>
    injection ht with ht
    exact ht ▸ atRest_command (.restore hd bal floor low set) hr h
  | holdRead tk => injection ht with ht; exact ht ▸ atRest_command (.holdRead tk) hr h
  | holdRelease tk => injection ht with ht; exact ht ▸ atRest_command (.holdRelease tk) hr h
  | holdCapture tk => injection ht with ht; exact ht ▸ atRest_command (.holdCapture tk) hr h
  | tariffSet n en price most window action =>
    injection ht with ht
    exact ht ▸ atRest_command (.tariffSet n en price most window action) hr h
  | tariffRead n => injection ht with ht; exact ht ▸ atRest_command (.tariffRead n) hr h
  | linkSet l en baud high res => injection ht with ht; exact ht ▸ atRest_command (.linkSet l en baud high res) hr h
  | linkRead l => injection ht with ht; exact ht ▸ atRest_command (.linkRead l) hr h
  | noticeRead => injection ht with ht; exact ht ▸ atRest_command .noticeRead hr h
  | config interval threshold => injection ht with ht; exact ht ▸ atRest_command (.config interval threshold) hr h
  | mode code => injection ht with ht; exact ht ▸ atRest_command (.mode code) hr h
  | timeRead => injection ht with ht; exact ht ▸ atRest_command .timeRead hr h
  | reset => injection ht with ht; exact ht ▸ atRest_command .reset hr h
  | softResetEffect =>
    injection ht with ht
    subst ht
    split
    · exact ⟨rfl, rfl, rfl, rfl, .inl rfl, rfl, rfl, rfl⟩
    · exact h
  | rstFall =>
    injection ht with ht; subst ht; repeat' split
    all_goals first | exact h | exact atRest_reset s .pinReset
  | rstRelease =>
    injection ht with ht; subst ht; dsimp only; repeat' split
    · exact ⟨h.1, h.2.1, h.2.2.1, h.2.2.2.1, .inl rfl, h.2.2.2.2.2.1, h.2.2.2.2.2.2.1, h.2.2.2.2.2.2.2⟩
    · exact h
    · exact h
  | mainSupplyLoss =>
    injection ht with ht; subst ht; dsimp only; repeat' split
    all_goals first | exact h | exact atRest_reset s .powerReturn
  | mainSupplyReturn =>
    injection ht with ht; subst ht; dsimp only; repeat' split
    · exact h
    · exact h
    · exact h
    · exact ⟨h.1, h.2.1, h.2.2.1, h.2.2.2.1, .inl rfl, h.2.2.2.2.2.1, h.2.2.2.2.2.2.1, h.2.2.2.2.2.2.2⟩
  | wakeEdge =>
    injection ht with ht; subst ht; repeat' split
    · exact ⟨h.1, h.2.1, h.2.2.1, h.2.2.2.1, .inl rfl, h.2.2.2.2.2.1, h.2.2.2.2.2.2.1, h.2.2.2.2.2.2.2⟩
    · exact h
  | backupSupplyLow =>
    injection ht with ht; subst ht; split
    all_goals exact h
  | retainedStoreDisturbance d =>
    injection ht with ht
    subst ht
    cases d with
    | record n change =>
      dsimp only
      split <;> exact h
    | transit v => exact h
  | oscillatorWarmUpDone =>
    injection ht with ht; subst ht; repeat' split
    all_goals exact h
  | phaseReady => exact absurd rfl hc


/-- R167: PHASE_READY makes the chip READY, the deadline queue as it was. -/
theorem execPhaseReady_ready {s t : State} (h : s.power.stage = .longCheck) (ht : exec .phaseReady s = .next t) :
    t.isReady = true ∧ t.deadlines = s.deadlines := by
  injection ht with ht; subst ht
  rw [if_pos (by simp [h])]
  have : s.longCheckRest.deadlines = s.deadlines := by rw [longCheckOnly_rest]
  dsimp only
  unfold State.postReturn
  split
  · constructor
    · simp; rfl
    · simp; exact this
  · constructor
    · simp; rfl
    · simp; exact this

/-! ### Commands in phase READY -/
/-- The atomic updates keep the phase. -/
theorem closed_isReady : Closed (fun s => s.isReady = true) where
  setRecord _ _ _ h := h
  setHold _ _ _ h := h
  setTariff _ _ _ h := h
  setWay _ _ _ h := h
  filterIndex _ _ h := h
  transit _ _ h := h
  setEngine s g e he h := h
  enqueue _ _ _ _ h := h
  allocPtr _ _ h := h
  indexUnit _ _ h := h
  check _ _ _ h := h
  cmd s c hc h := h
  post s n h := by simpa using h
  answer s o st b h := h
  wake s h := by simpa using h
  removeDeadline _ _ h := h
  dueTest s h := by simpa using h
  insertDue s t d o st b h := by rw [State.dueTest_isReady]; exact h
  replaceDue s t d o st b h := by rw [State.dueTest_isReady]; exact h
  rearmDue s list h := by rw [State.dueTest_isReady, State.rearm_all_frame]; exact h
  raise s c es _ he h := by rw [State.dueTest_isReady]; exact h

/-- In READY, or with nothing waiting. -/
def State.readyOrAtRest (t : State) : Prop := t.isReady = true ∨ State.atRest t

theorem readyOrAtRest_mode (x : State) (m : Mode) (h : x.isReady = true) : State.readyOrAtRest (x.changeMode m) := by
  unfold State.changeMode; split
  · exact .inl h
  · split
    · exact .inl h
    · exact .inl h
  · split
    · exact .inl h
    · exact .inl h
  · repeat' split
    · exact .inl h
    · exact .inl h
    · exact .inr ⟨rfl, rfl, rfl, rfl, .inr rfl, rfl, rfl, rfl⟩

theorem readyOrAtRest_take (c : Command) (x : State) (h : x.isReady = true) :
    State.readyOrAtRest (takeCommand c x) := by
  have hC := closed_isReady
  cases c with
  | poll => exact .inl (hC.takePoll _ h)
  | enrol key bal floor low set => exact .inl (hC.takeEnrol _ _ _ _ _ _ h)
  | find key => exact .inl (hC.takeFind _ _ h)
  | read hd form => exact .inl (hC.takeRead _ _ _ h)
  | update hd mask floor low set => exact .inl (hC.takeUpdate _ _ _ _ _ _ h)
  | freeze hd => exact .inl (hC.startAccount _ _ _ h)
  | thaw hd => exact .inl (hC.startAccount _ _ _ h)
  | retire hd => exact .inl (hC.startAccount _ _ _ h)
  | topup hd a => exact .inl (hC.takeTopup _ _ _ h)
  | adjust hd a => exact .inl (hC.takeAdjust _ _ _ h)
  | transfer src dst how a => exact .inl (hC.takeTransfer _ _ _ _ _ h)
  | transitClear sel hd => exact .inl (hC.takeTransitClear _ _ _ h)
  | restore hd bal floor low set => exact .inl (hC.takeRestore _ _ _ _ _ _ h)
  | holdRead tk => exact .inl (hC.startByTicket _ _ _ _ h)
  | holdRelease tk => exact .inl (hC.startByTicket _ _ _ _ h)
  | holdCapture tk => exact .inl (hC.startByTicket _ _ _ _ h)
  | tariffSet n en price most window action => exact .inl (hC.takeTariffSet _ _ _ _ _ _ _ h)
  | tariffRead n => exact .inl (hC.takeTariffRead _ _ h)
  | linkSet l en baud high res =>
    left
    show (takeLinkSet l en baud high res x).isReady = true
    unfold takeLinkSet
    split <;> exact h
  | linkRead l =>
    left
    show (takeLinkRead l x).isReady = true
    unfold takeLinkRead
    split <;> exact h
  | noticeRead => exact .inl h
  | config interval threshold =>
    left
    show (takeConfig interval threshold x).isReady = true
    unfold takeConfig
    split <;> exact h
  | mode code =>
    show State.readyOrAtRest (takeMode code x)
    unfold takeMode
    split
    · exact .inl h
    · split
      · exact .inl h
      · exact readyOrAtRest_mode _ _ h
  | timeRead => exact .inl h
  | reset => exact .inl (hC.takeReset _ h)

theorem atRest_softReset (s : State) : State.atRest s.softReset := ⟨rfl, rfl, rfl, rfl, .inl rfl, rfl, rfl, rfl⟩

theorem readyOrAtRest_screened (c : Command) (x : State) (h : x.isReady = true) :
    State.readyOrAtRest (x.screened c.opcode (takeCommand c)) := by
  unfold State.screened
  repeat' split
  · exact .inl (closed_isReady.answerAtOnce _ _ _ _ h)
  · exact .inl (closed_isReady.answerAtOnce _ _ _ _ h)
  · exact readyOrAtRest_take _ _ h

theorem readyOrAtRest_command (c : Command) (s : State) (h : s.isReady = true) :
    State.readyOrAtRest (s.command c.opcode (takeCommand c)) := by
  unfold State.command State.blockPeriod
  split
  · dsimp only
    split
    · exact .inr (atRest_softReset _)
    · exact readyOrAtRest_screened c _ (closed_isReady.openSelect _ h)
  · exact .inl h

/-- What a command in READY does to the phase: it stays, or the chip comes to rest; only a start of a chip without
power (no reachable state) leaves READY with its queues. -/
theorem exec_of_isReady (c : Instr) {s t : State} (h : s.isReady = true) (ht : exec c s = .next t) :
    t.readyOrAtRest ∨ (s.powered = false ∧ t.deadlines = s.deadlines ∧ t.timebase = s.timebase) := by
  have hC := closed_isReady
  have hrec : ∀ l b (x : State), x.isReady = true → (x.receiveByte l b).isReady = true := by
    intro l b x h
    have hx : (x.runTimer l).isReady = true := by
      unfold State.runTimer State.discardFrame
      dsimp only
      repeat' split
      all_goals exact h
    unfold State.receiveByte State.takeByte State.frameDone
    generalize x.runTimer l = x at hx ⊢
    replace h := hx
    dsimp only; repeat' split
    all_goals first | exact h | exact hC.wake _ h | (simp; exact h)
  cases c with
  | startByte l => injection ht with ht; exact ht ▸ .inl (.inl (hrec _ _ _ h))
  | frameComplete l bs =>
    injection ht with ht
    subst ht
    refine .inl (.inl ?_)
    revert s
    induction bs with
    | nil => exact fun h => h
    | cons b bs ih => exact fun h => ih (hrec _ _ _ h)
  | frameTimeout l =>
    injection ht with ht; subst ht; left; left
    unfold State.discardFrame; dsimp only; repeat' split
    all_goals exact h
  | frameDiscard l cause =>
    injection ht with ht
    subst ht; left; left
    cases cause
    · exact hrec _ _ _ h
    · unfold State.discardFrame; dsimp only; repeat' split
      all_goals exact h
  | routerTake =>
    injection ht with ht
    subst ht; left; left
    split
    · exact h
    · split
      · exact h
      · unfold State.takeFrame State.deliverRoute; dsimp only; split <;> exact h
  | responseSent l => injection ht with ht; subst ht; exact .inl (.inl h)
  | hldDeassert l => injection ht with ht; subst ht; exact .inl (.inl h)
  | engineTakeWork g => exact .inl (.inl (hC.execEngineTakeWork g h ht))
  | terminalRead g => exact .inl (.inl (hC.execTerminalRead g h ht))
  | debit g => exact .inl (.inl (hC.execDebit g h ht))
  | probe g => exact .inl (.inl (hC.execProbe g h ht))
  | authorize g => exact .inl (.inl (hC.execAuthorize g h ht))
  | holdEntryAllocation => exact .inl (.inl (hC.execHoldEntryAllocation h ht))
  | settle g => exact .inl (.inl (hC.execSettle g h ht))
  | cancel g => exact .inl (.inl (hC.execCancel g h ht))
  | extend g => exact .inl (.inl (hC.execExtend g h ht))
  | expiry g => exact .inl (.inl (hC.execExpiry g h ht))
  | slotFree g => exact .inl (.inl (hC.execSlotFree g h ht))
  | checkClaim g => exact .inl (.inl (hC.execCheckClaim g h ht))
  | timebaseRaise => exact .inl (.inl (hC.execTimebaseRaise h ht))
  | holdFallsDue => exact .inl (.inl (hC.execHoldFallsDue h ht))
  | shortCheckIntervalExpiry => exact .inl (.inl (hC.execShortCheckIntervalExpiry h ht))
  | indexTakeWork => exact .inl (.inl (hC.execIndexTakeWork h ht))
  | lookup => exact .inl (.inl (hC.execLookup h ht))
  | enrolSearch => exact .inl (.inl (hC.execEnrolSearch h ht))
  | createStep g => exact .inl (.inl (hC.execCreateStep g h ht))
  | indexInsert => exact .inl (.inl (hC.execIndexInsert h ht))
  | activateStep g => exact .inl (.inl (hC.execActivateStep g h ht))
  | keyRemoval => exact .inl (.inl (hC.execKeyRemoval h ht))
  | sameGroupTransfer g => exact .inl (.inl (hC.execSameGroupTransfer g h ht))
  | transferStep1 g => exact .inl (.inl (hC.execTransferStep1 g h ht))
  | transitStep g => exact .inl (.inl (hC.execTransitStep g h ht))
  | returnStep g => exact .inl (.inl (hC.execReturnStep g h ht))
  | managementRequestPlaced => exact .inl (.inl (hC.execManagementRequestPlaced h ht))
  | managementRequestComplete g => exact .inl (.inl (hC.execManagementRequestComplete g h ht))
  | mselAssert =>
    injection ht with ht
    subst ht; left; left
    split
    · exact hC.openSelect _ h
    · exact h
  | responseRead =>
    injection ht with ht
    subst ht; left
    split
    · unfold State.endSelect
      split
      · exact .inr (atRest_softReset _)
      · exact .inl (hC.readOut _ (hC.openSelect _ h))
    · exact .inl h
  | undecodableBlock bs =>
    injection ht with ht
    subst ht; left
    split
    · unfold State.rawPeriod
      split
      · exact .inr (atRest_softReset _)
      · have h1 := hC.openSelect _ h
        show State.readyOrAtRest (s.openSelect.periodBytes bs)
        unfold State.periodBytes
        split
        · exact .inl h1
        · repeat' split
          · exact .inl (hC.readPeriod _ _ h1)
          · exact .inl h1
          · unfold State.blockBytes
            split
            · exact .inl (hC.answerAtOnce _ _ _ _ h1)
            · exact readyOrAtRest_screened _ _ h1
    · exact .inl h
  | poll => injection ht with ht; exact ht ▸ .inl (readyOrAtRest_command .poll _ h)
  | enrol key bal floor low set =>
    injection ht with ht
    exact ht ▸ .inl (readyOrAtRest_command (.enrol key bal floor low set) _ h)
  | find event =>
    injection ht with ht
    subst ht
    cases event with
    | block key => exact .inl (readyOrAtRest_command (.find key) _ h)
    | completion => exact .inl (.inl (hC.completeFind _ h))
  | managementRead hd form => injection ht with ht; exact ht ▸ .inl (readyOrAtRest_command (.read hd form) _ h)
  | update hd mask floor low set =>
    injection ht with ht
    exact ht ▸ .inl (readyOrAtRest_command (.update hd mask floor low set) _ h)
  | freeze hd => injection ht with ht; exact ht ▸ .inl (readyOrAtRest_command (.freeze hd) _ h)
  | thaw hd => injection ht with ht; exact ht ▸ .inl (readyOrAtRest_command (.thaw hd) _ h)
  | retire hd => injection ht with ht; exact ht ▸ .inl (readyOrAtRest_command (.retire hd) _ h)
  | topup hd a => injection ht with ht; exact ht ▸ .inl (readyOrAtRest_command (.topup hd a) _ h)
  | adjust hd a => injection ht with ht; exact ht ▸ .inl (readyOrAtRest_command (.adjust hd a) _ h)
  | transfer src dst how a =>
    injection ht with ht
    exact ht ▸ .inl (readyOrAtRest_command (.transfer src dst how a) _ h)
  | transitClear sel hd => injection ht with ht; exact ht ▸ .inl (readyOrAtRest_command (.transitClear sel hd) _ h)
  | restore hd bal floor low set =>
    injection ht with ht
    exact ht ▸ .inl (readyOrAtRest_command (.restore hd bal floor low set) _ h)
  | holdRead tk => injection ht with ht; exact ht ▸ .inl (readyOrAtRest_command (.holdRead tk) _ h)
  | holdRelease tk => injection ht with ht; exact ht ▸ .inl (readyOrAtRest_command (.holdRelease tk) _ h)
  | holdCapture tk => injection ht with ht; exact ht ▸ .inl (readyOrAtRest_command (.holdCapture tk) _ h)
  | tariffSet n en price most window action =>
    injection ht with ht
    exact ht ▸ .inl (readyOrAtRest_command (.tariffSet n en price most window action) _ h)
  | tariffRead n => injection ht with ht; exact ht ▸ .inl (readyOrAtRest_command (.tariffRead n) _ h)
  | linkSet l en baud high res =>
    injection ht with ht
    exact ht ▸ .inl (readyOrAtRest_command (.linkSet l en baud high res) _ h)
  | linkRead l => injection ht with ht; exact ht ▸ .inl (readyOrAtRest_command (.linkRead l) _ h)
  | noticeRead => injection ht with ht; exact ht ▸ .inl (readyOrAtRest_command .noticeRead _ h)
  | config interval threshold =>
    injection ht with ht
    exact ht ▸ .inl (readyOrAtRest_command (.config interval threshold) _ h)
  | mode code => injection ht with ht; exact ht ▸ .inl (readyOrAtRest_command (.mode code) _ h)
  | timeRead => injection ht with ht; exact ht ▸ .inl (readyOrAtRest_command .timeRead _ h)
  | reset => injection ht with ht; exact ht ▸ .inl (readyOrAtRest_command .reset _ h)
  | softResetEffect =>
    injection ht with ht
    subst ht; left
    split
    · exact .inr (atRest_softReset _)
    · exact .inl h
  | rstFall =>
    injection ht with ht; subst ht; left; repeat' split
    · exact .inl h
    · exact .inl h
    · exact .inr (atRest_reset s .pinReset)
  | rstRelease =>
    injection ht with ht; subst ht; dsimp only; repeat' split
    · rename_i h1 h2
      exact .inr ⟨by simp [State.powered, h1], rfl, rfl⟩
    · exact .inl (.inl h)
    · exact .inl (.inl h)
  | mainSupplyLoss =>
    injection ht with ht; subst ht; dsimp only; left; repeat' split
    · exact .inl h
    · exact .inl h
    · exact .inr (atRest_reset s .powerReturn)
  | mainSupplyReturn =>
    injection ht with ht; subst ht; dsimp only; repeat' split
    · exact .inl (.inl h)
    · exact .inl (.inl h)
    · exact .inl (.inl h)
    · rename_i h1 h2 h3
      exact .inr ⟨by simp [State.powered, h1], rfl, rfl⟩
  | wakeEdge =>
    injection ht with ht; subst ht; repeat' split
    · rename_i h1
      simp [State.inRetain] at h1
      exact .inr ⟨by simp [State.powered, h1], rfl, rfl⟩
    · exact .inl (.inl h)
  | backupSupplyLow =>
    injection ht with ht; subst ht; left; left; split
    all_goals exact h
  | retainedStoreDisturbance d =>
    injection ht with ht
    subst ht; left; left
    cases d with
    | record n change =>
      dsimp only
      split <;> exact h
    | transit v => exact h
  | oscillatorWarmUpDone =>
    injection ht with ht; subst ht; left; left
    rw [if_neg]
    · exact h
    · intro h1; simp [State.isReady] at h h1; simp [h] at h1
  | phaseReady =>
    injection ht with ht; subst ht; left; left
    rw [if_neg]
    · exact h
    · intro h1; simp [State.isReady] at h h1; simp [h] at h1
  | hldAssert l => injection ht with ht; subst ht; exact .inl (.inl h)

theorem restsUntilReady_iff (s : State) : s.restsUntilReady ↔ (s.isReady = true ∨ State.atRest s) := by
  unfold State.restsUntilReady State.atRest
  cases s.isReady <;> simp

/-- The same of a step. -/
theorem step_readyOrAtRest {s t : State} (hr : s.restsUntilReady) (ht : step s = .next t) :
    (t.isReady = true ∨ State.atRest t) ∨
      (s.isReady = true ∧ s.powered = false ∧ t.deadlines = s.deadlines ∧ t.timebase = s.timebase) := by
  unfold step at ht
  split at ht
  · injection ht with ht
    subst ht
    left
    unfold State.idle
    split
    · rename_i hs
      simp at hs
      have hn : s.isReady = false := by simp [State.isReady, hs]
      have := hr hn
      right
      rw [longCheckOnly_visit]
      exact this
    · exact (restsUntilReady_iff s).1 hr
  · rename_i c rest hp
    rcases (restsUntilReady_iff s).1 hr with h | h
    · rcases exec_of_isReady c (s := s.withPending rest) h ht with h1 | h1
      · exact .inl h1
      · exact .inr ⟨h, h1⟩
    · cases hn : s.isReady with
      | true =>
        rcases exec_of_isReady c (s := s.withPending rest) hn ht with h1 | h1
        · exact .inl h1
        · exact .inr ⟨rfl, h1⟩
      | false =>
        left
        by_cases hc : c = .phaseReady
        · subst hc
          by_cases hs : s.power.stage = .longCheck
          · exact .inl (execPhaseReady_ready (s := s.withPending rest) hs ht).1
          · injection ht with ht; subst ht
            rw [if_neg (by simpa using hs)]
            exact .inr h
        · exact .inr (exec_atRest c (s := s.withPending rest) hn h hc ht)

end Sys2Proof.Machine
end

