-- ==== Sys2Proof/Laws/Wire.lean ====
section
/-! SUPPORT. Bytes, decimal digits and check codes: what is written reads back, and how large a field can be. -/

namespace Sys2Proof

/-! ### Decimal digits -/

theorem bcdValue_lt (n : Nat) : ∀ v, bcdOk n v = true → bcdValue n v < 10 ^ n := by
  induction n with
  | zero => intro v _; simp [bcdValue]
  | succ n ih =>
    intro v h
    simp only [bcdOk, Bool.and_eq_true, decide_eq_true_eq] at h
    have := ih _ h.2
    simp only [bcdValue, Nat.pow_succ]
    omega

theorem toBcd_lt (n : Nat) : ∀ v, toBcd n v < 16 ^ n := by
  induction n with
  | zero => intro v; simp [toBcd]
  | succ n ih =>
    intro v
    have := ih (v / 10)
    simp only [toBcd, Nat.pow_succ]
    omega

theorem bcd_toBcd (n : Nat) : ∀ v, bcdOk n (toBcd n v) = true ∧ bcdValue n (toBcd n v) = v % 10 ^ n := by
  induction n with
  | zero => intro v; simp [bcdOk, bcdValue, Nat.mod_one]
  | succ n ih =>
    intro v
    have h1 := ih (v / 10)
    have h2 : (v % 10 + 16 * toBcd n (v / 10)) % 16 = v % 10 := by omega
    have h3 : (v % 10 + 16 * toBcd n (v / 10)) / 16 = toBcd n (v / 10) := by omega
    simp only [toBcd, bcdOk, bcdValue, h2, h3, h1.1, h1.2, Bool.and_true, decide_eq_true_eq]
    refine ⟨by omega, ?_⟩
    rw [Nat.pow_succ, Nat.mul_comm (10 ^ n) 10, Nat.mod_mul]

theorem B4.value_le (d : B4) : B4.value d ≤ 9999 := by
  unfold B4.value
  split
  · rename_i h
    have := bcdValue_lt 4 _ h
    omega
  · omega

theorem B6.value_le (d : B6) : B6.value d ≤ 999999 := by
  unfold B6.value
  split
  · rename_i h
    have := bcdValue_lt 6 _ h
    omega
  · omega

theorem S8.value_bounds (a : S8) : -99999999 ≤ a.value ∧ a.value ≤ 99999999 := by
  unfold S8.value
  split
  · rename_i h
    simp only [S8.ok, Bool.and_eq_true] at h
    have := bcdValue_lt 8 _ h.2
    split <;> omega
  · omega

theorem S8.ofInt_ok (v : Int) : (S8.ofInt v).ok = true := by
  have h1 := bcd_toBcd 8 v.natAbs
  have h2 := toBcd_lt 8 v.natAbs
  have h3 : (BitVec.ofNat 32 (toBcd 8 v.natAbs)).toNat = toBcd 8 v.natAbs := by
    rw [BitVec.toNat_ofNat]
    exact Nat.mod_eq_of_lt (by omega)
  unfold S8.ok S8.ofInt
  simp only [h3, h1.1, Bool.and_true]
  split <;> decide

/-- R48, R170: the eight-digit field the chip writes for a number in range spells that number. -/
theorem S8.value_ofInt {v : Int} (h : -99999999 ≤ v ∧ v ≤ 99999999) : (S8.ofInt v).value = v := by
  have h1 := bcd_toBcd 8 v.natAbs
  have h2 := toBcd_lt 8 v.natAbs
  have h3 : (BitVec.ofNat 32 (toBcd 8 v.natAbs)).toNat = toBcd 8 v.natAbs := by
    rw [BitVec.toNat_ofNat]
    exact Nat.mod_eq_of_lt (by omega)
  have h4 : v.natAbs % 10 ^ 8 = v.natAbs := Nat.mod_eq_of_lt (by omega)
  simp only [S8.value, S8.ofInt_ok, if_true]
  simp only [S8.ofInt, h3, h1.2, h4]
  by_cases hv : v < 0
  · simp only [hv, if_true, beq_self_eq_true]
    omega
  · have : (plusCode == minusCode) = false := by decide
    simp only [hv, if_false, this, Bool.false_eq_true]
    omega

/-! ### Bytes -/

@[simp] theorem beBytes_length (n : Nat) : ∀ v, (beBytes n v).length = n := by
  induction n with
  | zero => intro v; rfl
  | succ n ih => intro v; simp [beBytes, ih]

theorem beNat_append (bs : List Byte) (b : Byte) : beNat (bs ++ [b]) = beNat bs * 256 + b.toNat := by
  simp [beNat, List.foldl_append]

theorem beNat_beBytes (n : Nat) : ∀ v, beNat (beBytes n v) = v % 256 ^ n := by
  induction n with
  | zero => intro v; simp [beBytes, beNat, Nat.mod_one]
  | succ n ih =>
    intro v
    have h : v % 256 ^ (n + 1) = v % 256 + 256 * (v / 256 % 256 ^ n) := by
      rw [Nat.pow_succ, Nat.mul_comm (256 ^ n) 256, Nat.mod_mul]
    rw [beBytes, beNat_append, ih, BitVec.toNat_ofNat, h]
    omega

/-- A field read from the bytes that a number was written to. -/
theorem fieldOf_beBytes (w n : Nat) (x : BitVec w) (rest : List Byte) (h : w = 8 * n) :
    fieldOf w n (beBytes n x.toNat ++ rest) = x := by
  unfold fieldOf
  rw [List.take_append_of_le_length (by simp), List.take_of_length_le (by simp), beNat_beBytes]
  apply BitVec.eq_of_toNat_eq
  rw [BitVec.toNat_ofNat]
  have h1 := x.isLt
  have h2 : 256 ^ n = 2 ^ w := by
    rw [h, show (256 : Nat) = 2 ^ 8 from rfl, ← Nat.pow_mul]
  rw [h2, Nat.mod_mod, Nat.mod_eq_of_lt h1]

theorem fieldOf_byte (b : Byte) (rest : List Byte) : fieldOf 8 1 (b :: rest) = b := by
  simp [fieldOf, beNat]

/-! ### The CRC -/

theorem crcBytes_length (bs : List Byte) : (crcBytes bs).length = 2 := by simp [crcBytes]

/-- R169: bytes followed by their CRC have a good CRC. -/
theorem crcGood_append (bs : List Byte) : crcGood (bs ++ crcBytes bs) = true := by
  have h : (bs ++ crcBytes bs).length - 2 = bs.length := by simp [crcBytes_length]
  simp only [crcGood, h, List.drop_left, List.take_left, beq_self_eq_true, Bool.and_true, decide_eq_true_eq]
  simp [crcBytes_length]

/-! ### Handles, tickets and eight-digit fields -/

theorem Handle.bytes_length (h : Handle) : h.bytes.length = 3 := by simp [Handle.bytes]
theorem S8.bytes_length (a : S8) : a.bytes.length = 5 := by simp [S8.bytes]
theorem Ticket.bytes_length (t : Ticket) : t.bytes.length = 2 := rfl

theorem Handle.ofBytes_bytes (h : Handle) (rest : List Byte) : Handle.ofBytes (h.bytes ++ rest) = h := by
  have h1 : (h.bytes ++ rest).drop 2 = h.gen :: rest := by
    simp only [Handle.bytes, List.append_assoc]
    rw [List.drop_append_of_le_length (by simp), List.drop_of_length_le (by simp)]
    rfl
  unfold Handle.ofBytes
  rw [h1, fieldOf_byte]
  simp only [Handle.bytes, List.append_assoc, fieldOf_beBytes 16 2 h.slot _ rfl]

theorem Ticket.ofBytes_bytes (t : Ticket) (rest : List Byte) : Ticket.ofBytes (t.bytes ++ rest) = t := by
  simp [Ticket.ofBytes, Ticket.bytes, fieldOf_byte]

theorem S8.ofBytes_bytes (a : S8) (rest : List Byte) : S8.ofBytes (a.bytes ++ rest) = a := by
  simp [S8.ofBytes, S8.bytes, fieldOf_byte, fieldOf_beBytes 32 4 a.digits _ rfl]

/-! ### Command blocks -/

/-- R154, R155: a block of an opcode, its length, its fields and their CRC decodes by its fields. -/
theorem decodeBlock_frame (opcode : Byte) (fields extra : List Byte) (c : Command) (h : fields.length < 252)
    (h1 : commandLength opcode.toNat = some fields.length) (h2 : commandFields opcode.toNat fields = some c) :
    decodeBlock (([opcode, BitVec.ofNat 8 fields.length] ++ fields) ++
      crcBytes ([opcode, BitVec.ofNat 8 fields.length] ++ fields) ++ extra) = .ok c := by
  have hlen : (BitVec.ofNat 8 fields.length).toNat = fields.length := by
    rw [BitVec.toNat_ofNat]
    exact Nat.mod_eq_of_lt (by omega)
  have hext : blockExtent (([opcode, BitVec.ofNat 8 fields.length] ++ fields) ++
      crcBytes ([opcode, BitVec.ofNat 8 fields.length] ++ fields) ++ extra) =
      some (([opcode, BitVec.ofNat 8 fields.length] ++ fields) ++
        crcBytes ([opcode, BitVec.ofNat 8 fields.length] ++ fields)) := by
    generalize hc : crcBytes ([opcode, BitVec.ofNat 8 fields.length] ++ fields) = crc
    have hcl : crc.length = 2 := by rw [← hc, crcBytes_length]
    simp only [List.cons_append, List.nil_append, List.append_assoc, blockExtent, hlen, List.length_cons,
      List.length_append, hcl]
    rw [if_neg (by omega)]
    congr 1
    rw [← List.append_assoc, ← List.cons_append, ← List.cons_append, List.take_append_of_le_length (by simp [hcl]),
      List.take_of_length_le (by simp [hcl])]
  have hfields : ((([opcode, BitVec.ofNat 8 fields.length] ++ fields) ++
      crcBytes ([opcode, BitVec.ofNat 8 fields.length] ++ fields)).drop 2).take
      ((([opcode, BitVec.ofNat 8 fields.length] ++ fields) ++
        crcBytes ([opcode, BitVec.ofNat 8 fields.length] ++ fields)).length - 4) = fields := by
    generalize hc : crcBytes ([opcode, BitVec.ofNat 8 fields.length] ++ fields) = crc
    have hcl : crc.length = 2 := by rw [← hc, crcBytes_length]
    simp [hcl]
  unfold decodeBlock
  simp only [hext, crcGood_append, if_true, hfields]
  simp only [List.cons_append, List.headD_cons, h1, h2]
  simp

/-- R154: the extent is complete when the fields and the CRC follow the length. -/
theorem blockExtent_cons (b len : Byte) (rest : List Byte) :
    blockExtent (b :: len :: rest) =
      if rest.length < len.toNat + 2 then none else some ((b :: len :: rest).take (len.toNat + 4)) := by
  simp only [blockExtent, List.length_cons]
  by_cases h : rest.length < len.toNat + 2
  · rw [if_pos h, if_pos (by omega)]
  · rw [if_neg h, if_neg (by omega)]

/-- R171: the table gives fields and a length to the opcodes 0 to 24, and to no other. -/
theorem commandFields_isSome (n : Nat) (f : List Byte) :
    (commandFields n f).isSome = (commandLength n).isSome ∧ (commandLength n).isSome = decide (n ≤ 24) := by
  rcases Nat.lt_or_ge 24 n with h | h
  · have h1 : commandLength n = none := by
      unfold commandLength
      split <;> first | omega | rfl
    have h2 : commandFields n f = none := by
      unfold commandFields
      split <;> first | omega | rfl
    simp [h1, h2]; omega
  · have : n = 0 ∨ n = 1 ∨ n = 2 ∨ n = 3 ∨ n = 4 ∨ n = 5 ∨ n = 6 ∨ n = 7 ∨ n = 8 ∨ n = 9 ∨ n = 10 ∨ n = 11 ∨ n = 12 ∨
      n = 13 ∨ n = 14 ∨ n = 15 ∨ n = 16 ∨ n = 17 ∨ n = 18 ∨ n = 19 ∨ n = 20 ∨ n = 21 ∨ n = 22 ∨ n = 23 ∨ n = 24 := by omega
    rcases this with rfl | rfl | rfl | rfl | rfl | rfl | rfl | rfl | rfl | rfl | rfl | rfl | rfl | rfl | rfl | rfl | rfl | rfl |
      rfl | rfl | rfl | rfl | rfl | rfl | rfl <;> exact ⟨rfl, rfl⟩

/-- R171: the fields of an opcode make a command of that opcode. -/
theorem commandFields_opcode {b : Byte} {f : List Byte} {c : Command} (h : commandFields b.toNat f = some c) :
    c.opcode = b := by
  have hb : b = BitVec.ofNat 8 b.toNat := by simp
  rw [hb]
  generalize b.toNat = n at h ⊢
  unfold commandFields at h
  split at h <;> first | (cases h; rfl) | (exact absurd h (by simp))

/-- R154, R155: what the screening of a block depends on, over its bytes up to the extent. -/
theorem decodeBlock_cons (b len : Byte) (rest : List Byte) :
    decodeBlock (b :: len :: rest) =
      let n := len.toNat
      let bytes := b :: len :: rest
      if rest.length < n + 2 then .error .crcError
      else if (bytes.drop (n + 2)).take 2 = crcBytes (bytes.take (n + 2)) then
        match commandLength b.toNat, commandFields b.toNat (rest.take n) with
        | some m, some c => if n = m then .ok c else .error .badLength
        | _, _ => .error .badCommand
      else .error .crcError := by
  unfold decodeBlock
  rw [blockExtent_cons]
  dsimp only
  by_cases h : rest.length < len.toNat + 2
  · simp only [h, if_true]
  · have hl : ((b :: len :: rest).take (len.toNat + 4)).length = len.toNat + 4 := by simp; omega
    have h1 : ((b :: len :: rest).take (len.toNat + 4)).drop (len.toNat + 2) =
        ((b :: len :: rest).drop (len.toNat + 2)).take 2 := by
      rw [List.take_drop]
    have h2 : ((b :: len :: rest).take (len.toNat + 4)).take (len.toNat + 2) = (b :: len :: rest).take (len.toNat + 2) := by
      rw [List.take_take, Nat.min_eq_left (by omega)]
    have h3 : (((b :: len :: rest).take (len.toNat + 4)).drop 2).take len.toNat = rest.take len.toNat := by
      simp [List.take_take]
    have h4 : ((b :: len :: rest).take (len.toNat + 4)).headD 0 = b := rfl
    have hg : crcGood ((b :: len :: rest).take (len.toNat + 4)) =
        decide (((b :: len :: rest).drop (len.toNat + 2)).take 2 = crcBytes ((b :: len :: rest).take (len.toNat + 2))) := by
      simp only [crcGood, hl, show len.toNat + 4 - 2 = len.toNat + 2 from rfl, h1, h2]
      rw [decide_eq_true (by omega), Bool.true_and]
      exact Bool.beq_eq_decide_eq _ _
    have h5 : (rest.take len.toNat).length = len.toNat := by rw [List.length_take]; omega
    simp only [h, if_false, hg, decide_eq_true_eq, hl, Nat.add_sub_cancel, h3, h4, h5] <;> rfl

theorem fieldOf_at {w n : Nat} {x : BitVec w} {bytes : List Byte} (h : bytes = beBytes n x.toNat ++ bytes.drop n)
    (hw : w = 8 * n) : fieldOf w n bytes = x := by
  rw [h, fieldOf_beBytes w n x _ hw]

end Sys2Proof
end

