-- ==== Sys2Proof/Laws/Units.lean ====
section
/-! SUPPORT. What the shared parts of the units' commands come to: the endings of holds, the index searches, the command
unit's placing, the resets, the frame of a command block. -/

namespace Sys2Proof.Machine

/-! ### Endings of holds (R59, R79) -/

theorem State.engine_dueTest (s : State) (g : Lane) :
    s.dueTest.engine g = { s.engine g with expiry := (s.dueTest.engine g).expiry } := by
  obtain ⟨more, h, _⟩ := (State.dueTest_sub s).2 g
  rw [h]

theorem State.engine_dropDeadline (s : State) (g m : Lane) (t : Ticket) :
    (s.dropDeadline g t).engine m = { s.engine m with expiry := ((s.dropDeadline g t).engine m).expiry } := by
  unfold State.dropDeadline
  split
  · simp
  · by_cases h : m = g
    · subst h
      simp
    · simp [State.engine_modifyEngine_ne _ _ h]

/-- An ending changes nothing of an engine but its expiry claims. -/
theorem State.engine_endHold (s : State) (g m : Lane) (t : Ticket) (e : HoldEntry) (r : Record) (v : Option Int) :
    (s.endHold g t e r v).engine m = { s.engine m with expiry := ((s.endHold g t e r v).engine m).expiry } := by
  unfold State.endHold
  dsimp only
  split <;> rw [State.engine_dueTest] <;> simp <;> rw [State.engine_dropDeadline] <;> simp

/-- A charged ending is the ending with its new balance, and the notice of R59. -/
theorem State.chargeHold_spec (s : State) (g : Lane) (t : Ticket) (e : HoldEntry) (r : Record) (c : Int) :
    let x := s.chargeHold g t e r c
    let y := s.endHold g t e r (chargedBalance r c)
    x.accounts = y.accounts ∧ x.holds = y.holds ∧ x.deadlines = y.deadlines ∧ x.engines = y.engines ∧
      x.indexUnit = y.indexUnit ∧ x.links = y.links ∧ x.cmd = y.cmd ∧
      s.noticed x (if 0 < c ∧ (r.lowValue : Int) ≤ r.bal ∧ r.bal - c < r.lowValue then
        [.lowBalance ⟨BitVec.ofNat 16 e.slot, r.gen⟩ (S8.ofInt (r.bal - c))] else []) := by
  simp only [State.chargeHold, chargedBalance]
  by_cases h : 0 < c
  · simp only [h, if_true, true_and]
    refine ⟨by simp, by simp, by simp, by simp, by simp, by simp, by simp, ?_⟩
    have hn := State.noticed_postLow (s := s.endHold g t e r (some (r.bal - c)))
      (t := (s.endHold g t e r (some (r.bal - c))).postLow e.slot r (r.bal - c)) e.slot r (r.bal - c) rfl
    have hc : crossesLow r (r.bal - c) = true ↔ (r.lowValue : Int) ≤ r.bal ∧ r.bal - c < r.lowValue := by
      rw [crossesLow_iff]
      exact ⟨fun h => h.2, fun h' => ⟨by omega, h'⟩⟩
    simp only [hc] at hn
    exact State.noticed_congr (by simp) rfl hn
  · simp only [h, if_false, false_and]
    exact ⟨trivial, trivial, trivial, trivial, trivial, trivial, trivial, State.noticed_of_eq (by simp)⟩

theorem State.power_chargeHold (s : State) (g : Lane) (t : Ticket) (e : HoldEntry) (r : Record) (c : Int) :
    (s.chargeHold g t e r c).power = (s.endHold g t e r (chargedBalance r c)).power := by
  unfold State.chargeHold
  dsimp only
  split <;> simp

/-- A state that agrees in what an ending writes with the ending behind a verification has ended the hold. -/
theorem State.holdEnded_of_noted (s : State) (g : Lane) (t : Ticket) (e : HoldEntry) (r : Record) (v : Option Int)
    (f : Finder) (x : State)
    (h1 : x.accounts = (((s.endOp g).noteMismatch e.slot (!r.verifies) f).endHold g t e r v).accounts)
    (h2 : x.holds = (((s.endOp g).noteMismatch e.slot (!r.verifies) f).endHold g t e r v).holds)
    (h3 : x.deadlines = (((s.endOp g).noteMismatch e.slot (!r.verifies) f).endHold g t e r v).deadlines)
    (h4 : x.engines = (((s.endOp g).noteMismatch e.slot (!r.verifies) f).endHold g t e r v).engines)
    (h5 : x.indexUnit = (((s.endOp g).noteMismatch e.slot (!r.verifies) f).endHold g t e r v).indexUnit) :
    s.holdEnded x g t e r v :=
  State.holdEnded_congr rfl rfl rfl rfl rfl (fun _ => rfl) h1 h2 h3 h5 (fun _ => by simp [State.engine, h4])
    (State.holdEnded_endHold s g t e r v f)

/-- The same where the record read verifies, so that the verification writes nothing. -/
theorem State.holdEnded_of_endHold (s : State) (g : Lane) (t : Ticket) (e : HoldEntry) (r : Record) (v : Option Int)
    (x : State) (hv : r.verifies = true) (h1 : x.accounts = ((s.endOp g).endHold g t e r v).accounts)
    (h2 : x.holds = ((s.endOp g).endHold g t e r v).holds)
    (h3 : x.deadlines = ((s.endOp g).endHold g t e r v).deadlines)
    (h4 : x.engines = ((s.endOp g).endHold g t e r v).engines)
    (h5 : x.indexUnit = ((s.endOp g).endHold g t e r v).indexUnit) : s.holdEnded x g t e r v := by
  apply State.holdEnded_of_noted s g t e r v .operation <;> simpa [hv, State.noteMismatch_false]

/-- An ending behind a verification, at every engine: g's operation is over, and only expiry claims have changed. -/
theorem State.engine_ended (s x : State) (g : Lane) (t : Ticket) (e : HoldEntry) (r : Record) (v : Option Int) (b : Bool)
    (f : Finder) (h : x.engines = (((s.endOp g).noteMismatch e.slot b f).endHold g t e r v).engines) (m : Lane) :
    x.engine m = { s.engine m with op := if m = g then none else (s.engine m).op, expiry := (x.engine m).expiry } := by
  have hx : x.engine m = (((s.endOp g).noteMismatch e.slot b f).endHold g t e r v).engine m := by simp [State.engine, h]
  rw [hx, State.engine_endHold]
  by_cases hm : m = g
  · subst hm
    simp
  · simp [State.engine_endOp_ne _ hm, hm]

/-- An ending behind a verification, with no deadline reached: power control is as it was. -/
theorem State.power_ended (s x : State) (g : Lane) (t : Ticket) (e : HoldEntry) (r : Record) (v : Option Int) (b : Bool)
    (f : Finder) (h : x.power = (((s.endOp g).noteMismatch e.slot b f).endHold g t e r v).power)
    (ahead : ∀ i ∈ s.deadlines, s.timebase < i.deadline) : x.power = s.power := by
  rw [h, State.power_endHold _ _ _ _ _ _ (by simpa using ahead)]
  simp

/-- R79, R82, R83: the record after an ending as its response reports it. -/
theorem endedRecord_spec (r : Record) (t : Ticket) (e : HoldEntry) (c : Int) (hc : 0 ≤ c) (h : -99999999 ≤ r.bal - c) :
    let x := endedRecord r t e c
    x.balance.sent = (if 0 < c then (S8.ofInt (r.bal - c)).sent else r.balance.sent) ∧ x.held = heldWithout r.held e.amount ∧
      x.holds = r.holds.filter (· ≠ t) ∧ x.spendable = r.bal - c + r.floorValue - (heldWithout r.held e.amount : Nat) ∧
      x.state = (if r.state = .closing ∧ r.holds.filter (· ≠ t) = [] then .gone else r.state) ∧
      x.suspect = (r.suspect || !r.verifies) := by
  have hs := recordAfterEnding_spec r.found (endsClosing r t) t e.amount (chargedBalance r c)
  have hb : (recordAfterEnding r.found (endsClosing r t) t e.amount (chargedBalance r c)).bal = r.bal - c := by
    have h1 := S8.value_bounds r.balance
    unfold Record.bal at h ⊢
    rw [hs.2.2.1]
    simp only [chargedBalance, Record.bal]
    by_cases hp : 0 < c
    · simp only [hp, if_true]
      exact S8.value_ofInt ⟨by omega, by omega⟩
    · have : c = 0 := by omega
      subst this
      simp only [Int.lt_irrefl, if_false, Int.sub_zero]
      rfl
  have hf : (recordAfterEnding r.found (endsClosing r t) t e.amount (chargedBalance r c)).floorValue = r.floorValue := by
    simp only [Record.floorValue, hs.2.2.2.2.2.2.2.2.1]
    rfl
  simp only [endedRecord]
  refine ⟨?_, hs.1, hs.2.1, ?_, ?_, hs.2.2.2.2.2.1⟩
  · rw [hs.2.2.1]
    simp only [chargedBalance]
    by_cases hp : 0 < c <;> simp [hp, Record.found]
  · simp only [Record.spendable, hb, hf, hs.1]
    rfl
  · simp only [← endsClosing_iff]
    have h1 : ∀ x : Record, x.stateCode = (if endsClosing r t = true then AcctState.gone.code else r.found.stateCode) →
        x.state = if endsClosing r t = true then .gone else r.state := by
      intro x hx
      unfold Record.state
      rw [hx]
      by_cases hp : endsClosing r t = true
      · simp only [hp, if_true]
        rfl
      · simp only [hp]
        rfl
    exact h1 _ hs.2.2.2.1

theorem ownerCheck_iff {o : Origin} {e : HoldEntry} : ownerCheck o e = true ↔ o.link = e.link ∧ o.epoch = e.epoch := by
  simp [ownerCheck]

/-- R59: the clamp at the lower limit. -/
theorem clampCharge_eq (b c : Int) :
    clampCharge b c = (if b - c < -99999999 then b + 99999999 else c, decide (b - c < -99999999)) := by
  unfold clampCharge
  show (if b - c < -99999999 then (b + 99999999, true) else (c, false)) = _
  split <;> simp_all

/-! ### Searches (R6, R73, R116) -/

theorem lowestFrom_some (p : Nat → Bool) : ∀ (fuel a n : Nat), a ≤ n → n < a + fuel → p n = true →
    (∀ m, a ≤ m → m < n → p m = false) → lowestFrom p fuel a = some n := by
  intro fuel
  induction fuel with
  | zero =>
    intro a n h1 h2
    omega
  | succ fuel ih =>
    intro a n h1 h2 h3 h4
    unfold lowestFrom
    by_cases he : a = n
    · subst he
      simp [h3]
    · rw [h4 a (Nat.le_refl _) (by omega)]
      simp only [Bool.false_eq_true, if_false]
      exact ih (a + 1) n (by omega) (by omega) h3 fun m hm hn => h4 m (by omega) hn

theorem lowestFrom_none (p : Nat → Bool) : ∀ (fuel a : Nat), (∀ m, a ≤ m → m < a + fuel → p m = false) →
    lowestFrom p fuel a = none := by
  intro fuel
  induction fuel with
  | zero => exact fun _ _ => rfl
  | succ fuel ih =>
    intro a h
    unfold lowestFrom
    rw [h a (Nat.le_refl _) (by omega)]
    simp only [Bool.false_eq_true, if_false]
    exact ih (a + 1) fun m hm hn => h m (by omega) (by omega)

/-- R10: the keys that may be used. -/
theorem keyInRange_iff {k : Key} : keyInRange k = true ↔ k ≠ 0 ∧ k ≠ 4294967295 := by
  have := k.isLt
  simp only [keyInRange, Bool.and_eq_true, decide_eq_true_eq]
  constructor
  · rintro ⟨h1, h2⟩
    constructor <;> rintro rfl
    · exact absurd h1 (by decide)
    · exact absurd h2 (by decide)
  · rintro ⟨h1, h2⟩
    have h3 : k.toNat ≠ 0 := fun h => h1 (BitVec.eq_of_toNat_eq h)
    have h4 : k.toNat ≠ 4294967295 := fun h => h2 (BitVec.eq_of_toNat_eq h)
    omega

theorem mem_waysOf {b w : Nat} (h : w ∈ waysOf b) : 8 * b ≤ w ∧ w < 8 * b + 8 := by
  simp [waysOf] at h
  omega

/-! ### Records -/

/-- R3: the code of a decoded state is the code that was decoded. -/
theorem Record.code_of_state {r : Record} (h : r.stateCode.toNat ≤ 5) : r.state.code = r.stateCode := by
  obtain ⟨c, k, g, b, f, l, t, su, cc, he, ho⟩ := r
  simp only at h
  show (Record.state _).code = c
  have h6 : c.toNat = 0 ∨ c.toNat = 1 ∨ c.toNat = 2 ∨ c.toNat = 3 ∨ c.toNat = 4 ∨ c.toNat = 5 := by omega
  have h7 : c = 0 ∨ c = 1 ∨ c = 2 ∨ c = 3 ∨ c = 4 ∨ c = 5 := by
    rcases h6 with h6 | h6 | h6 | h6 | h6 | h6
    · exact .inl (BitVec.eq_of_toNat_eq h6)
    · exact .inr (.inl (BitVec.eq_of_toNat_eq h6))
    · exact .inr (.inr (.inl (BitVec.eq_of_toNat_eq h6)))
    · exact .inr (.inr (.inr (.inl (BitVec.eq_of_toNat_eq h6))))
    · exact .inr (.inr (.inr (.inr (.inl (BitVec.eq_of_toNat_eq h6)))))
    · exact .inr (.inr (.inr (.inr (.inr (BitVec.eq_of_toNat_eq h6)))))
  rcases h7 with h | h | h | h | h | h <;> subst h <;> rfl

theorem Record.code_of_verifies {r : Record} (h : r.verifies = true) : r.stateCode.toNat ≤ 5 := by
  unfold Record.verifies at h
  have hd : r.decodable = true := by
    simp at h
    exact h.1
  unfold Record.decodable at hd
  simp at hd
  omega

/-! ### The command unit -/

/-- R27: a request is placed at once where the queue has a place. -/
theorem State.placeMgmt_of_room {s : State} {g : Lane} (m : MgmtReq) (h : (s.engine g).queue.length < 8) :
    s.placeMgmt g m = s.enqueue g (.mgmt m) := by
  simp [State.placeMgmt, State.queueRoom, h]

theorem State.isBusy_iff {s : State} : s.isBusy = true ↔ ∃ j, s.cmd.state = .busy j := by
  unfold State.isBusy
  cases s.cmd.state <;> simp

/-- Every row that stands for a command block takes its command through the screening. -/
theorem exec_rowOf (c : Command) (s : State) :
    exec (rowOf c) s = .next (s.command c.opcode (takeCommand c)) := by
  cases c <;> rfl

/-! ### Completions of management commands (R31, R33) -/

theorem State.reply_endOp (s : State) (g : Lane) (opcode : Byte) (st : Status) (body : MgmtBody) :
    (s.endOp g).reply opcode st body = s.completed g opcode st body := rfl

/-- R33: a verification that finds a match leaves the end of the operation alone. -/
theorem State.endVerified_verified {op : Operation} (s : State) (g : Lane) (slot : Nat) (h : op.record.verifies = true) :
    s.endVerified g op slot = s.endOp g := by
  simp [State.endVerified, h, State.noteMismatch_false]

/-- R33: an answer behind a verification, with no other write. -/
theorem State.completedNoted_reply (s : State) (g : Lane) (op : Operation) (slot : Nat) (opcode : Byte) (st : Status)
    (body : MgmtBody) :
    s.completedNoted ((s.endVerified g op slot).reply opcode st body) g slot op.record opcode st body := by
  refine ⟨State.onlyFlags_noteMismatch (x := s.endOp g) _ _ (by simp) (by simp) (by simp [State.endVerified])
    (by simp [State.endVerified]), ?_⟩
  rw [← State.reply_endOp]
  apply State.eq_of_fields <;> simp [State.reply, State.endVerified]

/-- R33: the notices of a state that differs from the end of a verified operation elsewhere. -/
theorem State.noticed_endVerified {s t : State} {g : Lane} {op : Operation} {slot : Nat}
    (h : t.notices = (s.endVerified g op slot).notices) : s.noticed t (s.suspectNotice slot (!op.record.verifies)) :=
  State.noticed_congr (by simp) h.symm (State.noticed_noteMismatch (s.endOp g) slot (!op.record.verifies) .operation)

/-! ### Resets (R23, R74) -/

theorem State.hold_resetEvent (s : State) (c : StartCause) (h : s.canonical) (n : Nat) :
    (s.resetEvent c).hold n = HoldEntry.freed (s.hold n).serial := by
  show Table.get _ (mapTable _ _ _) n = _
  rw [Table.get_mapTable HoldEntry.cold _ rfl _ 0 n h.2.2.1]
  rfl

theorem Record.afterReset_cold : Record.afterReset Record.cold = Record.cold := by
  simp [Record.afterReset, Record.cold, Record.freed, Record.seal, Record.covered]

theorem State.record_resetEvent (s : State) (c : StartCause) (h : s.canonical) (n : Nat) :
    (s.resetEvent c).record n = { s.record n with held := 0, holds := [] } := by
  show Table.get _ (mapTable _ _ _) n = _
  rw [Table.get_mapTable Record.cold _ Record.afterReset_cold _ 0 n h.1]
  rfl

end Sys2Proof.Machine
end

