-- ==== Sys2Proof/Laws/Tasks.lean ====
section
/-! SUPPORT. The work of the command in progress: where it stands, and that most rows add none (R109, R153). -/

namespace Sys2Proof.Machine

/-! ### Counting tasks -/

theorem toNat_le_toNat {a b : Bool} (h : a = true → b = true) : a.toNat ≤ b.toNat := by
  cases a <;> cases b <;> simp_all

theorem countP_pos_of_mem {p : α → Bool} {l : List α} {a : α} (h : a ∈ l) (hp : p a = true) : 1 ≤ l.countP p :=
  List.countP_pos_iff.2 ⟨a, h, hp⟩

/-- The tasks of all, taken apart at one engine. -/
theorem State.tasks_split (s : State) (g : Lane) : ∃ rest : Nat, s.tasks = (s.engine g).tasks + rest ∧
    ∀ t : State, (∀ m, m ≠ g → (t.engine m).tasks ≤ (s.engine m).tasks) → t.indexUnit.tasks ≤ s.indexUnit.tasks →
      t.cmd.held.isSome.toNat ≤ s.cmd.held.isSome.toNat → t.tasks ≤ (t.engine g).tasks + rest := by
  unfold State.tasks
  match g with
  | 0 => exact ⟨_, by rw [Nat.add_assoc, Nat.add_assoc, Nat.add_assoc, Nat.add_assoc], fun t h hu hc => by
      have := h 1 (by decide); have := h 2 (by decide); have := h 3 (by decide); omega⟩
  | 1 => exact ⟨(s.engine 0).tasks + (s.engine 2).tasks + (s.engine 3).tasks + s.indexUnit.tasks + s.cmd.held.isSome.toNat,
      by omega, fun t h hu hc => by
      have := h 0 (by decide); have := h 2 (by decide); have := h 3 (by decide); omega⟩
  | 2 => exact ⟨(s.engine 0).tasks + (s.engine 1).tasks + (s.engine 3).tasks + s.indexUnit.tasks + s.cmd.held.isSome.toNat,
      by omega, fun t h hu hc => by
      have := h 0 (by decide); have := h 1 (by decide); have := h 3 (by decide); omega⟩
  | 3 => exact ⟨(s.engine 0).tasks + (s.engine 1).tasks + (s.engine 2).tasks + s.indexUnit.tasks + s.cmd.held.isSome.toNat,
      by omega, fun t h hu hc => by
      have := h 0 (by decide); have := h 1 (by decide); have := h 2 (by decide); omega⟩

theorem State.engine_tasks_le (s : State) (g : Lane) : (s.engine g).tasks ≤ s.tasks := by
  obtain ⟨rest, hs, -⟩ := s.tasks_split g
  omega

theorem State.tasks_of_places {s : State} {g : Lane} {m : MgmtReq} (h : s.places g (.mgmt m)) : 1 ≤ s.tasks := by
  rcases h with h | ⟨op, h, hw⟩ | h
  · have h1 : 1 ≤ (s.engine g).tasks := by
      have := countP_pos_of_mem (p := fun r => (Work.request r).isTask) h rfl
      unfold Engine.tasks
      omega
    exact Nat.le_trans h1 (s.engine_tasks_le g)
  · have h1 : 1 ≤ (s.engine g).tasks := by
      unfold Engine.tasks
      rw [h]
      simp [hw, Work.isTask]
    exact Nat.le_trans h1 (s.engine_tasks_le g)
  · unfold State.tasks
    rw [h]
    simp

theorem State.tasks_of_insert {s : State} {key : Key} {n : Nat} (h : s.updating (.insert key n)) : 1 ≤ s.tasks := by
  have h1 : 1 ≤ s.indexUnit.tasks := by
    unfold IndexUnit.tasks
    rcases h with h | h
    · have := countP_pos_of_mem (p := IndexUpdate.isInsert) h rfl
      omega
    · rw [h]
      simp [IndexOp.isInsert, IndexUpdate.isInsert]
  unfold State.tasks
  omega

/-- A key to come is a task. -/
theorem State.tasks_of_keyToCome {s : State} {key : Key} (h : s.keyToCome key) : 1 ≤ s.tasks := by
  rcases h with ⟨g, n, b, f, l, x, h⟩ | ⟨n, h⟩
  · exact State.tasks_of_places h
  · exact State.tasks_of_insert h

/-! ### Rows that add no task -/

/-- No way, no task and no key to come is added. -/
structure NoTask (s t : State) : Prop where
  way : ∀ w e, t.way w = some e → s.way w = some e
  unit : t.indexUnit.tasks ≤ s.indexUnit.tasks
  insert : ∀ key n, t.updating (.insert key n) → s.updating (.insert key n)
  held : t.cmd.held = s.cmd.held
  queue : ∀ g, (t.engine g).queue = (s.engine g).queue
  transit : ∀ g, (t.engine g).transit = (s.engine g).transit
  op : ∀ g, (t.engine g).op = none ∨ (t.engine g).op.map Operation.work = (s.engine g).op.map Operation.work

namespace NoTask

theorem refl (s : State) : NoTask s s :=
  ⟨fun _ _ h => h, Nat.le_refl _, fun _ _ h => h, rfl, fun _ => rfl, fun _ => rfl, fun _ => .inr rfl⟩

theorem trans {s t u : State} (h : NoTask s t) (h' : NoTask t u) : NoTask s u where
  way w e he := h.way w e (h'.way w e he)
  unit := Nat.le_trans h'.unit h.unit
  insert key n hu := h.insert key n (h'.insert key n hu)
  held := h'.held.trans h.held
  queue g := (h'.queue g).trans (h.queue g)
  transit g := (h'.transit g).trans (h.transit g)
  op g := by
    rcases h'.op g with e | e
    · exact .inl e
    · rcases h.op g with k | k
      · rw [k] at e
        left
        cases ho : (u.engine g).op with
        | none => rfl
        | some _ => rw [ho] at e; cases e
      · exact .inr (e.trans k)

/-- An update of everything but the stores of work. -/
theorem of_eq {s t : State} (h1 : t.index = s.index) (h2 : t.indexUnit = s.indexUnit) (h3 : t.cmd.held = s.cmd.held)
    (h4 : t.engines = s.engines) : NoTask s t where
  way w e he := by unfold State.way at *; rw [← h1]; exact he
  unit := Nat.le_of_eq (by rw [h2])
  insert key n hu := by unfold State.updating at *; rw [← h2]; exact hu
  held := h3
  queue g := by unfold State.engine; rw [h4]
  transit g := by unfold State.engine; rw [h4]
  op g := by unfold State.engine; rw [h4]; exact .inr rfl

theorem engine_tasks {s t : State} (h : NoTask s t) (g : Lane) : (t.engine g).tasks ≤ (s.engine g).tasks := by
  unfold Engine.tasks
  rw [h.queue, h.transit]
  rcases h.op g with e | e
  · rw [e]
    simp
  · have : ((t.engine g).op.any fun op => op.work.isTask) = ((s.engine g).op.any fun op => op.work.isTask) := by
      cases ht : (t.engine g).op <;> cases hs : (s.engine g).op <;> rw [ht, hs] at e <;> simp_all
    exact Nat.le_of_eq (by rw [this])

theorem tasks_le {s t : State} (h : NoTask s t) : t.tasks ≤ s.tasks := by
  have h0 := h.engine_tasks 0
  have h1 := h.engine_tasks 1
  have h2 := h.engine_tasks 2
  have h3 := h.engine_tasks 3
  have h4 := h.unit
  unfold State.tasks
  rw [h.held]
  omega

/-- Where an operation that was a task has ended, there is a task less. -/
theorem tasks_lt {s t : State} (h : NoTask s t) {g : Lane} {op : Operation} (h1 : (s.engine g).op = some op)
    (h2 : op.work.isTask = true) (h3 : (t.engine g).op = none) : t.tasks + 1 ≤ s.tasks := by
  obtain ⟨rest, hs, ht⟩ := s.tasks_split g
  have h4 := ht t (fun m _ => h.engine_tasks m) h.unit (Nat.le_of_eq (by rw [h.held]))
  have h5 : (t.engine g).tasks + 1 ≤ (s.engine g).tasks := by
    unfold Engine.tasks
    rw [h.queue, h.transit, h1, h3]
    simp [h2]
  omega

theorem places {s t : State} (h : NoTask s t) {g : Lane} {r : Request} (hp : t.places g r) : s.places g r := by
  rcases hp with hp | ⟨op, hp, hw⟩ | hp
  · exact .inl (h.queue g ▸ hp)
  · rcases h.op g with e | e
    · rw [e] at hp
      cases hp
    · rw [hp] at e
      cases ho : (s.engine g).op with
      | none => rw [ho] at e; cases e
      | some op' =>
        rw [ho] at e
        injection e with e
        exact .inr (.inl ⟨op', ho, e ▸ hw⟩)
  · exact .inr (.inr (h.held ▸ hp))

theorem keyToCome {s t : State} (h : NoTask s t) {key : Key} (hk : t.keyToCome key) : s.keyToCome key := by
  rcases hk with ⟨g, n, b, f, l, x, hk⟩ | ⟨n, hk⟩
  · exact .inl ⟨g, n, b, f, l, x, h.places hk⟩
  · exact .inr ⟨n, h.insert key n hk⟩

/-! #### The shared operations -/

theorem modifyEngine (s : State) (g : Lane) (f : Engine → Engine) (h1 : (f (s.engine g)).queue = (s.engine g).queue)
    (h2 : (f (s.engine g)).transit = (s.engine g).transit)
    (h3 : (f (s.engine g)).op = none ∨ (f (s.engine g)).op.map Operation.work = (s.engine g).op.map Operation.work) :
    NoTask s (s.modifyEngine g f) := by
  have he : ∀ m, (s.modifyEngine g f).engine m = if m = g then f (s.engine g) else s.engine m := by
    intro m
    split
    · rename_i hm
      rw [hm, State.engine_modifyEngine_same]
    · rename_i hm
      rw [State.engine_modifyEngine_ne _ _ hm]
  refine ⟨fun w e he => by simpa using he, by simp, fun key n hu => hu, by simp, fun m => ?_, fun m => ?_, fun m => ?_⟩
  all_goals
    rw [he]
    split
    · rename_i hm
      subst hm
      assumption
    · first | rfl | exact .inr rfl

theorem endOp (s : State) (g : Lane) : NoTask s (s.endOp g) := modifyEngine _ _ _ rfl rfl (.inl rfl)

theorem noteMismatch (s : State) (n : Nat) (b : Bool) (f : Finder) : NoTask s (s.noteMismatch n b f) :=
  of_eq (by simp) (by simp) (by simp) (by simp)

theorem post (s : State) (n : Notice) : NoTask s (s.post n) := of_eq (by simp) (by simp) (by simp) (by simp)

theorem postLow (s : State) (n : Nat) (r : Record) (v : Int) : NoTask s (s.postLow n r v) :=
  of_eq (by simp) (by simp) (by simp) (by simp)

theorem answer (s : State) (o : Origin) (st : Status) (b : TermBody) : NoTask s (s.answer o st b) :=
  of_eq (by simp) (by simp) (by simp) (by simp)

theorem reply (s : State) (op : Byte) (st : Status) (b : MgmtBody) : NoTask s (s.reply op st b) := of_eq rfl rfl rfl rfl

theorem writeNewBalance (s : State) (n : Nat) (r : Record) (v : Option Int) : NoTask s (s.writeNewBalance n r v) :=
  of_eq (by simp) (by simp) (by simp) (by simp)

theorem completeTerminal (s : State) (g : Lane) (op : Operation) (o : Origin) (n : Nat) (b : Bool) (v : Option Int)
    (st : Status) (body : TermBody) : NoTask s (s.completeTerminal g op o n b v st body) :=
  (((endOp _ _).trans (noteMismatch _ _ _ _)).trans (writeNewBalance _ _ _ _)).trans (answer _ _ _ _)

/-- An update of the index unit that adds no insert. -/
theorem indexUnit {s t : State} (h1 : t.index = s.index) (h2 : t.cmd.held = s.cmd.held) (h3 : t.engines = s.engines)
    (h4 : t.indexUnit.tasks ≤ s.indexUnit.tasks) (h5 : ∀ key n, t.updating (.insert key n) → s.updating (.insert key n)) :
    NoTask s t :=
  have h := of_eq (s := s) (t := { t with indexUnit := s.indexUnit }) h1 rfl h2 h3
  ⟨h.way, h4, h5, h2, h.queue, h.transit, h.op⟩

theorem postRemoval (s : State) (n : Nat) (key : Key) : NoTask s (s.postRemoval n key) := by
  refine indexUnit rfl rfl rfl ?_ (fun k m hu => ?_)
  · simp [State.postRemoval, IndexUnit.tasks, IndexUpdate.isInsert]
  · rcases hu with hu | hu
    · rw [State.postRemoval, List.mem_append] at hu
      rcases hu with hu | hu
      · exact .inl hu
      · simp at hu
    · exact .inr hu

theorem dueTest (s : State) : NoTask s s.dueTest := by
  have he := fun g => s.engine_dueTest g
  refine ⟨fun w e h => by simpa using h, by simp, fun key n hu => by simpa [State.updating] using hu, by simp,
    fun g => by rw [he], fun g => by rw [he], fun g => by rw [he]; exact .inr rfl⟩

theorem endHold (s : State) (g : Lane) (t : Ticket) (e : HoldEntry) (r : Record) (v : Option Int) :
    NoTask s (s.endHold g t e r v) := by
  unfold State.endHold
  dsimp only
  refine trans ?_ (dueTest _)
  have h1 : NoTask s (((s.modifyRecord e.slot fun stored => recordAfterEnding stored (endsClosing r t) t e.amount v).setHold
      t.entry.toNat (HoldEntry.freed (e.serial + 1))).dropDeadline g t) := by
    refine trans (t := (s.modifyRecord e.slot fun stored =>
      recordAfterEnding stored (endsClosing r t) t e.amount v).setHold t.entry.toNat (HoldEntry.freed (e.serial + 1)))
      (of_eq rfl rfl rfl rfl) ?_
    unfold State.dropDeadline
    split
    · exact of_eq rfl rfl rfl rfl
    · exact modifyEngine _ _ _ rfl rfl (.inr rfl)
  split
  · exact h1.trans (postRemoval _ _ _)
  · exact h1

end NoTask

/-! ### Rows that keep work, index and holds -/

/-- Work whose end takes nothing out of the keeping of holds and slots: neither an expiry nor a slot-free claim. -/
def Work.isPlain : Work → Bool
  | .transit _ => true
  | .slotFree _ => false
  | .expiry _ => false
  | .check _ => true
  | .request _ => true

/-- What most rows do to work, index and holds: nothing, but that a plain operation may end. -/
structure Keeps (s t : State) : Prop where
  way : ∀ w, t.way w = s.way w
  updates : t.indexUnit.updates = s.indexUnit.updates
  updating : ∀ u, t.indexUnit.op = some (.update u) ↔ s.indexUnit.op = some (.update u)
  mgmt : t.indexUnit.mgmt = s.indexUnit.mgmt ∨ t.indexUnit.mgmt = none
  held : t.cmd.held = s.cmd.held
  ready : t.isReady = s.isReady
  hold : ∀ n, t.hold n = s.hold n
  deadlines : t.deadlines = s.deadlines
  record : ∀ n, (s.record n).sameHolds (t.record n)
  queue : ∀ g, (t.engine g).queue = (s.engine g).queue
  transit : ∀ g, (t.engine g).transit = (s.engine g).transit
  slotFree : ∀ g, (t.engine g).slotFree = (s.engine g).slotFree
  expiry : ∀ g, (t.engine g).expiry = (s.engine g).expiry
  op : ∀ g, (t.engine g).op = (s.engine g).op ∨
    ((t.engine g).op = none ∧ ∃ op, (s.engine g).op = some op ∧ op.work.isPlain = true)

theorem Record.sameHolds_refl (r : Record) : r.sameHolds r := ⟨rfl, rfl, rfl⟩

theorem Record.sameHolds_trans {a b c : Record} (h : a.sameHolds b) (h' : b.sameHolds c) : a.sameHolds c :=
  ⟨h.1.trans h'.1, h.2.1.trans h'.2.1, h.2.2.trans h'.2.2⟩

namespace Keeps

theorem refl (s : State) : Keeps s s :=
  ⟨fun _ => rfl, rfl, fun _ => Iff.rfl, .inl rfl, rfl, rfl, fun _ => rfl, rfl, fun _ => Record.sameHolds_refl _,
    fun _ => rfl, fun _ => rfl, fun _ => rfl, fun _ => rfl, fun _ => .inl rfl⟩

theorem trans {s t u : State} (h : Keeps s t) (h' : Keeps t u) : Keeps s u where
  way w := (h'.way w).trans (h.way w)
  updates := h'.updates.trans h.updates
  updating u := (h'.updating u).trans (h.updating u)
  mgmt := by
    rcases h'.mgmt with e | e
    · rw [e]
      exact h.mgmt
    · exact .inr e
  held := h'.held.trans h.held
  ready := h'.ready.trans h.ready
  hold n := (h'.hold n).trans (h.hold n)
  deadlines := h'.deadlines.trans h.deadlines
  record n := Record.sameHolds_trans (h.record n) (h'.record n)
  queue g := (h'.queue g).trans (h.queue g)
  transit g := (h'.transit g).trans (h.transit g)
  slotFree g := (h'.slotFree g).trans (h.slotFree g)
  expiry g := (h'.expiry g).trans (h.expiry g)
  op g := by
    rcases h'.op g with e | ⟨e, op, e', hp⟩
    · rw [e]
      exact h.op g
    · rcases h.op g with k | ⟨k, -⟩
      · exact .inr ⟨e, op, k ▸ e', hp⟩
      · rw [k] at e'
        cases e'

/-- An update of stores and units that hold no work. -/
theorem of_eq {s t : State} (h1 : t.index = s.index) (h2 : t.indexUnit = s.indexUnit) (h3 : t.cmd.held = s.cmd.held)
    (h4 : t.isReady = s.isReady) (h5 : t.holds = s.holds) (h6 : t.deadlines = s.deadlines)
    (h7 : ∀ n, (s.record n).sameHolds (t.record n)) (h8 : ∀ g, t.engine g = s.engine g) : Keeps s t where
  way w := by unfold State.way; rw [h1]
  updates := by rw [h2]
  updating u := by rw [h2]
  mgmt := by rw [h2]; exact .inl rfl
  held := h3
  ready := h4
  hold n := by unfold State.hold; rw [h5]
  deadlines := h6
  record := h7
  queue g := by rw [h8]
  transit g := by rw [h8]
  slotFree g := by rw [h8]
  expiry g := by rw [h8]
  op g := by rw [h8]; exact .inl rfl

theorem of_accounts {s t : State} (h1 : t.index = s.index) (h2 : t.indexUnit = s.indexUnit) (h3 : t.cmd.held = s.cmd.held)
    (h4 : t.isReady = s.isReady) (h5 : t.holds = s.holds) (h6 : t.deadlines = s.deadlines)
    (h7 : t.accounts = s.accounts) (h8 : t.engines = s.engines) : Keeps s t :=
  of_eq h1 h2 h3 h4 h5 h6 (fun n => by unfold State.record; rw [h7]; exact Record.sameHolds_refl _)
    (fun g => by unfold State.engine; rw [h8])

theorem noTask {s t : State} (h : Keeps s t) : NoTask s t where
  way w e he := by rw [← h.way]; exact he
  unit := by
    have key : ∀ {a b : State}, (∀ u, a.indexUnit.op = some (.update u) → b.indexUnit.op = some (.update u)) →
        a.indexUnit.op.any IndexOp.isInsert = true → b.indexUnit.op.any IndexOp.isInsert = true := by
      intro a b hab ha
      rcases ho : a.indexUnit.op with _ | o
      · rw [ho] at ha
        cases ha
      · rcases o with u | l | _
        · rw [ho] at ha
          rw [hab u ho]
          exact ha
        · rw [ho] at ha
          cases ha
        · rw [ho] at ha
          cases ha
    have h1 := toNat_le_toNat (key (a := t) (b := s) fun u => (h.updating u).1)
    unfold IndexUnit.tasks
    rw [h.updates]
    rcases h.mgmt with e | e <;> rw [e] <;> simp <;> omega
  insert key n hu := by
    unfold State.updating at *
    rw [h.updates, h.updating] at hu
    exact hu
  held := h.held
  queue := h.queue
  transit := h.transit
  op g := by
    rcases h.op g with e | ⟨e, -⟩
    · exact .inr (by rw [e])
    · exact .inl e

/-! #### The shared operations -/

/-- A record written with the same account state and holds. -/
theorem modifyRecord (s : State) (n : Nat) (f : Record → Record) (h : (s.record n).sameHolds (f (s.record n))) :
    Keeps s (s.modifyRecord n f) := by
  refine of_eq rfl rfl rfl rfl rfl rfl (fun m => ?_) (fun g => rfl)
  by_cases hm : m = n
  · subst hm
    simpa using h
  · rw [State.record_modifyRecord_ne _ _ hm]
    exact Record.sameHolds_refl _

theorem post (s : State) (n : Notice) : Keeps s (s.post n) :=
  of_accounts (by simp) (by simp) (by simp) (by simp) (by simp) (by simp) (by simp) (by simp)

theorem noteMismatch (s : State) (n : Nat) (b : Bool) (f : Finder) : Keeps s (s.noteMismatch n b f) := by
  unfold State.noteMismatch
  dsimp only
  split
  · split
    · exact refl _
    · exact (modifyRecord s n (fun r => { r with suspect := true }) ⟨rfl, rfl, rfl⟩).trans (post _ _)
  · exact refl _

theorem writeBalance (s : State) (n : Nat) (v : Int) : Keeps s (s.writeBalance n v) :=
  modifyRecord _ _ _ ⟨rfl, rfl, rfl⟩

theorem postLow (s : State) (n : Nat) (r : Record) (v : Int) : Keeps s (s.postLow n r v) := by
  unfold State.postLow
  split
  · exact post _ _
  · exact refl _

theorem writeNewBalance (s : State) (n : Nat) (r : Record) (v : Option Int) : Keeps s (s.writeNewBalance n r v) := by
  cases v
  · exact refl _
  · exact (writeBalance _ _ _).trans (postLow _ _ _ _)

theorem answer (s : State) (o : Origin) (st : Status) (b : TermBody) : Keeps s (s.answer o st b) :=
  of_accounts (by simp) (by simp) (by simp) (by simp) (by simp) (by simp) (by simp) (by simp)

theorem reply (s : State) (op : Byte) (st : Status) (b : MgmtBody) : Keeps s (s.reply op st b) :=
  of_accounts rfl rfl rfl rfl rfl rfl rfl rfl

theorem answerAtOnce (s : State) (op : Byte) (st : Status) (b : MgmtBody) : Keeps s (s.answerAtOnce op st b) := by
  unfold State.answerAtOnce
  split
  · exact of_accounts rfl rfl rfl rfl rfl rfl rfl rfl
  · exact reply _ _ _ _

theorem wake (s : State) : Keeps s s.wake :=
  of_accounts (by simp) (by simp) (by simp) (by simp) (by simp) (by simp) (by simp) (by simp)

theorem openSelect (s : State) : Keeps s s.openSelect :=
  of_accounts (by simp) (by simp) (by simp) (by simp) (by simp) (by simp) (by simp) (by simp)

theorem closeSelect (s : State) : Keeps s s.closeSelect := of_accounts rfl rfl rfl rfl rfl rfl rfl rfl

/-- The end of a plain operation. -/
theorem endOp {s : State} {g : Lane} {op : Operation} (h : (s.engine g).op = some op) (hp : op.work.isPlain = true) :
    Keeps s (s.endOp g) := by
  have he : ∀ m, (s.endOp g).engine m = if m = g then { s.engine g with op := none } else s.engine m := by
    intro m
    split
    · rename_i hm
      rw [hm, State.engine_endOp_same]
    · rename_i hm
      rw [State.engine_endOp_ne _ hm]
  refine ⟨fun w => by simp, by simp, fun u => by simp, .inl (by simp), by simp, by simp, fun n => by simp, by simp,
    fun n => ?_, fun m => ?_, fun m => ?_, fun m => ?_, fun m => ?_, fun m => ?_⟩
  · simp only [State.endOp_frame]
    exact Record.sameHolds_refl _
  all_goals
    rw [he]
    split
    · rename_i hm
      subst hm
      first | rfl | exact .inr ⟨rfl, op, h, hp⟩
    · first | rfl | exact .inl rfl

theorem completeTerminal {s : State} {g : Lane} {op : Operation} (h : (s.engine g).op = some op)
    (hp : op.work.isPlain = true) (o : Origin) (n : Nat) (b : Bool) (v : Option Int) (st : Status) (body : TermBody) :
    Keeps s (s.completeTerminal g op o n b v st body) :=
  (((endOp h hp).trans (noteMismatch _ _ _ _)).trans (writeNewBalance _ _ _ _)).trans (answer _ _ _ _)

theorem of_checksOnly {s t : State} (h : checksOnly s t) : Keeps s t := by
  have h1 := h.1
  have h2 := h.2
  refine ⟨fun w => by rw [h1]; rfl, by rw [h1], fun u => by rw [h1], .inl (by rw [h1]), by rw [h1], by rw [h1]; rfl,
    fun n => by rw [h1]; rfl, by rw [h1], fun n => by rw [h1]; exact Record.sameHolds_refl _, fun g => by rw [h2],
    fun g => by rw [h2], fun g => by rw [h2], fun g => by rw [h2], fun g => by rw [h2]; exact .inl rfl⟩

end Keeps

/-! ### The rules of tasks and index, together -/

/-- One command at a time, one way for one key. -/
def State.oneTask (s : State) : Prop := s.taskRule ∧ s.indexRule

theorem State.tasks_le_one {s : State} (h : s.oneTask) : s.tasks ≤ 1 :=
  Nat.le_trans h.1 (by cases s.isBusy <;> simp)

/-- No way and no key is added, and the tasks are as the command unit's state allows. -/
theorem State.oneTask_of_fewer {s t : State} (h : s.oneTask) (hw : ∀ w e, t.way w = some e → s.way w = some e)
    (hk : ∀ key, t.keyToCome key → s.keyToCome key) (ht : t.tasks ≤ t.isBusy.toNat) : t.oneTask :=
  ⟨ht, fun w e he => h.2.1 w e (hw w e he), fun v w e f he hf => h.2.2.1 v w e f (hw v e he) (hw w f hf),
    fun key hc w e he => h.2.2.2 key (hk key hc) w e (hw w e he)⟩

theorem NoTask.oneTask {s t : State} (h : NoTask s t) (hb : t.isBusy = s.isBusy) (hP : s.oneTask) : t.oneTask :=
  State.oneTask_of_fewer hP h.way (fun _ => h.keyToCome) (by rw [hb]; exact Nat.le_trans h.tasks_le hP.1)

/-- The task in progress at an engine ends: the command unit may go to REPLY. -/
theorem NoTask.oneTask_ended {s t : State} (h : NoTask s t) {g : Lane} {op : Operation} (h1 : (s.engine g).op = some op)
    (h2 : op.work.isTask = true) (h3 : (t.engine g).op = none) (hP : s.oneTask) : t.oneTask :=
  State.oneTask_of_fewer hP h.way (fun _ => h.keyToCome) (by
    have h4 := h.tasks_lt h1 h2 h3
    have h5 := State.tasks_le_one hP
    omega)

end Sys2Proof.Machine
end

