-- ==== Sys2Proof/Laws/OneTask.lean ====
section
/-! SUPPORT. Row by row: the command unit's one task, and one way for one key (R109, R153). -/

namespace Sys2Proof.Machine

theorem State.terminalOp_spec {s : State} {g : Lane} {op : Operation} {o : Origin} {r : TermReq}
    (h : s.terminalOp g = some (op, o, r)) : (s.engine g).op = some op ∧ op.work = .request (.terminal o r) := by
  unfold State.terminalOp at h
  split at h
  · split at h
    · rename_i ho _ _ _ hw
      simp only [Option.some.injEq, Prod.mk.injEq] at h
      obtain ⟨rfl, rfl, rfl⟩ := h
      exact ⟨ho, hw⟩
    · cases h
  · cases h

theorem State.mgmtOp_spec {s : State} {g : Lane} {op : Operation} {m : MgmtReq} (h : s.mgmtOp g = some (op, m)) :
    (s.engine g).op = some op ∧ op.work = .request (.mgmt m) := by
  unfold State.mgmtOp at h
  split at h
  · split at h
    · rename_i ho _ _ hw
      simp only [Option.some.injEq, Prod.mk.injEq] at h
      obtain ⟨rfl, rfl⟩ := h
      exact ⟨ho, hw⟩
    · cases h
  · cases h

theorem State.transitOp_spec {s : State} {g : Lane} {op : Operation} {c : TransitClaim}
    (h : s.transitOp g = some (op, c)) : (s.engine g).op = some op ∧ op.work = .transit c := by
  unfold State.transitOp at h
  split at h
  · split at h
    · rename_i ho _ _ hw
      simp only [Option.some.injEq, Prod.mk.injEq] at h
      obtain ⟨rfl, rfl⟩ := h
      exact ⟨ho, hw⟩
    · cases h
  · cases h

/-! ### Rows that keep everything -/

namespace Keeps

theorem links {s t : State} (h : t = { s with links := t.links, notices := t.notices }) : Keeps s t := by
  rw [h]
  exact of_accounts rfl rfl rfl rfl rfl rfl rfl rfl

theorem takeByte (s : State) (l : Lane) (b : Byte) : Keeps s (s.takeByte l b) ∧ (s.takeByte l b).isBusy = s.isBusy := by
  have hl : ∀ (x : State) (k : Link), Keeps x (x.setLink l k) ∧ (x.setLink l k).isBusy = x.isBusy :=
    fun x k => ⟨of_accounts rfl rfl rfl rfl rfl rfl rfl rfl, rfl⟩
  unfold State.takeByte
  dsimp only
  split
  · split
    · split
      · exact ⟨(wake s).trans (hl _ _).1, by simp⟩
      · exact ⟨refl _, rfl⟩
    · split
      · exact hl _ _
      · split
        · exact hl _ _
        · unfold State.frameDone
          dsimp only
          repeat' split
          · exact hl _ _
          · exact hl _ _
          · exact hl _ _
          · exact ⟨(hl _ _).1.trans (post _ _), by simp⟩
  · exact ⟨refl _, rfl⟩

theorem discardFrame (s : State) (l : Lane) : Keeps s (s.discardFrame l) ∧ (s.discardFrame l).isBusy = s.isBusy := by
  unfold State.discardFrame
  dsimp only
  repeat' split
  · exact ⟨refl _, rfl⟩
  · exact ⟨of_accounts rfl rfl rfl rfl rfl rfl rfl rfl, rfl⟩
  · exact ⟨refl _, rfl⟩

theorem receiveByte (s : State) (l : Lane) (b : Byte) : Keeps s (s.receiveByte l b) ∧ (s.receiveByte l b).isBusy = s.isBusy := by
  have h : Keeps s (s.runTimer l) ∧ (s.runTimer l).isBusy = s.isBusy := by
    unfold State.runTimer
    split
    · exact discardFrame s l
    · exact ⟨refl _, rfl⟩
  have h' := takeByte (s.runTimer l) l b
  exact ⟨h.1.trans h'.1, h'.2.trans h.2⟩

theorem receiveBytes (l : Lane) (bytes : List Byte) : ∀ s : State,
    Keeps s (bytes.foldl (fun s b => s.receiveByte l b) s) ∧
      (bytes.foldl (fun s b => s.receiveByte l b) s).isBusy = s.isBusy := by
  induction bytes with
  | nil => exact fun s => ⟨refl s, rfl⟩
  | cons b rest ih =>
    intro s
    have h := receiveByte s l b
    have h' := ih (s.receiveByte l b)
    exact ⟨h.1.trans h'.1, h'.2.trans h.2⟩

theorem modifyLink (s : State) (l : Lane) (f : Link → Link) : Keeps s (s.modifyLink l f) :=
  of_accounts rfl rfl rfl rfl rfl rfl rfl rfl

theorem terminalRead {s t : State} {g : Lane} (ht : execTerminalRead g s = .next t) : Keeps s t ∧ t.isBusy = s.isBusy := by
  unfold execTerminalRead at ht
  injection ht with ht
  subst ht
  split
  · rename_i op o h heq
    have hs := State.terminalOp_spec heq
    exact ⟨completeTerminal hs.1 (by rw [hs.2]; rfl) _ _ _ _ _ _, by simp⟩
  · exact ⟨refl _, rfl⟩

theorem debit {s t : State} {g : Lane} (ht : execDebit g s = .next t) : Keeps s t ∧ t.isBusy = s.isBusy := by
  unfold execDebit at ht
  injection ht with ht
  subst ht
  split
  · rename_i op o h amount how heq
    have hs := State.terminalOp_spec heq
    exact ⟨completeTerminal hs.1 (by rw [hs.2]; rfl) _ _ _ _ _ _, by simp⟩
  · exact ⟨refl _, rfl⟩

theorem probe {s t : State} {g : Lane} (ht : execProbe g s = .next t) : Keeps s t ∧ t.isBusy = s.isBusy := by
  unfold execProbe at ht
  injection ht with ht
  subst ht
  split
  · rename_i op o h amount heq
    have hs := State.terminalOp_spec heq
    exact ⟨completeTerminal hs.1 (by rw [hs.2]; rfl) _ _ _ _ _ _, by simp⟩
  · exact ⟨refl _, rfl⟩

theorem isBusy_of_checksOnly {s t : State} (h : Machine.checksOnly s t) : t.isBusy = s.isBusy := by
  rw [h.1]
  rfl

theorem checksOnly_reportCheck (s : State) (g : Lane) : Machine.checksOnly s (s.reportCheck g) := by
  unfold State.reportCheck
  split
  · exact checksOnly_refl _
  · rename_i sl _
    have h2 : Machine.checksOnly s ((s.claimNext sl g).2.withSlice (s.claimNext sl g).1) :=
      checksOnly_trans (checksOnly_claimNext s sl g) (checksOnly_check _ _)
    dsimp only
    split
    · exact checksOnly_trans (checksOnly_trans h2 (checksOnly_check _ _)) (State.beginSlice_spec _).1
    · exact h2

theorem checkClaim {s t : State} {g : Lane} (ht : execCheckClaim g s = .next t) : Keeps s t ∧ t.isBusy = s.isBusy := by
  unfold execCheckClaim at ht
  injection ht with ht
  subst ht
  split
  · rename_i op ho
    split
    · rename_i n hw
      have h := checksOnly_reportCheck ((s.endOp g).noteMismatch n (op.record.state != .free && !op.record.verifies)
        .shortCheck) g
      exact ⟨((endOp ho (by rw [hw]; rfl)).trans (noteMismatch _ _ _ _)).trans (of_checksOnly h),
        (isBusy_of_checksOnly h).trans (by simp)⟩
    · exact ⟨refl _, rfl⟩
  · exact ⟨refl _, rfl⟩

theorem shortCheckIntervalExpiry {s t : State} (ht : execShortCheckIntervalExpiry s = .next t) :
    Keeps s t ∧ t.isBusy = s.isBusy := by
  unfold execShortCheckIntervalExpiry at ht
  injection ht with ht
  subst ht
  split
  · have h := (State.intervalExpired_frame s).1
    exact ⟨of_checksOnly h, isBusy_of_checksOnly h⟩
  · exact ⟨refl _, rfl⟩

theorem endLookup {s : State} {l : Lane} (h : s.indexUnit.op = some (.link l)) : Keeps s (s.endLookup l) := by
  have h1 : Keeps s { s.endLookup l with indexUnit := s.indexUnit } := of_accounts rfl rfl rfl rfl rfl rfl rfl rfl
  refine ⟨h1.way, rfl, fun u => ?_, .inl rfl, h1.held, h1.ready, h1.hold, h1.deadlines, h1.record, h1.queue, h1.transit,
    h1.slotFree, h1.expiry, h1.op⟩
  show none = _ ↔ _
  rw [h]
  exact ⟨fun h => (by cases h), fun h => (by injection h with h; cases h)⟩

theorem lookup {s t : State} (ht : execLookup s = .next t) : Keeps s t ∧ t.isBusy = s.isBusy := by
  unfold execLookup at ht
  injection ht with ht
  subst ht
  split
  · rename_i l hop
    split
    · exact ⟨(endLookup hop).trans (answer _ _ _ _), by simp; rfl⟩
    · exact ⟨endLookup hop, rfl⟩
  · exact ⟨refl _, rfl⟩

end Keeps

/-! ### Rows that add no task -/

namespace NoTask

theorem createHold (s : State) (g : Lane) (op : Operation) (o : Origin) (h : Handle) (tariff : Byte) (units : B4) (window : B6)
    (n : Nat) : NoTask s (s.createHold g op o h tariff units window n) ∧
      (s.createHold g op o h tariff units window n).isBusy = s.isBusy := by
  unfold State.createHold
  dsimp only
  refine ⟨trans (trans (trans (endOp s g) ?_) (answer _ _ _ _)) (dueTest _), by simp⟩
  exact of_eq (by simp) (by simp) (by simp) (by simp)

theorem authorize {s t : State} {g : Lane} (ht : execAuthorize g s = .next t) : NoTask s t ∧ t.isBusy = s.isBusy := by
  unfold execAuthorize at ht
  injection ht with ht
  subst ht
  split
  · split
    · exact ⟨refl _, rfl⟩
    · exact createHold _ _ _ _ _ _ _ _ _
    · exact ⟨completeTerminal _ _ _ _ _ _ _ _ _, by simp⟩
    · split
      · exact ⟨completeTerminal _ _ _ _ _ _ _ _ _, by simp⟩
      · exact ⟨refl _, rfl⟩
  · exact ⟨refl _, rfl⟩

theorem chargeHold (s : State) (g : Lane) (t : Ticket) (e : HoldEntry) (r : Record) (c : Int) :
    NoTask s (s.chargeHold g t e r c) := by
  unfold State.chargeHold
  dsimp only
  split
  · exact (endHold _ _ _ _ _ _).trans (postLow _ _ _ _)
  · exact endHold _ _ _ _ _ _

theorem settle {s t : State} {g : Lane} (ht : execSettle g s = .next t) : NoTask s t ∧ t.isBusy = s.isBusy := by
  unfold execSettle at ht
  injection ht with ht
  subst ht
  split
  · dsimp only
    split
    · exact ⟨completeTerminal _ _ _ _ _ _ _ _ _, by simp⟩
    · exact ⟨((endOp _ _).trans (chargeHold _ _ _ _ _ _)).trans (answer _ _ _ _), by simp⟩
  · exact ⟨refl _, rfl⟩

theorem cancel {s t : State} {g : Lane} (ht : execCancel g s = .next t) : NoTask s t ∧ t.isBusy = s.isBusy := by
  unfold execCancel at ht
  injection ht with ht
  subst ht
  split
  · dsimp only
    split
    · exact ⟨completeTerminal _ _ _ _ _ _ _ _ _, by simp⟩
    · exact ⟨(((endOp _ _).trans (noteMismatch _ _ _ _)).trans (endHold _ _ _ _ _ _)).trans (answer _ _ _ _), by simp⟩
  · exact ⟨refl _, rfl⟩

theorem extend {s t : State} {g : Lane} (ht : execExtend g s = .next t) : NoTask s t ∧ t.isBusy = s.isBusy := by
  unfold execExtend at ht
  injection ht with ht
  subst ht
  split
  · dsimp only
    split
    · exact ⟨completeTerminal _ _ _ _ _ _ _ _ _, by simp⟩
    · exact ⟨(((endOp s g).trans (of_eq (by simp) (by simp) (by simp) (by simp))).trans (answer _ _ _ _)).trans
        (dueTest _), by simp⟩
  · exact ⟨refl _, rfl⟩

theorem expire (s : State) (g : Lane) (t : Ticket) (e : HoldEntry) (r : Record) :
    NoTask s (s.expire g t e r) ∧ (s.expire g t e r).isBusy = s.isBusy := by
  unfold State.expire State.captureExpired State.stallExpired
  dsimp only
  repeat' split
  · exact ⟨(endHold _ _ _ _ _ _).trans (post _ _), by simp⟩
  · exact ⟨(of_eq (by simp) (by simp) (by simp) (by simp) : NoTask s _), by simp⟩
  · exact ⟨((endHold _ _ _ _ _ _).trans (post _ _)).trans (postLow _ _ _ _), by simp⟩
  · exact ⟨(endHold _ _ _ _ _ _).trans (post _ _), by simp⟩

theorem expiry {s t : State} {g : Lane} (ht : execExpiry g s = .next t) : NoTask s t ∧ t.isBusy = s.isBusy := by
  unfold execExpiry at ht
  injection ht with ht
  subst ht
  split
  · rename_i op _
    split
    · rename_i tk _
      split
      · have h := expire ((s.endOp g).noteMismatch op.entry.slot (!op.record.verifies) .operation) g tk op.entry op.record
        exact ⟨((endOp _ _).trans (noteMismatch _ _ _ _)).trans h.1, h.2.trans (by simp)⟩
      · exact ⟨endOp _ _, by simp⟩
    · exact ⟨refl _, rfl⟩
  · exact ⟨refl _, rfl⟩

theorem slotFree {s t : State} {g : Lane} (ht : execSlotFree g s = .next t) : NoTask s t ∧ t.isBusy = s.isBusy := by
  unfold execSlotFree at ht
  injection ht with ht
  subst ht
  split
  · split
    · exact ⟨(endOp s g).trans (of_eq (by simp) (by simp) (by simp) (by simp)), by simp⟩
    · exact ⟨refl _, rfl⟩
  · exact ⟨refl _, rfl⟩

theorem timebaseRaise {s t : State} (ht : execTimebaseRaise s = .next t) : NoTask s t ∧ t.isBusy = s.isBusy := by
  unfold execTimebaseRaise at ht
  injection ht with ht
  subst ht
  split
  · have h1 : NoTask s { s with timebase := s.timebase + 1 } := of_eq rfl rfl rfl rfl
    dsimp only
    split
    · have h := State.countTimer_frame { s with timebase := s.timebase + 1 }
      exact ⟨(h1.trans (Keeps.of_checksOnly h).noTask).trans (dueTest _), by simp [Keeps.isBusy_of_checksOnly h]; rfl⟩
    · exact ⟨h1.trans (dueTest _), by simp; rfl⟩
  · exact ⟨refl _, rfl⟩

theorem holdFallsDue {s t : State} (ht : execHoldFallsDue s = .next t) : NoTask s t ∧ t.isBusy = s.isBusy := by
  unfold execHoldFallsDue at ht
  injection ht with ht
  subst ht
  exact ⟨dueTest _, by simp⟩

theorem holdEntryAllocation {s t : State} (ht : execHoldEntryAllocation s = .next t) : NoTask s t ∧ t.isBusy = s.isBusy := by
  unfold execHoldEntryAllocation at ht
  injection ht with ht
  subst ht
  split
  · exact ⟨refl _, rfl⟩
  · rename_i g _
    have h : ∀ a, NoTask s (s.modifyEngine g fun e => e.allotted a) := fun a => by
      refine modifyEngine s g _ ?_ ?_ ?_
      all_goals
        unfold Engine.allotted
        split
        · rename_i ho
          first | rfl | (rw [ho]; exact .inr rfl)
        · first | rfl | exact .inr rfl
    have h' : ∀ a p, NoTask s { s.modifyEngine g fun e => e.allotted a with allocPtr := p } :=
      fun a p => (h a).trans (of_eq rfl rfl rfl rfl)
    exact ⟨h' _ _, rfl⟩

end NoTask

/-! ### Taking work -/

/-- R29: the piece of work an engine takes, and what is left behind. -/
theorem Engine.nextWork_spec {e e' : Engine} {w : Work} (h : e.nextWork = some (w, e')) :
    (∃ c, w = .transit c ∧ e.transit = some c ∧ e' = { e with transit := none }) ∨
    (∃ n rest, w = .slotFree n ∧ e.slotFree = n :: rest ∧ e' = { e with slotFree := rest }) ∨
    (∃ t rest, w = .expiry t ∧ e.expiry = t :: rest ∧ e' = { e with expiry := rest }) ∨
    (∃ n, w = .check n ∧ e.check = some n ∧ e' = { e with check := none }) ∨
    (∃ r rest, w = .request r ∧ e.queue = r :: rest ∧ e' = { e with queue := rest }) := by
  unfold Engine.nextWork at h
  split at h
  · simp only [Option.some.injEq, Prod.mk.injEq] at h
    exact .inl ⟨_, h.1.symm, by assumption, h.2.symm⟩
  · split at h
    · simp only [Option.some.injEq, Prod.mk.injEq] at h
      exact .inr (.inl ⟨_, _, h.1.symm, by assumption, h.2.symm⟩)
    · split at h
      · simp only [Option.some.injEq, Prod.mk.injEq] at h
        exact .inr (.inr (.inl ⟨_, _, h.1.symm, by assumption, h.2.symm⟩))
      · split at h
        · simp only [Option.some.injEq, Prod.mk.injEq] at h
          exact .inr (.inr (.inr (.inl ⟨_, h.1.symm, by assumption, h.2.symm⟩)))
        · split at h
          · simp only [Option.some.injEq, Prod.mk.injEq] at h
            exact .inr (.inr (.inr (.inr ⟨_, _, h.1.symm, by assumption, h.2.symm⟩)))
          · cases h

/-- R30: an idle engine takes its next piece of work, or nothing happens. -/
theorem execEngineTakeWork_spec {s t : State} {g : Lane} (ht : execEngineTakeWork g s = .next t) :
    t = s ∨ ∃ w e, s.working = true ∧ (s.engine g).op = none ∧ (s.engine g).nextWork = some (w, e) ∧
      t = s.setEngine g { e with op := some (s.readFor w) } := by
  unfold execEngineTakeWork at ht
  injection ht with ht
  subst ht
  split
  · rename_i hc
    simp only [Bool.and_eq_true, Option.isNone_iff_eq_none] at hc
    split
    · exact .inr ⟨_, _, hc.1, hc.2, by assumption, rfl⟩
    · exact .inl rfl
  · exact .inl rfl

/-- An engine replaced by another with as many tasks. -/
theorem State.oneTask_setEngine {s : State} (h : s.oneTask) (g : Lane) (e : Engine) (ht : e.tasks ≤ (s.engine g).tasks)
    (hr : ∀ m, (.mgmt m ∈ e.queue ∨ ∃ op, e.op = some op ∧ op.work = .request (.mgmt m)) →
      s.places g (.mgmt m)) : (s.setEngine g e).oneTask := by
  refine State.oneTask_of_fewer h (fun w e' he => by simpa using he) (fun key hk => ?_) ?_
  · rcases hk with ⟨m, n, b, f, l, x, hk⟩ | ⟨n, hk⟩
    · refine .inl ⟨m, n, b, f, l, x, ?_⟩
      by_cases hm : m = g
      · subst hm
        rcases hk with hk | hk | hk
        · exact hr _ (.inl (by simpa using hk))
        · exact hr _ (.inr (by simpa using hk))
        · exact .inr (.inr (by simpa using hk))
      · unfold State.places at hk
        rw [State.engine_setEngine_ne _ _ hm] at hk
        exact hk
    · exact .inr ⟨n, hk⟩
  · obtain ⟨rest, hs, hle⟩ := s.tasks_split g
    have h1 := hle (s.setEngine g e) (fun m hm => Nat.le_of_eq (by rw [State.engine_setEngine_ne _ _ hm]))
      (Nat.le_refl _) (Nat.le_refl _)
    rw [State.engine_setEngine_same] at h1
    have h2 := h.1
    unfold State.taskRule at h2
    have h3 : (s.setEngine g e).isBusy = s.isBusy := rfl
    rw [h3]
    omega

theorem oneTask_engineTakeWork {s t : State} {g : Lane} (h : s.oneTask) (ht : execEngineTakeWork g s = .next t) :
    t.oneTask := by
  rcases execEngineTakeWork_spec ht with rfl | ⟨w, e, -, ho, hw, rfl⟩
  · exact h
  · refine State.oneTask_setEngine h g _ ?_ (fun m hm => ?_)
    · rcases Engine.nextWork_spec hw with ⟨c, rfl, hc, rfl⟩ | ⟨n, rest, rfl, hc, rfl⟩ | ⟨n, rest, rfl, hc, rfl⟩ |
        ⟨n, rfl, hc, rfl⟩ | ⟨r, rest, rfl, hc, rfl⟩
      · unfold Engine.tasks
        rw [ho, hc]
        simp [State.readFor]
      · unfold Engine.tasks
        simp [State.readFor, Work.isTask]
      · unfold Engine.tasks
        simp [State.readFor, Work.isTask]
      · unfold Engine.tasks
        simp [State.readFor, Work.isTask]
      · unfold Engine.tasks
        rw [ho, hc]
        simp only [List.countP_cons, State.readFor, Option.any_some, Option.any_none, Bool.toNat_false]
        cases (Work.request r).isTask <;> simp <;> omega
    · rcases Engine.nextWork_spec hw with ⟨c, rfl, hc, rfl⟩ | ⟨n, rest, rfl, hc, rfl⟩ | ⟨n, rest, rfl, hc, rfl⟩ |
        ⟨n, rfl, hc, rfl⟩ | ⟨r, rest, rfl, hc, rfl⟩
      all_goals
        rcases hm with hm | ⟨op, hop, hm⟩
        · first
            | exact .inl hm
            | exact .inl (by rw [hc]; exact List.mem_cons_of_mem _ hm)
        · simp only [Option.some.injEq] at hop
          subst hop
          first
            | (simp [State.readFor] at hm; done)
            | (simp only [State.readFor, Work.request.injEq] at hm; subst hm; exact .inl (by rw [hc]; exact List.mem_cons_self ..))

/-- R39, R42: a terminal request joins a group queue. -/
theorem oneTask_routerTake {s t : State} (h : s.oneTask) (ht : execRouterTake s = .next t) : t.oneTask := by
  unfold execRouterTake at ht
  injection ht with ht
  subst ht
  split
  · exact h
  · rename_i l _
    split
    · exact h
    · rename_i frame _ _
      unfold State.takeFrame
      dsimp only
      obtain ⟨y, hy, hyb⟩ : ∃ y : State, y = { s.modifyLink l fun k =>
          { k with tags := k.tags.set (commandTag (frameCommand frame)) true }.popFrame with router := l + 1 } ∧ y.oneTask := by
        refine ⟨_, rfl, ?_⟩
        exact NoTask.oneTask (NoTask.of_eq rfl rfl rfl rfl) rfl h
      rw [← hy]
      unfold State.deliverRoute
      split
      · exact NoTask.oneTask (NoTask.answer _ _ _ _) (by simp) hyb
      · rename_i g r _
        refine State.oneTask_setEngine hyb g _ ?_ (fun m hm => ?_)
        · unfold Engine.tasks
          simp [Work.isTask]
        · rcases hm with hm | hm
          · simp at hm
            exact .inl hm
          · exact .inr (.inl hm)
      · refine NoTask.oneTask (NoTask.indexUnit rfl rfl rfl (Nat.le_refl _) (fun key n hu => hu)) rfl hyb

/-! ### The index unit and enrolment -/

theorem State.isBusy_of_tasks {s : State} (h : s.oneTask) (h1 : 1 ≤ s.tasks) : s.isBusy = true := by
  have h2 := h.1
  unfold State.taskRule at h2
  cases hb : s.isBusy
  · rw [hb] at h2
    simp at h2
    omega
  · rfl

/-- With no task there is no key to come. -/
theorem State.no_keyToCome {s : State} (h : s.tasks = 0) (key : Key) : ¬s.keyToCome key := fun hk => by
  have := State.tasks_of_keyToCome hk
  omega

/-- Where the one task ends nothing of the command is left. -/
theorem NoTask.tasks_zero {s t : State} (h : NoTask s t) (hP : s.oneTask) {g : Lane} {op : Operation}
    (h1 : (s.engine g).op = some op) (h2 : op.work.isTask = true) (h3 : (t.engine g).op = none) : t.tasks = 0 := by
  have := h.tasks_lt h1 h2 h3
  have := State.tasks_le_one hP
  omega

theorem State.tasks_of_op {s : State} {g : Lane} {op : Operation} (h1 : (s.engine g).op = some op)
    (h2 : op.work.isTask = true) : 1 ≤ s.tasks := by
  refine Nat.le_trans ?_ (s.engine_tasks_le g)
  unfold Engine.tasks
  rw [h1]
  simp [h2]

theorem oneTask_indexTakeWork {s t : State} (h : s.oneTask) (ht : execIndexTakeWork s = .next t) : t.oneTask := by
  unfold execIndexTakeWork at ht
  injection ht with ht
  subst ht
  split
  · rename_i hc
    simp only [Bool.and_eq_true, Option.isNone_iff_eq_none] at hc
    have ho := hc.2
    have key : s.indexUnit.take.tasks ≤ s.indexUnit.tasks ∧
        ∀ key n, (.insert key n ∈ s.indexUnit.take.updates ∨ s.indexUnit.take.op = some (.update (.insert key n))) →
          s.updating (.insert key n) := by
      unfold IndexUnit.take
      split
      · rename_i u rest hu
        refine ⟨?_, fun key n hk => ?_⟩
        · unfold IndexUnit.tasks
          rw [ho, hu]
          simp only [List.countP_cons, Option.any_some, Option.any_none, Bool.toNat_false, IndexOp.isInsert]
          cases u.isInsert <;> simp <;> omega
        · rcases hk with hk | hk
          · exact .inl (by rw [hu]; exact List.mem_cons_of_mem _ hk)
          · simp only [Option.some.injEq, IndexOp.update.injEq] at hk
            subst hk
            exact .inl (by rw [hu]; exact List.mem_cons_self ..)
      · rename_i hu
        split
        · rename_i i hi
          have hsrc : ∀ o, s.indexUnit.source i = some o → (∃ l, o = .link l) ∨ o = .mgmt := by
            intro o hso
            unfold IndexUnit.source at hso
            split at hso
            · split at hso
              · injection hso with hso
                exact .inl ⟨_, hso.symm⟩
              · cases hso
            · split at hso
              · injection hso with hso
                exact .inr hso.symm
              · cases hso
          refine ⟨?_, fun key n hk => ?_⟩
          · unfold IndexUnit.tasks
            rw [ho]
            cases hs : s.indexUnit.source i with
            | none => simp
            | some o => rcases hsrc o hs with ⟨l, rfl⟩ | rfl <;> simp [IndexOp.isInsert]
          · rcases hk with hk | hk
            · exact .inl hk
            · exact absurd (hsrc _ hk) (by simp)
        · exact ⟨Nat.le_refl _, fun key n hk => hk⟩
    exact NoTask.oneTask (s := s) (NoTask.indexUnit rfl rfl rfl key.1 key.2) rfl h
  · exact h

/-- The command unit's next request, with nothing else of the command in hand. -/
theorem State.oneTask_placeMgmt {s : State} (h : s.oneTask) (h0 : s.tasks = 0) (hb : s.isBusy = true) (g : Lane) (m : MgmtReq)
    (hm : ∀ n key b f l x, m = .create n key b f l x → ∀ w e, s.way w = some e → e.key ≠ key) :
    (s.placeMgmt g m).oneTask := by
  have hp : ∀ g' r, (s.placeMgmt g m).places g' r → s.places g' r ∨ r = .mgmt m := by
    intro g' r hr
    unfold State.placeMgmt State.enqueue at hr
    split at hr
    · by_cases hg : g' = g
      · subst hg
        unfold State.places at hr
        rw [State.engine_modifyEngine_same] at hr
        rcases hr with hr | hr | hr
        · rw [List.mem_append, List.mem_singleton] at hr
          exact hr.imp .inl id
        · exact .inl (.inr (.inl hr))
        · exact .inl (.inr (.inr hr))
      · unfold State.places at hr
        rw [State.engine_modifyEngine_ne _ _ hg] at hr
        exact .inl hr
    · rcases hr with hr | hr | hr
      · exact .inl (.inl hr)
      · exact .inl (.inr (.inl hr))
      · simp only [Option.some.injEq, Prod.mk.injEq] at hr
        exact .inr hr.2.symm
  have hu : ∀ u, (s.placeMgmt g m).updating u ↔ s.updating u := fun u => by simp [State.updating]
  have hw : ∀ w, (s.placeMgmt g m).way w = s.way w := fun w => by simp
  have hk : ∀ key, (s.placeMgmt g m).keyToCome key → ∃ n b f l x, m = .create n key b f l x := by
    rintro key (⟨g', n, b, f, l, x, hk⟩ | ⟨n, hk⟩)
    · rcases hp _ _ hk with hk | hk
      · exact absurd (State.tasks_of_places hk) (by omega)
      · injection hk with hk
        exact ⟨n, b, f, l, x, hk.symm⟩
    · rw [hu] at hk
      exact absurd (State.tasks_of_insert hk) (by omega)
  refine ⟨?_, fun w e he => h.2.1 w e (by rw [← hw]; exact he),
    fun v w e f he hf => h.2.2.1 v w e f (by rw [← hw]; exact he) (by rw [← hw]; exact hf), fun key hkey w e he => ?_⟩
  · have hb' : (s.placeMgmt g m).isBusy = true := by
      unfold State.placeMgmt
      split
      · simpa using hb
      · exact hb
    unfold State.taskRule
    rw [hb']
    unfold State.placeMgmt
    split
    · obtain ⟨rest, hs, hle⟩ := s.tasks_split g
      have h1 := hle (s.enqueue g (.mgmt m)) (fun k hk => by
          unfold State.enqueue
          exact Nat.le_of_eq (by rw [State.engine_modifyEngine_ne _ _ hk])) (by simp) (by simp)
      have h2 : ((s.enqueue g (.mgmt m)).engine g).tasks = (s.engine g).tasks + 1 := by
        unfold State.enqueue Engine.tasks
        rw [State.engine_modifyEngine_same]
        simp [Work.isTask]
        omega
      simp only [Bool.toNat_true]
      omega
    · have h1 : ({ s with cmd := { s.cmd with held := some (g, .mgmt m) } } : State).tasks ≤ s.tasks + 1 := by
        unfold State.tasks
        show _ ≤ (s.engine 0).tasks + (s.engine 1).tasks + (s.engine 2).tasks + (s.engine 3).tasks + s.indexUnit.tasks +
          s.cmd.held.isSome.toNat + 1
        have : (some (g, Request.mgmt m)).isSome.toNat = 1 := rfl
        show (s.engine 0).tasks + (s.engine 1).tasks + (s.engine 2).tasks + (s.engine 3).tasks + s.indexUnit.tasks + 1 ≤ _
        omega
      refine Nat.le_trans h1 ?_
      simp only [Bool.toNat_true]
      omega
  · obtain ⟨n, b, f, l, x, rfl⟩ := hk key hkey
    exact hm n key b f l x rfl w e (by rw [← hw]; exact he)

/-- R112: the management slot's work ends: nothing of the command is left in hand. -/
theorem State.endMgmtLookup_tasks {s : State} (h : s.oneTask) {x : MgmtLookup} (hx : s.indexUnit.mgmt = some x) 
    (ho : s.indexUnit.op = some .mgmt) :
    s.endMgmtLookup.tasks = 0 ∧ s.endMgmtLookup.isBusy = true ∧ s.endMgmtLookup.oneTask := by
  have h1 : s.endMgmtLookup.tasks + 1 ≤ s.tasks := by
    unfold State.tasks IndexUnit.tasks
    rw [hx, ho]
    show (s.engine 0).tasks + (s.engine 1).tasks + (s.engine 2).tasks + (s.engine 3).tasks +
      (0 + s.indexUnit.updates.countP IndexUpdate.isInsert + 0) + s.cmd.held.isSome.toNat + 1 ≤ _
    simp
    omega
  have h2 := State.tasks_le_one h
  have hb := State.isBusy_of_tasks h (by omega)
  refine ⟨by omega, hb, NoTask.oneTask (s := s) (NoTask.indexUnit rfl rfl rfl ?_ (fun key n hu => ?_)) rfl h⟩
  · unfold IndexUnit.tasks
    show 0 + s.indexUnit.updates.countP IndexUpdate.isInsert + 0 ≤ _
    omega
  · rcases hu with hu | hu
    · exact .inl hu
    · cases hu

/-- A reply, when nothing of the command is left in hand. -/
theorem State.oneTask_reply {s : State} (h : s.oneTask) (h0 : s.tasks = 0) (op : Byte) (st : Status) (b : MgmtBody) :
    (s.reply op st b).oneTask :=
  State.oneTask_of_fewer h (fun w e he => he) (fun key hk => hk)
    (Nat.le_trans (NoTask.reply s op st b).tasks_le (by omega))

theorem oneTask_completeFind {s : State} (h : s.oneTask) : s.completeFind.oneTask := by
  unfold State.completeFind
  split
  · rename_i key hk
    unfold State.findInProgress at hk
    split at hk
    · rename_i ho hx
      have h1 := State.endMgmtLookup_tasks h hx ho
      exact State.oneTask_reply h1.2.2 h1.1 _ _ _
    · cases hk
  · exact h

/-- R110: the search looks through the one bucket where the key can be. -/
theorem State.wayOfKey_none {s : State} (h : s.indexRule) {key : Key} (hk : s.wayOfKey key = none) :
    ∀ w e, s.way w = some e → e.key ≠ key := by
  intro w e he hkey
  have h1 := h.1 w e he
  unfold State.wayOfKey at hk
  rw [List.find?_eq_none] at hk
  have hw : w ∈ waysOf (bucketOf key) := by
    have : w / 8 = bucketOf key := by rw [h1, hkey]; rfl
    simp only [waysOf, List.mem_cons, List.not_mem_nil, or_false]
    omega
  have := hk w hw
  rw [he] at this
  simp [holdsKey, hkey] at this

theorem oneTask_enrolSearch {s t : State} (h : s.oneTask) (ht : execEnrolSearch s = .next t) : t.oneTask := by
  unfold execEnrolSearch at ht
  injection ht with ht
  subst ht
  split
  · rename_i e he
    unfold State.searchInProgress at he
    split at he
    · rename_i ho hx
      obtain ⟨h0, hb, h1⟩ := State.endMgmtLookup_tasks h hx ho
      unfold State.afterSearch
      split
      · exact State.oneTask_reply h1 h0 _ _ _
      · rename_i hk
        split
        · exact State.oneTask_reply h1 h0 _ _ _
        · split
          · exact State.oneTask_reply h1 h0 _ _ _
          · refine State.oneTask_placeMgmt h1 h0 hb _ _ (fun n key b f l x hm => ?_)
            injection hm with _ hkey
            subst hkey
            exact State.wayOfKey_none h1.2 (by simpa using hk)
    · cases he
  · exact h

theorem oneTask_createStep {s t : State} {g : Lane} (h : s.oneTask) (ht : execCreateStep g s = .next t) : t.oneTask := by
  unfold execCreateStep at ht
  injection ht with ht
  subst ht
  split
  · rename_i op n key bal floor low set heq
    have hs := State.mgmtOp_spec heq
    have h0 := (NoTask.endOp s g).tasks_zero h hs.1 (by rw [hs.2]; rfl) (by simp)
    have h1 := (NoTask.endOp s g).oneTask (by simp) h
    have hb : (s.endOp g).isBusy = true := by
      rw [(State.endOp_frame s g).2.2.2.2.2.2.2.2.2.2.2.2.2.2.2.2.2.2.2.2.2.2.2.2]
      exact State.isBusy_of_tasks h (State.tasks_of_op hs.1 (by rw [hs.2]; rfl))
    split
    · have hfree := h.2.2.2 key (.inl ⟨g, n, bal, floor, low, set, .inr (.inl ⟨op, hs.1, hs.2⟩)⟩)
      obtain ⟨y, hy, hyw, hye, hyu, hyc⟩ : ∃ y : State,
          y = ((s.endOp g).modifyRecord n fun r => r.created key bal floor low set) ∧ y.index = (s.endOp g).index ∧
            y.engines = (s.endOp g).engines ∧ y.indexUnit = (s.endOp g).indexUnit ∧ y.cmd = (s.endOp g).cmd :=
        ⟨_, rfl, rfl, rfl, rfl, rfl⟩
      rw [← hy]
      have hn : NoTask (s.endOp g) y := NoTask.of_eq hyw hyu (by rw [hyc]) hye
      have hy1 : y.oneTask := hn.oneTask (by unfold State.isBusy; rw [hyc]) h1
      have hy0 : y.tasks = 0 := by
        have := hn.tasks_le
        omega
      have hk : ∀ k, (y.postInsert key n).keyToCome k → k = key := by
        rintro k (⟨g', n', b, f, l, x, hk⟩ | ⟨n', hk⟩)
        · exact absurd (State.tasks_of_places (s := y) hk) (by omega)
        · rcases hk with hk | hk
          · rw [State.postInsert, List.mem_append, List.mem_singleton] at hk
            rcases hk with hk | hk
            · exact absurd (State.tasks_of_insert (s := y) (.inl hk)) (by omega)
            · injection hk
          · exact absurd (State.tasks_of_insert (s := y) (.inr hk)) (by omega)
      refine ⟨?_, hy1.2.1, hy1.2.2.1, fun k hk' w e he => ?_⟩
      · have hb' : (y.postInsert key n).isBusy = true := by
          show y.isBusy = true
          unfold State.isBusy at *
          rw [hyc]
          exact hb
        have : (y.postInsert key n).tasks = y.tasks + 1 := by
          unfold State.tasks IndexUnit.tasks
          show (y.engine 0).tasks + (y.engine 1).tasks + (y.engine 2).tasks + (y.engine 3).tasks +
            (y.indexUnit.mgmt.isSome.toNat + (y.indexUnit.updates ++ [IndexUpdate.insert key n]).countP IndexUpdate.isInsert +
              (y.indexUnit.op.any IndexOp.isInsert).toNat) + y.cmd.held.isSome.toNat = _
          simp [IndexUpdate.isInsert]
          omega
        unfold State.taskRule
        rw [hb', this, hy0]
        simp
      · rw [hk k hk']
        refine hfree w e ?_
        have : y.way w = s.way w := by
          unfold State.way
          rw [hyw]
          simp
        rw [← this]
        exact he
    · exact State.oneTask_reply h1 h0 _ _ _
  · exact h

/-- R117: the insert, and the activate step placed next. -/
theorem oneTask_indexInsert {s t : State} (h : s.oneTask) (ht : execIndexInsert s = .next t) : t.oneTask := by
  unfold execIndexInsert at ht
  injection ht with ht
  subst ht
  split
  · rename_i key slot ho
    have hu : s.updating (.insert key slot) := .inr ho
    have hle : s.endUpdate.tasks + 1 ≤ s.tasks := by
      unfold State.tasks IndexUnit.tasks
      rw [ho]
      show (s.engine 0).tasks + (s.engine 1).tasks + (s.engine 2).tasks + (s.engine 3).tasks +
        (s.indexUnit.mgmt.isSome.toNat + s.indexUnit.updates.countP IndexUpdate.isInsert + 0) + s.cmd.held.isSome.toNat +
          1 ≤ _
      simp only [IndexOp.isInsert, IndexUpdate.isInsert, Option.any_some, Bool.toNat_true]
      omega
    have h0 : s.endUpdate.tasks = 0 := by
      have := State.tasks_le_one h
      omega
    have hb : s.isBusy = true := State.isBusy_of_tasks h (State.tasks_of_insert hu)
    have hfree := h.2.2.2 key (.inr ⟨slot, hu⟩)
    have hi : (s.endUpdate.insertKey key slot).indexRule ∧ (s.endUpdate.insertKey key slot).tasks = 0 ∧
        (s.endUpdate.insertKey key slot).isBusy = true := by
      unfold State.insertKey
      split
      · rename_i w hw
        have hw' := mem_waysOf (List.mem_of_find?_eq_some hw)
        have hway : ∀ v e, (s.endUpdate.setWay w (some ⟨key, slot⟩)).way v = some e →
            (v = w ∧ e = ⟨key, slot⟩) ∨ (v ≠ w ∧ s.way v = some e) := by
          intro v e he
          by_cases hv : v = w
          · subst hv
            rw [State.way_setWay_same] at he
            injection he with he
            exact .inl ⟨rfl, he.symm⟩
          · rw [State.way_setWay_ne _ _ hv] at he
            exact .inr ⟨hv, he⟩
        refine ⟨⟨fun v e he => ?_, fun v v' e f he hf hkey => ?_, fun k hk => ?_⟩, h0, hb⟩
        · rcases hway v e he with ⟨rfl, rfl⟩ | ⟨-, he⟩
          · show v / 8 = bucketOf key
            omega
          · exact h.2.1 v e he
        · rcases hway v e he with ⟨rfl, rfl⟩ | ⟨hv, he'⟩
          · rcases hway v' f hf with ⟨rfl, rfl⟩ | ⟨hv', hf'⟩
            · rfl
            · exact absurd hkey.symm (hfree v' f hf')
          · rcases hway v' f hf with ⟨rfl, rfl⟩ | ⟨hv', hf'⟩
            · exact absurd hkey (hfree v e he')
            · exact h.2.2.1 v v' e f he' hf' hkey
        · exact absurd hk (State.no_keyToCome (s := s.endUpdate.setWay w _) h0 k)
      · exact ⟨⟨h.2.1, h.2.2.1, fun k hk => absurd hk (State.no_keyToCome h0 k)⟩, h0, hb⟩
    refine State.oneTask_placeMgmt ⟨?_, hi.1⟩ hi.2.1 hi.2.2 _ _ (fun _ _ _ _ _ _ hm => by cases hm)
    unfold State.taskRule
    rw [hi.2.1]
    exact Nat.zero_le _
  · exact h

/-- An update of the index that frees ways. -/
theorem NoTask.filterIndex {s : State} (hc : Table.wf none s.index = true) (p : Nat × Option IndexEntry → Bool) :
    NoTask s { s with index := s.index.filter p } := by
  refine ⟨fun w e he => ?_, Nat.le_refl _, fun _ _ h => h, rfl, fun _ => rfl, fun _ => rfl, fun _ => .inr rfl⟩
  have : Table.get none (s.index.filter p) w = some e := he
  rw [Table.get_filter none p _ 0 w hc] at this
  split at this
  · exact this
  · cases this

theorem NoTask.freeWay (s : State) (w : Nat) : NoTask s (s.setWay w none) := by
  refine ⟨fun v e he => ?_, Nat.le_refl _, fun _ _ h => h, rfl, fun _ => rfl, fun _ => rfl, fun _ => .inr rfl⟩
  by_cases hv : v = w
  · subst hv
    rw [State.way_setWay_same] at he
    cases he
  · rwa [State.way_setWay_ne _ _ hv] at he

theorem NoTask.keyRemoval {s t : State} (hc : s.canonical) (ht : execKeyRemoval s = .next t) :
    NoTask s t ∧ t.isBusy = s.isBusy := by
  unfold execKeyRemoval at ht
  injection ht with ht
  subst ht
  split
  · have h1 : NoTask s s.endUpdate := by
      refine NoTask.indexUnit rfl rfl rfl ?_ (fun key n hu => ?_)
      · unfold IndexUnit.tasks
        show s.indexUnit.mgmt.isSome.toNat + s.indexUnit.updates.countP IndexUpdate.isInsert + 0 ≤ _
        omega
      · rcases hu with hu | hu
        · exact .inl hu
        · cases hu
    have h2 : ∀ x : State, NoTask x (x.postSlotFree ‹Nat›) := fun x => NoTask.modifyEngine _ _ _ rfl rfl (.inr rfl)
    have h3 : ∀ key n, NoTask s.endUpdate (s.endUpdate.removeKey key n) := fun key n => by
      unfold State.removeKey
      split
      · exact NoTask.freeWay _ _
      · exact NoTask.filterIndex (s := s.endUpdate) hc.2.1 _
    refine ⟨(h1.trans (h3 _ _)).trans (h2 _), ?_⟩
    unfold State.removeKey
    split <;> rfl
  · exact ⟨NoTask.refl _, rfl⟩

/-! ### Completions of management requests -/

/-- The one task has ended, and the completion adds none. -/
theorem State.oneTask_ended {s y : State} (h : s.oneTask) {g : Lane} {op : Operation} (h1 : (s.engine g).op = some op)
    (h2 : op.work.isTask = true) (hn : NoTask (s.endOp g) y) : y.oneTask ∧ y.tasks = 0 := by
  have h3 : (y.engine g).op = none := by
    rcases hn.op g with e | e
    · exact e
    · rw [State.engine_endOp_same] at e
      cases hy : (y.engine g).op with
      | none => rfl
      | some _ => rw [hy] at e; cases e
  have hn' := (NoTask.endOp s g).trans hn
  exact ⟨hn'.oneTask_ended h1 h2 h3 h, hn'.tasks_zero h h1 h2 h3⟩

namespace NoTask

theorem completeByHandle (s : State) (g : Lane) (op : Operation) (n : Byte) (hd : Handle) (act : State → State)
    (ha : ∀ x, NoTask x (act x)) : NoTask (s.endOp g) (s.completeByHandle g op n hd act) := by
  unfold State.completeByHandle
  split
  · exact reply _ _ _ _
  · exact (noteMismatch _ _ _ _).trans (ha _)

theorem completeByTicket (s : State) (g : Lane) (op : Operation) (n : Byte) (t : Ticket) (act : State → State)
    (ha : ∀ x, NoTask x (act x)) : NoTask (s.endOp g) (s.completeByTicket g op n t act) := by
  unfold State.completeByTicket
  split
  · exact (noteMismatch _ _ _ _).trans (ha _)
  · exact reply _ _ _ _

theorem writeState (s : State) (n : Nat) (st : AcctState) : NoTask s (s.writeState n st) := of_eq rfl rfl rfl rfl

theorem writeBalance (s : State) (n : Nat) (v : Int) : NoTask s (s.writeBalance n v) := of_eq rfl rfl rfl rfl

theorem setTransit (s : State) (v : Transit) : NoTask s (s.setTransit v) := of_eq rfl rfl rfl rfl

theorem goOnTransfer (s : State) (item : BalanceItem) : NoTask s (s.goOnTransfer item) := of_eq rfl rfl rfl rfl

theorem completeMgmt (s : State) (g : Lane) (op : Operation) (m : MgmtReq) :
    s.completeMgmt g op m = s ∨ NoTask (s.endOp g) (s.completeMgmt g op m) := by
  cases m with
  | read h full => exact .inr (completeByHandle _ _ _ _ _ _ fun x => reply _ _ _ _)
  | update h mask floor low set =>
    right
    simp only [State.completeMgmt]
    apply completeByHandle
    intro x
    unfold State.completeUpdate
    split
    · exact reply _ _ _ _
    · exact of_eq rfl rfl rfl rfl
  | freeze h =>
    right
    simp only [State.completeMgmt]
    apply completeByHandle
    intro x
    unfold State.completeFreeze
    repeat' split
    all_goals exact of_eq rfl rfl rfl rfl
  | thaw h =>
    right
    simp only [State.completeMgmt]
    apply completeByHandle
    intro x
    unfold State.completeFreeze
    repeat' split
    all_goals exact of_eq rfl rfl rfl rfl
  | retire h =>
    right
    simp only [State.completeMgmt]
    apply completeByHandle
    intro x
    unfold State.completeRetire
    repeat' split
    · exact reply _ _ _ _
    · exact ((writeState _ _ _).trans (postRemoval _ _ _)).trans (reply _ _ _ _)
    · exact (writeState _ _ _).trans (reply _ _ _ _)
  | topup h amount =>
    right
    simp only [State.completeMgmt]
    apply completeByHandle
    intro x
    unfold State.completeCredit
    split
    · exact reply _ _ _ _
    · exact (writeNewBalance _ _ _ _).trans (reply _ _ _ _)
  | adjust h amount =>
    right
    simp only [State.completeMgmt]
    apply completeByHandle
    intro x
    unfold State.completeCredit
    split
    · exact reply _ _ _ _
    · exact (writeNewBalance _ _ _ _).trans (reply _ _ _ _)
  | restore h bal floor low set =>
    right
    simp only [State.completeMgmt]
    apply completeByHandle
    intro x
    unfold State.completeRestore
    dsimp only
    refine ((of_eq ?_ ?_ ?_ ?_).trans (dueTest _)).trans (reply _ _ _ _)
    all_goals
      rw [State.rearm_all_frame]
      rfl
  | holdRead t => exact .inr (completeByTicket _ _ _ _ _ _ fun x => reply _ _ _ _)
  | holdRelease t => exact .inr (completeByTicket _ _ _ _ _ _ fun x => (endHold _ _ _ _ _ _).trans (reply _ _ _ _))
  | holdCapture t =>
    right
    simp only [State.completeMgmt]
    apply completeByTicket
    intro x
    unfold State.completeCapture
    split
    · exact reply _ _ _ _
    · exact (chargeHold _ _ _ _ _ _).trans (reply _ _ _ _)
  | transitCredit h =>
    right
    simp only [State.completeMgmt]
    apply completeByHandle
    intro x
    unfold State.completeTransitCredit
    dsimp only
    split
    · exact reply _ _ _ _
    · exact (writeNewBalance _ _ _ _).trans (of_eq rfl rfl rfl rfl)
  | create n key bal floor low set => exact .inl rfl
  | activate n => exact .inl rfl
  | sameTransfer src dst all a => exact .inl rfl
  | step1 src dst all a => exact .inl rfl

end NoTask

theorem oneTask_managementRequestComplete {s t : State} {g : Lane} (h : s.oneTask)
    (ht : execManagementRequestComplete g s = .next t) : t.oneTask := by
  unfold execManagementRequestComplete at ht
  injection ht with ht
  subst ht
  split
  · rename_i op m heq
    have hs := State.mgmtOp_spec heq
    rcases NoTask.completeMgmt s g op m with e | hn
    · rw [e]
      exact h
    · exact (State.oneTask_ended h hs.1 (by rw [hs.2]; rfl) hn).1
  · exact h

theorem oneTask_activateStep {s t : State} {g : Lane} (h : s.oneTask) (ht : execActivateStep g s = .next t) :
    t.oneTask := by
  unfold execActivateStep at ht
  injection ht with ht
  subst ht
  split
  · rename_i op n heq
    have hs := State.mgmtOp_spec heq
    exact (State.oneTask_ended h hs.1 (by rw [hs.2]; rfl)
      (((NoTask.noteMismatch _ _ _ _).trans (NoTask.writeState _ _ _)).trans (NoTask.reply _ _ _ _))).1
  · exact h

/-! ### Transfers -/

theorem oneTask_sameGroupTransfer {s t : State} {g : Lane} (h : s.oneTask) (ht : execSameGroupTransfer g s = .next t) :
    t.oneTask := by
  unfold execSameGroupTransfer at ht
  injection ht with ht
  subst ht
  split
  · rename_i op src dst all a heq
    have hs := State.mgmtOp_spec heq
    have hn : NoTask (s.endOp g) ((s.endOp g).noteBoth op src dst) :=
      (NoTask.noteMismatch _ _ _ _).trans (NoTask.noteMismatch _ _ _ _)
    dsimp only
    refine (State.oneTask_ended h hs.1 (by rw [hs.2]; rfl) (hn.trans ?_)).1
    repeat' split
    · exact NoTask.reply _ _ _ _
    · exact NoTask.reply _ _ _ _
    · refine NoTask.trans ?_ (NoTask.reply _ _ _ _)
      exact NoTask.of_eq (by simp [State.writeBoth]) (by simp [State.writeBoth]) (by simp [State.writeBoth])
        (by simp [State.writeBoth])
  · exact h

/-- A transit step of the command in progress is posted, with nothing else of the command in hand. -/
theorem State.oneTask_postTransit {s : State} (h : s.oneTask) (h0 : s.tasks = 0) (hb : s.isBusy = true) (g : Lane)
    (c : TransitClaim) : (s.postTransit g c).oneTask := by
  have hp : ∀ g' r, (s.postTransit g c).places g' r → s.places g' r := by
    intro g' r hr
    unfold State.postTransit at hr
    by_cases hg : g' = g
    · subst hg
      unfold State.places at hr
      rw [State.engine_modifyEngine_same] at hr
      exact hr
    · unfold State.places at hr
      rw [State.engine_modifyEngine_ne _ _ hg] at hr
      exact hr
  refine State.oneTask_of_fewer h (fun w e he => he) (fun key hk => ?_) ?_
  · rcases hk with ⟨g', n, b, f, l, x, hk⟩ | ⟨n, hk⟩
    · exact .inl ⟨g', n, b, f, l, x, hp _ _ hk⟩
    · exact .inr ⟨n, hk⟩
  · have hb' : (s.postTransit g c).isBusy = true := hb
    rw [hb']
    obtain ⟨rest, hs, hle⟩ := s.tasks_split g
    have h1 := hle (s.postTransit g c) (fun k hk => by
        unfold State.postTransit
        exact Nat.le_of_eq (by rw [State.engine_modifyEngine_ne _ _ hk])) (Nat.le_refl _) (Nat.le_refl _)
    have h2 : ((s.postTransit g c).engine g).tasks ≤ (s.engine g).tasks + 1 := by
      unfold State.postTransit Engine.tasks
      rw [State.engine_modifyEngine_same]
      have : ((some c).any fun c => (Work.transit c).isTask).toNat ≤ 1 := by
        cases (some c).any fun c => (Work.transit c).isTask <;> simp
      simp only
      omega
    simp only [Bool.toNat_true]
    omega

theorem oneTask_transferStep1 {s t : State} {g : Lane} (h : s.oneTask) (ht : execTransferStep1 g s = .next t) :
    t.oneTask := by
  unfold execTransferStep1 at ht
  injection ht with ht
  subst ht
  split
  · rename_i op src dst all a heq
    have hs := State.mgmtOp_spec heq
    have hn : NoTask (s.endOp g) ((s.endOp g).noteAccount src op.record (handleTest src op.record).isNone) :=
      NoTask.noteMismatch _ _ _ _
    dsimp only
    split
    · exact (State.oneTask_ended h hs.1 (by rw [hs.2]; rfl) (hn.trans (NoTask.reply _ _ _ _))).1
    · rename_i v _
      unfold State.debitSource
      have h1 := State.oneTask_ended h hs.1 (by rw [hs.2]; rfl) (((hn.trans (NoTask.writeNewBalance _ src.slot.toNat
        op.record (some (op.record.bal - v)))).trans (NoTask.setTransit _
          { state := .out, src := src, dst := dst, amount := v.toNat })).trans (NoTask.goOnTransfer _
            (balanceItem .source op.record (op.record.bal - v))))
      exact State.oneTask_postTransit h1.1 h1.2 rfl _ _
  · exact h

theorem oneTask_transitStep {s t : State} {g : Lane} (h : s.oneTask) (ht : execTransitStep g s = .next t) : t.oneTask := by
  unfold execTransitStep at ht
  injection ht with ht
  subst ht
  split
  · rename_i op heq
    have hs := State.transitOp_spec heq
    have hn : NoTask (s.endOp g) ((s.endOp g).noteAccount op.transit.dst op.record
        (handleTest op.transit.dst op.record).isNone) := NoTask.noteMismatch _ _ _ _
    dsimp only
    split
    · exact (State.oneTask_ended h hs.1 (by rw [hs.2]; rfl) (((hn.trans (NoTask.writeBalance _ _ _)).trans
        (NoTask.setTransit _ _)).trans (NoTask.reply _ _ _ _))).1
    · have h1 := State.oneTask_ended h hs.1 (by rw [hs.2]; rfl) (hn.trans (NoTask.setTransit _
        { (State.noteAccount (s.endOp g) op.transit.dst op.record
          (handleTest op.transit.dst op.record).isNone).transit with state := .returning }))
      refine State.oneTask_postTransit h1.1 h1.2 ?_ _ _
      have hb := State.isBusy_of_tasks h (State.tasks_of_op hs.1 (by rw [hs.2]; rfl))
      show (State.noteAccount (s.endOp g) op.transit.dst op.record _).isBusy = true
      simpa [State.noteAccount] using hb
  · exact h

theorem oneTask_returnStep {s t : State} {g : Lane} (h : s.oneTask) (ht : execReturnStep g s = .next t) : t.oneTask := by
  unfold execReturnStep at ht
  injection ht with ht
  subst ht
  split
  · rename_i op refusal heq
    have hs := State.transitOp_spec heq
    have hn : NoTask (s.endOp g) ((s.endOp g).noteAccount op.transit.src op.record
        (handleTest op.transit.src op.record).isNone) := NoTask.noteMismatch _ _ _ _
    have hb : ((s.endOp g).noteAccount op.transit.src op.record (handleTest op.transit.src op.record).isNone).isBusy =
        s.isBusy := by simp [State.noteAccount]
    dsimp only
    split
    · unfold State.returnToSource
      dsimp only
      have h2 := (hn.trans (NoTask.writeBalance _ op.transit.src.slot.toNat (op.record.bal + op.transit.amount))).trans
        (NoTask.setTransit _ Transit.cleared)
      cases refusal with
      | none => exact ((NoTask.endOp s g).trans h2).oneTask hb h
      | some st => exact (State.oneTask_ended h hs.1 (by rw [hs.2]; rfl) (h2.trans (NoTask.reply _ _ _ _))).1
    · rename_i st _
      unfold State.strand
      dsimp only
      have h2 := (hn.trans (NoTask.setTransit _ { (State.noteAccount (s.endOp g) op.transit.src op.record
        (handleTest op.transit.src op.record).isNone).transit with state := .stranded })).trans (NoTask.post _
          (.transferStranded op.transit.src op.transit.dst op.transit.amount refusal st))
      cases refusal with
      | none => exact ((NoTask.endOp s g).trans h2).oneTask (by simp; exact hb) h
      | some st => exact (State.oneTask_ended h hs.1 (by rw [hs.2]; rfl) (h2.trans (NoTask.reply _ _ _ _))).1
  · exact h

/-- R27: a held request is placed. -/
theorem oneTask_managementRequestPlaced {s t : State} (h : s.oneTask) (ht : execManagementRequestPlaced s = .next t) :
    t.oneTask := by
  unfold execManagementRequestPlaced at ht
  injection ht with ht
  subst ht
  split
  · rename_i g r hh
    split
    · have hle : ({ s with cmd := { s.cmd with held := none } } : State).tasks + 1 ≤ s.tasks := by
        unfold State.tasks
        rw [hh]
        exact Nat.le_refl _
      obtain ⟨rest, hs, hr⟩ := State.tasks_split { s with cmd := { s.cmd with held := none } } g
      have h1 := hr (State.enqueue { s with cmd := { s.cmd with held := none } } g r) (fun k hk => by
          unfold State.enqueue
          exact Nat.le_of_eq (by rw [State.engine_modifyEngine_ne _ _ hk])) (Nat.le_refl _) (Nat.le_refl _)
      have h2 : ((State.enqueue { s with cmd := { s.cmd with held := none } } g r).engine g).tasks ≤
          (State.engine { s with cmd := { s.cmd with held := none } } g).tasks + 1 := by
        unfold State.enqueue Engine.tasks
        rw [State.engine_modifyEngine_same]
        simp only [List.countP_append, List.countP_singleton]
        split <;> omega
      refine State.oneTask_of_fewer h (fun w e he => he) (fun key hk => ?_) ?_
      · rcases hk with ⟨g', n, b, f, l, x, hk⟩ | ⟨n, hk⟩
        · refine .inl ⟨g', n, b, f, l, x, ?_⟩
          unfold State.places State.enqueue at hk
          by_cases hg : g' = g
          · subst hg
            rw [State.engine_modifyEngine_same] at hk
            rcases hk with hk | hk | hk
            · rw [List.mem_append, List.mem_singleton] at hk
              rcases hk with hk | hk
              · exact .inl hk
              · exact .inr (.inr (by rw [hh, hk]))
            · exact .inr (.inl hk)
            · cases hk
          · rw [State.engine_modifyEngine_ne _ _ hg] at hk
            rcases hk with hk | hk | hk
            · exact .inl hk
            · exact .inr (.inl hk)
            · cases hk
        · exact .inr ⟨n, hk⟩
      · have h3 := h.1
        unfold State.taskRule at h3
        show _ ≤ s.isBusy.toNat
        omega
    · exact h
  · exact h

/-! ### The management port -/

/-- What the command unit does with a command that it takes: answer it, start work in the index unit or at an engine, or
enter RETAIN. -/
inductive Taken (x : State) : State → Prop
  | answered (t : State) (hk : Keeps x t) (hb : t.isBusy = false) : Taken x t
  | searches (y : State) (w : MgmtLookup) (hk : Keeps x y) (hb : y.isBusy = true) :
      Taken x { y with indexUnit := { y.indexUnit with mgmt := some w } }
  | places (y : State) (g : Lane) (m : MgmtReq) (hk : Keeps x y) (hb : y.isBusy = true)
      (hg : m.ticket? = none → laneOf m.slot = g) (hc : ∀ n key b f l s, m ≠ .create n key b f l s) (ha : ∀ n, m ≠ .activate n) :
      Taken x (y.placeMgmt g m)
  | resets (hr : x.isReady = true) : Taken x x.enterRetain

namespace Taken

theorem reply (x : State) (op : Byte) (st : Status) (b : MgmtBody) : Taken x (x.reply op st b) :=
  .answered _ (Keeps.reply _ _ _ _) rfl

theorem startAccount (x : State) (g : Lane) (m : MgmtReq) (hg : m.ticket? = none → laneOf m.slot = g)
    (hc : ∀ n key b f l s, m ≠ .create n key b f l s) (ha : ∀ n, m ≠ .activate n) : Taken x (x.startAccount g m) :=
  .places (x.busy .account) g m (Keeps.of_accounts rfl rfl rfl rfl rfl rfl rfl rfl) rfl hg hc ha

theorem startByTicket (x : State) (op : Byte) (t : Ticket) (m : MgmtReq) (hm : m.ticket? = some t)
    (hc : ∀ n key b f l s, m ≠ .create n key b f l s) (ha : ∀ n, m ≠ .activate n) : Taken x (x.startByTicket op t m) := by
  unfold State.startByTicket
  dsimp only
  split
  · exact startAccount _ _ _ (fun h => by rw [hm] at h; cases h) hc ha
  · exact reply _ _ _ _

theorem changeMode (x : State) (hr : x.isReady = true) (m : Mode) : Taken x (x.changeMode m) := by
  have hm : ∀ y : State, ∀ m, Keeps x y → Taken x (y.takenMode m) := fun y m hk =>
    .answered _ (hk.trans (Keeps.of_accounts rfl rfl rfl rfl rfl rfl rfl rfl)) rfl
  unfold State.changeMode
  cases m with
  | run => exact hm _ _ (Keeps.refl _)
  | economy =>
    dsimp only
    split
    · exact reply _ _ _ _
    · exact hm _ _ (Keeps.refl _)
  | standby =>
    dsimp only
    split
    · exact hm { x with power := { x.power with resume := x.power.mode } } _
        (Keeps.of_accounts rfl rfl rfl rfl rfl rfl rfl rfl)
    · exact reply _ _ _ _
  | retain =>
    dsimp only
    repeat' split
    · exact reply _ _ _ _
    · exact reply _ _ _ _
    · exact .resets hr

end Taken

theorem takeCommand_taken (c : Command) {x : State} (hb : x.isBusy = false) (hr : x.isReady = true) :
    Taken x (takeCommand c x) := by
  have hreply : ∀ y : State, ∀ op st b, Keeps x y → Taken x (y.reply op st b) := fun y op st b hk =>
    .answered _ (hk.trans (Keeps.reply _ _ _ _)) rfl
  cases c with
  | poll =>
    refine .answered _ (Keeps.answerAtOnce _ _ _ _) ?_
    show State.isBusy (State.answerAtOnce _ _ _ _) = false
    unfold State.answerAtOnce
    rw [hb]
    rfl
  | enrol key bal floor low set =>
    show Taken x (takeEnrol key bal floor low set x)
    unfold takeEnrol
    split
    · exact Taken.reply _ _ _ _
    · exact .searches (x.busy .enrol) _ (Keeps.of_accounts rfl rfl rfl rfl rfl rfl rfl rfl) rfl
  | find key =>
    show Taken x (takeFind key x)
    unfold takeFind
    split
    · exact Taken.reply _ _ _ _
    · exact .searches (x.busy .find) _ (Keeps.of_accounts rfl rfl rfl rfl rfl rfl rfl rfl) rfl
  | read hd form =>
    show Taken x (takeRead hd form x)
    unfold takeRead
    repeat' split
    · exact Taken.startAccount _ _ _ (fun _ => rfl) (by simp) (by simp)
    · exact Taken.startAccount _ _ _ (fun _ => rfl) (by simp) (by simp)
    · exact Taken.reply _ _ _ _
  | update hd mask floor low set =>
    show Taken x (takeUpdate hd mask floor low set x)
    unfold takeUpdate
    repeat' split
    · exact Taken.reply _ _ _ _
    · exact Taken.reply _ _ _ _
    · exact Taken.reply _ _ _ _
    · exact Taken.startAccount _ _ _ (fun _ => rfl) (by simp) (by simp)
  | freeze hd => exact Taken.startAccount _ _ _ (fun _ => rfl) (by simp) (by simp)
  | thaw hd => exact Taken.startAccount _ _ _ (fun _ => rfl) (by simp) (by simp)
  | retire hd => exact Taken.startAccount _ _ _ (fun _ => rfl) (by simp) (by simp)
  | topup hd a =>
    show Taken x (takeTopup hd a x)
    unfold takeTopup
    split
    · exact Taken.reply _ _ _ _
    · exact Taken.startAccount _ _ _ (fun _ => rfl) (by simp) (by simp)
  | adjust hd a =>
    show Taken x (takeAdjust hd a x)
    unfold takeAdjust
    split
    · exact Taken.reply _ _ _ _
    · exact Taken.startAccount _ _ _ (fun _ => rfl) (by simp) (by simp)
  | transfer src dst how a =>
    show Taken x (takeTransfer src dst how a x)
    unfold takeTransfer
    split
    · exact Taken.reply _ _ _ _
    · dsimp only
      refine .places (x.busy (.transfer none)) _ _ (Keeps.of_accounts rfl rfl rfl rfl rfl rfl rfl rfl) rfl ?_ ?_ ?_
      all_goals split <;> simp [MgmtReq.slot, groupOf]
  | transitClear sel hd =>
    show Taken x (takeTransitClear sel hd x)
    unfold takeTransitClear
    repeat' split
    · exact Taken.reply _ _ _ _
    · exact hreply { x with transit := Transit.cleared } _ _ _ (Keeps.of_accounts rfl rfl rfl rfl rfl rfl rfl rfl)
    · exact Taken.startAccount _ _ _ (fun _ => rfl) (by simp) (by simp)
  | restore hd bal floor low set =>
    show Taken x (takeRestore hd bal floor low set x)
    unfold takeRestore
    split
    · exact Taken.reply _ _ _ _
    · exact Taken.startAccount _ _ _ (fun _ => rfl) (by simp) (by simp)
  | holdRead tk => exact Taken.startByTicket _ _ _ _ rfl (by simp) (by simp)
  | holdRelease tk => exact Taken.startByTicket _ _ _ _ rfl (by simp) (by simp)
  | holdCapture tk => exact Taken.startByTicket _ _ _ _ rfl (by simp) (by simp)
  | tariffSet n en price most window action =>
    show Taken x (takeTariffSet n en price most window action x)
    unfold takeTariffSet
    split
    · exact Taken.reply _ _ _ _
    · exact hreply (x.setTariff _ _) _ _ _ (Keeps.of_accounts rfl rfl rfl rfl rfl rfl rfl rfl)
  | tariffRead n =>
    show Taken x (takeTariffRead n x)
    unfold takeTariffRead
    split
    · exact Taken.reply _ _ _ _
    · exact Taken.reply _ _ _ _
  | linkSet l en baud high res =>
    show Taken x (takeLinkSet l en baud high res x)
    unfold takeLinkSet
    split
    · exact Taken.reply _ _ _ _
    · exact hreply (x.setLink _ _) _ _ _ (Keeps.of_accounts rfl rfl rfl rfl rfl rfl rfl rfl)
  | linkRead l =>
    show Taken x (takeLinkRead l x)
    unfold takeLinkRead
    split
    · exact Taken.reply _ _ _ _
    · exact hreply (x.setLink _ _) _ _ _ (Keeps.of_accounts rfl rfl rfl rfl rfl rfl rfl rfl)
  | noticeRead =>
    exact hreply (State.testAttn _) _ _ _ (Keeps.of_accounts rfl rfl rfl rfl rfl rfl rfl rfl)
  | config interval threshold =>
    show Taken x (takeConfig interval threshold x)
    unfold takeConfig
    split
    · exact Taken.reply _ _ _ _
    · exact hreply (State.testAttn _) _ _ _ (Keeps.of_accounts rfl rfl rfl rfl rfl rfl rfl rfl)
  | mode code =>
    show Taken x (takeMode code x)
    unfold takeMode
    split
    · exact Taken.reply _ _ _ _
    · split
      · exact Taken.reply _ _ _ _
      · exact Taken.changeMode x hr _
  | timeRead => exact Taken.reply _ _ _ _
  | reset => exact .answered _ (Keeps.of_accounts rfl rfl rfl rfl rfl rfl rfl rfl) rfl

/-- A port row, period by period: the port without power, a read or a refused block, a command taken, the reset of an armed
RESET. -/
inductive PortRow (s : State) : State → Prop
  | keeps (t : State) (hk : Keeps s t) (hb : t.isBusy = s.isBusy) : PortRow s t
  | takes (t : State) (hb : s.isBusy = false) (hr : s.isReady = true) (ht : Taken s.openSelect t) : PortRow s t.closeSelect
  | resets (y : State) (hk : Keeps s y) (hb : y.isBusy = s.isBusy) (hs : y.accounts = s.accounts ∧ y.holds = s.holds) :
      PortRow s y.softReset

theorem isBusy_answerAtOnce (s : State) (op : Byte) (st : Status) (b : MgmtBody) :
    (s.answerAtOnce op st b).isBusy = s.isBusy := by
  unfold State.answerAtOnce
  split
  · rfl
  · rename_i h
    rw [Bool.not_eq_true] at h
    rw [h]
    rfl

namespace PortRow

theorem screened (c : Command) (s : State) : PortRow s (s.openSelect.screened c.opcode (takeCommand c)).closeSelect := by
  have hk : ∀ st b, PortRow s (s.openSelect.answerAtOnce c.opcode st b).closeSelect := fun st b =>
    .keeps _ (((Keeps.openSelect s).trans (Keeps.answerAtOnce _ _ _ _)).trans (Keeps.closeSelect _))
      ((isBusy_answerAtOnce _ _ _ _).trans (by simp))
  unfold State.screened
  split
  · exact hk _ _
  · rename_i h1
    split
    · exact hk _ _
    · rename_i h2
      by_cases hp : c.opcode = 0
      · have : c = .poll := by cases c <;> first | rfl | (simp [Command.opcode] at hp)
        subst this
        exact hk .ok _
      · simp only [Bool.and_eq_true, bne_iff_ne, ne_eq, hp, not_false_eq_true, and_true, Bool.not_eq_true',
          Bool.not_eq_false, Bool.not_eq_true] at h1 h2
        exact .takes _ (by simpa using h2) (by simpa using h1) (takeCommand_taken c h2 h1)

theorem command (c : Command) (s : State) : PortRow s (s.command c.opcode (takeCommand c)) := by
  unfold State.command State.blockPeriod
  split
  · dsimp only
    split
    · exact .resets _ (Keeps.openSelect s) (by simp) (by simp)
    · exact screened c s
  · exact .keeps _ (Keeps.refl _) rfl

theorem shiftOut (s : State) (n : Nat) : Keeps s (s.shiftOut n) ∧ (s.shiftOut n).isBusy = s.isBusy :=
  ⟨Keeps.of_accounts rfl rfl rfl rfl rfl rfl rfl rfl, rfl⟩

theorem readTaken (s : State) : Keeps s s.readTaken ∧ s.readTaken.isBusy = s.isBusy := by
  unfold State.readTaken
  dsimp only
  split
  · exact ⟨Keeps.of_accounts rfl rfl rfl rfl rfl rfl rfl rfl, rfl⟩
  · exact ⟨Keeps.of_accounts rfl rfl rfl rfl rfl rfl rfl rfl, rfl⟩
  · rename_i r h
    refine ⟨Keeps.of_accounts rfl rfl rfl rfl rfl rfl rfl rfl, ?_⟩
    unfold State.isBusy
    rw [h]

theorem readTaken_stores (s : State) : s.readTaken.accounts = s.accounts ∧ s.readTaken.holds = s.holds := by
  unfold State.readTaken
  dsimp only
  split <;> exact ⟨rfl, rfl⟩

theorem readPeriod_stores (s : State) (rest : List Byte) :
    (s.readPeriod rest).accounts = s.accounts ∧ (s.readPeriod rest).holds = s.holds := by
  unfold State.readPeriod
  dsimp only
  split
  · exact readTaken_stores _
  · exact ⟨rfl, rfl⟩

theorem readPeriod (s : State) (rest : List Byte) : Keeps s (s.readPeriod rest) ∧ (s.readPeriod rest).isBusy = s.isBusy := by
  have h1 := shiftOut s rest.length
  have h2 := readTaken (s.shiftOut rest.length)
  unfold State.readPeriod
  dsimp only
  split
  · exact ⟨h1.1.trans h2.1, h2.2.trans h1.2⟩
  · exact h1

theorem responseRead {s t : State} (ht : execResponseRead s = .next t) : PortRow s t := by
  unfold execResponseRead at ht
  injection ht with ht
  subst ht
  split
  · have h1 := shiftOut s.openSelect s.openSelect.readBlock.bytes.length
    have h2 := readTaken (s.openSelect.shiftOut s.openSelect.readBlock.bytes.length)
    have hk : Keeps s s.openSelect.readOut := ((Keeps.openSelect s).trans h1.1).trans h2.1
    have hb : s.openSelect.readOut.isBusy = s.isBusy := (h2.2.trans h1.2).trans (by simp)
    unfold State.endSelect
    split
    · refine .resets _ hk hb ?_
      have h3 := readTaken_stores (s.openSelect.shiftOut s.openSelect.readBlock.bytes.length)
      exact ⟨h3.1.trans (by simp [State.shiftOut]), h3.2.trans (by simp [State.shiftOut])⟩
    · exact .keeps _ (hk.trans (Keeps.closeSelect _)) hb
  · exact .keeps _ (Keeps.refl _) rfl

theorem undecodableBlock {s t : State} {bytes : List Byte} (ht : execUndecodableBlock bytes s = .next t) : PortRow s t := by
  unfold execUndecodableBlock at ht
  injection ht with ht
  subst ht
  have hopen : Keeps s s.openSelect ∧ s.openSelect.isBusy = s.isBusy := ⟨Keeps.openSelect s, by simp⟩
  split
  · unfold State.rawPeriod
    split
    · rename_i ha
      have hs : s.openSelect.accounts = s.accounts ∧ s.openSelect.holds = s.holds := by simp
      have h1 : Keeps s (s.openSelect.periodBytes bytes) ∧ (s.openSelect.periodBytes bytes).isBusy = s.isBusy ∧
          (s.openSelect.periodBytes bytes).accounts = s.accounts ∧ (s.openSelect.periodBytes bytes).holds = s.holds := by
        unfold State.periodBytes
        split
        · exact ⟨hopen.1, hopen.2, hs⟩
        · split
          · have h2 := readPeriod s.openSelect ‹List Byte›
            have h3 := readPeriod_stores s.openSelect ‹List Byte›
            exact ⟨hopen.1.trans h2.1, h2.2.trans hopen.2, h3.1.trans hs.1, h3.2.trans hs.2⟩
          · split
            · exact ⟨hopen.1, hopen.2, hs⟩
            · rename_i hn
              exact absurd ha hn
      exact .resets _ h1.1 h1.2.1 h1.2.2
    · unfold State.periodBytes
      split
      · exact .keeps _ (hopen.1.trans (Keeps.closeSelect _)) hopen.2
      · split
        · have h2 := readPeriod s.openSelect ‹List Byte›
          exact .keeps _ ((hopen.1.trans h2.1).trans (Keeps.closeSelect _)) (h2.2.trans hopen.2)
        · split
          · exact .keeps _ (hopen.1.trans (Keeps.closeSelect _)) hopen.2
          · unfold State.blockBytes
            split
            · exact .keeps _ ((hopen.1.trans (Keeps.answerAtOnce _ _ _ _)).trans (Keeps.closeSelect _))
                ((isBusy_answerAtOnce _ _ _ _).trans hopen.2)
            · exact screened _ s
  · exact .keeps _ (Keeps.refl _) rfl

end PortRow

/-! ### One task, row by row -/

theorem State.tasks_of_quiet {s : State} (h : s.oneTask) (hb : s.isBusy = false) : s.tasks = 0 := by
  have h1 := h.1
  unfold State.taskRule at h1
  rw [hb] at h1
  simpa using h1

/-- A reset event leaves no task and no key to come, and the index as it was. -/
theorem State.oneTask_cleared {s t : State} (h : s.oneTask) (hi : t.index = s.index) (he : t.engines = Four.all Engine.cleared)
    (hu : t.indexUnit = IndexUnit.cleared) (hh : t.cmd.held = none) : t.oneTask := by
  have hg : ∀ g, t.engine g = Engine.cleared := fun g => by unfold State.engine; rw [he]; simp
  have h0 : t.tasks = 0 := by
    unfold State.tasks
    rw [hg, hg, hg, hg, hu, hh]
    rfl
  refine State.oneTask_of_fewer h (fun w e hw => ?_) (fun key hk => absurd hk (State.no_keyToCome h0 key)) (by omega)
  unfold State.way at *
  rw [← hi]
  exact hw

theorem State.oneTask_taken {x t : State} (h : x.oneTask) (hb : x.isBusy = false) (ht : Taken x t) : t.oneTask := by
  have hq := State.tasks_of_quiet h hb
  have hy : ∀ y, Keeps x y → y.oneTask ∧ y.tasks = 0 := fun y hk => by
    have h0 : y.tasks = 0 := by
      have := hk.noTask.tasks_le
      omega
    exact ⟨State.oneTask_of_fewer h hk.noTask.way (fun _ => hk.noTask.keyToCome) (by omega), h0⟩
  cases ht with
  | answered _ hk _ => exact (hy _ hk).1
  | searches y w hk hb' =>
    have h1 := hy _ hk
    refine State.oneTask_of_fewer h1.1 (fun w e he => he) (fun key hk => hk) ?_
    have : ({ y with indexUnit := { y.indexUnit with mgmt := some w } } : State).tasks ≤ y.tasks + 1 := by
      unfold State.tasks IndexUnit.tasks
      show (y.engine 0).tasks + (y.engine 1).tasks + (y.engine 2).tasks + (y.engine 3).tasks +
        (1 + y.indexUnit.updates.countP IndexUpdate.isInsert + (y.indexUnit.op.any IndexOp.isInsert).toNat) +
          y.cmd.held.isSome.toNat ≤ _
      omega
    have hb'' : ({ y with indexUnit := { y.indexUnit with mgmt := some w } } : State).isBusy = true := hb'
    rw [hb'']
    refine Nat.le_trans this ?_
    simp only [Bool.toNat_true]
    omega
  | places y g m hk hb' _ hc _ =>
    have h1 := hy _ hk
    exact State.oneTask_placeMgmt h1.1 h1.2 hb' g m (fun n key b f l s hm => absurd hm (hc n key b f l s))
  | resets _ => exact State.oneTask_cleared h rfl rfl rfl rfl

theorem PortRow.oneTask {s t : State} (h : s.oneTask) (ht : PortRow s t) : t.oneTask := by
  cases ht with
  | keeps _ hk hb => exact hk.noTask.oneTask hb h
  | takes t hb _ ht =>
    have h1 : s.openSelect.oneTask := (Keeps.openSelect s).noTask.oneTask (by simp) h
    exact (Keeps.closeSelect t).noTask.oneTask rfl (State.oneTask_taken h1 (by simpa using hb) ht)
  | resets y hk hb _ => exact State.oneTask_cleared (hk.noTask.oneTask hb h) rfl rfl rfl rfl

/-- The visits of the long check free ways and add nothing. -/
theorem NoTask.scanSlot (s : State) (n : Nat) : NoTask s (s.scanSlot n) := by
  have hf : ∀ gen, NoTask s (s.scanFree n gen) := fun gen => by
    unfold State.scanFree State.freeWayOfSlot
    have h1 : NoTask s (s.setRecord n (Record.freed gen)) := NoTask.of_eq rfl rfl rfl rfl
    split
    · exact h1.trans (NoTask.freeWay _ _)
    · exact h1
  have hm : NoTask s (s.scanMismatch n) := NoTask.of_eq rfl rfl rfl rfl
  unfold State.scanSlot
  dsimp only
  repeat' split
  all_goals first | exact NoTask.refl _ | exact hf _ | exact hm

theorem NoTask.longCheckVisit {s : State} (hc : s.canonical) : NoTask s s.longCheckVisit := by
  unfold State.longCheckVisit
  split
  · exact (NoTask.scanSlot _ _).trans (NoTask.of_eq rfl rfl rfl rfl)
  · exact (NoTask.filterIndex hc.2.1 _).trans (NoTask.of_eq rfl rfl rfl rfl)
  · exact NoTask.of_eq rfl rfl rfl rfl
  · exact NoTask.refl _

theorem State.wf_scanSlot {s : State} (h : Table.wf none s.index = true) (n : Nat) :
    Table.wf none (s.scanSlot n).index = true := by
  have hf : ∀ gen, Table.wf none (s.scanFree n gen).index = true := fun gen => by
    unfold State.scanFree State.freeWayOfSlot
    split
    · exact Table.wf_put none none _ _ h
    · exact h
  unfold State.scanSlot
  dsimp only
  repeat' split
  all_goals first | exact h | exact hf _

theorem NoTask.scanRest (list : List (Nat × Record)) (n : Nat) : ∀ s : State, Table.wf none s.index = true →
    NoTask s (list.foldl (fun s p => if n ≤ p.1 ∧ p.1 < Config.slots then s.scanSlot p.1 else s) s) ∧
      Table.wf none (list.foldl (fun s p => if n ≤ p.1 ∧ p.1 < Config.slots then s.scanSlot p.1 else s) s).index = true := by
  induction list with
  | nil => exact fun s h => ⟨refl s, h⟩
  | cons p list ih =>
    intro s h
    rw [List.foldl_cons]
    split
    · have := ih _ (State.wf_scanSlot h p.1)
      exact ⟨(scanSlot s p.1).trans this.1, this.2⟩
    · exact ih s h

theorem NoTask.longCheckRest {s : State} (hc : s.canonical) : NoTask s s.longCheckRest := by
  unfold State.longCheckRest
  split
  · rename_i n _
    have h := NoTask.scanRest (s.scanSlot n).accounts (n + 1) (s.scanSlot n) (State.wf_scanSlot hc.2.1 n)
    exact (((NoTask.scanSlot s n).trans h.1).trans (NoTask.filterIndex h.2 _)).trans (NoTask.of_eq rfl rfl rfl rfl)
  · exact ((NoTask.filterIndex hc.2.1 _).trans (NoTask.filterIndex (Table.wf_filter _ _ _ hc.2.1) _)).trans
      (NoTask.of_eq rfl rfl rfl rfl)
  · exact NoTask.of_eq rfl rfl rfl rfl
  · exact NoTask.refl _

theorem oneTask_phaseReady {s t : State} (hc : s.canonical) (h : s.oneTask) (ht : execPhaseReady s = .next t) :
    t.oneTask := by
  unfold execPhaseReady at ht
  injection ht with ht
  subst ht
  split
  · have h1 : NoTask s s.longCheckRest.becomeReady := (NoTask.longCheckRest hc).trans (NoTask.of_eq rfl rfl rfl rfl)
    have hb : s.longCheckRest.becomeReady.isBusy = s.isBusy := by
      have := longCheckOnly_rest s
      unfold longCheckOnly at this
      rw [this]
      rfl
    have h2 := h1.oneTask hb h
    refine (NoTask.post _ _).oneTask (by simp) ?_
    unfold State.postReturn
    split
    · refine State.oneTask_setEngine h2 _ _ ?_ (fun m hm => ?_)
      · unfold Engine.tasks
        simp [Work.isTask]
      · rcases hm with hm | hm
        · exact .inl hm
        · exact .inr (.inl hm)
    · exact h2
  · exact h

/-- The rows of power control that neither clear nor check anything, and the reset events. -/
theorem oneTask_power {s t : State} (h : s.oneTask) (c : Instr)
    (hc : c = .softResetEffect ∨ c = .rstFall ∨ c = .rstRelease ∨ c = .mainSupplyLoss ∨ c = .mainSupplyReturn ∨
      c = .wakeEdge ∨ c = .backupSupplyLow ∨ c = .oscillatorWarmUpDone ∨ ∃ d, c = .retainedStoreDisturbance d)
    (ht : exec c s = .next t) : t.oneTask := by
  have hsame : ∀ x : State, x.index = s.index → x.indexUnit = s.indexUnit → x.cmd.held = s.cmd.held →
      x.engines = s.engines → x.cmd.state = s.cmd.state → x.oneTask := fun x h1 h2 h3 h4 h5 =>
    (NoTask.of_eq h1 h2 h3 h4).oneTask (by unfold State.isBusy; rw [h5]) h
  rcases hc with rfl | rfl | rfl | rfl | rfl | rfl | rfl | rfl | ⟨d, rfl⟩
  · injection ht with ht
    subst ht
    split
    · exact State.oneTask_cleared h rfl rfl rfl rfl
    · exact h
  · injection ht with ht
    subst ht
    repeat' split
    · exact h
    · exact hsame _ rfl rfl rfl rfl rfl
    · exact State.oneTask_cleared h rfl rfl rfl rfl
  · injection ht with ht
    subst ht
    dsimp only
    repeat' split
    · exact hsame _ rfl rfl rfl rfl rfl
    · exact hsame _ rfl rfl rfl rfl rfl
    · exact h
  · injection ht with ht
    subst ht
    dsimp only
    split
    · exact h
    · split
      · exact hsame _ rfl rfl rfl rfl rfl
      · exact State.oneTask_cleared h rfl rfl rfl rfl
  · injection ht with ht
    subst ht
    dsimp only
    repeat' split
    · exact h
    · exact hsame _ rfl rfl rfl rfl rfl
    · exact hsame _ rfl rfl rfl rfl rfl
    · exact hsame _ rfl rfl rfl rfl rfl
  · injection ht with ht
    subst ht
    split
    · exact hsame _ rfl rfl rfl rfl rfl
    · exact h
  · injection ht with ht
    subst ht
    split
    · exact hsame _ rfl rfl rfl rfl rfl
    · exact h
  · injection ht with ht
    subst ht
    split
    · split
      · have hn : NoTask s s.coldDefaults.beginLongCheck := by
          refine ⟨fun w e he => ?_, Nat.le_refl _, fun _ _ h => h, rfl, fun _ => rfl, fun _ => rfl, fun _ => .inr rfl⟩
          cases he
        exact hn.oneTask rfl h
      · exact hsame _ rfl rfl rfl rfl rfl
    · exact h
  · injection ht with ht
    subst ht
    cases d with
    | record n change =>
      dsimp only
      split
      · exact hsame _ rfl rfl rfl rfl rfl
      · exact h
    | transit v => exact hsame _ rfl rfl rfl rfl rfl

/-- Every command keeps one task and one way for one key. -/
theorem exec_oneTask (c : Instr) {s t : State} (hc : s.canonical) (h : s.oneTask) (ht : exec c s = .next t) :
    t.oneTask := by
  have hk : Keeps s t ∧ t.isBusy = s.isBusy → t.oneTask := fun hk => hk.1.noTask.oneTask hk.2 h
  have hn : NoTask s t ∧ t.isBusy = s.isBusy → t.oneTask := fun hn => hn.1.oneTask hn.2 h
  have hcmd : ∀ k : Command, exec c s = .next (s.command k.opcode (takeCommand k)) → t.oneTask := fun k hk => by
    rw [hk] at ht
    injection ht with ht
    subst ht
    exact (PortRow.command k s).oneTask h
  cases c with
  | startByte l => injection ht with ht; exact hk (ht ▸ Keeps.receiveByte s l _)
  | frameComplete l bs => injection ht with ht; exact hk (ht ▸ Keeps.receiveBytes l bs s)
  | frameTimeout l => injection ht with ht; exact hk (ht ▸ Keeps.discardFrame s l)
  | frameDiscard l cause =>
    injection ht with ht
    subst ht
    cases cause
    · exact hk (Keeps.receiveByte s l _)
    · exact hk (Keeps.discardFrame s l)
  | routerTake => exact oneTask_routerTake h ht
  | responseSent l => injection ht with ht; subst ht; exact hk ⟨Keeps.modifyLink _ _ _, rfl⟩
  | hldDeassert l => injection ht with ht; subst ht; exact hk ⟨Keeps.modifyLink _ _ _, rfl⟩
  | hldAssert l => injection ht with ht; subst ht; exact hk ⟨Keeps.modifyLink _ _ _, rfl⟩
  | engineTakeWork g => exact oneTask_engineTakeWork h ht
  | terminalRead g => exact hk (Keeps.terminalRead ht)
  | debit g => exact hk (Keeps.debit ht)
  | probe g => exact hk (Keeps.probe ht)
  | authorize g => exact hn (NoTask.authorize ht)
  | holdEntryAllocation => exact hn (NoTask.holdEntryAllocation ht)
  | settle g => exact hn (NoTask.settle ht)
  | cancel g => exact hn (NoTask.cancel ht)
  | extend g => exact hn (NoTask.extend ht)
  | expiry g => exact hn (NoTask.expiry ht)
  | slotFree g => exact hn (NoTask.slotFree ht)
  | checkClaim g => exact hk (Keeps.checkClaim ht)
  | timebaseRaise => exact hn (NoTask.timebaseRaise ht)
  | holdFallsDue => exact hn (NoTask.holdFallsDue ht)
  | shortCheckIntervalExpiry => exact hk (Keeps.shortCheckIntervalExpiry ht)
  | indexTakeWork => exact oneTask_indexTakeWork h ht
  | lookup => exact hk (Keeps.lookup ht)
  | enrolSearch => exact oneTask_enrolSearch h ht
  | createStep g => exact oneTask_createStep h ht
  | indexInsert => exact oneTask_indexInsert h ht
  | activateStep g => exact oneTask_activateStep h ht
  | keyRemoval => exact hn (NoTask.keyRemoval hc ht)
  | sameGroupTransfer g => exact oneTask_sameGroupTransfer h ht
  | transferStep1 g => exact oneTask_transferStep1 h ht
  | transitStep g => exact oneTask_transitStep h ht
  | returnStep g => exact oneTask_returnStep h ht
  | managementRequestPlaced => exact oneTask_managementRequestPlaced h ht
  | managementRequestComplete g => exact oneTask_managementRequestComplete h ht
  | mselAssert =>
    injection ht with ht
    subst ht
    split
    · exact (Keeps.openSelect s).noTask.oneTask (by simp) h
    · exact h
  | responseRead => exact (PortRow.responseRead ht).oneTask h
  | undecodableBlock bs => exact (PortRow.undecodableBlock ht).oneTask h
  | find event =>
    cases event with
    | block key => exact hcmd (.find key) rfl
    | completion =>
      injection ht with ht
      subst ht
      exact oneTask_completeFind h
  | poll => exact hcmd .poll rfl
  | enrol key bal floor low set => exact hcmd (.enrol key bal floor low set) rfl
  | managementRead hd form => exact hcmd (.read hd form) rfl
  | update hd mask floor low set => exact hcmd (.update hd mask floor low set) rfl
  | freeze hd => exact hcmd (.freeze hd) rfl
  | thaw hd => exact hcmd (.thaw hd) rfl
  | retire hd => exact hcmd (.retire hd) rfl
  | topup hd a => exact hcmd (.topup hd a) rfl
  | adjust hd a => exact hcmd (.adjust hd a) rfl
  | transfer src dst how a => exact hcmd (.transfer src dst how a) rfl
  | transitClear sel hd => exact hcmd (.transitClear sel hd) rfl
  | restore hd bal floor low set => exact hcmd (.restore hd bal floor low set) rfl
  | holdRead tk => exact hcmd (.holdRead tk) rfl
  | holdRelease tk => exact hcmd (.holdRelease tk) rfl
  | holdCapture tk => exact hcmd (.holdCapture tk) rfl
  | tariffSet n en price most window action => exact hcmd (.tariffSet n en price most window action) rfl
  | tariffRead n => exact hcmd (.tariffRead n) rfl
  | linkSet l en baud high res => exact hcmd (.linkSet l en baud high res) rfl
  | linkRead l => exact hcmd (.linkRead l) rfl
  | noticeRead => exact hcmd .noticeRead rfl
  | config interval threshold => exact hcmd (.config interval threshold) rfl
  | mode code => exact hcmd (.mode code) rfl
  | timeRead => exact hcmd .timeRead rfl
  | reset => exact hcmd .reset rfl
  | softResetEffect => exact oneTask_power h _ (by simp) ht
  | rstFall => exact oneTask_power h _ (by simp) ht
  | rstRelease => exact oneTask_power h _ (by simp) ht
  | mainSupplyLoss => exact oneTask_power h _ (by simp) ht
  | mainSupplyReturn => exact oneTask_power h _ (by simp) ht
  | wakeEdge => exact oneTask_power h _ (by simp) ht
  | backupSupplyLow => exact oneTask_power h _ (by simp) ht
  | retainedStoreDisturbance d => exact oneTask_power h _ (by simp) ht
  | oscillatorWarmUpDone => exact oneTask_power h _ (by simp) ht
  | phaseReady => exact oneTask_phaseReady hc h ht

end Sys2Proof.Machine
end

