-- ==== Sys2Proof/Laws/Holds.lean ====
section
/-! SUPPORT. Holds, lists and deadlines as stores: what creating, ending, re-placing and re-arming a hold does to the rules
of R3 and R98. -/

namespace Sys2Proof.Machine

/-! ### Tickets (R72) -/

theorem ticketCurrent_iff {t : Ticket} {e : HoldEntry} :
    ticketCurrent t e = true ↔ e.state ≠ .free ∧ t.serial.toNat = e.serial.toNat := by
  unfold ticketCurrent
  simp

theorem ticketOfGroup_iff {g : Lane} {t : Ticket} {e : HoldEntry} :
    ticketOfGroup g t e = true ↔ ticketCurrent t e = true ∧ laneOf e.slot = g := by
  unfold ticketOfGroup
  simp

/-- Two open tickets of one entry are one ticket. -/
theorem Ticket.eq_of_current {t t' : Ticket} {e : HoldEntry} (h : ticketCurrent t e = true) (h' : ticketCurrent t' e = true)
    (hn : t.entry.toNat = t'.entry.toNat) : t = t' := by
  rw [ticketCurrent_iff] at h h'
  cases t
  cases t'
  simp only [Ticket.mk.injEq]
  exact ⟨BitVec.eq_of_toNat_eq hn, BitVec.eq_of_toNat_eq (h.2.trans h'.2.symm)⟩

theorem State.isOpen_inj {s : State} {t t' : Ticket} (h : s.isOpen t) (h' : s.isOpen t')
    (hn : t.entry.toNat = t'.entry.toNat) : t = t' :=
  Ticket.eq_of_current h (by unfold State.isOpen at h'; rwa [← hn] at h') hn

theorem ticketOf_entry {n : Nat} (h : n < 256) (serial : BitVec 4) : (ticketOf n serial).entry.toNat = n := by
  unfold ticketOf
  simp
  omega

theorem ticketOf_current {n : Nat} {e : HoldEntry} (h : e.state ≠ .free) : ticketCurrent (ticketOf n e.serial) e = true := by
  rw [ticketCurrent_iff]
  refine ⟨h, ?_⟩
  unfold ticketOf
  simp
  have := e.serial.isLt
  omega

/-! ### Lists and sums -/

theorem filter_ne_of_not_mem [DecidableEq α] {l : List α} {a : α} (h : a ∉ l) : l.filter (· ≠ a) = l := by
  rw [List.filter_eq_self]
  intro b hb
  simp only [decide_eq_true_eq]
  exact fun e => h (e ▸ hb)

theorem le_sum_of_mem (f : α → Nat) {l : List α} {a : α} (h : a ∈ l) : f a ≤ (l.map f).sum := by
  induction l with
  | nil => cases h
  | cons b l ih =>
    rw [List.map_cons, List.sum_cons]
    rcases List.mem_cons.1 h with rfl | h
    · omega
    · have := ih h
      omega

theorem sum_filter_ne [DecidableEq α] (f : α → Nat) {l : List α} {a : α} (hn : l.Nodup) (h : a ∈ l) :
    ((l.filter (· ≠ a)).map f).sum = (l.map f).sum - f a := by
  induction l with
  | nil => cases h
  | cons b l ih =>
    rw [List.nodup_cons] at hn
    by_cases hb : b = a
    · subst hb
      rw [List.filter_cons_of_neg (by simp), filter_ne_of_not_mem hn.1]
      simp
    · rw [List.filter_cons_of_pos (by simpa using hb)]
      have h' : a ∈ l := (List.mem_cons.1 h).resolve_left (fun e => hb e.symm)
      have hle : f a ≤ (l.map f).sum := le_sum_of_mem f h'
      simp only [List.map_cons, List.sum_cons, ih hn.2 h']
      omega

theorem mem_filter_ne [DecidableEq α] {l : List α} {a b : α} : b ∈ l.filter (· ≠ a) ↔ b ∈ l ∧ b ≠ a := by
  simp [List.mem_filter]

/-! ### Deadlines (R98 to R103) -/

/-- R102: a hold that is no longer LIVE leaves both places. -/
theorem State.deadlinesRule_remove {s y : State} {t : Ticket} (h : s.deadlinesRule) (ht : s.isOpen t)
    (hh : ∀ m, m ≠ t.entry.toNat → y.hold m = s.hold m) (hn : (y.hold t.entry.toNat).state ≠ .live)
    (hd : y.deadlines = s.deadlines.filter fun i => i.ticket != t)
    (hc : ∀ m, (y.engine m).claims = (s.engine m).claims.filter (· ≠ t)) : y.deadlinesRule := by
  have hne : ∀ t', s.isOpen t' → t' ≠ t → t'.entry.toNat ≠ t.entry.toNat := fun t' h' hne he =>
    hne (State.isOpen_inj h' ht he)
  have hmem : ∀ i ∈ y.deadlines, i ∈ s.deadlines ∧ i.ticket ≠ t := by
    intro i hi
    rw [hd, List.mem_filter] at hi
    exact ⟨hi.1, by simpa using hi.2⟩
  refine ⟨?_, fun g => ?_, fun i hi => ?_, fun g t' ht' => ?_, fun t' ho hl => ?_⟩
  · rw [hd]
    exact List.Nodup.sublist (List.Sublist.map _ List.filter_sublist) h.1
  · rw [hc]
    exact (h.2.1 g).filter _
  · obtain ⟨hi', hti⟩ := hmem i hi
    have h3 := h.2.2.1 i hi'
    have he := hne _ h3.1 hti
    unfold State.isOpen
    rw [hh _ he]
    exact ⟨h3.1, h3.2.1, h3.2.2.1, fun g hg => h3.2.2.2 g (by rw [hc, mem_filter_ne] at hg; exact hg.1)⟩
  · rw [hc, mem_filter_ne] at ht'
    have h4 := h.2.2.2.1 g t' ht'.1
    have he := hne _ h4.1 ht'.2
    unfold State.isOpen
    rw [hh _ he]
    exact h4
  · by_cases he : t'.entry.toNat = t.entry.toNat
    · rw [he] at hl
      exact absurd hl hn
    · unfold State.isOpen at ho
      rw [hh _ he] at ho hl ⊢
      have hne' : t' ≠ t := fun e => he (by rw [e])
      rcases h.2.2.2.2 t' ho hl with h5 | h5
      · left
        rw [List.mem_map] at h5 ⊢
        obtain ⟨i, hi, rfl⟩ := h5
        exact ⟨i, by rw [hd, List.mem_filter]; exact ⟨hi, by simpa using hne'⟩, rfl⟩
      · right
        rw [hc, mem_filter_ne]
        exact ⟨h5, hne'⟩

theorem mem_map_insertItem {i : DeadlineItem} {q : List DeadlineItem} {t : Ticket} :
    t ∈ (insertItem i q).map DeadlineItem.ticket ↔ t = i.ticket ∨ t ∈ q.map DeadlineItem.ticket := by
  simp only [List.mem_map, mem_insertItem]
  constructor
  · rintro ⟨j, rfl | hj, rfl⟩
    · exact .inl rfl
    · exact .inr ⟨j, hj, rfl⟩
  · rintro (rfl | ⟨j, hj, rfl⟩)
    · exact ⟨i, .inl rfl, rfl⟩
    · exact ⟨j, .inr hj, rfl⟩

theorem nodup_insertItem {i : DeadlineItem} {q : List DeadlineItem} (h : (q.map DeadlineItem.ticket).Nodup)
    (hi : i.ticket ∉ q.map DeadlineItem.ticket) : ((insertItem i q).map DeadlineItem.ticket).Nodup := by
  induction q with
  | nil => simp [insertItem]
  | cons j q ih =>
    rw [List.map_cons, List.nodup_cons] at h
    rw [List.map_cons, List.mem_cons, not_or] at hi
    unfold insertItem
    split
    · rw [List.map_cons, List.nodup_cons, mem_map_insertItem]
      exact ⟨fun hj => hj.elim (fun e => hi.1 e.symm) h.1, ih h.2 hi.2⟩
    · rw [List.map_cons, List.nodup_cons, List.map_cons, List.mem_cons, not_or, List.nodup_cons]
      exact ⟨hi, h⟩

/-- R99, R101: a hold that has become LIVE is inserted. -/
theorem State.deadlinesRule_insert {s y : State} {t : Ticket} (h : s.deadlinesRule)
    (hl : (s.hold t.entry.toNat).state ≠ .live) (hh : ∀ m, m ≠ t.entry.toNat → y.hold m = s.hold m) (ht : y.isOpen t)
    (hn : (y.hold t.entry.toNat).state = .live)
    (hd : y.deadlines = insertItem ⟨t, (y.hold t.entry.toNat).deadline⟩ s.deadlines)
    (hc : ∀ m, (y.engine m).claims = (s.engine m).claims) : y.deadlinesRule := by
  have hne : ∀ t' : Ticket, (s.hold t'.entry.toNat).state = .live → t'.entry.toNat ≠ t.entry.toNat := fun t' h' he =>
    hl (by rw [← he]; exact h')
  refine ⟨?_, fun g => by rw [hc]; exact h.2.1 g, fun i hi => ?_, fun g t' ht' => ?_, fun t' ho hl' => ?_⟩
  · rw [hd]
    refine nodup_insertItem h.1 (fun hm => ?_)
    rw [List.mem_map] at hm
    obtain ⟨i, hi, hit⟩ := hm
    have := (h.2.2.1 i hi).2.1
    simp only at hit
    rw [hit] at this
    exact hl this
  · rw [hd, mem_insertItem] at hi
    rcases hi with rfl | hi
    · refine ⟨ht, hn, rfl, fun g hg => ?_⟩
      rw [hc] at hg
      exact hl (h.2.2.2.1 g t hg).2.1
    · have h3 := h.2.2.1 i hi
      have he := hne _ h3.2.1
      unfold State.isOpen
      rw [hh _ he]
      exact ⟨h3.1, h3.2.1, h3.2.2.1, fun g => by rw [hc]; exact h3.2.2.2 g⟩
  · rw [hc] at ht'
    have h4 := h.2.2.2.1 g t' ht'
    have he := hne _ h4.2.1
    unfold State.isOpen
    rw [hh _ he]
    exact h4
  · by_cases he : t'.entry.toNat = t.entry.toNat
    · rw [State.isOpen_inj ho ht he]
      left
      rw [hd, mem_map_insertItem]
      exact .inl rfl
    · unfold State.isOpen at ho
      rw [hh _ he] at ho hl' ⊢
      rcases h.2.2.2.2 t' ho hl' with h5 | h5
      · left
        rw [hd, mem_map_insertItem]
        exact .inr h5
      · right
        rw [hc]
        exact h5

/-- The rules of the deadline unit see only these fields. -/
theorem State.deadlinesRule_congr {s y : State} (h : s.deadlinesRule) (hh : ∀ m, y.hold m = s.hold m)
    (hd : y.deadlines = s.deadlines) (hc : ∀ m, (y.engine m).claims = (s.engine m).claims) : y.deadlinesRule := by
  refine ⟨by rw [hd]; exact h.1, fun g => by rw [hc]; exact h.2.1 g, fun i hi => ?_, fun g t ht => ?_, fun t ho hl => ?_⟩
  · rw [hd] at hi
    have h3 := h.2.2.1 i hi
    unfold State.isOpen
    rw [hh]
    exact ⟨h3.1, h3.2.1, h3.2.2.1, fun g => by rw [hc]; exact h3.2.2.2 g⟩
  · rw [hc] at ht
    unfold State.isOpen
    rw [hh]
    exact h.2.2.2.1 g t ht
  · unfold State.isOpen at ho
    rw [hh] at ho hl ⊢
    rw [hd, hc]
    exact h.2.2.2.2 t ho hl

/-! ### Lists and held (R3) -/

/-- The rule of lists and holds sees only these fields; entries may change as long as they stay open or closed, with
account and amount. -/
theorem State.holdsRule_congr {s y : State} (h : s.holdsRule)
    (hh : ∀ m, (y.hold m).state = .free ↔ (s.hold m).state = .free)
    (hs : ∀ m, (y.hold m).serial = (s.hold m).serial ∧ (y.hold m).slot = (s.hold m).slot ∧
      (y.hold m).amount = (s.hold m).amount)
    (hr : ∀ n, (y.record n).held = (s.record n).held ∧ (y.record n).holds = (s.record n).holds)
    (hst : ∀ n, (y.record n).state = .free ∨ (y.record n).state = .new ∨ (y.record n).state = .gone →
      (s.record n).holds = [])
    (hy : y.isReady = false → s.isReady = false) : y.holdsRule := by
  have ho : ∀ t, y.isOpen t ↔ s.isOpen t := fun t => by
    unfold State.isOpen
    rw [ticketCurrent_iff, ticketCurrent_iff, Ne, hh, (hs _).1]
  refine ⟨fun n => ?_, fun n t => ?_, fun n hn => (hh n).2 (h.2.2.1 n hn), fun hy' n => (hh n).2 (h.2.2.2 (hy hy') n)⟩
  · have h1 := h.1 n
    rw [(hr n).1, (hr n).2]
    refine ⟨h1.1, h1.2.1, ?_, h1.2.2.2.1, hst n⟩
    rw [h1.2.2.1]
    congr 1
    exact List.map_congr_left fun t _ => (hs _).2.2.symm
  · rw [(hr n).2, h.2.1 n t, ho, (hs _).2.1]

/-- R77: a new hold on an account with fewer than four. -/
theorem State.holdsRule_create {s y : State} {t : Ticket} {e : HoldEntry} (h : s.holdsRule)
    (hf : (s.hold t.entry.toNat).state = .free) (hh : ∀ m, m ≠ t.entry.toNat → y.hold m = s.hold m)
    (he : y.hold t.entry.toNat = e) (ht : ticketCurrent t e = true)
    (hr : ∀ n, n ≠ e.slot → (s.record n).sameHolds (y.record n))
    (hst : (y.record e.slot).state = .active)
    (hheld : (y.record e.slot).held = (s.record e.slot).held + e.amount)
    (hlist : (y.record e.slot).holds = (s.record e.slot).holds ++ [t])
    (h4 : (s.record e.slot).holds.length < 4) (hmax : (s.record e.slot).held + e.amount ≤ 99999999)
    (hready : s.isReady = true) (hy : y.isReady = s.isReady) : y.holdsRule := by
  have hno : ∀ n, ∀ t' ∈ (s.record n).holds, t'.entry.toNat ≠ t.entry.toNat := fun n t' ht' heq => by
    have := ((h.2.1 n t').1 ht').1
    unfold State.isOpen at this
    rw [heq, ticketCurrent_iff] at this
    exact this.1 hf
  have hopen : ∀ t', y.isOpen t' ↔ t' = t ∨ s.isOpen t' := fun t' => by
    constructor
    · intro ho
      by_cases hne : t'.entry.toNat = t.entry.toNat
      · exact .inl (Ticket.eq_of_current (e := e) (by unfold State.isOpen at ho; rwa [hne, he] at ho) ht hne)
      · unfold State.isOpen at ho
        rw [hh _ hne] at ho
        exact .inr ho
    · rintro (rfl | ho)
      · unfold State.isOpen
        rwa [he]
      · have hne : t'.entry.toNat ≠ t.entry.toNat := fun heq => by
          unfold State.isOpen at ho
          rw [heq, ticketCurrent_iff] at ho
          exact ho.1 hf
        unfold State.isOpen
        rw [hh _ hne]
        exact ho
  have hamt : ∀ n, ((s.record n).holds.map fun t => (y.hold t.entry.toNat).amount).sum = (s.record n).held := fun n => by
    rw [(h.1 n).2.2.1]
    congr 1
    exact List.map_congr_left fun t' ht' => by rw [hh _ (hno n t' ht')]
  refine ⟨fun n => ?_, fun n t' => ?_, fun n hn => ?_, fun hr' => ?_⟩
  · by_cases hn : n = e.slot
    · subst hn
      have h1 := h.1 e.slot
      rw [hheld, hlist]
      refine ⟨?_, by simp; omega, ?_, hmax, fun hs' => ?_⟩
      · rw [List.nodup_append]
        exact ⟨h1.1, by simp, fun a ha b hb hab => hno _ a ha (by rw [hab, List.mem_singleton.1 hb])⟩
      · simp [hamt, he]
      · rw [hst] at hs'
        simp at hs'
    · have h1 := h.1 n
      have h2 := hr n hn
      rw [← h2.1, ← h2.2.1, ← h2.2.2, hamt]
      exact ⟨h1.1, h1.2.1, rfl, h1.2.2.2.1, h1.2.2.2.2⟩
  · by_cases hn : n = e.slot
    · subst hn
      rw [hlist, List.mem_append, List.mem_singleton, h.2.1, hopen]
      constructor
      · rintro (⟨ho, hs'⟩ | rfl)
        · have hne : t'.entry.toNat ≠ t.entry.toNat := hno e.slot t' ((h.2.1 _ _).2 ⟨ho, hs'⟩)
          rw [hh _ hne]
          exact ⟨.inr ho, hs'⟩
        · exact ⟨.inl rfl, by rw [he]⟩
      · rintro ⟨rfl | ho, hs'⟩
        · exact .inr rfl
        · have hne : t'.entry.toNat ≠ t.entry.toNat := fun heq => by
            unfold State.isOpen at ho
            rw [heq, ticketCurrent_iff] at ho
            exact ho.1 hf
          rw [hh _ hne] at hs'
          exact .inl ⟨ho, hs'⟩
    · rw [← (hr n hn).2.2, h.2.1, hopen]
      constructor
      · rintro ⟨ho, hs'⟩
        have hne := hno n t' ((h.2.1 _ _).2 ⟨ho, hs'⟩)
        rw [hh _ hne]
        exact ⟨.inr ho, hs'⟩
      · rintro ⟨rfl | ho, hs'⟩
        · rw [he] at hs'
          exact absurd hs'.symm hn
        · have hne : t'.entry.toNat ≠ t.entry.toNat := fun heq => by
            unfold State.isOpen at ho
            rw [heq, ticketCurrent_iff] at ho
            exact ho.1 hf
          rw [hh _ hne] at hs'
          exact ⟨ho, hs'⟩
  · have hne : n ≠ t.entry.toNat := fun heq => by
      have := t.entry.isLt
      omega
    rw [hh _ hne]
    exact h.2.2.1 n hn
  · rw [hy, hready] at hr'
    cases hr'

/-- R79: an open hold has ended. -/
theorem State.holdsRule_end {s y : State} {t : Ticket} {e : HoldEntry} (h : s.holdsRule) (ht : s.isOpen t)
    (he : s.hold t.entry.toNat = e) (hf : (y.hold t.entry.toNat).state = .free)
    (hh : ∀ m, m ≠ t.entry.toNat → y.hold m = s.hold m)
    (hr : ∀ n, n ≠ e.slot → (s.record n).sameHolds (y.record n))
    (hheld : (y.record e.slot).held = heldWithout (s.record e.slot).held e.amount)
    (hlist : (y.record e.slot).holds = (s.record e.slot).holds.filter (· ≠ t))
    (hst : (y.record e.slot).state = (s.record e.slot).state ∨ (s.record e.slot).holds.filter (· ≠ t) = [])
    (hy : y.isReady = s.isReady) : y.holdsRule := by
  have hmem : t ∈ (s.record e.slot).holds := (h.2.1 _ _).2 ⟨ht, by rw [he]⟩
  have hne : ∀ n, ∀ t' ∈ (s.record n).holds, t' ≠ t → t'.entry.toNat ≠ t.entry.toNat := fun n t' ht' hne heq =>
    hne (State.isOpen_inj ((h.2.1 n t').1 ht').1 ht heq)
  have hopen : ∀ t', y.isOpen t' ↔ s.isOpen t' ∧ t' ≠ t := fun t' => by
    by_cases hn : t'.entry.toNat = t.entry.toNat
    · constructor
      · intro ho
        unfold State.isOpen at ho
        rw [hn, ticketCurrent_iff] at ho
        exact absurd hf ho.1
      · rintro ⟨ho, hne'⟩
        exact absurd (State.isOpen_inj ho ht hn) hne'
    · unfold State.isOpen
      rw [hh _ hn]
      exact ⟨fun ho => ⟨ho, fun heq => hn (by rw [heq])⟩, fun ho => ho.1⟩
  have hamt : ∀ n, ∀ l : List Ticket, (∀ t' ∈ l, t' ∈ (s.record n).holds ∧ t' ≠ t) →
      (l.map fun t => (y.hold t.entry.toNat).amount).sum = (l.map fun t => (s.hold t.entry.toNat).amount).sum :=
    fun n l hl => by
      congr 1
      exact List.map_congr_left fun t' ht' => by rw [hh _ (hne n t' (hl t' ht').1 (hl t' ht').2)]
  refine ⟨fun n => ?_, fun n t' => ?_, fun n hn => ?_, fun hr' n => ?_⟩
  · by_cases hn : n = e.slot
    · subst hn
      have h1 := h.1 e.slot
      have hle : e.amount ≤ (s.record e.slot).held := by
        have h2 := le_sum_of_mem (fun t => (s.hold t.entry.toNat).amount) hmem
        rw [← h1.2.2.1, he] at h2
        exact h2
      rw [hheld, hlist, heldWithout, if_pos hle]
      refine ⟨h1.1.filter _, Nat.le_trans (List.length_filter_le _ _) h1.2.1, ?_, by omega, fun hs' => ?_⟩
      · rw [hamt e.slot _ (fun t' ht' => by rw [mem_filter_ne] at ht'; exact ht'),
          sum_filter_ne (fun t => (s.hold t.entry.toNat).amount) h1.1 hmem, ← h1.2.2.1, he]
      · rcases hst with hst | hst
        · rw [hst] at hs'
          rw [h1.2.2.2.2 hs']
          rfl
        · exact hst
    · have h1 := h.1 n
      have h2 := hr n hn
      have hnm : t ∉ (s.record n).holds := fun hm => hn (((h.2.1 n t).1 hm).2.symm.trans (by rw [he]))
      rw [← h2.1, ← h2.2.1, ← h2.2.2, hamt n _ (fun t' ht' => ⟨ht', fun heq => hnm (heq ▸ ht')⟩)]
      exact h1
  · by_cases hn : n = e.slot
    · subst hn
      rw [hlist, mem_filter_ne, h.2.1, hopen]
      constructor
      · rintro ⟨⟨ho, hs'⟩, hne'⟩
        rw [hh _ (hne e.slot t' ((h.2.1 _ _).2 ⟨ho, hs'⟩) hne')]
        exact ⟨⟨ho, hne'⟩, hs'⟩
      · rintro ⟨⟨ho, hne'⟩, hs'⟩
        rw [hh _ (fun heq => hne' (State.isOpen_inj ho ht heq))] at hs'
        exact ⟨⟨ho, hs'⟩, hne'⟩
    · rw [← (hr n hn).2.2, h.2.1, hopen]
      constructor
      · rintro ⟨ho, hs'⟩
        have hne' : t' ≠ t := fun heq => hn (by rw [← hs', heq, he])
        rw [hh _ (fun heq => hne' (State.isOpen_inj ho ht heq))]
        exact ⟨⟨ho, hne'⟩, hs'⟩
      · rintro ⟨⟨ho, hne'⟩, hs'⟩
        rw [hh _ (fun heq => hne' (State.isOpen_inj ho ht heq))] at hs'
        exact ⟨ho, hs'⟩
  · by_cases hn' : n = t.entry.toNat
    · rw [hn']
      exact hf
    · rw [hh _ hn']
      exact h.2.2.1 n hn
  · rw [hy] at hr'
    by_cases hn' : n = t.entry.toNat
    · rw [hn']
      exact hf
    · rw [hh _ hn']
      exact h.2.2.2 hr' n

end Sys2Proof.Machine
end

