-- ==== Sys2Proof/Laws/Books.lean ====
section
/-! SUPPORT. The rules of R3, R70 and R98 together, with the work in progress that they rest on: what a change of the stores
has to keep for them to hold on. -/

namespace Sys2Proof.Machine

/-- The rules of lists and held, of the deadline unit's keeping, and of the work in progress. -/
def State.books (s : State) : Prop := s.holdsRule ∧ s.deadlinesRule ∧ s.workRule

/-! ### Work in progress -/

theorem any_le_any {a b : Option α} {p : α → Bool} (h : ∀ v, a = some v → p v = true → ∃ w, b = some w ∧ p w = true) :
    (a.any p).toNat ≤ (b.any p).toNat := by
  refine toNat_le_toNat fun ha => ?_
  cases a with
  | none => cases ha
  | some v =>
    obtain ⟨w, hw, hp⟩ := h v rfl ha
    rw [hw]
    exact hp

/-- Claims and key removals that are only carried out, not posted, are no more. -/
theorem State.removals_le {x y : State} (hu : y.indexUnit.updates = x.indexUnit.updates)
    (ho : ∀ u, y.indexUnit.op = some (.update u) → x.indexUnit.op = some (.update u))
    (hsf : ∀ m, (y.engine m).slotFree = (x.engine m).slotFree)
    (hop : ∀ m op, (y.engine m).op = some op → ∃ op', (x.engine m).op = some op' ∧ op'.work = op.work) (n : Nat) :
    y.removals n ≤ x.removals n := by
  have h1 : (y.indexUnit.op.any (IndexOp.removes n)).toNat ≤ (x.indexUnit.op.any (IndexOp.removes n)).toNat := by
    refine any_le_any fun v hv hp => ?_
    cases v with
    | update u => exact ⟨_, ho u hv, hp⟩
    | link l => cases hp
    | mgmt => cases hp
  have h2 : ((y.engine (laneOf n)).op.any fun op => op.work == .slotFree n).toNat ≤
      ((x.engine (laneOf n)).op.any fun op => op.work == .slotFree n).toNat := by
    refine any_le_any fun v hv hp => ?_
    obtain ⟨op', h', hw⟩ := hop _ _ hv
    exact ⟨op', h', by rw [hw]; exact hp⟩
  unfold State.removals Engine.removals
  rw [hu, hsf]
  omega

/-- The rule of the work in progress goes on, where the engine at work on a record or an entry that changes is done with it. -/
theorem State.workRule_of {x y : State} (h : x.workRule)
    (hp : ∀ m r, y.places m r → x.places m r ∨ (r.ticket? = none → laneOf r.slot = m))
    (hop : ∀ m op, (y.engine m).op = some op → (x.engine m).op = some op ∨
      (y.opAgrees m op ∧ ∀ n, op.work = .slotFree n → laneOf n = m))
    (hsf : ∀ m n, n ∈ (y.engine m).slotFree → n ∈ (x.engine m).slotFree ∨ laneOf n = m)
    (hrec : ∀ n, (x.record n).sameHolds (y.record n) ∨ (y.engine (laneOf n)).op = none)
    (hhold : ∀ n, y.hold n = x.hold n ∨ ((x.hold n).state ≠ .free ∧ (y.engine (laneOf (x.hold n).slot)).op = none) ∨
      ((x.hold n).state = .free ∧ ∀ m op, (y.engine m).op = some op → op.alloc ≠ .allotted n))
    (hrem : ∀ n, y.removals n ≤ ((y.record n).state == .gone).toNat)
    (hnew : ∀ n, ((∃ g, y.places g (.mgmt (.activate n))) ∨ ∃ key, y.updating (.insert key n)) →
      (y.record n).state = .new) : y.workRule := by
  refine ⟨fun m r hr ht => ?_, fun m n hn => ?_, hrem, hnew, fun m op ho => ?_⟩
  · rcases hp m r hr with hr' | hr'
    · exact h.1 m r hr' ht
    · exact hr' ht
  · rcases hn with hn | ⟨op, ho, hw⟩
    · rcases hsf m n hn with hn | hn
      · exact h.2.1 m n (.inl hn)
      · exact hn
    · rcases hop m op ho with ho' | ho'
      · exact h.2.1 m n (.inr ⟨op, ho', hw⟩)
      · exact ho'.2 n hw
  · rcases hop m op ho with ho' | ho'
    · have ha := h.2.2.2.2 m op ho'
      have hbusy : ∀ k, (y.engine k).op = none → k ≠ m := fun k hk hkm => by
        rw [hkm, ho] at hk
        cases hk
      refine ⟨fun r hw ht => ?_, fun t hw ht => ?_, ha.2.2.1, fun n hn => ?_, ha.2.2.2.2⟩
      · have hl := h.1 m r (.inr (.inl ⟨op, ho', hw⟩)) ht
        rcases hrec r.slot with hs | hs
        · exact Record.sameHolds_trans (ha.1 r hw ht) hs
        · exact absurd hl (hbusy _ hs)
      · have h2 := ha.2.1 t hw ht
        rw [ticketOfGroup_iff, ticketCurrent_iff] at ht
        rw [← h2.1] at ht
        constructor
        · rcases hhold t.entry.toNat with e | ⟨-, e⟩ | ⟨e, -⟩
          · rw [e]
            exact h2.1
          · exact absurd ht.2 (hbusy _ e)
          · exact absurd e ht.1.1
        · rcases hrec op.entry.slot with hs | hs
          · exact Record.sameHolds_trans h2.2 hs
          · rw [h2.1] at ht
            exact absurd ht.2 (hbusy _ hs)
      · have h4 := ha.2.2.2.1 n hn
        refine ⟨h4.1, ?_, fun k op' hk ho'' hn' => ?_⟩
        · rcases hhold n with e | ⟨e, -⟩ | ⟨-, e⟩
          · rw [e]
            exact h4.2.1
          · exact absurd h4.2.1 e
          · exact absurd hn (e m op ho)
        · rcases hop k op' ho'' with hx | hx
          · exact h4.2.2 k op' hk hx hn'
          · exact (hx.1.2.2.2.1 n hn').2.2 m op (Ne.symm hk) ho hn
    · exact ho'.1

/-- The work goes on, or ends, and no work is added. -/
theorem State.workRule_fewer {x y : State} (h : x.workRule) (hp : ∀ m r, y.places m r → x.places m r)
    (hop : ∀ m op, (y.engine m).op = some op → (x.engine m).op = some op)
    (hsf : ∀ m, (y.engine m).slotFree = (x.engine m).slotFree)
    (hrec : ∀ n, (x.record n).sameHolds (y.record n) ∨ (y.engine (laneOf n)).op = none)
    (hhold : ∀ n, y.hold n = x.hold n ∨ ((x.hold n).state ≠ .free ∧ (y.engine (laneOf (x.hold n).slot)).op = none) ∨
      ((x.hold n).state = .free ∧ ∀ m op, (y.engine m).op = some op → op.alloc ≠ .allotted n))
    (hu : y.indexUnit.updates = x.indexUnit.updates)
    (ho : ∀ u, y.indexUnit.op = some (.update u) → x.indexUnit.op = some (.update u))
    (hst : ∀ n, (y.record n).state = (x.record n).state ∨ ((x.record n).state ≠ .new ∧ (x.record n).state ≠ .gone)) :
    y.workRule := by
  refine State.workRule_of h (fun m r hr => .inl (hp m r hr)) (fun m op h' => .inl (hop m op h'))
    (fun m n hn => .inl (hsf m ▸ hn)) hrec hhold (fun n => ?_) (fun n hn => ?_)
  · have h1 := State.removals_le hu ho hsf (fun m op h' => ⟨op, hop m op h', rfl⟩) n
    have h2 := h.2.2.1 n
    rcases hst n with e | ⟨-, e⟩
    · rw [e]
      omega
    · rw [beq_eq_false_iff_ne.2 e] at h2
      simp only [Bool.toNat_false] at h2
      omega
  · have h1 := h.2.2.2.1 n (by
      rcases hn with ⟨g, hn⟩ | ⟨key, hn⟩
      · exact .inl ⟨g, hp _ _ hn⟩
      · refine .inr ⟨key, ?_⟩
        unfold State.updating at hn ⊢
        rw [hu] at hn
        exact hn.imp id (ho _))
    rcases hst n with e | ⟨e, -⟩
    · rw [e]
      exact h1
    · exact absurd h1 e

/-! ### Rows that keep work, index and holds -/

theorem Engine.claims_of_eq {a b : Engine} (h1 : a.op = b.op) (h2 : a.expiry = b.expiry) : a.claims = b.claims := by
  unfold Engine.claims
  rw [h1, h2]

theorem Work.claim?_of_isPlain {w : Work} (h : w.isPlain = true) : w.claim? = none := by
  cases w <;> first | rfl | cases h

theorem Keeps.claims {s t : State} (h : Keeps s t) (m : Lane) : (t.engine m).claims = (s.engine m).claims := by
  rcases h.op m with e | ⟨e, op, ho, hp⟩
  · exact Engine.claims_of_eq e (h.expiry m)
  · unfold Engine.claims
    rw [e, ho, h.expiry, Option.bind_some, Work.claim?_of_isPlain hp]
    rfl

theorem Keeps.op_some {s t : State} (h : Keeps s t) (m : Lane) (op : Operation) (ho : (t.engine m).op = some op) :
    (s.engine m).op = some op := by
  rcases h.op m with e | ⟨e, -⟩
  · rw [← e]
    exact ho
  · rw [e] at ho
    cases ho

theorem Keeps.holdsRule {s t : State} (h : Keeps s t) (hb : s.holdsRule) : t.holdsRule := by
  refine State.holdsRule_congr hb (fun m => by rw [h.hold]) (fun m => by rw [h.hold]; exact ⟨rfl, rfl, rfl⟩)
    (fun n => ⟨(h.record n).2.1.symm, (h.record n).2.2.symm⟩) (fun n hn => ?_) (fun hr => by rw [← h.ready]; exact hr)
  rw [← (h.record n).1] at hn
  exact (hb.1 n).2.2.2.2 hn

theorem Keeps.workRule {s t : State} (h : Keeps s t) (hb : s.workRule) : t.workRule :=
  State.workRule_fewer hb (fun _ _ => h.noTask.places) h.op_some h.slotFree (fun n => .inl (h.record n))
    (fun n => .inl (h.hold n)) h.updates (fun u => (h.updating u).1) (fun n => .inl (h.record n).1.symm)

theorem Keeps.books {s t : State} (h : Keeps s t) (hb : s.books) : t.books :=
  ⟨h.holdsRule hb.1, State.deadlinesRule_congr hb.2.1 h.hold h.deadlines h.claims, h.workRule hb.2.2⟩

/-! ### The due test (R103) -/

/-- R103: the head of the queue turns into a claim at the engine of its account. -/
theorem State.deadlinesRule_move {s y : State} {i : DeadlineItem} {q : List DeadlineItem} (h : s.deadlinesRule)
    (hd : s.deadlines = i :: q) (hd' : y.deadlines = q) (hh : ∀ m, y.hold m = s.hold m)
    (hc : ∀ m, (y.engine m).claims =
      (s.engine m).claims ++ if laneOf (s.hold i.ticket.entry.toNat).slot = m then [i.ticket] else []) : y.deadlinesRule := by
  obtain ⟨h1, h2, h3, h4, h5⟩ := h
  rw [hd] at h1 h3 h5
  have hi := h3 i (List.mem_cons_self ..)
  simp only [List.map_cons, List.nodup_cons] at h1
  refine ⟨by rw [hd']; exact h1.2, fun g => ?_, fun j hj => ?_, fun g t ht => ?_, fun t ho hl => ?_⟩
  · rw [hc, List.nodup_append]
    refine ⟨h2 g, by split <;> simp, fun a ha b hb hab => ?_⟩
    split at hb
    · rw [List.mem_singleton] at hb
      subst hb
      subst hab
      exact hi.2.2.2 g ha
    · cases hb
  · rw [hd'] at hj
    have h3' := h3 j (List.mem_cons_of_mem _ hj)
    unfold State.isOpen
    rw [hh]
    refine ⟨h3'.1, h3'.2.1, h3'.2.2.1, fun g hg => ?_⟩
    rw [hc, List.mem_append] at hg
    rcases hg with hg | hg
    · exact h3'.2.2.2 g hg
    · split at hg
      · rw [List.mem_singleton] at hg
        exact h1.1 (List.mem_map.2 ⟨j, hj, hg⟩)
      · cases hg
  · rw [hc, List.mem_append] at ht
    unfold State.isOpen
    rw [hh]
    rcases ht with ht | ht
    · exact h4 g t ht
    · split at ht
      · rename_i hg
        rw [List.mem_singleton] at ht
        subst ht
        exact ⟨hi.1, hi.2.1, hg⟩
      · cases ht
  · unfold State.isOpen at ho
    rw [hh] at ho hl ⊢
    rw [hd', hc, List.mem_append]
    rcases h5 t ho hl with h6 | h6
    · simp only [List.map_cons, List.mem_cons] at h6
      rcases h6 with rfl | h6
      · exact .inr (.inr (by simp))
      · exact .inl h6
    · exact .inr (.inl h6)

theorem postDue_deadlinesRule (q : List DeadlineItem) : ∀ s : State, ({ s with deadlines := q } : State).deadlinesRule →
    (postDue q s).deadlinesRule := by
  induction q with
  | nil => exact fun s h => h
  | cons i q ih =>
    intro s h
    unfold postDue
    split
    · refine ih _ (State.deadlinesRule_move h rfl rfl (fun m => ?_) (fun m => ?_))
      · show (s.postExpiry i.ticket).hold m = s.hold m
        simp
      · show ((s.postExpiry i.ticket).engine m).claims = (s.engine m).claims ++ _
        rw [State.engine_postExpiry]
        unfold Engine.claims
        rw [List.append_assoc]
        rfl
    · exact h

theorem State.dueTest_deadlinesRule {s : State} (h : s.deadlinesRule) : s.dueTest.deadlinesRule := by
  unfold State.dueTest
  split
  · refine postDue_deadlinesRule _ _ (State.deadlinesRule_congr h (fun m => ?_) rfl (fun m => ?_))
    · show s.wake.hold m = _
      simp
    · show (s.wake.engine m).claims = _
      simp
  · exact h

/-- The due test moves items from the queue to the claims, and leaves lists and work as they are. -/
theorem State.dueTest_books {s : State} (h : s.books) : s.dueTest.books := by
  have he := fun g => s.engine_dueTest g
  refine ⟨?_, State.dueTest_deadlinesRule h.2.1, ?_⟩
  · refine State.holdsRule_congr h.1 (fun m => by simp) (fun m => by simp) (fun n => by simp) (fun n hn => ?_) (by simp)
    simp only [State.dueTest_frame] at hn
    exact (h.1.1 n).2.2.2.2 hn
  · refine State.workRule_fewer h.2.2 (fun m r => (NoTask.dueTest s).places) (fun m op ho => by rw [he] at ho; exact ho)
      (fun m => by rw [he]) (fun n => .inl ?_) (fun n => .inl (by simp)) (by simp) (fun u => by simp) (fun n => .inl (by simp))
    simp only [State.dueTest_frame]
    exact Record.sameHolds_refl _

end Sys2Proof.Machine
end

