-- ==== Sys2Proof/Laws/Endings.lean ====
section
/-! SUPPORT. The rows that create, end, stall, re-place and re-arm holds keep the rules of lists, held, deadlines and work
(R3, R70, R98). -/

namespace Sys2Proof.Machine

theorem Record.state_congr {r r' : Record} (h : r.stateCode = r'.stateCode) : r.state = r'.state := by
  unfold Record.state
  rw [h]

theorem Record.state_gone {r : Record} (h : r.stateCode = AcctState.gone.code) : r.state = .gone := by
  unfold Record.state
  rw [h]
  rfl

/-! ### Endings (R79) -/

/-- An ending up to its due test. -/
def State.endHoldBefore (s : State) (g : Lane) (t : Ticket) (e : HoldEntry) (r : Record) (v : Option Int) : State :=
  let s' := ((s.modifyRecord e.slot fun stored => recordAfterEnding stored (endsClosing r t) t e.amount v).setHold
    t.entry.toNat (HoldEntry.freed (e.serial + 1))).dropDeadline g t
  if endsClosing r t then s'.postRemoval e.slot r.key else s'

theorem State.endHold_eq (s : State) (g : Lane) (t : Ticket) (e : HoldEntry) (r : Record) (v : Option Int) :
    s.endHold g t e r v = (s.endHoldBefore g t e r v).dueTest := rfl

/-- What an ending has written when its due test comes. -/
theorem State.endHoldBefore_spec (s : State) (g : Lane) (t : Ticket) (e : HoldEntry) (r : Record) (v : Option Int) :
    let y := s.endHoldBefore g t e r v
    y.record e.slot = recordAfterEnding (s.record e.slot) (endsClosing r t) t e.amount v ∧
      (∀ n, n ≠ e.slot → y.record n = s.record n) ∧
      y.hold t.entry.toNat = HoldEntry.freed (e.serial + 1) ∧ (∀ n, n ≠ t.entry.toNat → y.hold n = s.hold n) ∧
      y.deadlines = s.deadlines.filter (fun i => i.ticket != t) ∧
      (∀ m, y.engine m = { s.engine m with expiry := (if s.isQueued t = false ∧ m = g then
        (s.engine m).expiry.filter (fun c => c != t) else (s.engine m).expiry) }) ∧
      y.indexUnit = { s.indexUnit with
        updates := s.indexUnit.updates ++ (if endsClosing r t = true then [.remove r.key e.slot] else []) } ∧
      y.cmd = s.cmd ∧ y.isReady = s.isReady := by
  obtain ⟨x, hx, h1, h2, h3, h4, h5, h6, h7, h8, h9, h10⟩ : ∃ x : State,
      x = (s.modifyRecord e.slot fun stored => recordAfterEnding stored (endsClosing r t) t e.amount v).setHold
        t.entry.toNat (HoldEntry.freed (e.serial + 1)) ∧
      x.record e.slot = recordAfterEnding (s.record e.slot) (endsClosing r t) t e.amount v ∧
      (∀ n, n ≠ e.slot → x.record n = s.record n) ∧
      x.hold t.entry.toNat = HoldEntry.freed (e.serial + 1) ∧ (∀ n, n ≠ t.entry.toNat → x.hold n = s.hold n) ∧
      x.deadlines = s.deadlines ∧ (∀ m, x.engine m = s.engine m) ∧ x.indexUnit = s.indexUnit ∧ x.cmd = s.cmd ∧
      x.isReady = s.isReady ∧ x.isQueued t = s.isQueued t := by
    refine ⟨_, rfl, by simp, fun n hn => by simp [State.record_modifyRecord_ne _ _ hn], by simp, fun n hn => by
      simp [State.hold_setHold_ne _ _ hn], rfl, fun m => rfl, rfl, rfl, rfl, rfl⟩
  have hk := State.dropDeadline_spec x g t
  have he : ∀ m, (x.dropDeadline g t).engine m = { s.engine m with expiry := (if s.isQueued t = false ∧ m = g then
      (s.engine m).expiry.filter (fun c => c != t) else (s.engine m).expiry) } := fun m => by
    rw [State.engine_dropDeadline, hk.2, h10, h6]
  unfold State.endHoldBefore
  rw [← hx]
  dsimp only
  split
  · exact ⟨by simpa using h1, fun n hn => by simpa using h2 n hn, by simpa using h3, fun n hn => by simpa using h4 n hn,
      by simpa [h5] using hk.1, fun m => by simpa using he m, by simp [State.postRemoval, h7], by simpa using h8,
      by simpa using h9⟩
  · exact ⟨by simpa using h1, fun n hn => by simpa using h2 n hn, by simpa using h3, fun n hn => by simpa using h4 n hn,
      by simpa [h5] using hk.1, fun m => by simpa using he m, by simp [h7], by simpa using h8, by simpa using h9⟩

/-- R79: an ending of an open hold of the engine's own group, on the values read, keeps the rules. The deadline unit's rule
may be given of the state before the ending's operation was taken off its engine. -/
theorem State.books_endHold {s x : State} {g : Lane} {t : Ticket} {e : HoldEntry} {r : Record} (v : Option Int)
    (hh : x.holdsRule) (hw : x.workRule) (hd : s.deadlinesRule) (ho : (x.engine g).op = none)
    (hs : ∀ m, x.hold m = s.hold m) (hdl : x.deadlines = s.deadlines)
    (hc : ∀ m, (x.engine m).claims.filter (· ≠ t) = (s.engine m).claims.filter (· ≠ t) ∧
      (t ∈ (x.engine m).claims → t ∈ (s.engine m).claims))
    (ht : x.isOpen t) (he : x.hold t.entry.toNat = e) (hg : laneOf e.slot = g) (hr : r.sameHolds (x.record e.slot)) :
    (x.endHold g t e r v).books := by
  rw [State.endHold_eq]
  obtain ⟨h1, h2, h3, h4, h5, h6, h7, h8, h9⟩ := State.endHoldBefore_spec x g t e r v
  have hrec := recordAfterEnding_spec (x.record e.slot) (endsClosing r t) t e.amount v
  rw [← h1] at hrec
  obtain ⟨k1, k2, -, k4, -⟩ := hrec
  have hopen := (ticketCurrent_iff.1 ht)
  rw [he] at hopen
  have hts : s.isOpen t := by
    unfold State.isOpen at ht ⊢
    rw [← hs]
    exact ht
  have hlast : endsClosing r t = true → (x.record e.slot).state = .closing ∧ (x.record e.slot).holds.filter (· ≠ t) = [] :=
    fun hl => by
      rw [endsClosing_iff] at hl
      rw [← hr.1, ← hr.2.2]
      exact hl
  have hst : ((x.endHoldBefore g t e r v).record e.slot).state = (x.record e.slot).state ∨
      (endsClosing r t = true ∧ ((x.endHoldBefore g t e r v).record e.slot).state = .gone) := by
    cases hl : endsClosing r t
    · rw [hl] at k4
      exact .inl (Record.state_congr (by simpa using k4))
    · rw [hl] at k4
      exact .inr ⟨rfl, Record.state_gone (by simpa using k4)⟩
  refine State.dueTest_books ⟨?_, ?_, ?_⟩
  · refine State.holdsRule_end hh ht he (by rw [h3]; rfl) h4 (fun n hn => by rw [h2 n hn]; exact Record.sameHolds_refl _)
      k1 k2 ?_ h9
    exact hst.imp id fun hl => (hlast hl.1).2
  · refine State.deadlinesRule_remove hd hts (fun m hm => (h4 m hm).trans (hs m)) (by rw [h3]; simp [HoldEntry.freed])
      (h5.trans (by rw [hdl])) (fun m => ?_)
    rw [← (hc m).1]
    have hnot : t ∉ (x.engine m).claims → (x.engine m).claims.filter (· ≠ t) = (x.engine m).claims := filter_ne_of_not_mem
    by_cases hq : x.isQueued t = false ∧ m = g
    · obtain ⟨hq, rfl⟩ := hq
      unfold Engine.claims
      rw [h6]
      simp only [hq, and_self, if_true, ho, Option.bind_none, Option.toList_none, List.nil_append]
      exact List.filter_congr fun c _ => by by_cases hct : c = t <;> simp [hct]
    · have hsame : ((x.endHoldBefore g t e r v).engine m).claims = (x.engine m).claims := by
        rw [h6]
        simp only [hq, if_false]
      rw [hsame, hnot]
      intro hm
      have hm' := (hc m).2 hm
      by_cases hmg : m = g
      · have hq' : x.isQueued t = true := by
          cases hqq : x.isQueued t
          · exact absurd ⟨hqq, hmg⟩ hq
          · rfl
        unfold State.isQueued at hq'
        rw [List.any_eq_true] at hq'
        obtain ⟨i, hi, hit⟩ := hq'
        rw [hdl] at hi
        have := (hd.2.2.1 i hi).2.2.2 m
        rw [beq_iff_eq] at hit
        rw [hit] at this
        exact this hm'
      · have := (hd.2.2.2.1 m t hm').2.2
        rw [← hs, he, hg] at this
        exact hmg this.symm
  · have hop : ∀ m, ((x.endHoldBefore g t e r v).engine m).op = (x.engine m).op := fun m => by rw [h6]
    have hsf : ∀ m, ((x.endHoldBefore g t e r v).engine m).slotFree = (x.engine m).slotFree := fun m => by rw [h6]
    have hp : ∀ m k, (x.endHoldBefore g t e r v).places m k → x.places m k := fun m k hk => by
      unfold State.places at hk ⊢
      rw [h8, hop] at hk
      rw [h6] at hk
      exact hk
    refine State.workRule_of hw (fun m k hk => .inl (hp m k hk)) (fun m op' ho' => .inl (by rw [← hop]; exact ho'))
      (fun m n hn => .inl (by rw [← hsf]; exact hn)) (fun n => ?_) (fun n => ?_) (fun n => ?_) (fun n hn => ?_)
    · by_cases hn : n = e.slot
      · subst hn
        right
        rw [hg, hop]
        exact ho
      · left
        rw [h2 n hn]
        exact Record.sameHolds_refl _
    · by_cases hn : n = t.entry.toNat
      · subst hn
        right
        left
        rw [he, hg, hop]
        exact ⟨hopen.1, ho⟩
      · exact .inl (h4 n hn)
    · have hle : (x.endHoldBefore g t e r v).removals n = x.removals n + (if endsClosing r t = true ∧ n = e.slot then 1 else 0) := by
        unfold State.removals Engine.removals
        rw [h7, hsf, hop, List.countP_append]
        have : List.countP (IndexUpdate.removes n) (if endsClosing r t = true then [IndexUpdate.remove r.key e.slot] else []) =
            if endsClosing r t = true ∧ n = e.slot then 1 else 0 := by
          cases endsClosing r t
          · rfl
          · by_cases hn : n = e.slot
            · simp [IndexUpdate.removes, hn]
            · simp [IndexUpdate.removes, hn, Ne.symm hn]
        rw [this]
        simp only
        omega
      have hx := hw.2.2.1 n
      rw [hle]
      by_cases hn : n = e.slot
      · subst hn
        rcases hst with e' | ⟨hl, e'⟩
        · rw [e']
          cases hl : endsClosing r t
          · simpa using hx
          · have := k4
            rw [hl] at this
            have hgone := Record.state_gone (by simpa using this)
            rw [e', (hlast hl).1] at hgone
            cases hgone
        · have hcl := (hlast hl).1
          rw [hcl, show (AcctState.closing == AcctState.gone) = false from rfl] at hx
          rw [e', hl]
          simp at hx ⊢
          omega
      · rw [h2 n hn]
        simpa [hn] using hx
    · have hx := hw.2.2.2.1 n (by
        rcases hn with ⟨g', hn⟩ | ⟨key, hn⟩
        · exact .inl ⟨g', hp _ _ hn⟩
        · refine .inr ⟨key, ?_⟩
          unfold State.updating at hn ⊢
          rw [h7] at hn
          rcases hn with hn | hn
          · simp only [List.mem_append] at hn
            rcases hn with hn | hn
            · exact .inl hn
            · split at hn
              · simp at hn
              · cases hn
          · exact .inr hn)
      by_cases hn' : n = e.slot
      · subst hn'
        rcases hst with e' | ⟨hl, e'⟩
        · rw [e']
          exact hx
        · rw [(hlast hl).1] at hx
          cases hx
      · rw [h2 n hn']
        exact hx

/-! ### The operation in progress -/

/-- What an operation by ticket read is still so when it completes (R30). -/
theorem State.books_ticket {s x : State} {g : Lane} {op : Operation} {t : Ticket} (hb : s.books)
    (ho : (s.engine g).op = some op) (hw : op.work.ticket? = some t) (ht : ticketOfGroup g t op.entry = true)
    (hk : ∀ m, x.hold m = s.hold m) (hr : ∀ n, (s.record n).sameHolds (x.record n)) :
    x.isOpen t ∧ x.hold t.entry.toNat = op.entry ∧ laneOf op.entry.slot = g ∧
      op.record.sameHolds (x.record op.entry.slot) := by
  have h := (hb.2.2.2.2.2.2 g op ho).2.1 t hw ht
  have ht' := ticketOfGroup_iff.1 ht
  unfold State.isOpen
  rw [hk, h.1]
  exact ⟨ht'.1, rfl, ht'.2, Record.sameHolds_trans h.2 (hr _)⟩

/-- The engine behind the end of its operation and the verification. -/
theorem State.op_endVerified (s : State) (g : Lane) (n : Nat) (b : Bool) (f : Finder) :
    (((s.endOp g).noteMismatch n b f).engine g).op = none := by
  simp

theorem Keeps.ended {s : State} {g : Lane} {op : Operation} (ho : (s.engine g).op = some op) (hp : op.work.isPlain = true)
    (n : Nat) (b : Bool) (f : Finder) : Keeps s ((s.endOp g).noteMismatch n b f) :=
  (Keeps.endOp ho hp).trans (Keeps.noteMismatch _ _ _ _)

/-- R79: an ending by a request keeps the rules. -/
theorem State.books_endByTicket {s x : State} {g : Lane} {op : Operation} {t : Ticket} (hb : s.books)
    (ho : (s.engine g).op = some op) (hw : op.work.ticket? = some t) (ht : ticketOfGroup g t op.entry = true)
    (hk : Keeps s x) (hx : (x.engine g).op = none) (v : Option Int) : (x.endHold g t op.entry op.record v).books := by
  have h := State.books_ticket hb ho hw ht hk.hold hk.record
  have hxb := hk.books hb
  exact State.books_endHold v hxb.1 hxb.2.2 hxb.2.1 hx (fun _ => rfl) rfl (fun _ => ⟨rfl, id⟩) h.1 h.2.1 h.2.2.1 h.2.2.2

theorem State.books_chargeHold {s x : State} {g : Lane} {op : Operation} {t : Ticket} (hb : s.books)
    (ho : (s.engine g).op = some op) (hw : op.work.ticket? = some t) (ht : ticketOfGroup g t op.entry = true)
    (hk : Keeps s x) (hx : (x.engine g).op = none) (c : Int) : (x.chargeHold g t op.entry op.record c).books := by
  unfold State.chargeHold
  dsimp only
  split
  · exact (Keeps.postLow _ _ _ _).books (State.books_endByTicket hb ho hw ht hk hx _)
  · exact State.books_endByTicket hb ho hw ht hk hx _

theorem books_settle {s t : State} {g : Lane} (hb : s.books) (ht : execSettle g s = .next t) : t.books := by
  unfold execSettle at ht
  injection ht with ht
  subst ht
  split
  · rename_i op o tk units heq
    have hs := State.terminalOp_spec heq
    have hp : op.work.isPlain = true := by rw [hs.2]; rfl
    dsimp only
    split
    · exact (Keeps.completeTerminal hs.1 hp _ _ _ _ _ _).books hb
    · rename_i hn
      refine (Keeps.answer _ _ _ _).books (State.books_chargeHold hb hs.1 (by rw [hs.2]; rfl) ?_ (Keeps.endOp hs.1 hp)
        (by simp) _)
      unfold settleRefusal at hn
      split at hn
      · cases hn
      · rename_i hx
        simpa using hx
  · exact hb

theorem books_cancel {s t : State} {g : Lane} (hb : s.books) (ht : execCancel g s = .next t) : t.books := by
  unfold execCancel at ht
  injection ht with ht
  subst ht
  split
  · rename_i op o tk heq
    have hs := State.terminalOp_spec heq
    have hp : op.work.isPlain = true := by rw [hs.2]; rfl
    dsimp only
    split
    · exact (Keeps.completeTerminal hs.1 hp _ _ _ _ _ _).books hb
    · rename_i hn
      refine (Keeps.answer _ _ _ _).books (State.books_endByTicket hb hs.1 (by rw [hs.2]; rfl) ?_
        (Keeps.ended hs.1 hp _ _ _) (by simp) _)
      unfold cancelRefusal at hn
      split at hn
      · cases hn
      · rename_i hx
        simpa using hx
  · exact hb

/-! ### Creation (R77) -/

theorem handleTest_none {h : Handle} {r : Record} (hn : handleTest h r = none) :
    r.state ≠ .free ∧ r.state ≠ .new ∧ r.state ≠ .gone := by
  unfold handleTest at hn
  split at hn
  · cases hn
  · split at hn
    · cases hn
    · rename_i hx
      simpa [not_or] using hx

theorem authorizeRefusal_none {h : Handle} {tariff : Byte} {units : B4} {window : B6} {r : Record} {t : Tariff}
    (hn : authorizeRefusal h tariff units window r t = none) :
    r.state = .active ∧ r.holds.length < 4 ∧ r.held + holdAmount t units ≤ 99999999 := by
  unfold authorizeRefusal at hn
  dsimp only at hn
  split at hn
  · cases hn
  · split at hn
    · cases hn
    · rename_i hh
      split at hn
      · cases hn
      · rename_i hsp
        split at hn
        · cases hn
        · split at hn
          · cases hn
          · split at hn
            · cases hn
            · split at hn
              · cases hn
              · split at hn
                · cases hn
                · rename_i hlen
                  split at hn
                  · cases hn
                  · split at hn
                    · cases hn
                    · rename_i hmax
                      have h4 : Config.holdsPerAccount = 4 := rfl
                      have h9 : Config.maxAmount = 99999999 := rfl
                      refine ⟨?_, by omega, by omega⟩
                      have hcur := handleTest_none hh
                      unfold spendCheck at hsp
                      cases hst : r.state <;> simp [hst] at hcur hsp ⊢

/-- A state in which a hold has been created, up to the due test. -/
theorem State.books_create {x y : State} {n : Nat} {g : Lane} {e : HoldEntry} (hb : x.books) (hready : x.isReady = true)
    (hn : n < 256) (hf : (x.hold n).state = .free) (ho : (x.engine g).op = none)
    (hno : ∀ m op, (x.engine m).op = some op → op.alloc ≠ .allotted n) (hlive : e.state = .live) (hg : laneOf e.slot = g)
    (hst : (x.record e.slot).state = .active) (h4 : (x.record e.slot).holds.length < 4)
    (hmax : (x.record e.slot).held + e.amount ≤ 99999999)
    (hy : y = ((x.setHold n e).modifyRecord e.slot fun r => r.withHold (ticketOf n e.serial) e.amount).insertDeadline
      (ticketOf n e.serial) e.deadline) : y.books := by
  have hent := ticketOf_entry hn e.serial
  have hcur : ticketCurrent (ticketOf n e.serial) e = true := ticketOf_current (by rw [hlive]; simp)
  have h1 : y.hold n = e := by rw [hy]; simp
  have h2 : ∀ m, m ≠ n → y.hold m = x.hold m := fun m hm => by rw [hy]; simp [State.hold_setHold_ne _ _ hm]
  have h3 : y.record e.slot = (x.record e.slot).withHold (ticketOf n e.serial) e.amount := by rw [hy]; simp
  have h5 : ∀ m, m ≠ e.slot → y.record m = x.record m := fun m hm => by
    rw [hy]
    simp [State.record_modifyRecord_ne _ _ hm]
  have h6 : ∀ m, y.engine m = x.engine m := fun m => by rw [hy]; rfl
  have h7 : y.deadlines = insertItem ⟨ticketOf n e.serial, e.deadline⟩ x.deadlines := by rw [hy]; rfl
  have h8 : y.indexUnit = x.indexUnit := by rw [hy]; rfl
  have h9 : y.cmd = x.cmd := by rw [hy]; rfl
  have h10 : y.isReady = x.isReady := by rw [hy]; rfl
  have hp : ∀ m k, y.places m k → x.places m k := fun m k hk => by
    unfold State.places at hk ⊢
    rw [h6, h9] at hk
    exact hk
  refine ⟨?_, ?_, ?_⟩
  · refine State.holdsRule_create (t := ticketOf n e.serial) (e := e) hb.1 (by rw [hent]; exact hf)
      (fun m hm => h2 m (by rw [hent] at hm; exact hm)) (by rw [hent]; exact h1) hcur
      (fun m hm => by rw [h5 m hm]; exact Record.sameHolds_refl _) (by rw [h3]; exact hst) (by rw [h3]; rfl) (by rw [h3]; rfl)
      h4 hmax hready h10
  · refine State.deadlinesRule_insert (t := ticketOf n e.serial) hb.2.1 (by rw [hent, hf]; simp)
      (fun m hm => h2 m (by rw [hent] at hm; exact hm)) ?_ (by rw [hent, h1]; exact hlive) (by rw [hent, h1]; exact h7)
      (fun m => by rw [h6])
    unfold State.isOpen
    rw [hent, h1]
    exact hcur
  · refine State.workRule_fewer hb.2.2 hp (fun m op h => by rw [← h6]; exact h) (fun m => by rw [h6]) (fun m => ?_)
      (fun m => ?_) (by rw [h8]) (fun u hu => by rw [← h8]; exact hu) (fun m => .inl ?_)
    · by_cases hm : m = e.slot
      · right
        rw [hm, hg, h6]
        exact ho
      · left
        rw [h5 m hm]
        exact Record.sameHolds_refl _
    · by_cases hm : m = n
      · subst hm
        exact .inr (.inr ⟨hf, fun k op hk => hno k op (by rw [← h6]; exact hk)⟩)
      · exact .inl (h2 m hm)
    · by_cases hm : m = e.slot
      · rw [hm, h3]
        rfl
      · rw [h5 m hm]

theorem books_authorize {s t : State} {g : Lane} (hb : s.books) (hr : s.restsUntilReady)
    (ht : execAuthorize g s = .next t) : t.books := by
  unfold execAuthorize at ht
  injection ht with ht
  subst ht
  split
  · rename_i op o h tariff units window heq
    have hs := State.terminalOp_spec heq
    have hp : op.work.isPlain = true := by rw [hs.2]; rfl
    split
    · exact hb
    · rename_i n hal
      have hready : s.isReady = true := by
        cases hc : s.isReady
        · have := (hr hc).1
          have ho := hs.1
          unfold State.engine at ho
          rw [this] at ho
          simp [Engine.cleared] at ho
        · rfl
      have ha := hb.2.2.2.2.2.2 g op hs.1
      obtain ⟨o', h', tariff', units', window', hw', href⟩ := ha.2.2.1 (.inr ⟨n, hal⟩)
      rw [hs.2] at hw'
      simp only [Work.request.injEq, Request.terminal.injEq, TermReq.authorize.injEq] at hw'
      obtain ⟨-, rfl, rfl, rfl, rfl⟩ := hw'
      have hok := authorizeRefusal_none href
      have hrec := ha.1 _ hs.2 rfl
      have hlane := hb.2.2.1 g _ (.inr (.inl ⟨op, hs.1, hs.2⟩)) rfl
      have hall := ha.2.2.2.1 n hal
      have hk := Keeps.endOp hs.1 hp
      unfold State.createHold
      dsimp only
      refine State.dueTest_books ((Keeps.answer _ _ _ _).books (State.books_create (x := s.endOp g) (n := n) (g := g)
        (e := newHold op o h tariff units window (s.hold n).serial) (hk.books hb) (by simpa using hready) hall.1
        (by rw [hk.hold]; exact hall.2.1) (by simp) (fun m op' hm => ?_) rfl hlane ?_ ?_ ?_ rfl))
      · by_cases hmg : m = g
        · subst hmg
          rw [State.engine_endOp_same] at hm
          cases hm
        · rw [State.engine_endOp_ne _ hmg] at hm
          exact hall.2.2 m op' hmg hm
      · rw [← (hk.record _).1]
        exact hrec.1.symm.trans hok.1
      · rw [← (hk.record _).2.2]
        exact hrec.2.2 ▸ hok.2.1
      · rw [← (hk.record _).2.1]
        exact hrec.2.1 ▸ hok.2.2
    · exact (Keeps.completeTerminal hs.1 hp _ _ _ _ _ _).books hb
    · split
      · exact (Keeps.completeTerminal hs.1 hp _ _ _ _ _ _).books hb
      · exact hb
  · exact hb

/-! ### Re-placement (R85, R100) and re-arming (R101, R141) -/

/-- A hold that stays LIVE, or turns LIVE again, with an item of the queue and no claim. -/
theorem State.books_place {x y : State} {g : Lane} {t : Ticket} {e : HoldEntry} (hb : x.books) (ho : (x.engine g).op = none)
    (ht : x.isOpen t) (hg : laneOf (x.hold t.entry.toNat).slot = g) (hc : t ∉ (x.engine g).expiry) (hl : e.state = .live)
    (hsame : e.serial = (x.hold t.entry.toNat).serial ∧ e.slot = (x.hold t.entry.toNat).slot ∧
      e.amount = (x.hold t.entry.toNat).amount)
    (hy : y = (x.setHold t.entry.toNat e).replaceDeadline t e.deadline) : y.books := by
  have h1 : y.hold t.entry.toNat = e := by rw [hy]; simp
  have h2 : ∀ m, m ≠ t.entry.toNat → y.hold m = x.hold m := fun m hm => by rw [hy]; simp [State.hold_setHold_ne _ _ hm]
  have h3 : ∀ m, y.record m = x.record m := fun m => by rw [hy]; rfl
  have h4 : ∀ m, y.engine m = x.engine m := fun m => by rw [hy]; rfl
  have h5 : y.deadlines = insertItem ⟨t, e.deadline⟩ (x.deadlines.filter fun i => i.ticket != t) := by rw [hy]; rfl
  have h6 : y.indexUnit = x.indexUnit := by rw [hy]; rfl
  have h7 : y.cmd = x.cmd := by rw [hy]; rfl
  have hcur := ticketCurrent_iff.1 ht
  have hyopen : y.isOpen t := by
    unfold State.isOpen
    rw [h1, ticketCurrent_iff, hl, hsame.1]
    exact ⟨by simp, hcur.2⟩
  have hp : ∀ m k, y.places m k → x.places m k := fun m k hk => by
    unfold State.places at hk ⊢
    rw [h4, h7] at hk
    exact hk
  refine ⟨?_, ?_, ?_⟩
  · refine State.holdsRule_congr hb.1 (fun m => ?_) (fun m => ?_) (fun n => by rw [h3]; exact ⟨rfl, rfl⟩)
      (fun n hn => by rw [h3] at hn; exact (hb.1.1 n).2.2.2.2 hn) (fun hr => ?_)
    · by_cases hm : m = t.entry.toNat
      · subst hm
        rw [h1, hl]
        exact ⟨fun h => absurd h (by simp), fun h => absurd h hcur.1⟩
      · rw [h2 m hm]
    · by_cases hm : m = t.entry.toNat
      · subst hm
        rw [h1]
        exact hsame
      · rw [h2 m hm]
        exact ⟨rfl, rfl, rfl⟩
    · rw [hy] at hr
      exact hr
  · obtain ⟨z, hz⟩ : ∃ z : State, z = (x.setHold t.entry.toNat { x.hold t.entry.toNat with state := .stalled }).removeDeadline t :=
      ⟨_, rfl⟩
    have z1 : z.hold t.entry.toNat = { x.hold t.entry.toNat with state := .stalled } := by
      rw [hz]
      simp
    have z2 : ∀ m, m ≠ t.entry.toNat → z.hold m = x.hold m := fun m hm => by
      rw [hz]
      simp [State.hold_setHold_ne _ _ hm]
    have z3 : ∀ m, z.engine m = x.engine m := fun m => by rw [hz]; rfl
    have zd : z.deadlinesRule := by
      refine State.deadlinesRule_remove hb.2.1 ht z2 (by rw [z1]; simp) (by rw [hz]; rfl) (fun m => ?_)
      rw [z3, filter_ne_of_not_mem]
      intro hm
      by_cases hmg : m = g
      · subst hmg
        unfold Engine.claims at hm
        rw [ho] at hm
        exact hc hm
      · exact hmg ((hb.2.1.2.2.2.1 m t hm).2.2.symm.trans hg)
    refine State.deadlinesRule_insert zd (by rw [z1]; simp) (fun m hm => (h2 m hm).trans (z2 m hm).symm) hyopen
      (by rw [h1]; exact hl) (by rw [h1, h5, hz]; rfl) (fun m => by rw [h4, z3])
  · refine State.workRule_fewer hb.2.2 hp (fun m op h => by rw [← h4]; exact h) (fun m => by rw [h4])
      (fun m => .inl (by rw [h3]; exact Record.sameHolds_refl _)) (fun m => ?_) (by rw [h6]) (fun u hu => by rw [← h6]; exact hu)
      (fun m => .inl (by rw [h3]))
    by_cases hm : m = t.entry.toNat
    · subst hm
      right
      left
      rw [hg, h4]
      exact ⟨hcur.1, ho⟩
    · exact .inl (h2 m hm)

theorem books_extend {s t : State} {g : Lane} (hb : s.books) (ht : execExtend g s = .next t) : t.books := by
  unfold execExtend at ht
  injection ht with ht
  subst ht
  split
  · rename_i op o tk seconds heq
    have hs := State.terminalOp_spec heq
    have hp : op.work.isPlain = true := by rw [hs.2]; rfl
    dsimp only
    split
    · exact (Keeps.completeTerminal hs.1 hp _ _ _ _ _ _).books hb
    · rename_i hn
      have hk := Keeps.endOp hs.1 hp
      unfold extendRefusal at hn
      dsimp only at hn
      split at hn
      · cases hn
      · split at hn
        · cases hn
        · rename_i hgrp
          split at hn
          · cases hn
          · split at hn
            · cases hn
            · rename_i hst
              split at hn
              · cases hn
              · rename_i hcl
                have hgrp' : ticketOfGroup g tk op.entry = true := by simpa using hgrp
                have h := State.books_ticket hb hs.1 (by rw [hs.2]; rfl) hgrp' hk.hold hk.record
                have hfree := (ticketCurrent_iff.1 (ticketOfGroup_iff.1 hgrp').1).1
                have hlive : op.entry.state = .live := by
                  cases he : op.entry.state
                  · exact absurd he hfree
                  · rfl
                  · rw [he] at hst
                    simp at hst
                refine State.dueTest_books ((Keeps.answer _ _ _ _).books (State.books_place (x := s.endOp g) (g := g) (t := tk)
                  (e := op.entry.extended (B6.value seconds)) (hk.books hb) (by simp) h.1 (by rw [h.2.1]; exact h.2.2.1) ?_
                  hlive (by rw [h.2.1]; exact ⟨rfl, rfl, rfl⟩) rfl))
                rw [hk.expiry]
                intro hm
                refine hcl ?_
                unfold State.isClaimed
                rw [List.any_eq_true]
                exact ⟨tk, hm, by simp⟩
  · exact hb

/-- R101, R141: the STALLED holds of a list turn LIVE. -/
theorem State.books_rearm_all (g : Lane) (list : List Ticket) : ∀ x : State, x.books → (x.engine g).op = none → list.Nodup →
    (∀ t ∈ list, x.isOpen t ∧ (x.hold t.entry.toNat).state = .stalled ∧ laneOf (x.hold t.entry.toNat).slot = g) →
    (list.foldl State.rearm x).books := by
  induction list with
  | nil => exact fun x hb _ _ _ => hb
  | cons t list ih =>
    intro x hb ho hn hl
    rw [List.nodup_cons] at hn
    have ht := hl t (List.mem_cons_self ..)
    have hnot : ∀ m, t ∉ (x.engine m).claims := fun m hm => by
      have := (hb.2.1.2.2.2.1 m t hm).2.1
      rw [ht.2.1] at this
      cases this
    have hq : x.deadlines.filter (fun i => i.ticket != t) = x.deadlines := by
      rw [List.filter_eq_self]
      intro i hi
      rw [bne_iff_ne]
      intro hit
      have := (hb.2.1.2.2.1 i hi).2.1
      rw [hit, ht.2.1] at this
      cases this
    have hb' : (x.rearm t).books := by
      refine State.books_place (x := x) (g := g) (t := t)
        (e := { x.hold t.entry.toNat with state := .live, deadline := x.timebase }) hb ho ht.1 ht.2.2 (fun hm => ?_) rfl
        ⟨rfl, rfl, rfl⟩ ?_
      · refine hnot g ?_
        unfold Engine.claims
        exact List.mem_append_right _ hm
      · unfold State.rearm State.replaceDeadline State.removeDeadline State.insertDeadline
        simp only [State.setHold_frame, hq]
    refine ih _ hb' ho hn.2 (fun u hu => ?_)
    have hu' := hl u (List.mem_cons_of_mem _ hu)
    have hne : u.entry.toNat ≠ t.entry.toNat := fun he => by
      have := State.isOpen_inj hu'.1 ht.1 he
      rw [this] at hu
      exact hn.1 hu
    have hsame : (x.rearm t).hold u.entry.toNat = x.hold u.entry.toNat := by
      unfold State.rearm
      simp [State.hold_setHold_ne _ _ hne]
    unfold State.isOpen
    rw [hsame]
    exact hu'

end Sys2Proof.Machine
end

