-- ==== Sys2Proof/Laws/Kept.lean ====
section
/-! SUPPORT. Every row but a disturbance of a stored account state keeps the rules of lists, held, deadlines and work (R3, R70,
R98). -/

namespace Sys2Proof.Machine

/-! ### Expiry (R90 to R93) -/

/-- The end of any operation keeps the rules of lists and work; of an operation that is no expiry claim also the deadline
unit's. -/
theorem State.endOp_rules (s : State) (g : Lane) (n : Nat) (b : Bool) (f : Finder) (hb : s.books) :
    ((s.endOp g).noteMismatch n b f).holdsRule ∧ ((s.endOp g).noteMismatch n b f).workRule := by
  have hk := Keeps.noteMismatch (s.endOp g) n b f
  have h1 : (s.endOp g).holdsRule := State.holdsRule_congr hb.1 (fun m => by simp) (fun m => by simp) (fun n => by simp)
    (fun n hn => by simp only [State.endOp_frame] at hn; exact (hb.1.1 n).2.2.2.2 hn) (by simp)
  have hop : ∀ m op, ((s.endOp g).engine m).op = some op → (s.engine m).op = some op := fun m op ho => by
    by_cases hm : m = g
    · subst hm
      simp at ho
    · rw [State.engine_endOp_ne _ hm] at ho
      exact ho
  have hsf : ∀ m, ((s.endOp g).engine m).slotFree = (s.engine m).slotFree := fun m => by
    by_cases hm : m = g
    · subst hm
      simp
    · rw [State.engine_endOp_ne _ hm]
  have h2 : (s.endOp g).workRule := State.workRule_fewer hb.2.2 (fun _ _ => (NoTask.endOp s g).places) hop hsf
    (fun n => .inl (by simp only [State.endOp_frame]; exact Record.sameHolds_refl _)) (fun n => .inl (by simp)) (by simp)
    (fun u => by simp) (fun n => .inl (by simp))
  exact ⟨hk.holdsRule h1, hk.workRule h2⟩

theorem books_expiry {s t : State} {g : Lane} (hb : s.books) (ht : execExpiry g s = .next t) : t.books := by
  unfold execExpiry at ht
  injection ht with ht
  subst ht
  split
  · rename_i op ho
    split
    · rename_i tk hw
      have hgrp := (hb.2.2.2.2.2.2 g op ho).2.2.2.2 tk (by rw [hw]; rfl)
      rw [if_pos hgrp]
      have hr := State.endOp_rules s g op.entry.slot (!op.record.verifies) .operation hb
      obtain ⟨x, hx⟩ : ∃ x, x = (s.endOp g).noteMismatch op.entry.slot (!op.record.verifies) .operation := ⟨_, rfl⟩
      have hhold : ∀ m, x.hold m = s.hold m := fun m => by rw [hx]; simp
      have hrec : ∀ n, (s.record n).sameHolds (x.record n) := fun n => by
        rw [hx]
        have := (Keeps.noteMismatch (s.endOp g) op.entry.slot (!op.record.verifies) .operation).record n
        simpa using this
      have hdl : x.deadlines = s.deadlines := by rw [hx]; simp
      have hox : (x.engine g).op = none := by rw [hx]; simp
      have he : ∀ m, m ≠ g → x.engine m = s.engine m := fun m hm => by
        rw [hx]
        simp only [State.noteMismatch_frame]
        exact State.engine_endOp_ne _ hm
      have heg : (x.engine g).expiry = (s.engine g).expiry := by rw [hx]; simp
      have hcg : (s.engine g).claims = tk :: (x.engine g).claims := by
        unfold Engine.claims
        rw [ho, hox, heg, Option.bind_some, hw]
        rfl
      have hc : ∀ m, (x.engine m).claims.filter (· ≠ tk) = (s.engine m).claims.filter (· ≠ tk) ∧
          (tk ∈ (x.engine m).claims → tk ∈ (s.engine m).claims) := fun m => by
        by_cases hm : m = g
        · subst hm
          rw [hcg]
          exact ⟨by simp, fun h => List.mem_cons_of_mem _ h⟩
        · rw [he m hm]
          exact ⟨rfl, id⟩
      have h := State.books_ticket hb ho (t := tk) (by rw [hw]; rfl) hgrp hhold hrec
      rw [← hx] at hr ⊢
      have hend : ∀ v, (x.endHold g tk op.entry op.record v).books := fun v =>
        State.books_endHold v hr.1 hr.2 hb.2.1 hox hhold hdl hc h.1 h.2.1 h.2.2.1 h.2.2.2
      unfold State.expire State.captureExpired
      dsimp only
      split
      · exact (Keeps.post _ _).books (hend _)
      · split
        · unfold State.stallExpired
          refine (Keeps.post _ _).books ?_
          have hmem : tk ∈ (s.engine g).claims := by rw [hcg]; exact List.mem_cons_self ..
          have hnd := hb.2.1.2.1 g
          rw [hcg, List.nodup_cons] at hnd
          have hcur := ticketCurrent_iff.1 h.1
          rw [h.2.1] at hcur
          have h1 : (x.setHold tk.entry.toNat { op.entry with state := .stalled }).hold tk.entry.toNat =
            { op.entry with state := .stalled } := by simp
          have h2 : ∀ m, m ≠ tk.entry.toNat →
              (x.setHold tk.entry.toNat { op.entry with state := .stalled }).hold m = x.hold m := fun m hm =>
            State.hold_setHold_ne _ _ hm
          refine ⟨?_, ?_, ?_⟩
          · refine State.holdsRule_congr hr.1 (fun m => ?_) (fun m => ?_) (fun n => ⟨rfl, rfl⟩)
              (fun n hn => (hr.1.1 n).2.2.2.2 hn) (fun hq => hq)
            · by_cases hm : m = tk.entry.toNat
              · rw [hm, h1, h.2.1]
                exact ⟨fun h => absurd h (by simp), fun h => absurd h hcur.1⟩
              · rw [h2 m hm]
            · by_cases hm : m = tk.entry.toNat
              · rw [hm, h1, h.2.1]
                exact ⟨rfl, rfl, rfl⟩
              · rw [h2 m hm]
                exact ⟨rfl, rfl, rfl⟩
          · have htopen : s.isOpen tk := by
              have := h.1
              unfold State.isOpen at this ⊢
              rwa [hhold] at this
            refine State.deadlinesRule_remove hb.2.1 htopen (fun m hm => (h2 m hm).trans (hhold m)) (by rw [h1]; simp) ?_
              (fun m => ?_)
            · show x.deadlines = _
              rw [hdl, eq_comm, List.filter_eq_self]
              intro i hi
              rw [bne_iff_ne]
              intro hit
              have := (hb.2.1.2.2.1 i hi).2.2.2 g
              rw [hit] at this
              exact this hmem
            · show (x.engine m).claims = _
              rw [← (hc m).1, filter_ne_of_not_mem]
              intro hm
              by_cases hmg : m = g
              · subst hmg
                exact hnd.1 hm
              · have h3 := (hb.2.1.2.2.2.1 m tk ((hc m).2 hm)).2.2
                have h4 := (hb.2.1.2.2.2.1 g tk hmem).2.2
                exact hmg (h3.symm.trans h4)
          · refine State.workRule_fewer hr.2 (fun _ _ hp => hp) (fun _ _ ho' => ho') (fun _ => rfl)
              (fun n => .inl (Record.sameHolds_refl _)) (fun m => ?_) rfl (fun _ hu => hu) (fun n => .inl rfl)
            by_cases hm : m = tk.entry.toNat
            · subst hm
              right
              left
              rw [h.2.1, h.2.2.1]
              exact ⟨hcur.1, hox⟩
            · exact .inl (h2 m hm)
        · split
          · exact (Keeps.postLow _ _ _ _).books ((Keeps.post _ _).books (hend _))
          · exact (Keeps.post _ _).books (hend _)
    · exact hb
  · exact hb

/-! ### Account states (R10 to R20) -/

/-- A state that differs in the account states of one group alone, its engine at rest. -/
theorem State.books_state {x y : State} (hb : x.books)
    (hp : ∀ m r, y.places m r → x.places m r)
    (hop : ∀ m, (y.engine m).op = (x.engine m).op) (hsf : ∀ m n, n ∈ (y.engine m).slotFree → n ∈ (x.engine m).slotFree)
    (hexp : ∀ m, (y.engine m).expiry = (x.engine m).expiry)
    (hrec : ∀ n, (x.record n).sameHolds (y.record n) ∨ ((y.engine (laneOf n)).op = none ∧
      (y.record n).held = (x.record n).held ∧ (y.record n).holds = (x.record n).holds ∧
        ((y.record n).state = .free ∨ (y.record n).state = .new ∨ (y.record n).state = .gone → (x.record n).holds = [])))
    (hhold : ∀ n, y.hold n = x.hold n) (hd : y.deadlines = x.deadlines) (hready : y.isReady = x.isReady)
    (hrem : ∀ n, y.removals n ≤ ((y.record n).state == .gone).toNat)
    (hnew : ∀ n, ((∃ g, y.places g (.mgmt (.activate n))) ∨ ∃ key, y.updating (.insert key n)) →
      (y.record n).state = .new) : y.books := by
  refine ⟨?_, ?_, ?_⟩
  · refine State.holdsRule_congr hb.1 (fun m => by rw [hhold]) (fun m => by rw [hhold]; exact ⟨rfl, rfl, rfl⟩) (fun n => ?_)
      (fun n hn => ?_) (by rw [hready]; exact id)
    · rcases hrec n with h | h
      · exact ⟨h.2.1.symm, h.2.2.symm⟩
      · exact ⟨h.2.1, h.2.2.1⟩
    · rcases hrec n with h | h
      · rw [← h.1] at hn
        exact (hb.1.1 n).2.2.2.2 hn
      · exact h.2.2.2 hn
  · exact State.deadlinesRule_congr hb.2.1 hhold hd (fun m => Engine.claims_of_eq (hop m) (hexp m))
  · exact State.workRule_of hb.2.2 (fun m r hr => .inl (hp m r hr)) (fun m op ho => .inl (by rw [← hop]; exact ho))
      (fun m n hn => .inl (hsf m n hn)) (fun n => (hrec n).imp id fun h => h.1) (fun n => .inl (hhold n)) hrem hnew

theorem State.writeState_spec (s : State) (n : Nat) (st : AcctState) :
    ((s.writeState n st).record n).state = st ∧ ((s.writeState n st).record n).held = (s.record n).held ∧
      ((s.writeState n st).record n).holds = (s.record n).holds := by
  rw [State.record_writeState_same]
  exact ⟨by cases st <;> rfl, rfl, rfl⟩

/-- R13, R14, R16, R17: a state other than FREE, NEW and GONE is written over another such. -/
theorem State.books_writeState {x : State} {g : Lane} {n : Nat} {st : AcctState} (hb : x.books) (ho : (x.engine g).op = none)
    (hg : laneOf n = g) (hst : (x.record n).state ≠ .new ∧ (x.record n).state ≠ .gone)
    (hst' : st ≠ .free ∧ st ≠ .new ∧ st ≠ .gone) : (x.writeState n st).books := by
  have hw := x.writeState_spec n st
  have h1 := hw.1
  have h2 : ∀ m, m ≠ n → (x.writeState n st).record m = x.record m := fun m hm => State.record_writeState_ne _ _ hm
  refine State.books_state hb (fun _ _ => (NoTask.writeState x n st).places) (fun m => by simp)
    (fun m k hk => by simpa using hk) (fun m => by simp) (fun m => ?_) (fun m => by simp) (by simp) (by simp) (fun m => ?_)
    (fun m hm => ?_)
  · by_cases hm : m = n
    · subst hm
      right
      refine ⟨by rw [hg]; simpa using ho, hw.2.1, hw.2.2, fun h => ?_⟩
      rw [h1] at h
      exact absurd h (by simp [hst'])
    · left
      rw [h2 m hm]
      exact Record.sameHolds_refl _
  · have hr := hb.2.2.2.2.1 m
    have hle : (x.writeState n st).removals m ≤ x.removals m :=
      State.removals_le (by simp) (fun u => by simp) (fun k => by simp) (fun k op hk => ⟨op, by simpa using hk, rfl⟩) m
    by_cases hm : m = n
    · subst hm
      rw [beq_eq_false_iff_ne.2 hst.2] at hr
      simp only [Bool.toNat_false] at hr
      omega
    · rw [h2 m hm]
      omega
  · have hr := hb.2.2.2.2.2.1 m (by
      rcases hm with ⟨k, hm⟩ | ⟨key, hm⟩
      · exact .inl ⟨k, (NoTask.writeState x n st).places hm⟩
      · exact .inr ⟨key, (NoTask.writeState x n st).insert _ _ hm⟩)
    by_cases hmn : m = n
    · subst hmn
      exact absurd hr hst.1
    · rw [h2 m hmn]
      exact hr

/-- R16: an account without holds is written GONE, and the removal of its key is posted. -/
theorem State.books_retire {x : State} {g : Lane} {n : Nat} (key : Key) (hb : x.books) (ho : (x.engine g).op = none)
    (hg : laneOf n = g) (hst : (x.record n).state ≠ .new ∧ (x.record n).state ≠ .gone) (hl : (x.record n).holds = []) :
    ((x.writeState n .gone).postRemoval n key).books := by
  obtain ⟨y, hy⟩ : ∃ y, y = (x.writeState n .gone).postRemoval n key := ⟨_, rfl⟩
  have hn : NoTask x y := by
    rw [hy]
    exact (NoTask.writeState _ _ _).trans (NoTask.postRemoval _ _ _)
  have h1 : (y.record n).state = .gone := by
    rw [hy]
    simp only [State.postRemoval_frame]
    exact (x.writeState_spec n .gone).1
  have h2 : ∀ m, m ≠ n → y.record m = x.record m := fun m hm => by
    rw [hy]
    simp only [State.postRemoval_frame]
    exact State.record_writeState_ne _ _ hm
  have h3 : ∀ m, y.engine m = x.engine m := fun m => by rw [hy]; simp
  have h4 : (y.record n).held = (x.record n).held ∧ (y.record n).holds = (x.record n).holds := by
    rw [hy]
    simp only [State.postRemoval_frame]
    exact (x.writeState_spec n .gone).2
  rw [← hy]
  refine State.books_state hb (fun _ _ => hn.places) (fun m => by rw [h3]) (fun m k hk => by rw [h3] at hk; exact hk)
    (fun m => by rw [h3]) (fun m => ?_) (fun m => by rw [hy]; simp) (by rw [hy]; simp) (by rw [hy]; simp) (fun m => ?_)
    (fun m hm => ?_)
  · by_cases hm : m = n
    · subst hm
      right
      exact ⟨by rw [hg, h3]; exact ho, h4.1, h4.2, fun _ => hl⟩
    · left
      rw [h2 m hm]
      exact Record.sameHolds_refl _
  · have hr := hb.2.2.2.2.1 m
    have hle : y.removals m = x.removals m + (if m = n then 1 else 0) := by
      unfold State.removals Engine.removals
      rw [h3, hy]
      simp only [State.postRemoval, State.writeState_frame, List.countP_append]
      by_cases hm : m = n
      · simp [IndexUpdate.removes, hm]
        omega
      · simp [IndexUpdate.removes, hm, Ne.symm hm]
    by_cases hm : m = n
    · subst hm
      rw [beq_eq_false_iff_ne.2 hst.2] at hr
      simp only [Bool.toNat_false] at hr
      rw [h1, hle]
      simp
      omega
    · rw [h2 m hm, hle]
      simpa [hm] using hr
  · have hr := hb.2.2.2.2.2.1 m (by
      rcases hm with ⟨k, hm⟩ | ⟨key, hm⟩
      · exact .inl ⟨k, hn.places hm⟩
      · exact .inr ⟨key, hn.insert _ _ hm⟩)
    by_cases hmn : m = n
    · subst hmn
      exact absurd hr hst.1
    · rw [h2 m hmn]
      exact hr

/-! ### Completions of management requests -/

/-- What an operation by handle read is still so when it completes (R30). -/
theorem State.books_handle {s : State} {g : Lane} {op : Operation} {r : Request} (hb : s.books)
    (ho : (s.engine g).op = some op) (hw : op.work = .request r) (ht : r.ticket? = none) :
    laneOf r.slot = g ∧ op.record.sameHolds (s.record r.slot) :=
  ⟨hb.2.2.1 g r (.inr (.inl ⟨op, ho, hw⟩)) ht, (hb.2.2.2.2.2.2 g op ho).1 r hw ht⟩

theorem State.books_completeByHandle {s : State} {g : Lane} {op : Operation} {m : MgmtReq} (hb : s.books)
    (ho : (s.engine g).op = some op) (hw : op.work = .request (.mgmt m)) (n : Byte) (h : Handle) (act : State → State)
    (ha : ∀ x, Keeps s x → (x.engine g).op = none → handleTest h op.record = none → (act x).books) :
    (s.completeByHandle g op n h act).books := by
  have hp : op.work.isPlain = true := by rw [hw]; rfl
  unfold State.completeByHandle
  split
  · exact ((Keeps.endOp ho hp).trans (Keeps.reply _ _ _ _)).books hb
  · rename_i hn
    exact ha _ (Keeps.ended ho hp _ _ _) (by simp [State.endVerified]) hn

theorem State.books_completeByTicket {s : State} {g : Lane} {op : Operation} {m : MgmtReq} (hb : s.books)
    (ho : (s.engine g).op = some op) (hw : op.work = .request (.mgmt m)) (n : Byte) (t : Ticket) (act : State → State)
    (ha : ∀ x, Keeps s x → (x.engine g).op = none → ticketOfGroup g t op.entry = true → (act x).books) :
    (s.completeByTicket g op n t act).books := by
  have hp : op.work.isPlain = true := by rw [hw]; rfl
  unfold State.completeByTicket
  split
  · rename_i hn
    exact ha _ (Keeps.ended ho hp _ _ _) (by simp [State.endVerified]) hn
  · exact ((Keeps.endOp ho hp).trans (Keeps.reply _ _ _ _)).books hb

theorem State.books_completeFreeze {x : State} {g : Lane} {op : Operation} {h : Handle} (hb : x.books)
    (hx : (x.engine g).op = none) (hg : laneOf h.slot.toNat = g) (hr : op.record.sameHolds (x.record h.slot.toNat))
    (hn : handleTest h op.record = none) (n : Byte) (st : AcctState) (hst : st = .active ∨ st = .frozen) :
    (x.completeFreeze op n h st).books := by
  have hcur := handleTest_none hn
  rw [hr.1] at hcur
  unfold State.completeFreeze
  repeat' split
  · exact (Keeps.reply _ _ _ _).books hb
  · exact (Keeps.reply _ _ _ _).books hb
  · exact (Keeps.reply _ _ _ _).books hb
  · refine (Keeps.reply _ _ _ _).books (State.books_writeState hb hx hg hcur.2 ?_)
    rcases hst with rfl | rfl <;> simp

theorem State.books_completeRetire {x : State} {g : Lane} {op : Operation} {h : Handle} (hb : x.books)
    (hx : (x.engine g).op = none) (hg : laneOf h.slot.toNat = g) (hr : op.record.sameHolds (x.record h.slot.toNat))
    (hn : handleTest h op.record = none) : (x.completeRetire op h).books := by
  have hcur := handleTest_none hn
  rw [hr.1] at hcur
  unfold State.completeRetire
  split
  · exact (Keeps.reply _ _ _ _).books hb
  · split
    · rename_i he
      refine (Keeps.reply _ _ _ _).books (State.books_retire _ hb hx hg hcur.2 ?_)
      rw [← hr.2.2]
      simpa using he
    · exact (Keeps.reply _ _ _ _).books (State.books_writeState hb hx hg hcur.2 (by simp))

theorem State.books_completeRestore {x : State} {g : Lane} {op : Operation} {h : Handle} (hb : x.books)
    (hx : (x.engine g).op = none) (hg : laneOf h.slot.toNat = g) (hr : op.record.sameHolds (x.record h.slot.toNat))
    (bal : S8) (floor low : B6) (set : TariffSet) (was : Bool) : (x.completeRestore op h bal floor low set was).books := by
  unfold State.completeRestore
  dsimp only
  have hk : Keeps x (x.modifyRecord h.slot.toNat fun r => r.restored bal floor low set) := by
    refine Keeps.modifyRecord _ _ _ ⟨?_, rfl, rfl⟩
    cases hst : (x.record h.slot.toNat).state <;> simp [Record.restored, hst, Record.seal] <;> rfl
  have hopen : ∀ t ∈ x.stalledOf op.record.holds, x.isOpen t ∧ (x.hold t.entry.toNat).state = .stalled ∧
      laneOf (x.hold t.entry.toNat).slot = g := fun t ht => by
    unfold State.stalledOf at ht
    rw [List.mem_filter, beq_iff_eq, hr.2.2] at ht
    have := (hb.1.2.1 _ t).1 ht.1
    exact ⟨this.1, ht.2, by rw [this.2]; exact hg⟩
  refine (Keeps.reply _ _ _ _).books (State.dueTest_books (State.books_rearm_all g _ _ (hk.books hb) hx ?_ (fun t ht => ?_)))
  · unfold State.stalledOf
    rw [hr.2.2]
    exact (hb.1.1 _).1.filter _
  · exact hopen t ht

theorem State.books_completeMgmt {s : State} {g : Lane} {op : Operation} {m : MgmtReq} (hb : s.books)
    (ho : (s.engine g).op = some op) (hw : op.work = .request (.mgmt m)) : (s.completeMgmt g op m).books := by
  have hH := fun ht => State.books_handle hb ho hw ht
  have hreply : ∀ x : State, x.books → ∀ n st b, (x.reply n st b).books := fun x hx n st b => (Keeps.reply _ _ _ _).books hx
  cases m with
  | read h full => exact State.books_completeByHandle hb ho hw _ _ _ fun x hk _ _ => hreply x (hk.books hb) _ _ _
  | update h mask floor low set =>
    refine State.books_completeByHandle hb ho hw _ _ _ fun x hk _ _ => ?_
    unfold State.completeUpdate
    split
    · exact hreply x (hk.books hb) _ _ _
    · exact hreply _ ((Keeps.modifyRecord _ _ _ ⟨rfl, rfl, rfl⟩).books (hk.books hb)) _ _ _
  | freeze h =>
    refine State.books_completeByHandle hb ho hw _ _ _ fun x hk hx hn => ?_
    exact State.books_completeFreeze (hk.books hb) hx (hH rfl).1
      (Record.sameHolds_trans (hH rfl).2 (hk.record _)) hn _ _ (.inr rfl)
  | thaw h =>
    refine State.books_completeByHandle hb ho hw _ _ _ fun x hk hx hn => ?_
    exact State.books_completeFreeze (hk.books hb) hx (hH rfl).1
      (Record.sameHolds_trans (hH rfl).2 (hk.record _)) hn _ _ (.inl rfl)
  | retire h =>
    refine State.books_completeByHandle hb ho hw _ _ _ fun x hk hx hn => ?_
    exact State.books_completeRetire (hk.books hb) hx (hH rfl).1 (Record.sameHolds_trans (hH rfl).2 (hk.record _)) hn
  | topup h amount =>
    refine State.books_completeByHandle hb ho hw _ _ _ fun x hk _ _ => ?_
    unfold State.completeCredit
    split
    · exact hreply x (hk.books hb) _ _ _
    · exact hreply _ ((Keeps.writeNewBalance _ _ _ _).books (hk.books hb)) _ _ _
  | adjust h amount =>
    refine State.books_completeByHandle hb ho hw _ _ _ fun x hk _ _ => ?_
    unfold State.completeCredit
    split
    · exact hreply x (hk.books hb) _ _ _
    · exact hreply _ ((Keeps.writeNewBalance _ _ _ _).books (hk.books hb)) _ _ _
  | restore h bal floor low set =>
    refine State.books_completeByHandle hb ho hw _ _ _ fun x hk hx _ => ?_
    exact State.books_completeRestore (hk.books hb) hx (hH rfl).1 (Record.sameHolds_trans (hH rfl).2 (hk.record _)) _ _ _ _ _
  | holdRead t => exact State.books_completeByTicket hb ho hw _ _ _ fun x hk _ _ => hreply x (hk.books hb) _ _ _
  | holdRelease t =>
    refine State.books_completeByTicket hb ho hw _ _ _ fun x hk hx ht => ?_
    exact hreply _ (State.books_endByTicket hb ho (by rw [hw]; rfl) ht hk hx _) _ _ _
  | holdCapture t =>
    refine State.books_completeByTicket hb ho hw _ _ _ fun x hk hx ht => ?_
    unfold State.completeCapture
    split
    · exact hreply x (hk.books hb) _ _ _
    · exact hreply _ (State.books_chargeHold hb ho (by rw [hw]; rfl) ht hk hx _) _ _ _
  | transitCredit h =>
    refine State.books_completeByHandle hb ho hw _ _ _ fun x hk _ _ => ?_
    unfold State.completeTransitCredit
    dsimp only
    split
    · exact hreply x (hk.books hb) _ _ _
    · refine hreply _ ?_ _ _ _
      exact (Keeps.of_accounts rfl rfl rfl rfl rfl rfl rfl rfl).books ((Keeps.writeNewBalance x h.slot.toNat op.record
        (some (op.record.bal + op.transit.amount))).books (hk.books hb))
  | create n key bal floor low set => exact hb
  | activate n => exact hb
  | sameTransfer src dst all a => exact hb
  | step1 src dst all a => exact hb

theorem books_managementRequestComplete {s t : State} {g : Lane} (hb : s.books)
    (ht : execManagementRequestComplete g s = .next t) : t.books := by
  unfold execManagementRequestComplete at ht
  injection ht with ht
  subst ht
  split
  · rename_i op m heq
    have hs := State.mgmtOp_spec heq
    exact State.books_completeMgmt hb hs.1 hs.2
  · exact hb

/-! ### Enrolment and slot-free claims (R11, R12, R19, R20, R117) -/

theorem State.places_task {s : State} {g : Lane} {m : MgmtReq} (h0 : s.tasks = 0) : ¬s.places g (.mgmt m) := fun hp => by
  have := State.tasks_of_places hp
  omega

theorem State.inserts_task {s : State} {key : Key} {n : Nat} (h0 : s.tasks = 0) : ¬s.updating (.insert key n) := fun hp => by
  have := State.tasks_of_insert hp
  omega

theorem books_createStep {s t : State} {g : Lane} (hb : s.books) (h1 : s.oneTask) (ht : execCreateStep g s = .next t) :
    t.books := by
  unfold execCreateStep at ht
  injection ht with ht
  subst ht
  split
  · rename_i op n key bal floor low set heq
    have hs := State.mgmtOp_spec heq
    have hp : op.work.isPlain = true := by rw [hs.2]; rfl
    have hk := Keeps.endOp hs.1 hp
    split
    · rename_i hfree
      have hH := State.books_handle hb hs.1 hs.2 rfl
      have h0 := (NoTask.endOp s g).tasks_zero h1 hs.1 (by rw [hs.2]; rfl) (by simp)
      have hx := hk.books hb
      have hst : ((s.endOp g).record n).state = .free := by
        rw [← (hk.record n).1]
        exact hH.2.1.symm.trans (by simpa using hfree)
      have hlist := (hx.1.1 n).2.2.2.2 (.inl hst)
      have hheld : ((s.endOp g).record n).held = 0 := by
        rw [(hx.1.1 n).2.2.1, hlist]
        rfl
      obtain ⟨x, hxe, hxo⟩ : ∃ x, x = s.endOp g ∧ (x.engine g).op = none := ⟨_, rfl, by simp⟩
      rw [← hxe] at h0 hx hst hlist hheld ⊢
      obtain ⟨y, hy⟩ : ∃ y, y = (x.modifyRecord n fun r => r.created key bal floor low set).postInsert key n := ⟨_, rfl⟩
      have hrn : y.record n = (x.record n).created key bal floor low set := by
        rw [hy]
        exact State.record_modifyRecord_same x n (fun r => r.created key bal floor low set)
      have hrm : ∀ m, m ≠ n → y.record m = x.record m := fun m hm => by
        rw [hy]
        exact State.record_modifyRecord_ne x (fun r => r.created key bal floor low set) hm
      have hnew : (y.record n).state = .new := by rw [hrn]; rfl
      have hpl : ∀ m r, y.places m r → x.places m r := fun m r hr => by rw [hy] at hr; exact hr
      rw [← hy]
      refine State.books_state hx hpl (fun m => by rw [hy]; rfl) (fun m k hm => by rw [hy] at hm; exact hm)
        (fun m => by rw [hy]; rfl) (fun m => ?_) (fun m => by rw [hy]; rfl) (by rw [hy]; rfl) (by rw [hy]; rfl) (fun m => ?_)
        (fun m hm => ?_)
      · by_cases hm : m = n
        · subst hm
          right
          refine ⟨?_, by rw [hrn, hheld]; rfl, by rw [hrn, hlist]; rfl, fun _ => hlist⟩
          rw [show laneOf m = g from hH.1, hy]
          exact hxo
        · left
          rw [hrm m hm]
          exact Record.sameHolds_refl _
      · have hr := hx.2.2.2.2.1 m
        have hle : y.removals m = x.removals m := by
          unfold State.removals
          rw [hy]
          show (x.indexUnit.updates ++ [IndexUpdate.insert key n]).countP (IndexUpdate.removes m) + _ + _ = _
          rw [List.countP_append]
          rfl
        rw [hle]
        by_cases hm : m = n
        · subst hm
          rw [hst] at hr
          exact Nat.le_trans hr (by simp [show (AcctState.free == AcctState.gone) = false from rfl])
        · rw [hrm m hm]
          exact hr
      · rcases hm with ⟨k, hm⟩ | ⟨key', hm⟩
        · exact absurd (hpl _ _ hm) (State.places_task h0)
        · have : m = n := by
            unfold State.updating at hm
            rw [hy] at hm
            rcases hm with hm | hm
            · rw [State.postInsert, List.mem_append, List.mem_singleton] at hm
              rcases hm with hm | hm
              · exact absurd (.inl hm) (State.inserts_task h0)
              · injection hm
            · exact absurd (.inr hm) (State.inserts_task h0)
          rw [this]
          exact hnew
    · exact (hk.trans (Keeps.reply _ _ _ _)).books hb
  · exact hb

theorem books_activateStep {s t : State} {g : Lane} (hb : s.books) (h1 : s.oneTask) (ht : execActivateStep g s = .next t) :
    t.books := by
  unfold execActivateStep at ht
  injection ht with ht
  subst ht
  split
  · rename_i op n heq
    have hs := State.mgmtOp_spec heq
    have hp : op.work.isPlain = true := by rw [hs.2]; rfl
    refine (Keeps.reply _ _ _ _).books ?_
    have hk := Keeps.ended hs.1 hp n (!op.record.verifies) .operation
    have hn0 : NoTask s ((s.endOp g).noteMismatch n (!op.record.verifies) .operation) := hk.noTask
    have h0 := hn0.tasks_zero h1 hs.1 (by rw [hs.2]; rfl) (by simp)
    have hH := State.books_handle hb hs.1 hs.2 rfl
    have hst := hb.2.2.2.2.2.1 n (.inl ⟨g, .inr (.inl ⟨op, hs.1, hs.2⟩)⟩)
    obtain ⟨x, hx, hxo⟩ : ∃ x, x = (s.endOp g).noteMismatch n (!op.record.verifies) .operation ∧ (x.engine g).op = none :=
      ⟨_, rfl, by simp⟩
    rw [← hx] at hk h0 ⊢
    rw [(hk.record n).1] at hst
    have hxb := hk.books hb
    have hw := x.writeState_spec n .active
    have h2 : ∀ m, m ≠ n → (x.writeState n .active).record m = x.record m := fun m hm => State.record_writeState_ne _ _ hm
    refine State.books_state hxb (fun _ _ => (NoTask.writeState x n .active).places) (fun m => by simp)
      (fun m k hk => by simpa using hk) (fun m => by simp) (fun m => ?_) (fun m => by simp) (by simp) (by simp) (fun m => ?_)
      (fun m hm => ?_)
    · by_cases hm : m = n
      · subst hm
        right
        refine ⟨by rw [show laneOf m = g from hH.1]; simpa using hxo, hw.2.1, hw.2.2, fun h => ?_⟩
        rw [hw.1] at h
        simp at h
      · left
        rw [h2 m hm]
        exact Record.sameHolds_refl _
    · have hr := hxb.2.2.2.2.1 m
      have hle : (x.writeState n .active).removals m ≤ x.removals m :=
        State.removals_le (by simp) (fun u => by simp) (fun k => by simp) (fun k op hk => ⟨op, by simpa using hk, rfl⟩) m
      by_cases hm : m = n
      · subst hm
        rw [hst] at hr
        exact Nat.le_trans hle (Nat.le_trans hr (by simp [show (AcctState.new == AcctState.gone) = false from rfl]))
      · rw [h2 m hm]
        exact Nat.le_trans hle hr
    · exfalso
      rcases hm with ⟨k, hm⟩ | ⟨key, hm⟩
      · exact State.places_task h0 ((NoTask.writeState x n .active).places hm)
      · exact State.inserts_task h0 ((NoTask.writeState x n .active).insert _ _ hm)
  · exact hb

theorem books_slotFree {s t : State} {g : Lane} (hb : s.books) (ht : execSlotFree g s = .next t) : t.books := by
  unfold execSlotFree at ht
  injection ht with ht
  subst ht
  split
  · rename_i op ho
    split
    · rename_i n hw
      refine (Keeps.post _ _).books ?_
      have hlane := hb.2.2.2.1 g n (.inr ⟨op, ho, hw⟩)
      have hone : 1 ≤ ((s.engine g).op.any fun op => op.work == .slotFree n).toNat := by rw [ho]; simp [hw]
      have hrem := hb.2.2.2.2.1 n
      have hgone : (s.record n).state = .gone := by
        unfold State.removals Engine.removals at hrem
        rw [hlane] at hrem
        by_cases hst : (s.record n).state = .gone
        · exact hst
        · rw [beq_eq_false_iff_ne.2 hst, Bool.toNat_false] at hrem
          omega
      have hlist := (hb.1.1 n).2.2.2.2 (.inr (.inr hgone))
      have hheld : (s.record n).held = 0 := by
        rw [(hb.1.1 n).2.2.1, hlist]
        rfl
      obtain ⟨y, hy⟩ : ∃ y, y = (s.endOp g).setRecord n (Record.freed (op.record.gen + 1)) := ⟨_, rfl⟩
      have hrn : y.record n = Record.freed (op.record.gen + 1) := by rw [hy]; simp
      have hrm : ∀ m, m ≠ n → y.record m = s.record m := fun m hm => by
        rw [hy, State.record_setRecord_ne _ _ hm]
        simp
      have hyg : (y.engine g).op = none := by rw [hy]; simp
      have hye : ∀ m, m ≠ g → y.engine m = s.engine m := fun m hm => by
        rw [hy]
        simp only [State.setRecord_frame]
        exact State.engine_endOp_ne _ hm
      have hop : ∀ m op', (y.engine m).op = some op' → (s.engine m).op = some op' := fun m op' h => by
        by_cases hm : m = g
        · rw [hm, hyg] at h
          cases h
        · rw [hye m hm] at h
          exact h
      have hsf : ∀ m, (y.engine m).slotFree = (s.engine m).slotFree ∧ (y.engine m).expiry = (s.engine m).expiry := fun m => by
        by_cases hm : m = g
        · subst hm
          rw [hy]
          simp
        · rw [hye m hm]
          exact ⟨rfl, rfl⟩
      have hn : NoTask s y := by
        rw [hy]
        exact (NoTask.endOp s g).trans (NoTask.of_eq rfl rfl rfl rfl)
      have hle : ∀ m, y.removals m ≤ s.removals m := fun m =>
        State.removals_le (by rw [hy]; simp) (fun u => by rw [hy]; simp) (fun k => (hsf k).1)
          (fun k op' hk => ⟨op', hop k op' hk, rfl⟩) m
      rw [← hy]
      refine ⟨?_, ?_, ?_⟩
      · refine State.holdsRule_congr hb.1 (fun m => by rw [hy]; simp) (fun m => by rw [hy]; simp) (fun m => ?_) (fun m hm => ?_)
          (by rw [hy]; simp)
        · by_cases hmn : m = n
          · subst hmn
            rw [hrn, hheld, hlist]
            exact ⟨rfl, rfl⟩
          · rw [hrm m hmn]
            exact ⟨rfl, rfl⟩
        · by_cases hmn : m = n
          · subst hmn
            exact hlist
          · rw [hrm m hmn] at hm
            exact (hb.1.1 m).2.2.2.2 hm
      · refine State.deadlinesRule_congr hb.2.1 (fun m => by rw [hy]; simp) (by rw [hy]; simp) (fun m => ?_)
        by_cases hm : m = g
        · subst hm
          unfold Engine.claims
          rw [hyg, ho, (hsf m).2, Option.bind_some, hw]
          rfl
        · rw [hye m hm]
      · refine State.workRule_of hb.2.2 (fun _ _ hr => .inl (hn.places hr)) (fun m op' h => .inl (hop m op' h))
          (fun m k hm => .inl (by rw [← (hsf m).1]; exact hm)) (fun m => ?_) (fun m => .inl (by rw [hy]; simp)) (fun m => ?_)
          (fun m hm => ?_)
        · by_cases hmn : m = n
          · right
            rw [hmn, hlane]
            exact hyg
          · left
            rw [hrm m hmn]
            exact Record.sameHolds_refl _
        · by_cases hmn : m = n
          · subst hmn
            have h1 : y.removals m + 1 ≤ s.removals m := by
              unfold State.removals Engine.removals
              rw [hlane, hyg, (hsf g).1, hy]
              simp only [State.setRecord_frame, State.endOp_frame, Option.any_none, Bool.toNat_false]
              omega
            rw [hgone] at hrem
            have : (AcctState.gone == AcctState.gone).toNat = 1 := rfl
            omega
          · rw [hrm m hmn]
            exact Nat.le_trans (hle m) (hb.2.2.2.2.1 m)
        · have hr := hb.2.2.2.2.2.1 m (by
            rcases hm with ⟨k, hm⟩ | ⟨key, hm⟩
            · exact .inl ⟨k, hn.places hm⟩
            · exact .inr ⟨key, hn.insert _ _ hm⟩)
          by_cases hmn : m = n
          · rw [hmn, hgone] at hr
            cases hr
          · rw [hrm m hmn]
            exact hr
    · exact hb
  · exact hb

end Sys2Proof.Machine
end

