-- ==== Sys2Proof/Laws/KeptRows.lean ====
section
/-! SUPPORT. The rows that move work, reset or check the stores keep the rules of lists, held, deadlines and work; and so
every row but a disturbance of a stored account state does (R3, R70, R98). -/

namespace Sys2Proof.Machine

/-! ### Rows that move work -/

/-- A state that differs in its work alone. -/
theorem State.books_of_work {x y : State} (hb : x.books) (hrec : ∀ n, y.record n = x.record n) (hh : ∀ n, y.hold n = x.hold n)
    (hd : y.deadlines = x.deadlines) (hr : y.isReady = x.isReady) (hc : ∀ m, (y.engine m).claims = (x.engine m).claims)
    (hw : y.workRule) : y.books :=
  ⟨State.holdsRule_congr hb.1 (fun m => by rw [hh]) (fun m => by rw [hh]; exact ⟨rfl, rfl, rfl⟩)
    (fun n => by rw [hrec]; exact ⟨rfl, rfl⟩) (fun n hn => by rw [hrec] at hn; exact (hb.1.1 n).2.2.2.2 hn)
    (by rw [hr]; exact id), State.deadlinesRule_congr hb.2.1 hh hd hc, hw⟩

theorem readFor_opAgrees {s y : State} {g : Lane} {w : Work} (hb : s.books) (hw : ∀ t, w.claim? = some t → t ∈ (s.engine g).claims)
    (hrec : ∀ n, y.record n = s.record n) (hh : ∀ n, y.hold n = s.hold n) : y.opAgrees g (s.readFor w) := by
  refine ⟨fun r hr ht => ?_, fun t ht hg => ?_, fun ha => ?_, fun n ha => ?_, fun t ht => ?_⟩
  · have hr' : w = .request r := hr
    subst hr'
    have : (s.readFor (.request r)).record = s.record r.slot := by
      show s.record (s.workSlot (.request r)) = _
      unfold State.workSlot
      simp [Work.ticket?, ht]
    rw [this, hrec]
    exact Record.sameHolds_refl _
  · have ht' : w.ticket? = some t := ht
    have he : (s.readFor w).entry = s.hold t.entry.toNat := by
      show (match w.ticket? with | some t => s.hold t.entry.toNat | none => HoldEntry.cold) = _
      rw [ht']
    have hr : (s.readFor w).record = s.record (s.hold t.entry.toNat).slot := by
      show s.record (s.workSlot w) = _
      unfold State.workSlot
      rw [ht']
    rw [he, hr, hh, hrec]
    exact ⟨rfl, Record.sameHolds_refl _⟩
  · have ha' : firstAlloc w (s.readFor w).record (s.readFor w).tariff = .claimed ∨
        ∃ n, firstAlloc w (s.readFor w).record (s.readFor w).tariff = .allotted n := ha
    unfold firstAlloc at ha'
    split at ha'
    · rename_i o h n units window
      split at ha'
      · rename_i hn
        exact ⟨o, h, n, units, window, rfl, by simpa using hn⟩
      · simp at ha'
    · simp at ha'
  · have ha' : firstAlloc w (s.readFor w).record (s.readFor w).tariff = .allotted n := ha
    unfold firstAlloc at ha'
    split at ha'
    · split at ha' <;> cases ha'
    · cases ha'
  · have ht' : w.claim? = some t := ht
    have h := hb.2.1.2.2.2.1 g t (hw t ht')
    have htick : w.ticket? = some t := by
      cases w <;> first | (cases ht'; done) | exact ht'
    have he : (s.readFor w).entry = s.hold t.entry.toNat := by
      show (match w.ticket? with | some t => s.hold t.entry.toNat | none => HoldEntry.cold) = _
      rw [htick]
    rw [he, ticketOfGroup_iff]
    exact ⟨h.1, h.2.2⟩

/-- R29, R30: an engine takes its next piece of work. -/
theorem books_engineTakeWork {s t : State} {g : Lane} (hb : s.books) (ht : execEngineTakeWork g s = .next t) : t.books := by
  rcases execEngineTakeWork_spec ht with rfl | ⟨w, e, -, ho, hw, rfl⟩
  · exact hb
  · obtain ⟨y, hy⟩ : ∃ y, y = s.setEngine g { e with op := some (s.readFor w) } := ⟨_, rfl⟩
    have heg : y.engine g = { e with op := some (s.readFor w) } := by rw [hy]; simp
    have hem : ∀ m, m ≠ g → y.engine m = s.engine m := fun m hm => by rw [hy, State.engine_setEngine_ne _ _ hm]
    have hrec : ∀ n, y.record n = s.record n := fun n => by rw [hy]; rfl
    have hh : ∀ n, y.hold n = s.hold n := fun n => by rw [hy]; rfl
    have hu : y.indexUnit = s.indexUnit := by rw [hy]; rfl
    have hcmd : y.cmd = s.cmd := by rw [hy]; rfl
    have hspec := Engine.nextWork_spec hw
    have hclaims : (y.engine g).claims = (s.engine g).claims ∧ ∀ t, w.claim? = some t → t ∈ (s.engine g).claims := by
      rw [heg]
      unfold Engine.claims
      rw [ho]
      rcases hspec with ⟨c, rfl, hc, rfl⟩ | ⟨n, rest, rfl, hc, rfl⟩ | ⟨n, rest, rfl, hc, rfl⟩ | ⟨n, rfl, hc, rfl⟩ |
        ⟨r, rest, rfl, hc, rfl⟩
      · exact ⟨rfl, fun t h => by cases h⟩
      · exact ⟨rfl, fun t h => by cases h⟩
      · rw [hc]
        refine ⟨rfl, fun t h => ?_⟩
        injection h with h
        subst h
        exact List.mem_cons_self ..
      · exact ⟨rfl, fun t h => by cases h⟩
      · exact ⟨rfl, fun t h => by cases h⟩
    have hqueue : ∀ r, (r ∈ e.queue ∨ w = .request r) → r ∈ (s.engine g).queue := by
      rcases hspec with ⟨c, rfl, hc, rfl⟩ | ⟨n, rest, rfl, hc, rfl⟩ | ⟨n, rest, rfl, hc, rfl⟩ | ⟨n, rfl, hc, rfl⟩ |
        ⟨r, rest, rfl, hc, rfl⟩
      all_goals
        intro r' hr
        rcases hr with hr | hr
        · first
            | exact hr
            | (rw [hc]; exact List.mem_cons_of_mem _ hr)
        · first
            | (cases hr; done)
            | (injection hr with hr; subst hr; rw [hc]; exact List.mem_cons_self ..)
    have hsf : ∀ n, e.slotFree.count n + (w == .slotFree n).toNat = (s.engine g).slotFree.count n ∧
        (n ∈ e.slotFree ∨ w = .slotFree n → n ∈ (s.engine g).slotFree) := by
      intro n
      rcases hspec with ⟨c, rfl, hc, rfl⟩ | ⟨k, rest, rfl, hc, rfl⟩ | ⟨k, rest, rfl, hc, rfl⟩ | ⟨k, rfl, hc, rfl⟩ |
        ⟨r, rest, rfl, hc, rfl⟩
      · exact ⟨by simp, fun h => h.elim id (fun h => by cases h)⟩
      · rw [hc]
        refine ⟨?_, fun h => ?_⟩
        · rw [List.count_cons]
          by_cases hk : k = n <;> simp [hk]
        · rcases h with h | h
          · exact List.mem_cons_of_mem _ h
          · injection h with h
            rw [h]
            exact List.mem_cons_self ..
      · exact ⟨by simp, fun h => h.elim id (fun h => by cases h)⟩
      · exact ⟨by simp, fun h => h.elim id (fun h => by cases h)⟩
      · exact ⟨by simp, fun h => h.elim id (fun h => by cases h)⟩
    have hp : ∀ m r, y.places m r → s.places m r := fun m r hr => by
      by_cases hm : m = g
      · subst hm
        unfold State.places at hr
        rw [heg, hcmd] at hr
        rcases hr with hr | ⟨op, hop, hr⟩ | hr
        · exact .inl (hqueue r (.inl hr))
        · simp only [Option.some.injEq] at hop
          subst hop
          exact .inl (hqueue r (.inr hr))
        · exact .inr (.inr hr)
      · unfold State.places at hr
        rw [hem m hm, hcmd] at hr
        exact hr
    rw [← hy]
    refine State.books_of_work hb hrec hh (by rw [hy]; rfl) (by rw [hy]; rfl) (fun m => ?_) ?_
    · by_cases hm : m = g
      · rw [hm]
        exact hclaims.1
      · rw [hem m hm]
    · refine State.workRule_of hb.2.2 (fun m r hr => .inl (hp m r hr)) (fun m op hop => ?_) (fun m n hn => ?_)
        (fun n => .inl (by rw [hrec]; exact Record.sameHolds_refl _)) (fun n => .inl (hh n)) (fun n => ?_) (fun n hn => ?_)
      · by_cases hm : m = g
        · subst hm
          rw [heg] at hop
          simp only [Option.some.injEq] at hop
          subst hop
          right
          refine ⟨readFor_opAgrees hb hclaims.2 hrec hh, fun n hn => ?_⟩
          exact hb.2.2.2.1 m n (.inl ((hsf n).2 (.inr hn)))
        · rw [hem m hm] at hop
          exact .inl hop
      · by_cases hm : m = g
        · subst hm
          rw [heg] at hn
          exact .inl ((hsf n).2 (.inl hn))
        · rw [hem m hm] at hn
          exact .inl hn
      · have hr := hb.2.2.2.2.1 n
        have : y.removals n = s.removals n := by
          unfold State.removals
          rw [hu]
          by_cases hg : laneOf n = g
          · unfold Engine.removals
            rw [hg, heg, ho]
            have := (hsf n).1
            have hw' : (s.readFor w).work = w := rfl
            simp only [Option.any_some, Option.any_none, Bool.toNat_false, hw']
            omega
          · rw [hem _ hg]
        rw [this, hrec]
        exact hr
      · rw [hrec]
        refine hb.2.2.2.2.2.1 n ?_
        rcases hn with ⟨k, hn⟩ | ⟨key, hn⟩
        · exact .inl ⟨k, hp _ _ hn⟩
        · refine .inr ⟨key, ?_⟩
          unfold State.updating at hn ⊢
          rw [hu] at hn
          exact hn

theorem lowestFrom_spec (p : Nat → Bool) : ∀ (fuel a n : Nat), lowestFrom p fuel a = some n → p n = true ∧ n < a + fuel := by
  intro fuel
  induction fuel with
  | zero =>
    intro a n h
    cases h
  | succ fuel ih =>
    intro a n h
    unfold lowestFrom at h
    split at h
    · injection h with h
      subst h
      exact ⟨by assumption, by omega⟩
    · have := ih _ _ h
      exact ⟨this.1, by omega⟩

/-- R73: the allocator serves a claim. -/
theorem books_holdEntryAllocation {s t : State} (hb : s.books) (ht : execHoldEntryAllocation s = .next t) : t.books := by
  have hn := (NoTask.holdEntryAllocation ht).1
  unfold execHoldEntryAllocation at ht
  injection ht with ht
  split at ht
  · exact ht ▸ hb
  · rename_i g hg
    have hcl := List.find?_some hg
    unfold State.claimsEntry at hcl
    split at hcl
    · rename_i op hop
      have hcl' : op.alloc = .claimed := by simpa using hcl
      obtain ⟨a, ha, ht⟩ : ∃ a, (∀ n, a = Alloc.allotted n → s.lowestEntry = some n) ∧
          { s.modifyEngine g (fun e => e.allotted a) with allocPtr := g + 1 } = t := by
        cases hle : s.lowestEntry with
        | none => exact ⟨.full, (fun n h => nomatch h), by rw [← ht, hle]⟩
        | some k => exact ⟨.allotted k, fun n h => congrArg some (by injection h), by rw [← ht, hle]⟩
      have hspec : ∀ n, a = .allotted n → n < 256 ∧ (s.hold n).state = .free ∧
          ∀ m op', (s.engine m).op = some op' → op'.alloc ≠ .allotted n := by
        intro k han
        have hk := ha k han
        unfold State.lowestEntry at hk
        have h := lowestFrom_spec _ _ _ _ hk
        simp only [Bool.and_eq_true, beq_iff_eq, Bool.not_eq_true'] at h
        refine ⟨by simpa [Config.holdEntries] using h.2, h.1.1, fun m op' ho' hal => ?_⟩
        have hallot : (s.engine m).holdsAllotment k = true := by
          unfold Engine.holdsAllotment
          rw [ho']
          simp [hal]
        have hno := h.1.2
        unfold State.isAllotted at hno
        simp only [Bool.or_eq_false_iff] at hno
        match m with
        | 0 => rw [hno.1.1.1] at hallot; cases hallot
        | 1 => rw [hno.1.1.2] at hallot; cases hallot
        | 2 => rw [hno.1.2] at hallot; cases hallot
        | 3 => rw [hno.2] at hallot; cases hallot
      have heg : t.engine g = { s.engine g with op := some { op with alloc := a } } := by
        rw [← ht]
        show (s.modifyEngine g fun e => e.allotted a).engine g = _
        rw [State.engine_modifyEngine_same]
        unfold Engine.allotted
        rw [hop]
      have hem : ∀ m, m ≠ g → t.engine m = s.engine m := fun m hm => by
        rw [← ht]
        show (s.modifyEngine g fun e => e.allotted a).engine m = _
        rw [State.engine_modifyEngine_ne _ _ hm]
      have hrec : ∀ n, t.record n = s.record n := fun n => by rw [← ht]; rfl
      have hh : ∀ n, t.hold n = s.hold n := fun n => by rw [← ht]; rfl
      have hu : t.indexUnit = s.indexUnit := by rw [← ht]; rfl
      refine State.books_of_work hb hrec hh (by rw [← ht]; rfl) (by rw [← ht]; rfl) (fun m => ?_) ?_
      · by_cases hm : m = g
        · subst hm
          unfold Engine.claims
          rw [heg, hop]
          rfl
        · rw [hem m hm]
      · refine State.workRule_of hb.2.2 (fun m r hr => .inl (hn.places hr)) (fun m op' ho' => ?_) (fun m n hsf => ?_)
          (fun n => .inl (by rw [hrec]; exact Record.sameHolds_refl _)) (fun n => .inl (hh n)) (fun n => ?_) (fun n hnew => ?_)
        · by_cases hm : m = g
          · subst hm
            rw [heg] at ho'
            simp only [Option.some.injEq] at ho'
            subst ho'
            right
            have hag := hb.2.2.2.2.2.2 m op hop
            refine ⟨⟨fun r hr hrt => ?_, fun tk htk hgr => ?_, fun _ => hag.2.2.1 (.inl hcl'), fun n han => ?_, hag.2.2.2.2⟩,
              fun n hw => hb.2.2.2.1 m n (.inr ⟨op, hop, hw⟩)⟩
            · rw [hrec]
              exact hag.1 r hr hrt
            · rw [hrec, hh]
              exact hag.2.1 tk htk hgr
            · have h := hspec n han
              refine ⟨h.1, by rw [hh]; exact h.2.1, fun k op' hk ho' => ?_⟩
              rw [hem k hk] at ho'
              exact h.2.2 k op' ho'
          · rw [hem m hm] at ho'
            exact .inl ho'
        · left
          by_cases hm : m = g
          · subst hm
            rw [heg] at hsf
            exact hsf
          · rw [hem m hm] at hsf
            exact hsf
        · rw [hrec]
          refine Nat.le_trans (State.removals_le (by rw [hu]) (fun u h => by rw [hu] at h; exact h) (fun m => ?_)
            (fun m op' ho' => ?_) n) (hb.2.2.2.2.1 n)
          · by_cases hm : m = g
            · rw [hm, heg]
            · rw [hem m hm]
          · by_cases hm : m = g
            · subst hm
              rw [heg] at ho'
              simp only [Option.some.injEq] at ho'
              subst ho'
              exact ⟨op, hop, rfl⟩
            · rw [hem m hm] at ho'
              exact ⟨op', ho', rfl⟩
        · rw [hrec]
          refine hb.2.2.2.2.2.1 n ?_
          rcases hnew with ⟨k, hp⟩ | ⟨key, hp⟩
          · exact .inl ⟨k, hn.places hp⟩
          · exact .inr ⟨key, hn.insert _ _ hp⟩
    · cases hcl

/-! #### Placing requests (R26, R27, R42) -/

theorem State.books_placed {x y : State} {g : Lane} {r : Request} (hb : x.books)
    (hp : ∀ m k, y.places m k → x.places m k ∨ (m = g ∧ k = r)) (hl : r.ticket? = none → laneOf r.slot = g)
    (ha : ∀ n, r = .mgmt (.activate n) → (x.record n).state = .new)
    (hrec : ∀ n, y.record n = x.record n) (hh : ∀ n, y.hold n = x.hold n) (hd : y.deadlines = x.deadlines)
    (hr : y.isReady = x.isReady) (hu : y.indexUnit = x.indexUnit)
    (he : ∀ m, (y.engine m).op = (x.engine m).op ∧ (y.engine m).slotFree = (x.engine m).slotFree ∧
      (y.engine m).expiry = (x.engine m).expiry) : y.books := by
  refine State.books_of_work hb hrec hh hd hr (fun m => Engine.claims_of_eq (he m).1 (he m).2.2) ?_
  refine State.workRule_of hb.2.2 (fun m k hk => ?_) (fun m op ho => .inl (by rw [← (he m).1]; exact ho))
    (fun m n hn => .inl (by rw [← (he m).2.1]; exact hn)) (fun n => .inl (by rw [hrec]; exact Record.sameHolds_refl _))
    (fun n => .inl (hh n)) (fun n => ?_) (fun n hn => ?_)
  · rcases hp m k hk with h | ⟨rfl, rfl⟩
    · exact .inl h
    · exact .inr hl
  · rw [hrec]
    exact Nat.le_trans (State.removals_le (by rw [hu]) (fun u h => by rw [hu] at h; exact h) (fun m => (he m).2.1)
      (fun m op ho => ⟨op, by rw [← (he m).1]; exact ho, rfl⟩) n) (hb.2.2.2.2.1 n)
  · rw [hrec]
    rcases hn with ⟨k, hn⟩ | ⟨key, hn⟩
    · rcases hp _ _ hn with h | ⟨-, h⟩
      · exact hb.2.2.2.2.2.1 n (.inl ⟨k, h⟩)
      · exact ha n h.symm
    · refine hb.2.2.2.2.2.1 n (.inr ⟨key, ?_⟩)
      unfold State.updating at hn ⊢
      rw [hu] at hn
      exact hn

theorem State.books_enqueue {x : State} {g : Lane} {r : Request} (hb : x.books) (hl : r.ticket? = none → laneOf r.slot = g)
    (ha : ∀ n, r = .mgmt (.activate n) → (x.record n).state = .new) : (x.enqueue g r).books := by
  have he : ∀ m, (x.enqueue g r).engine m = if m = g then { x.engine g with queue := (x.engine g).queue ++ [r] }
      else x.engine m := fun m => by
    unfold State.enqueue
    split
    · rename_i hm
      rw [hm, State.engine_modifyEngine_same]
    · rename_i hm
      rw [State.engine_modifyEngine_ne _ _ hm]
  refine State.books_placed hb (fun m k hk => ?_) hl ha (fun _ => rfl) (fun _ => rfl) rfl rfl rfl (fun m => ?_)
  · unfold State.places at hk
    rw [he] at hk
    split at hk
    · rename_i hm
      subst hm
      rcases hk with hk | hk
      · rw [List.mem_append, List.mem_singleton] at hk
        rcases hk with hk | hk
        · exact .inl (.inl hk)
        · exact .inr ⟨rfl, hk⟩
      · exact .inl (.inr hk)
    · exact .inl hk
  · rw [he]
    split
    · rename_i hm
      subst hm
      exact ⟨rfl, rfl, rfl⟩
    · exact ⟨rfl, rfl, rfl⟩

theorem State.books_placeMgmt {x : State} {g : Lane} {m : MgmtReq} (hb : x.books) (hl : m.ticket? = none → laneOf m.slot = g)
    (ha : ∀ n, m = .activate n → (x.record n).state = .new) : (x.placeMgmt g m).books := by
  have ha' : ∀ n, Request.mgmt m = .mgmt (.activate n) → (x.record n).state = .new := fun n h => by
    injection h with h
    exact ha n h
  unfold State.placeMgmt
  split
  · exact State.books_enqueue hb hl ha'
  · refine State.books_placed (g := g) (r := .mgmt m) hb (fun k r hk => ?_) hl ha' (fun _ => rfl) (fun _ => rfl) rfl rfl rfl
      (fun _ => ⟨rfl, rfl, rfl⟩)
    rcases hk with hk | hk | hk
    · exact .inl (.inl hk)
    · exact .inl (.inr (.inl hk))
    · simp only [Option.some.injEq, Prod.mk.injEq] at hk
      exact .inr ⟨hk.1.symm, hk.2.symm⟩

theorem books_managementRequestPlaced {s t : State} (hb : s.books) (ht : execManagementRequestPlaced s = .next t) : t.books := by
  unfold execManagementRequestPlaced at ht
  injection ht with ht
  subst ht
  split
  · rename_i g r hh
    split
    · have hpl : s.places g r := .inr (.inr hh)
      have hx : ({ s with cmd := { s.cmd with held := none } } : State).books := by
        refine State.books_placed (g := g) (r := r) hb (fun m k hk => ?_) (hb.2.2.1 g r hpl) (fun n hn => ?_) (fun _ => rfl)
          (fun _ => rfl) rfl rfl rfl (fun _ => ⟨rfl, rfl, rfl⟩)
        · rcases hk with hk | hk | hk
          · exact .inl (.inl hk)
          · exact .inl (.inr (.inl hk))
          · cases hk
        · exact hb.2.2.2.2.2.1 n (.inl ⟨g, hn ▸ hpl⟩)
      exact State.books_enqueue hx (hb.2.2.1 g r hpl) (fun n hn => hb.2.2.2.2.2.1 n (.inl ⟨g, hn ▸ hpl⟩))
    · exact hb
  · exact hb

theorem books_routerTake {s t : State} (hb : s.books) (ht : execRouterTake s = .next t) : t.books := by
  unfold execRouterTake at ht
  injection ht with ht
  subst ht
  split
  · exact hb
  · rename_i l _
    split
    · exact hb
    · rename_i frame _ _
      unfold State.takeFrame
      dsimp only
      obtain ⟨y, hy, hyb⟩ : ∃ y : State, y = { s.modifyLink l fun k =>
          { k with tags := k.tags.set (commandTag (frameCommand frame)) true }.popFrame with router := l + 1 } ∧ y.books := by
        refine ⟨_, rfl, ?_⟩
        exact (Keeps.of_accounts rfl rfl rfl rfl rfl rfl rfl rfl).books hb
      rw [← hy]
      unfold State.deliverRoute
      split
      · exact (Keeps.answer _ _ _ _).books hyb
      · rename_i g r hroute
        refine State.books_enqueue hyb (fun hr => ?_) (fun n hn => by cases hn)
        unfold routeFrame at hroute
        split at hroute
        · cases hroute
        · rename_i q _
          unfold routeRequest routeTicket at hroute
          cases q with
          | lookup key => cases hroute
          | read h => injection hroute with h1 h2; subst h2; exact h1
          | authorize h a b c => injection hroute with h1 h2; subst h2; exact h1
          | debit h a b => injection hroute with h1 h2; subst h2; exact h1
          | probe h a => injection hroute with h1 h2; subst h2; exact h1
          | settle tk u =>
            dsimp only at hroute
            split at hroute
            · injection hroute with h1 h2; subst h2; cases hr
            · cases hroute
          | extend tk u =>
            dsimp only at hroute
            split at hroute
            · injection hroute with h1 h2; subst h2; cases hr
            · cases hroute
          | cancel tk =>
            dsimp only at hroute
            split at hroute
            · injection hroute with h1 h2; subst h2; cases hr
            · cases hroute
      · refine State.books_of_work hyb (fun _ => rfl) (fun _ => rfl) rfl rfl (fun _ => rfl) ?_
        exact State.workRule_fewer hyb.2.2 (fun _ _ h => h) (fun _ _ h => h) (fun _ => rfl)
          (fun _ => .inl (Record.sameHolds_refl _)) (fun _ => .inl rfl) rfl (fun _ h => h) (fun _ => .inl rfl)

/-! ### The index unit (R111 to R120) -/

/-- R112: the update list's first is taken, or a slot's work. -/
theorem books_indexTakeWork {s t : State} (hb : s.books) (ht : execIndexTakeWork s = .next t) : t.books := by
  unfold execIndexTakeWork at ht
  injection ht with ht
  subst ht
  split
  · rename_i hc
    simp only [Bool.and_eq_true, Option.isNone_iff_eq_none] at hc
    have ho := hc.2
    have hmoves : (∀ u, (u ∈ s.indexUnit.take.updates ∨ s.indexUnit.take.op = some (.update u)) → u ∈ s.indexUnit.updates) ∧
        ∀ n, s.indexUnit.take.updates.countP (IndexUpdate.removes n) + (s.indexUnit.take.op.any (IndexOp.removes n)).toNat ≤
          s.indexUnit.updates.countP (IndexUpdate.removes n) := by
      unfold IndexUnit.take
      split
      · rename_i u rest hu
        rw [hu]
        refine ⟨fun v hv => ?_, fun n => ?_⟩
        · rcases hv with hv | hv
          · exact List.mem_cons_of_mem _ hv
          · simp only [Option.some.injEq, IndexOp.update.injEq] at hv
            rw [hv]
            exact List.mem_cons_self ..
        · rw [List.countP_cons]
          simp only [Option.any_some, IndexOp.removes]
          cases u.removes n <;> simp
      · rename_i hu
        have hsrc : ∀ i o, s.indexUnit.source i = some o → (∀ u, o ≠ .update u) ∧ ∀ n, o.removes n = false := by
          intro i o hso
          unfold IndexUnit.source at hso
          split at hso
          · split at hso
            · injection hso with hso
              subst hso
              exact ⟨fun u h => (by cases h), fun n => rfl⟩
            · cases hso
          · split at hso
            · injection hso with hso
              subst hso
              exact ⟨fun u h => (by cases h), fun n => rfl⟩
            · cases hso
        split
        · rename_i i hi
          refine ⟨fun v hv => ?_, fun n => ?_⟩
          · rcases hv with hv | hv
            · exact hv
            · exact absurd rfl ((hsrc i _ hv).1 v)
          · cases hs : s.indexUnit.source i with
            | none => simp
            | some o => simp [(hsrc i o hs).2 n]
        · exact ⟨fun v hv => hv.elim id (fun h => by rw [ho] at h; cases h), fun n => by rw [ho]; simp⟩
    refine State.books_of_work hb (fun _ => rfl) (fun _ => rfl) rfl rfl (fun _ => rfl) ?_
    refine State.workRule_of hb.2.2 (fun _ _ h => .inl h) (fun _ _ h => .inl h) (fun _ _ h => .inl h)
      (fun _ => .inl (Record.sameHolds_refl _)) (fun _ => .inl rfl) (fun n => ?_) (fun n hn => ?_)
    · refine Nat.le_trans ?_ (hb.2.2.2.2.1 n)
      unfold State.removals
      have := hmoves.2 n
      show s.indexUnit.take.updates.countP (IndexUpdate.removes n) + (s.indexUnit.take.op.any (IndexOp.removes n)).toNat +
        (s.engine (laneOf n)).removals n ≤ _
      omega
    · refine hb.2.2.2.2.2.1 n ?_
      rcases hn with hn | ⟨key, hn⟩
      · exact .inl hn
      · exact .inr ⟨key, .inl (hmoves.1 _ hn)⟩
  · exact hb

theorem Keeps.endMgmtLookup {s : State} (h : s.indexUnit.op = some .mgmt) : Keeps s s.endMgmtLookup := by
  have h1 : Keeps s { s.endMgmtLookup with indexUnit := s.indexUnit } := of_accounts rfl rfl rfl rfl rfl rfl rfl rfl
  refine ⟨h1.way, rfl, fun u => ?_, .inr rfl, h1.held, h1.ready, h1.hold, h1.deadlines, h1.record, h1.queue, h1.transit,
    h1.slotFree, h1.expiry, h1.op⟩
  show none = _ ↔ _
  rw [h]
  exact ⟨fun h => (by cases h), fun h => (by injection h with h; cases h)⟩

theorem books_completeFind {s : State} (hb : s.books) : s.completeFind.books := by
  unfold State.completeFind
  split
  · rename_i key hk
    unfold State.findInProgress at hk
    split at hk
    · rename_i ho hx
      exact ((Keeps.endMgmtLookup ho).trans (Keeps.reply _ _ _ _)).books hb
    · cases hk
  · exact hb

theorem books_enrolSearch {s t : State} (hb : s.books) (ht : execEnrolSearch s = .next t) : t.books := by
  unfold execEnrolSearch at ht
  injection ht with ht
  subst ht
  split
  · rename_i e he
    unfold State.searchInProgress at he
    split at he
    · rename_i ho hx
      have h1 := (Keeps.endMgmtLookup ho).books hb
      unfold State.afterSearch
      repeat' split
      · exact (Keeps.reply _ _ _ _).books h1
      · exact (Keeps.reply _ _ _ _).books h1
      · exact (Keeps.reply _ _ _ _).books h1
      · exact State.books_placeMgmt h1 (fun _ => rfl) (fun n h => by cases h)
    · cases he
  · exact hb

/-- Rows that end an update of the index and write ways alone. -/
theorem State.books_endUpdate {s y : State} (hb : s.books) (hrec : y.accounts = s.accounts) (hh : y.holds = s.holds)
    (hd : y.deadlines = s.deadlines) (hr : y.isReady = s.isReady) (he : y.engines = s.engines)
    (hu : y.indexUnit = s.endUpdate.indexUnit) (hc : y.cmd = s.cmd) : y.books := by
  have he' : ∀ m, y.engine m = s.engine m := fun m => by unfold State.engine; rw [he]
  have hr' : ∀ m, y.record m = s.record m := fun m => by unfold State.record; rw [hrec]
  have hh' : ∀ m, y.hold m = s.hold m := fun m => by unfold State.hold; rw [hh]
  refine State.books_of_work hb hr' hh' hd hr (fun m => by rw [he']) ?_
  refine State.workRule_fewer hb.2.2 (fun m r h => ?_) (fun m op h => by rw [← he']; exact h) (fun m => by rw [he'])
    (fun n => .inl (by rw [hr']; exact Record.sameHolds_refl _)) (fun n => .inl (hh' n)) (by rw [hu]; rfl)
    (fun u h => by rw [hu] at h; cases h) (fun n => .inl (by rw [hr']))
  unfold State.places at h ⊢
  rw [he', hc] at h
  exact h

theorem books_indexInsert {s t : State} (hb : s.books) (ht : execIndexInsert s = .next t) : t.books := by
  unfold execIndexInsert at ht
  injection ht with ht
  subst ht
  split
  · rename_i key slot ho
    have hst := hb.2.2.2.2.2.1 slot (.inr ⟨key, .inr ho⟩)
    have hrec : (s.endUpdate.insertKey key slot).accounts = s.accounts := by
      unfold State.insertKey
      split <;> rfl
    refine State.books_placeMgmt (State.books_endUpdate hb hrec ?_ ?_ ?_ ?_ ?_ ?_) (fun _ => rfl) (fun n hn => ?_)
    · unfold State.insertKey
      split <;> rfl
    · unfold State.insertKey
      split <;> rfl
    · unfold State.insertKey
      split <;> rfl
    · unfold State.insertKey
      split <;> rfl
    · unfold State.insertKey
      split <;> rfl
    · unfold State.insertKey
      split <;> rfl
    · injection hn with hn
      subst hn
      unfold State.record at hst ⊢
      rw [hrec]
      exact hst
  · exact hb

/-- R19, R120: the removal turns into the slot-free claim. -/
theorem books_keyRemoval {s t : State} (hb : s.books) (ht : execKeyRemoval s = .next t) : t.books := by
  unfold execKeyRemoval at ht
  injection ht with ht
  subst ht
  split
  · rename_i key slot ho
    obtain ⟨x, hx, h1, h2, h3, h4, h5, h6, h7⟩ : ∃ x, x = s.endUpdate.removeKey key slot ∧ x.accounts = s.accounts ∧
        x.holds = s.holds ∧ x.deadlines = s.deadlines ∧ x.isReady = s.isReady ∧ x.engines = s.engines ∧
        x.indexUnit = s.endUpdate.indexUnit ∧ x.cmd = s.cmd := by
      refine ⟨_, rfl, ?_⟩
      unfold State.removeKey
      split <;> exact ⟨rfl, rfl, rfl, rfl, rfl, rfl, rfl⟩
    rw [← hx]
    obtain ⟨y, hy⟩ : ∃ y, y = x.postSlotFree slot := ⟨_, rfl⟩
    have hye : ∀ m, y.engine m = { s.engine m with
        slotFree := (s.engine m).slotFree ++ (if laneOf slot = m then [slot] else []) } := fun m => by
      have hs : ∀ k, x.engine k = s.engine k := fun k => by unfold State.engine; rw [h5]
      rw [hy]
      unfold State.postSlotFree
      by_cases hm : laneOf slot = m
      · subst hm
        rw [State.engine_modifyEngine_same, hs]
        simp
      · rw [State.engine_modifyEngine_ne _ _ (Ne.symm hm), hs, if_neg hm, List.append_nil]
    have hrec : ∀ n, y.record n = s.record n := fun n => by
      rw [hy]
      show x.record n = _
      unfold State.record
      rw [h1]
    have hh : ∀ n, y.hold n = s.hold n := fun n => by
      rw [hy]
      show x.hold n = _
      unfold State.hold
      rw [h2]
    have hyu : y.indexUnit = s.endUpdate.indexUnit := by rw [hy]; exact h6
    have hyc : y.cmd = s.cmd := by rw [hy]; exact h7
    have hp : ∀ m r, y.places m r → s.places m r := fun m r h => by
      unfold State.places at h ⊢
      rw [hye, hyc] at h
      exact h
    rw [← hy]
    refine State.books_of_work hb hrec hh (by rw [hy]; exact h3) (by rw [hy]; exact h4)
      (fun m => by rw [hye]; rfl) ?_
    refine State.workRule_of hb.2.2 (fun m r h => .inl (hp m r h)) (fun m op h => .inl (by rw [hye] at h; exact h))
      (fun m n hn => ?_) (fun n => .inl (by rw [hrec]; exact Record.sameHolds_refl _)) (fun n => .inl (hh n)) (fun n => ?_)
      (fun n hn => ?_)
    · rw [hye] at hn
      simp only [List.mem_append] at hn
      rcases hn with hn | hn
      · exact .inl hn
      · split at hn
        · rw [List.mem_singleton] at hn
          rw [hn]
          exact .inr ‹_›
        · cases hn
    · rw [hrec]
      refine Nat.le_trans ?_ (hb.2.2.2.2.1 n)
      unfold State.removals Engine.removals
      rw [hyu, hye, ho]
      show s.indexUnit.updates.countP (IndexUpdate.removes n) + (Option.any (IndexOp.removes n) none).toNat +
        (List.count n ((s.engine (laneOf n)).slotFree ++ if laneOf slot = laneOf n then [slot] else []) + _) ≤ _
      rw [List.count_append]
      have hcount : List.count n (if laneOf slot = laneOf n then [slot] else []) ≤
          ((some (IndexOp.update (IndexUpdate.remove key slot))).any (IndexOp.removes n)).toNat := by
        simp only [Option.any_some, IndexOp.removes, IndexUpdate.removes]
        by_cases hn : slot = n
        · subst hn
          simp
        · split <;> simp [hn]
      simp only [Option.any_none, Bool.toNat_false]
      omega
    · rw [hrec]
      refine hb.2.2.2.2.2.1 n ?_
      rcases hn with ⟨k, hn⟩ | ⟨key', hn⟩
      · exact .inl ⟨k, hp _ _ hn⟩
      · refine .inr ⟨key', ?_⟩
        unfold State.updating at hn ⊢
        rw [hyu] at hn
        rcases hn with hn | hn
        · exact .inl hn
        · cases hn
  · exact hb

/-! ### Transfers (R60 to R66) -/

theorem State.books_postTransit {x : State} (hb : x.books) (g : Lane) (c : TransitClaim) : (x.postTransit g c).books := by
  have he : ∀ m, (x.postTransit g c).engine m = if m = g then { x.engine g with transit := some c } else x.engine m :=
    fun m => by
      unfold State.postTransit
      split
      · rename_i hm
        rw [hm, State.engine_modifyEngine_same]
      · rename_i hm
        rw [State.engine_modifyEngine_ne _ _ hm]
  have hs : ∀ m, ((x.postTransit g c).engine m).op = (x.engine m).op ∧
      ((x.postTransit g c).engine m).slotFree = (x.engine m).slotFree ∧
      ((x.postTransit g c).engine m).expiry = (x.engine m).expiry ∧
      ((x.postTransit g c).engine m).queue = (x.engine m).queue := fun m => by
    rw [he]
    split
    · rename_i hm
      rw [hm]
      exact ⟨rfl, rfl, rfl, rfl⟩
    · exact ⟨rfl, rfl, rfl, rfl⟩
  refine State.books_of_work hb (fun _ => rfl) (fun _ => rfl) rfl rfl (fun m => Engine.claims_of_eq (hs m).1 (hs m).2.2.1) ?_
  refine State.workRule_fewer hb.2.2 (fun m r h => ?_) (fun m op h => by rw [← (hs m).1]; exact h) (fun m => (hs m).2.1)
    (fun n => .inl (Record.sameHolds_refl _)) (fun n => .inl rfl) rfl (fun u h => h) (fun n => .inl rfl)
  unfold State.places at h ⊢
  rw [(hs m).1, (hs m).2.2.2] at h
  exact h

theorem Keeps.setTransit (s : State) (v : Transit) : Keeps s (s.setTransit v) :=
  of_accounts rfl rfl rfl rfl rfl rfl rfl rfl

theorem books_sameGroupTransfer {s t : State} {g : Lane} (hb : s.books) (ht : execSameGroupTransfer g s = .next t) :
    t.books := by
  unfold execSameGroupTransfer at ht
  injection ht with ht
  subst ht
  split
  · rename_i op src dst all a heq
    have hs := State.mgmtOp_spec heq
    have hk : Keeps s ((s.endOp g).noteBoth op src dst) :=
      ((Keeps.endOp hs.1 (by rw [hs.2]; rfl)).trans (Keeps.noteMismatch _ _ _ _)).trans (Keeps.noteMismatch _ _ _ _)
    dsimp only
    refine (hk.trans ?_).books hb
    repeat' split
    · exact Keeps.reply _ _ _ _
    · exact Keeps.reply _ _ _ _
    · exact (((Keeps.writeBalance _ _ _).trans (Keeps.writeBalance _ _ _)).trans (Keeps.postLow _ _ _ _)).trans
        (Keeps.reply _ _ _ _)
  · exact hb

theorem books_transferStep1 {s t : State} {g : Lane} (hb : s.books) (ht : execTransferStep1 g s = .next t) : t.books := by
  unfold execTransferStep1 at ht
  injection ht with ht
  subst ht
  split
  · rename_i op src dst all a heq
    have hs := State.mgmtOp_spec heq
    have hk : Keeps s ((s.endOp g).noteAccount src op.record (handleTest src op.record).isNone) :=
      Keeps.ended hs.1 (by rw [hs.2]; rfl) _ _ _
    dsimp only
    split
    · exact (hk.trans (Keeps.reply _ _ _ _)).books hb
    · rename_i v _
      refine State.books_postTransit ?_ _ _
      refine ((hk.trans (Keeps.writeNewBalance _ src.slot.toNat op.record (some (op.record.bal - v)))).trans ?_).books hb
      exact Keeps.of_accounts rfl rfl rfl rfl rfl rfl rfl rfl
  · exact hb

theorem books_transitStep {s t : State} {g : Lane} (hb : s.books) (ht : execTransitStep g s = .next t) : t.books := by
  unfold execTransitStep at ht
  injection ht with ht
  subst ht
  split
  · rename_i op heq
    have hs := State.transitOp_spec heq
    have hk : Keeps s ((s.endOp g).noteAccount op.transit.dst op.record (handleTest op.transit.dst op.record).isNone) :=
      Keeps.ended hs.1 (by rw [hs.2]; rfl) _ _ _
    dsimp only
    split
    · exact (((hk.trans (Keeps.writeBalance _ _ _)).trans (Keeps.setTransit _ _)).trans (Keeps.reply _ _ _ _)).books hb
    · exact State.books_postTransit ((hk.trans (Keeps.setTransit _ _)).books hb) _ _
  · exact hb

theorem books_returnStep {s t : State} {g : Lane} (hb : s.books) (ht : execReturnStep g s = .next t) : t.books := by
  unfold execReturnStep at ht
  injection ht with ht
  subst ht
  split
  · rename_i op refusal heq
    have hs := State.transitOp_spec heq
    have hk : Keeps s ((s.endOp g).noteAccount op.transit.src op.record (handleTest op.transit.src op.record).isNone) :=
      Keeps.ended hs.1 (by rw [hs.2]; rfl) _ _ _
    dsimp only
    split
    · have h2 := (hk.trans (Keeps.writeBalance _ op.transit.src.slot.toNat (op.record.bal + op.transit.amount))).trans
        (Keeps.setTransit _ Transit.cleared)
      unfold State.returnToSource
      cases refusal with
      | none => exact h2.books hb
      | some st => exact (h2.trans (Keeps.reply _ _ _ _)).books hb
    · rename_i st _
      have h2 := (hk.trans (Keeps.setTransit _ { (State.noteAccount (s.endOp g) op.transit.src op.record
        (handleTest op.transit.src op.record).isNone).transit with state := .stranded })).trans (Keeps.post _
          (.transferStranded op.transit.src op.transit.dst op.transit.amount refusal st))
      unfold State.strand
      cases refusal with
      | none => exact h2.books hb
      | some st => exact (h2.trans (Keeps.reply _ _ _ _)).books hb
  · exact hb

/-! ### The timebase -/

theorem books_timebaseRaise {s t : State} (hb : s.books) (ht : execTimebaseRaise s = .next t) : t.books := by
  unfold execTimebaseRaise at ht
  injection ht with ht
  subst ht
  split
  · have h1 : Keeps s { s with timebase := s.timebase + 1 } := Keeps.of_accounts rfl rfl rfl rfl rfl rfl rfl rfl
    dsimp only
    refine State.dueTest_books ?_
    split
    · exact (Keeps.of_checksOnly (State.countTimer_frame _)).books (h1.books hb)
    · exact h1.books hb
  · exact hb

end Sys2Proof.Machine
end

