-- ==== Sys2Proof/Laws/KeptSteps.lean ====
section
/-! SUPPORT. Resets, starts and the management port, and with them every command: the rules of lists, held, deadlines and work
are kept (R3, R70, R98). -/

namespace Sys2Proof.Machine

/-! ### States without holds and work -/

/-- No record lists a hold. -/
def State.listsNone (s : State) : Prop := ∀ n, (s.record n).held = 0 ∧ (s.record n).holds = []

theorem State.books_bare {t : State} (hr : t.listsNone) (hh : ∀ n, (t.hold n).state = .free) (hd : t.deadlines = [])
    (he : ∀ g, (t.engine g).queue = [] ∧ (t.engine g).slotFree = [] ∧ (t.engine g).expiry = [] ∧ (t.engine g).op = none)
    (hu : t.indexUnit.updates = [] ∧ t.indexUnit.op = none) (hc : t.cmd.held = none) : t.books := by
  have hopen : ∀ tk, ¬t.isOpen tk := fun tk h => by
    unfold State.isOpen at h
    rw [ticketCurrent_iff] at h
    exact h.1 (hh _)
  have hcl : ∀ g, (t.engine g).claims = [] := fun g => by
    unfold Engine.claims
    rw [(he g).2.2.2, (he g).2.2.1]
    rfl
  have hpl : ∀ g r, ¬t.places g r := fun g r h => by
    rcases h with h | ⟨op, h, -⟩ | h
    · rw [(he g).1] at h
      cases h
    · rw [(he g).2.2.2] at h
      cases h
    · rw [hc] at h
      cases h
  have hup : ∀ u, ¬t.updating u := fun u h => by
    rcases h with h | h
    · rw [hu.1] at h
      cases h
    · rw [hu.2] at h
      cases h
  refine ⟨⟨fun n => ?_, fun n tk => ?_, fun n _ => hh n, fun _ => hh⟩, ⟨?_, fun g => ?_, fun i hi => ?_, fun g tk h => ?_,
    fun tk h => absurd h (hopen tk)⟩, ⟨fun g r h => absurd h (hpl g r), fun g n h => ?_, fun n => ?_, fun n h => ?_,
    fun g op h => ?_⟩⟩
  · rw [(hr n).1, (hr n).2]
    exact ⟨List.nodup_nil, by simp, rfl, by omega, fun _ => rfl⟩
  · rw [(hr n).2]
    exact ⟨fun h => (by cases h), fun h => absurd h.1 (hopen tk)⟩
  · rw [hd]
    exact List.nodup_nil
  · rw [hcl]
    exact List.nodup_nil
  · rw [hd] at hi
    cases hi
  · rw [hcl] at h
    cases h
  · rcases h with h | ⟨op, h, -⟩
    · rw [(he g).2.1] at h
      cases h
    · rw [(he g).2.2.2] at h
      cases h
  · unfold State.removals Engine.removals
    rw [hu.1, hu.2, (he _).2.1, (he _).2.2.2]
    simp
  · rcases h with ⟨g, h⟩ | ⟨key, h⟩
    · exact absurd h (hpl _ _)
    · exact absurd h (hup _)
  · rw [(he g).2.2.2] at h
    cases h

/-- Outside READY there are no holds (R23). -/
theorem State.listsNone_of_notReady {s : State} (hb : s.books) (hr : s.isReady = false) : s.listsNone := fun n => by
  have h := hb.1.1 n
  have hl : (s.record n).holds = [] := by
    cases hc : (s.record n).holds with
    | nil => rfl
    | cons t l =>
      have ht := ((hb.1.2.1 n t).1 (by rw [hc]; exact List.mem_cons_self ..)).1
      unfold State.isOpen at ht
      rw [ticketCurrent_iff] at ht
      exact absurd (hb.1.2.2.2 hr _) ht.1
  refine ⟨?_, hl⟩
  rw [h.2.2.1, hl]
  rfl

/-- Outside READY: a state whose records list nothing, and which has no more work or holds. -/
theorem State.books_notReady {s t : State} (hb : s.books) (hrest : s.restsUntilReady) (hr : s.isReady = false)
    (hl : t.listsNone) (hh : t.holds = s.holds) (hd : t.deadlines = s.deadlines)
    (he : ∀ g, (t.engine g).queue = (s.engine g).queue ∧ (t.engine g).slotFree = (s.engine g).slotFree ∧
      (t.engine g).expiry = (s.engine g).expiry ∧ (t.engine g).op = (s.engine g).op)
    (hu : t.indexUnit = s.indexUnit) (hc : t.cmd.held = s.cmd.held) : t.books := by
  obtain ⟨h1, h2, h3, -, -, -, h4, -⟩ := hrest hr
  have hg : ∀ g, s.engine g = Engine.cleared := fun g => by unfold State.engine; rw [h1]; simp
  refine State.books_bare hl (fun n => ?_) (hd.trans h3) (fun g => ?_) ?_ (hc.trans h4)
  · unfold State.hold
    rw [hh]
    exact hb.1.2.2.2 hr n
  · obtain ⟨k1, k2, k3, k4⟩ := he g
    rw [k1, k2, k3, k4, hg]
    exact ⟨rfl, rfl, rfl, rfl⟩
  · rw [hu, h2]
    exact ⟨rfl, rfl⟩

/-- R23: a reset event ends every hold and abandons all work. -/
theorem State.books_reset {s t : State} (hcan : s.canonical) (c : StartCause) (h1 : t.accounts = (s.resetEvent c).accounts)
    (h2 : t.holds = (s.resetEvent c).holds) (h3 : t.deadlines = []) (h4 : t.engines = Four.all Engine.cleared)
    (h5 : t.indexUnit = IndexUnit.cleared) (h6 : t.cmd.held = none) : t.books := by
  refine State.books_bare (fun n => ?_) (fun n => ?_) h3 (fun g => ?_) (by rw [h5]; exact ⟨rfl, rfl⟩) h6
  · have := State.record_resetEvent s c hcan n
    unfold State.record at this ⊢
    rw [h1, this]
    exact ⟨rfl, rfl⟩
  · have := State.hold_resetEvent s c hcan n
    unfold State.hold at this ⊢
    rw [h2, this]
    rfl
  · have : t.engine g = Engine.cleared := by unfold State.engine; rw [h4]; simp
    rw [this]
    exact ⟨rfl, rfl, rfl, rfl⟩

/-! ### The long check (R24, R133) -/

theorem State.listsNone_modifyRecord {s : State} (h : s.listsNone) (n : Nat) (f : Record → Record)
    (hf : ∀ r : Record, r.held = 0 ∧ r.holds = [] → (f r).held = 0 ∧ (f r).holds = []) : (s.modifyRecord n f).listsNone :=
  fun m => by
    by_cases hm : m = n
    · rw [hm, State.record_modifyRecord_same]
      exact hf _ (h n)
    · rw [State.record_modifyRecord_ne _ _ hm]
      exact h m

theorem State.listsNone_scanSlot {s : State} (h : s.listsNone) (n : Nat) : (s.scanSlot n).listsNone := by
  have hf : ∀ gen, (s.scanFree n gen).listsNone := fun gen => by
    have h1 : (s.setRecord n (Record.freed gen)).listsNone := fun m => by
      by_cases hm : m = n
      · rw [hm, State.record_setRecord_same]
        exact ⟨rfl, rfl⟩
      · rw [State.record_setRecord_ne _ _ hm]
        exact h m
    unfold State.scanFree State.freeWayOfSlot
    split <;> exact h1
  have hm : (s.scanMismatch n).listsNone :=
    State.listsNone_modifyRecord h n (fun r => { r with suspect := true }) fun r hr => hr
  unfold State.scanSlot
  dsimp only
  repeat' split
  all_goals first | exact h | exact hf _ | exact hm

theorem State.listsNone_scanRest (n : Nat) (list : List (Nat × Record)) : ∀ s : State, s.listsNone →
    (list.foldl (fun s p => if n ≤ p.1 ∧ p.1 < Config.slots then s.scanSlot p.1 else s) s).listsNone := by
  induction list with
  | nil => exact fun s h => h
  | cons p list ih =>
    intro s h
    rw [List.foldl_cons]
    split
    · exact ih _ (State.listsNone_scanSlot h _)
    · exact ih _ h

theorem State.listsNone_longCheckRest {s : State} (h : s.listsNone) : s.longCheckRest.listsNone := by
  unfold State.longCheckRest
  split
  · exact State.listsNone_scanRest _ _ _ (State.listsNone_scanSlot h _)
  · exact h
  · exact h
  · exact h

theorem State.listsNone_longCheckVisit {s : State} (h : s.listsNone) : s.longCheckVisit.listsNone := by
  unfold State.longCheckVisit
  split
  · exact State.listsNone_scanSlot h _
  · exact h
  · exact h
  · exact h

theorem books_longCheckVisit {s : State} (hb : s.books) (hrest : s.restsUntilReady) (hr : s.isReady = false) :
    s.longCheckVisit.books := by
  have h := longCheckOnly_visit s
  unfold longCheckOnly at h
  have hl := State.listsNone_longCheckVisit (State.listsNone_of_notReady hb hr)
  refine State.books_notReady hb hrest hr hl ?_ ?_ (fun g => ?_) ?_ ?_
  · rw [h]
  · rw [h]
  · rw [h]
    exact ⟨rfl, rfl, rfl, rfl⟩
  · rw [h]
  · rw [h]

theorem State.notReady_of_stage {s : State} {p : Stage} (h : s.power.stage = p) (hp : p ≠ .ready) : s.isReady = false := by
  unfold State.isReady
  rw [h]
  simpa using hp

theorem books_phaseReady {s t : State} (hb : s.books) (hrest : s.restsUntilReady) (ht : execPhaseReady s = .next t) :
    t.books := by
  unfold execPhaseReady at ht
  injection ht with ht
  subst ht
  split
  · rename_i hst
    have hr : s.isReady = false := State.notReady_of_stage (p := .longCheck) (by simpa using hst) (by simp)
    have h := longCheckOnly_rest s
    unfold longCheckOnly at h
    have hl := State.listsNone_longCheckRest (State.listsNone_of_notReady hb hr)
    obtain ⟨x, hx⟩ : ∃ x, x = s.longCheckRest := ⟨_, rfl⟩
    rw [← hx] at h hl ⊢
    dsimp only
    refine (Keeps.post _ _).books (State.books_notReady hb hrest hr ?_ ?_ ?_ (fun g => ?_) ?_ ?_)
    · unfold State.postReturn
      split <;> exact hl
    · unfold State.postReturn
      split <;> (show x.holds = _; rw [h])
    · unfold State.postReturn
      split <;> (show x.deadlines = _; rw [h])
    · have he : ∀ m, x.becomeReady.engine m = s.engine m := fun m => by
        show x.engine m = _
        rw [h]
        rfl
      unfold State.postReturn
      split
      · rw [← he g]
        by_cases hg : g = laneOf x.becomeReady.transit.src.slot.toNat
        · rw [hg, State.engine_modifyEngine_same]
          exact ⟨rfl, rfl, rfl, rfl⟩
        · rw [State.engine_modifyEngine_ne _ _ hg]
          exact ⟨rfl, rfl, rfl, rfl⟩
      · rw [he]
        exact ⟨rfl, rfl, rfl, rfl⟩
    · unfold State.postReturn
      split <;> (show x.indexUnit = _; rw [h])
    · unfold State.postReturn
      split <;> (show x.cmd.held = _; rw [h])
  · exact hb

/-! ### Power control (R162 to R168) -/

theorem books_power {s t : State} (hcan : s.canonical) (hp : s.powerRule) (hrest : s.restsUntilReady) (hb : s.books)
    (c : Instr)
    (hc : c = .softResetEffect ∨ c = .rstFall ∨ c = .rstRelease ∨ c = .mainSupplyLoss ∨ c = .mainSupplyReturn ∨
      c = .wakeEdge ∨ c = .backupSupplyLow ∨ c = .oscillatorWarmUpDone)
    (ht : exec c s = .next t) : t.books := by
  have hwork : ∀ x : State, x.index = s.index → x.indexUnit = s.indexUnit → x.cmd.held = s.cmd.held → x.holds = s.holds →
      x.deadlines = s.deadlines → x.accounts = s.accounts → x.engines = s.engines → (x.isReady = false → s.isReady = false) →
      x.books := by
    intro x _ h2 h3 h4 h5 h6 h7 h8
    have hr : ∀ n, x.record n = s.record n := fun n => by unfold State.record; rw [h6]
    have hh : ∀ n, x.hold n = s.hold n := fun n => by unfold State.hold; rw [h4]
    have he : ∀ m, x.engine m = s.engine m := fun m => by unfold State.engine; rw [h7]
    refine ⟨?_, State.deadlinesRule_congr hb.2.1 hh h5 (fun m => by rw [he]), ?_⟩
    · exact State.holdsRule_congr hb.1 (fun m => by rw [hh]) (fun m => by rw [hh]; exact ⟨rfl, rfl, rfl⟩)
        (fun n => by rw [hr]; exact ⟨rfl, rfl⟩) (fun n hn => by rw [hr] at hn; exact (hb.1.1 n).2.2.2.2 hn) h8
    · refine State.workRule_fewer hb.2.2 (fun m r h => ?_) (fun m op h => by rw [← he]; exact h) (fun m => by rw [he])
        (fun n => .inl (by rw [hr]; exact Record.sameHolds_refl _)) (fun n => .inl (hh n)) (by rw [h2])
        (fun u h => by rw [h2] at h; exact h) (fun n => .inl (by rw [hr]))
      unfold State.places at h ⊢
      rw [he, h3] at h
      exact h
  have hoff : s.powered = false → s.isReady = false := fun h => by
    unfold State.isReady
    rw [hp.1 h]
    rfl
  have hreset : ∀ (x : State) (c : StartCause), x.accounts = (s.resetEvent c).accounts → x.holds = (s.resetEvent c).holds →
      x.deadlines = [] → x.engines = Four.all Engine.cleared → x.indexUnit = IndexUnit.cleared → x.cmd.held = none →
      x.books := fun x c h1 h2 h3 h4 h5 h6 => State.books_reset hcan c h1 h2 h3 h4 h5 h6
  rcases hc with rfl | rfl | rfl | rfl | rfl | rfl | rfl | rfl
  · injection ht with ht
    subst ht
    split
    · exact hreset _ .softReset rfl rfl rfl rfl rfl rfl
    · exact hb
  · injection ht with ht
    subst ht
    repeat' split
    · exact hb
    · exact hwork _ rfl rfl rfl rfl rfl rfl rfl id
    · exact hreset _ .pinReset rfl rfl rfl rfl rfl rfl
  · injection ht with ht
    subst ht
    dsimp only
    split
    · rename_i hlow
      have hr := hoff (by unfold State.powered; simp [hlow])
      split
      · exact hwork _ rfl rfl rfl rfl rfl rfl rfl fun _ => hr
      · exact hwork _ rfl rfl rfl rfl rfl rfl rfl id
    · exact hb
  · injection ht with ht
    subst ht
    dsimp only
    split
    · exact hb
    · split
      · exact hwork _ rfl rfl rfl rfl rfl rfl rfl id
      · exact hreset _ .powerReturn rfl rfl rfl rfl rfl rfl
  · injection ht with ht
    subst ht
    dsimp only
    split
    · exact hb
    · rename_i hsup
      have hr := hoff (by unfold State.powered; simp [hsup])
      repeat' split
      · exact hwork _ rfl rfl rfl rfl rfl rfl rfl id
      · exact hwork _ rfl rfl rfl rfl rfl rfl rfl id
      · exact hwork _ rfl rfl rfl rfl rfl rfl rfl fun _ => hr
  · injection ht with ht
    subst ht
    split
    · rename_i hret
      have hr := hoff (by
        unfold State.powered
        unfold State.inRetain at hret
        simp only [Bool.and_eq_true, beq_iff_eq] at hret
        simp [hret.1.1])
      exact hwork _ rfl rfl rfl rfl rfl rfl rfl fun _ => hr
    · exact hb
  · injection ht with ht
    subst ht
    split
    · exact hwork _ rfl rfl rfl rfl rfl rfl rfl id
    · exact hb
  · injection ht with ht
    subst ht
    split
    · rename_i hst
      have hr : s.isReady = false := State.notReady_of_stage (p := .warmUp) (by simpa using hst) (by simp)
      split
      · obtain ⟨h1, h2, h3, -, -, -, h4, -⟩ := hrest hr
        refine State.books_bare (fun n => ⟨rfl, rfl⟩) (fun n => rfl) h3 (fun g => ?_) ?_ h4
        · have : State.engine s.coldDefaults.beginLongCheck g = Engine.cleared := by
            show s.engine g = _
            unfold State.engine
            rw [h1]
            simp
          rw [this]
          exact ⟨rfl, rfl, rfl, rfl⟩
        · show s.indexUnit.updates = [] ∧ s.indexUnit.op = none
          rw [h2]
          exact ⟨rfl, rfl⟩
      · exact hwork _ rfl rfl rfl rfl rfl rfl rfl fun _ => hr
    · exact hb

/-! ### The management port -/

/-- R153: what the command unit does with a command that it takes. -/
theorem State.books_taken {x t : State} (hcan : x.canonical) (hb : x.books) (ht : Taken x t) : t.books := by
  cases ht with
  | answered _ hk _ => exact hk.books hb
  | searches y w hk _ =>
    have hy := hk.books hb
    refine State.books_of_work hy (fun _ => rfl) (fun _ => rfl) rfl rfl (fun _ => rfl) ?_
    exact State.workRule_fewer hy.2.2 (fun _ _ h => h) (fun _ _ h => h) (fun _ => rfl)
      (fun _ => .inl (Record.sameHolds_refl _)) (fun _ => .inl rfl) rfl (fun _ h => h) (fun _ => .inl rfl)
  | places y g m hk _ hg _ ha => exact State.books_placeMgmt (hk.books hb) hg (fun n hn => absurd hn (ha n))
  | resets _ => exact State.books_reset hcan .retainWake rfl rfl rfl rfl rfl rfl

theorem State.canonical_congr {s t : State} (h : s.canonical) (h1 : t.accounts = s.accounts) (h2 : t.index = s.index)
    (h3 : t.holds = s.holds) (h4 : t.tariffs = s.tariffs) : t.canonical := by
  unfold State.canonical
  rw [h1, h2, h3, h4]
  exact h

theorem PortRow.books {s t : State} (hcan : s.canonical) (hb : s.books) (ht : PortRow s t) : t.books := by
  cases ht with
  | keeps _ hk _ => exact hk.books hb
  | takes t _ _ ht =>
    have hc : s.openSelect.canonical := State.canonical_congr hcan (by simp) (by simp) (by simp) (by simp)
    exact (Keeps.closeSelect t).books (State.books_taken hc ((Keeps.openSelect s).books hb) ht)
  | resets y _ _ hs =>
    refine State.books_reset hcan .softReset ?_ ?_ rfl rfl rfl rfl
    · show mapTable _ _ y.accounts = mapTable _ _ s.accounts
      rw [hs.1]
    · show mapTable _ _ y.holds = mapTable _ _ s.holds
      rw [hs.2]

/-! ### Every command -/

/-- R4: a disturbance of a record, but of its account state. -/
theorem Keeps.disturbed (s : State) (n : Nat) (c : RecordChange) (h : ∀ v, c ≠ .stateCode v) :
    Keeps s (s.modifyRecord n fun r => r.disturbed c) := by
  refine Keeps.modifyRecord _ _ _ ?_
  cases c <;> first | exact ⟨rfl, rfl, rfl⟩ | exact absurd rfl (h _)

/-- Every command but a disturbance of a stored account state keeps the rules. -/
theorem exec_books (c : Instr) {s t : State} (hcan : s.canonical) (hp : s.powerRule) (hrest : s.restsUntilReady)
    (h1 : s.oneTask) (hb : s.books) (hdis : ∀ n v, c ≠ .retainedStoreDisturbance (.record n (.stateCode v)))
    (ht : exec c s = .next t) : t.books := by
  have hk : Keeps s t → t.books := fun hk => hk.books hb
  have hcmd : ∀ k : Command, exec c s = .next (s.command k.opcode (takeCommand k)) → t.books := fun k hk => by
    rw [hk] at ht
    injection ht with ht
    subst ht
    exact (PortRow.command k s).books hcan hb
  cases c with
  | startByte l => injection ht with ht; exact hk (ht ▸ (Keeps.receiveByte s l _).1)
  | frameComplete l bs => injection ht with ht; exact hk (ht ▸ (Keeps.receiveBytes l bs s).1)
  | frameTimeout l => injection ht with ht; exact hk (ht ▸ (Keeps.discardFrame s l).1)
  | frameDiscard l cause =>
    injection ht with ht
    subst ht
    cases cause
    · exact hk (Keeps.receiveByte s l _).1
    · exact hk (Keeps.discardFrame s l).1
  | routerTake => exact books_routerTake hb ht
  | responseSent l => injection ht with ht; subst ht; exact hk (Keeps.modifyLink _ _ _)
  | hldDeassert l => injection ht with ht; subst ht; exact hk (Keeps.modifyLink _ _ _)
  | hldAssert l => injection ht with ht; subst ht; exact hk (Keeps.modifyLink _ _ _)
  | engineTakeWork g => exact books_engineTakeWork hb ht
  | terminalRead g => exact hk (Keeps.terminalRead ht).1
  | debit g => exact hk (Keeps.debit ht).1
  | probe g => exact hk (Keeps.probe ht).1
  | authorize g => exact books_authorize hb hrest ht
  | holdEntryAllocation => exact books_holdEntryAllocation hb ht
  | settle g => exact books_settle hb ht
  | cancel g => exact books_cancel hb ht
  | extend g => exact books_extend hb ht
  | expiry g => exact books_expiry hb ht
  | slotFree g => exact books_slotFree hb ht
  | checkClaim g => exact hk (Keeps.checkClaim ht).1
  | timebaseRaise => exact books_timebaseRaise hb ht
  | holdFallsDue => injection ht with ht; subst ht; exact State.dueTest_books hb
  | shortCheckIntervalExpiry => exact hk (Keeps.shortCheckIntervalExpiry ht).1
  | indexTakeWork => exact books_indexTakeWork hb ht
  | lookup => exact hk (Keeps.lookup ht).1
  | enrolSearch => exact books_enrolSearch hb ht
  | createStep g => exact books_createStep hb h1 ht
  | indexInsert => exact books_indexInsert hb ht
  | activateStep g => exact books_activateStep hb h1 ht
  | keyRemoval => exact books_keyRemoval hb ht
  | sameGroupTransfer g => exact books_sameGroupTransfer hb ht
  | transferStep1 g => exact books_transferStep1 hb ht
  | transitStep g => exact books_transitStep hb ht
  | returnStep g => exact books_returnStep hb ht
  | managementRequestPlaced => exact books_managementRequestPlaced hb ht
  | managementRequestComplete g => exact books_managementRequestComplete hb ht
  | mselAssert =>
    injection ht with ht
    subst ht
    split
    · exact (Keeps.openSelect s).books hb
    · exact hb
  | responseRead => exact (PortRow.responseRead ht).books hcan hb
  | undecodableBlock bs => exact (PortRow.undecodableBlock ht).books hcan hb
  | find event =>
    cases event with
    | block key => exact hcmd (.find key) rfl
    | completion =>
      injection ht with ht
      subst ht
      exact books_completeFind hb
  | poll => exact hcmd .poll rfl
  | enrol key bal floor low set => exact hcmd (.enrol key bal floor low set) rfl
  | managementRead hd form => exact hcmd (.read hd form) rfl
  | update hd mask floor low set => exact hcmd (.update hd mask floor low set) rfl
  | freeze hd => exact hcmd (.freeze hd) rfl
  | thaw hd => exact hcmd (.thaw hd) rfl
  | retire hd => exact hcmd (.retire hd) rfl
  | topup hd a => exact hcmd (.topup hd a) rfl
  | adjust hd a => exact hcmd (.adjust hd a) rfl
  | transfer src dst how a => exact hcmd (.transfer src dst how a) rfl
  | transitClear sel hd => exact hcmd (.transitClear sel hd) rfl
  | restore hd bal floor low set => exact hcmd (.restore hd bal floor low set) rfl
  | holdRead tk => exact hcmd (.holdRead tk) rfl
  | holdRelease tk => exact hcmd (.holdRelease tk) rfl
  | holdCapture tk => exact hcmd (.holdCapture tk) rfl
  | tariffSet n en price most window action => exact hcmd (.tariffSet n en price most window action) rfl
  | tariffRead n => exact hcmd (.tariffRead n) rfl
  | linkSet l en baud high res => exact hcmd (.linkSet l en baud high res) rfl
  | linkRead l => exact hcmd (.linkRead l) rfl
  | noticeRead => exact hcmd .noticeRead rfl
  | config interval threshold => exact hcmd (.config interval threshold) rfl
  | mode code => exact hcmd (.mode code) rfl
  | timeRead => exact hcmd .timeRead rfl
  | reset => exact hcmd .reset rfl
  | softResetEffect => exact books_power hcan hp hrest hb _ (by simp) ht
  | rstFall => exact books_power hcan hp hrest hb _ (by simp) ht
  | rstRelease => exact books_power hcan hp hrest hb _ (by simp) ht
  | mainSupplyLoss => exact books_power hcan hp hrest hb _ (by simp) ht
  | mainSupplyReturn => exact books_power hcan hp hrest hb _ (by simp) ht
  | wakeEdge => exact books_power hcan hp hrest hb _ (by simp) ht
  | backupSupplyLow => exact books_power hcan hp hrest hb _ (by simp) ht
  | retainedStoreDisturbance d =>
    injection ht with ht
    subst ht
    cases d with
    | record n change =>
      dsimp only
      split
      · exact (Keeps.disturbed s n change fun v hv => hdis n v (by rw [hv])).books hb
      · exact hb
    | transit v => exact (Keeps.of_accounts rfl rfl rfl rfl rfl rfl rfl rfl).books hb
  | oscillatorWarmUpDone => exact books_power hcan hp hrest hb _ (by simp) ht
  | phaseReady => exact books_phaseReady hb hrest ht

end Sys2Proof.Machine
end

