-- ==== Sys2Proof/Laws/PerInstr.lean ====
section
/-! SUPPORT. Statements about every command as syntax: the rows that stand for a command block (R155, R171). -/

namespace Sys2Proof.Laws.BlockRows

open Sys2Proof.Machine

/-- R171: a row that stands for the block of a command is well-formed for each value of the fields, and the block's field
bytes have the length that its opcode calls for. -/
def Statement (i : Instr) : Prop :=
  ∀ c : Command, rowOf c = i → i.wf = true ∧ commandLength c.opcode.toNat = some c.fields.length

theorem ofBlock (c : Command) : (rowOf c).wf = true ∧ commandLength c.opcode.toNat = some c.fields.length := by
  cases c <;> exact ⟨rfl, by simp [Command.opcode, Command.fields, commandLength, Handle.bytes, Ticket.bytes, S8.bytes, beBytes]⟩

theorem ofRow (i : Instr) : Statement i := fun c h => h ▸ ofBlock c

theorem startByte (link : Lane) : Statement (.startByte link) := ofRow _

theorem frameComplete (link : Lane) (bytes : List Byte) : Statement (.frameComplete link bytes) := ofRow _

theorem frameTimeout (link : Lane) : Statement (.frameTimeout link) := ofRow _

theorem frameDiscard (link : Lane) (cause : Sys2Proof.DiscardCause) : Statement (.frameDiscard link cause) := ofRow _

theorem routerTake : Statement .routerTake := ofRow _

theorem responseSent (link : Lane) : Statement (.responseSent link) := ofRow _

theorem hldDeassert (link : Lane) : Statement (.hldDeassert link) := ofRow _

theorem engineTakeWork (engine : Lane) : Statement (.engineTakeWork engine) := ofRow _

theorem terminalRead (engine : Lane) : Statement (.terminalRead engine) := ofRow _

theorem debit (engine : Lane) : Statement (.debit engine) := ofRow _

theorem probe (engine : Lane) : Statement (.probe engine) := ofRow _

theorem authorize (engine : Lane) : Statement (.authorize engine) := ofRow _

theorem holdEntryAllocation : Statement .holdEntryAllocation := ofRow _

theorem settle (engine : Lane) : Statement (.settle engine) := ofRow _

theorem cancel (engine : Lane) : Statement (.cancel engine) := ofRow _

theorem extend (engine : Lane) : Statement (.extend engine) := ofRow _

theorem expiry (engine : Lane) : Statement (.expiry engine) := ofRow _

theorem slotFree (engine : Lane) : Statement (.slotFree engine) := ofRow _

theorem checkClaim (engine : Lane) : Statement (.checkClaim engine) := ofRow _

theorem timebaseRaise : Statement .timebaseRaise := ofRow _

theorem holdFallsDue : Statement .holdFallsDue := ofRow _

theorem shortCheckIntervalExpiry : Statement .shortCheckIntervalExpiry := ofRow _

theorem indexTakeWork : Statement .indexTakeWork := ofRow _

theorem lookup : Statement .lookup := ofRow _

theorem enrolSearch : Statement .enrolSearch := ofRow _

theorem createStep (engine : Lane) : Statement (.createStep engine) := ofRow _

theorem indexInsert : Statement .indexInsert := ofRow _

theorem activateStep (engine : Lane) : Statement (.activateStep engine) := ofRow _

theorem keyRemoval : Statement .keyRemoval := ofRow _

theorem sameGroupTransfer (engine : Lane) : Statement (.sameGroupTransfer engine) := ofRow _

theorem transferStep1 (engine : Lane) : Statement (.transferStep1 engine) := ofRow _

theorem transitStep (engine : Lane) : Statement (.transitStep engine) := ofRow _

theorem returnStep (engine : Lane) : Statement (.returnStep engine) := ofRow _

theorem managementRequestPlaced : Statement .managementRequestPlaced := ofRow _

theorem managementRequestComplete (engine : Lane) : Statement (.managementRequestComplete engine) := ofRow _

theorem mselAssert : Statement .mselAssert := ofRow _

theorem responseRead : Statement .responseRead := ofRow _

theorem undecodableBlock (bytes : List Byte) : Statement (.undecodableBlock bytes) := ofRow _

theorem poll : Statement .poll := ofRow _

theorem enrol (key : Key) (balance : S8) (floor lowMark : B6) (tariffs : TariffSet) : Statement (.enrol key balance floor lowMark tariffs) := ofRow _

theorem find (event : FindEvent) : Statement (.find event) := ofRow _

theorem managementRead (h : Handle) (form : Byte) : Statement (.managementRead h form) := ofRow _

theorem update (h : Handle) (mask : Byte) (floor lowMark : B6) (tariffs : TariffSet) : Statement (.update h mask floor lowMark tariffs) := ofRow _

theorem freeze (h : Handle) : Statement (.freeze h) := ofRow _

theorem thaw (h : Handle) : Statement (.thaw h) := ofRow _

theorem retire (h : Handle) : Statement (.retire h) := ofRow _

theorem topup (h : Handle) (amount : S8) : Statement (.topup h amount) := ofRow _

theorem adjust (h : Handle) (amount : S8) : Statement (.adjust h amount) := ofRow _

theorem transfer (src dst : Handle) (mode : Byte) (amount : S8) : Statement (.transfer src dst mode amount) := ofRow _

theorem transitClear (selector : Byte) (h : Handle) : Statement (.transitClear selector h) := ofRow _

theorem restore (h : Handle) (balance : S8) (floor lowMark : B6) (tariffs : TariffSet) : Statement (.restore h balance floor lowMark tariffs) := ofRow _

theorem holdRead (t : Ticket) : Statement (.holdRead t) := ofRow _

theorem holdRelease (t : Ticket) : Statement (.holdRelease t) := ofRow _

theorem holdCapture (t : Ticket) : Statement (.holdCapture t) := ofRow _

theorem tariffSet (tariff enabled : Byte) (price maxUnits : B4) (window : B6) (action : Byte) : Statement (.tariffSet tariff enabled price maxUnits window action) := ofRow _

theorem tariffRead (tariff : Byte) : Statement (.tariffRead tariff) := ofRow _

theorem linkSet (link enable baud high resume : Byte) : Statement (.linkSet link enable baud high resume) := ofRow _

theorem linkRead (link : Byte) : Statement (.linkRead link) := ofRow _

theorem noticeRead : Statement .noticeRead := ofRow _

theorem config (interval : Half) (threshold : Byte) : Statement (.config interval threshold) := ofRow _

theorem mode (code : Byte) : Statement (.mode code) := ofRow _

theorem timeRead : Statement .timeRead := ofRow _

theorem reset : Statement .reset := ofRow _

theorem softResetEffect : Statement .softResetEffect := ofRow _

theorem rstFall : Statement .rstFall := ofRow _

theorem rstRelease : Statement .rstRelease := ofRow _

theorem mainSupplyLoss : Statement .mainSupplyLoss := ofRow _

theorem mainSupplyReturn : Statement .mainSupplyReturn := ofRow _

theorem wakeEdge : Statement .wakeEdge := ofRow _

theorem backupSupplyLow : Statement .backupSupplyLow := ofRow _

theorem retainedStoreDisturbance (d : Disturbance) : Statement (.retainedStoreDisturbance d) := ofRow _

theorem oscillatorWarmUpDone : Statement .oscillatorWarmUpDone := ofRow _

theorem phaseReady : Statement .phaseReady := ofRow _

theorem hldAssert (link : Lane) : Statement (.hldAssert link) := ofRow _

end Sys2Proof.Laws.BlockRows
end

