-- ==== Sys2Proof/Tests/Slice0.lean ====
section
/-! SUPPORT. Tests of the model on small states: ill-formed commands, wire values worked out by hand, and for every
statement with hypotheses a state that meets them (clause by clause, at the ends of the clauses' ranges). -/

namespace Sys2Proof.Tests

open Sys2Proof Sys2Proof.Machine

/-! The theorems below are checked one after another: side by side their kernel runs hold too many threads at once. -/

set_option Elab.async false

/-! ### Helpers -/

/-- A chip in phase READY, mode RUN, every link enabled. -/
def chip : State :=
  { State.reset with
    power := { State.reset.power with stage := .ready, mark := false }
    check := { CheckUnit.cleared with stage := .done, timer := some 60 }
    links := Four.all { Link.cold with enabled := true, rdy := true } }

/-- A sealed record with floor 100, tariff 0 in its set, key 1001 and generation 3. -/
def acct (st : AcctState) (bal : Int) (low : Nat) : Record :=
  Record.seal { stateCode := st.code, key := 1001, gen := 3, balance := S8.ofInt bal, floor := B6.ofNat 100,
                lowMark := B6.ofNat low, tariffs := 1, suspect := false, checkCode := 0, held := 0, holds := [] }

/-- Slot 4 (group 0), slot 8 (group 0) and slot 5 (group 1), generation 3. -/
def h4 : Handle := ⟨4, 3⟩
def h8 : Handle := ⟨8, 3⟩
def h5 : Handle := ⟨5, 3⟩

/-- The chip with an account in slot 4. -/
def chipWith (r : Record) : State := chip.setRecord 4 r

/-- Engine 0 has taken a piece of work and read what it depends on. -/
def doing (s : State) (w : Work) : State := s.setEngine 0 { Engine.cleared with op := some (s.readFor w) }

def origin : Origin := ⟨1, 0, 0⟩
def term (r : TermReq) : Work := .request (.terminal origin r)
def mgmt (m : MgmtReq) : Work := .request (.mgmt m)

/-- Entry 7, serial 2: a LIVE hold of slot 4 with amount 200, owned by link 1. -/
def held : HoldEntry :=
  { state := .live, serial := 2, slot := 4, gen := 3, link := 1, epoch := 0, tariff := 0, units := 2, price := 100,
    amount := 200, deadline := 600, extensions := 0, action := .release }

def tk : Ticket := ⟨7, 2⟩

def acctHeld (bal : Int) (low : Nat) : Record := { acct .active bal low with held := 200, holds := [tk] }

/-- The chip with that hold and its deadline. -/
def chipHeld (bal : Int) (low : Nat) (e : HoldEntry) : State :=
  { (chipWith (acctHeld bal low)).setHold 7 e with deadlines := [⟨tk, e.deadline⟩] }

def pay (v : Int) : S8 := S8.ofInt v

/-- Account 4's record, disturbed: its check code does not match. -/
def disturbed4 (bal : Int) (low : Nat) : Record := { acct .active bal low with checkCode := 0 }

/-- Requests wait in a group queue. -/
def queueOf (n : Nat) (g : Lane) (s : State) : State :=
  s.setEngine g { s.engine g with queue := List.replicate n (.mgmt (.freeze ⟨4, 3⟩)) }

/-- The eight places of a group queue are taken. -/
def queueFull (g : Lane) (s : State) : State := queueOf 8 g s

/-! ### Ill-formed commands (WellFormed) -/

theorem test_wf_frameComplete_length :
    Instr.wf (.frameComplete 0 [4, 8, 0]) = false ∧ Instr.wf (.frameComplete 0 []) = false ∧
      Instr.wf (.frameComplete 0 (33 :: List.replicate 31 0)) = false ∧
      Instr.wf (.frameComplete 0 [5, 8, 0]) = false ∧ Instr.wf (.frameComplete 0 [5, 8, 0, 0]) = true := by decide +kernel

theorem test_wf_frameDiscard_length :
    Instr.wf (.frameDiscard 0 (.lengthByte 5)) = false ∧ Instr.wf (.frameDiscard 0 (.lengthByte 32)) = false ∧
      Instr.wf (.frameDiscard 0 (.lengthByte 4)) = true ∧ Instr.wf (.frameDiscard 0 (.lengthByte 33)) = true := by
  decide +kernel

/-- Bytes that decode to a command are that command's row; others carry none: a bad CRC, reads, no byte at all. -/
theorem test_wf_undecodableBlock :
    Instr.wf (.undecodableBlock (encodeCommand .poll)) = false ∧
      Instr.wf (.undecodableBlock (encodeCommand (.freeze h4) ++ [0, 0])) = false ∧
      Instr.wf (.undecodableBlock [0, 0, 0, 0]) = true ∧ Instr.wf (.undecodableBlock [255]) = true ∧
      Instr.wf (.undecodableBlock [255, 0, 0]) = true ∧ Instr.wf (.undecodableBlock []) = true := by decide +kernel

theorem test_wf_disturbance :
    Instr.wf (.retainedStoreDisturbance (.record 4096 (.suspect true))) = false ∧
      Instr.wf (.retainedStoreDisturbance (.record 4095 (.suspect true))) = true ∧
      Instr.wf (.retainedStoreDisturbance (.transit ⟨.out, h4, h5, 0⟩)) = false ∧
      Instr.wf (.retainedStoreDisturbance (.transit ⟨.out, h4, h5, 100000000⟩)) = false ∧
      Instr.wf (.retainedStoreDisturbance (.transit ⟨.out, h4, h5, 99999999⟩)) = true := by decide +kernel

/-! ### Wire formats, worked out from R169 to R171 -/

/-- The check value of the CRC of R169 over the nine digits. -/
theorem test_crc : crc16 [49, 50, 51, 52, 53, 54, 55, 56, 57] = 0x29B1 := by decide +kernel

/-- A READ of slot 4, generation 3, tag 1: start 165, length 8, command 2·4+1. -/
theorem test_frame_read : (encodeRequest 1 (.read h4)).take 6 = [165, 8, 9, 0, 4, 3] := by decide +kernel

theorem test_frame_read_decodes : (decodeRequest 9 [0, 4, 3]).toOption = some (.read h4) := by decide +kernel

/-- An amount of 1.234: plus code and eight digits; a DEBIT, PARTIAL. -/
theorem test_frame_debit_decodes :
    (decodeRequest 28 [0, 4, 3, 12, 0, 0, 0x12, 0x34, 1]).toOption = some (.debit h4 (S8.ofInt 1234) 1) := by decide +kernel

theorem test_block_tariffSet :
    (encodeCommand (.tariffSet 3 1 0x0125 0x0020 0x000600 1)).take 12 = [16, 10, 3, 1, 1, 0x25, 0, 0x20, 0, 6, 0, 1] := by
  decide +kernel

theorem test_block_transfer_decodes :
    (decodeBlock (encodeCommand (.transfer h4 h5 0 (S8.ofInt 250)) ++ [1, 2])).toOption =
      some (.transfer h4 h5 0 (S8.ofInt 250)) := by
  decide +kernel

/-- R170: numbers on the wire: a balance of minus 250, the nine-digit spendable, the record's covered bytes. -/
theorem test_wire_numbers :
    (S8.ofInt (-250)).bytes = [13, 0, 0, 2, 0x50] ∧ s9Bytes (-250) = [0xD0, 0, 0, 2, 0x50] ∧
      (acct .active 500 40).covered = [2, 0, 0, 3, 0xE9, 3, 12, 0, 0, 5, 0, 0, 1, 0, 0, 0, 0x40, 0, 1] := by decide +kernel

/-- R48: minus zero reads as 0 and is sent with the plus code. -/
theorem test_minus_zero : (S8.value ⟨13, 0⟩ = 0) ∧ S8.sent ⟨13, 0⟩ = ⟨12, 0⟩ ∧ S8.ok ⟨11, 0⟩ = false := by decide +kernel

/-! ### Witnesses: the machine -/

theorem test_meets_StepRunsTheFrontCommand :
    (chip.withPending [.timeRead, .poll]).pending = .timeRead :: [.poll] ∧
      (chip.pending = [] ∧ chip.power.stage ≠ .longCheck) ∧
      ({ chip with power := { chip.power with stage := .longCheck } }.pending = [] ∧
        { chip with power := { chip.power with stage := .longCheck } }.power.stage = .longCheck) := by decide +kernel

/-- The five kinds of work of an idle engine, each with the ones behind it waiting too. -/
theorem test_meets_WorkIsTakenInOrder :
    let all : Engine := { queue := [.mgmt (.freeze h4)], transit := some .step2, slotFree := [4], expiry := [tk], check := some 4,
                          op := none }
    let look : IndexUnit := { IndexUnit.cleared with lookups := Four.set (Four.all none) 3 (some ⟨origin, 1001⟩), ptr := 4 }
    State.reset.power.stage ≠ .ready ∧
      { chip.power with mode := .standby }.mode = .standby ∧ { chip.power with mode := .retain }.mode = .retain ∧
      (chip.setEngine 0 all).working = true ∧ ((chip.setEngine 0 all).engine 0).op = none ∧ all.transit = some .step2 ∧
      (all.slotFree = 4 :: [] ∧ all.expiry = tk :: [] ∧ all.check = some 4 ∧ all.queue = .mgmt (.freeze h4) :: []) ∧
      (look.op = none ∧ look.updates = []) ∧
      [look.ptr, look.ptr + 1, look.ptr + 2, look.ptr + 3, look.ptr + 4].find? (fun j => (look.source j).isSome) = some 3 := by
  decide +kernel

/-! ### Witnesses: the invariants and their step -/

/-- A READY chip with a queued hold, a waiting response, a stored frame, a waiting request and a notice. -/
def busyChip : State :=
  let s := (chipHeld 500 0 held).setLink 1
    { Link.cold with enabled := true, baud := 1, fifo := [encodeRequest 0 (.read h4)], queue := [⟨0, .ok, .bare⟩], sending := true,
                     tags := Four.set (Four.all false) 0 true }
  { s.setEngine 1 { Engine.cleared with queue := [.mgmt (.freeze h5)] } with
    notices := { list := [.coldStart .cold], lost := false, attn := true }
    pending := [.timeRead] }

theorem test_meets_canonical_bounded : busyChip.canonical ∧ busyChip.bounded := by
  unfold State.canonical State.bounded
  decide +kernel

theorem test_meets_answersTagged : busyChip.answersTagged := by
  unfold State.answersTagged Link.answersTagged
  decide +kernel

theorem test_meets_power_rest_signals :
    busyChip.powerRule ∧ busyChip.restsUntilReady ∧ busyChip.rdyRule ∧ busyChip.attnRule ∧ busyChip.slowInEconomy := by
  unfold State.powerRule State.restsUntilReady State.rdyRule State.attnRule State.slowInEconomy
  decide +kernel

/-- The same rules hold of a chip that starts, of one in ECONOMY with slow links, and of its STANDBY. -/
theorem test_meets_rules_elsewhere :
    (State.reset.restsUntilReady ∧ State.reset.isReady = false ∧ State.reset.powerRule) ∧
      (∀ m ∈ [Mode.economy, .standby],
        let s := { chip with links := Four.all { Link.cold with baud := 1 }, power := { chip.power with mode := m, resume := .economy } }
        s.slowInEconomy ∧ s.powerRule ∧ s.restsUntilReady) := by
  unfold State.powerRule State.restsUntilReady State.slowInEconomy
  decide +kernel

theorem test_meets_deadlinesAhead : busyChip.deadlinesAhead :=
  ⟨⟨fun _ h => (List.not_mem_nil h).elim, trivial⟩, by decide +kernel⟩

theorem test_meets_step : ∃ t, step busyChip = .next t := ⟨_, rfl⟩

/-- The chip with that hold, its account's key in the index, and an EXTEND of the hold in progress. -/
def booked : State :=
  { ((chipHeld 500 0 held).setWay (8 * (1001 % 1021)) (some ⟨1001, 4⟩)).setEngine 0
      { Engine.cleared with op := some ((chipHeld 500 0 held).readFor (term (.extend tk 0x10))) } with
    pending := [.extend 0] }

theorem booked_record (n : Nat) : booked.record n = if n = 4 then acctHeld 500 0 else Record.cold := by
  split
  · rename_i h; subst h; rfl
  · rename_i h
    exact (State.record_setRecord_ne chip (acctHeld 500 0) h).trans rfl

theorem booked_hold (n : Nat) : booked.hold n = if n = 7 then held else HoldEntry.cold := by
  split
  · rename_i h; subst h; rfl
  · rename_i h
    exact (State.hold_setHold_ne (chipWith (acctHeld 500 0)) held h).trans rfl

theorem booked_way (w : Nat) : booked.way w = if w = 8008 then some ⟨1001, 4⟩ else none := by
  split
  · rename_i h; subst h; rfl
  · rename_i h
    exact (State.way_setWay_ne (chipHeld 500 0 held) (some ⟨1001, 4⟩) h).trans rfl

theorem booked_engine (g : Lane) : booked.engine g =
    if g = 0 then { Engine.cleared with op := some ((chipHeld 500 0 held).readFor (term (.extend tk 0x10))) } else Engine.cleared := by
  revert g
  decide +kernel

theorem booked_isOpen (t : Ticket) : booked.isOpen t ↔ t = tk := by
  unfold State.isOpen
  rw [booked_hold, ticketCurrent_iff]
  constructor
  · rintro ⟨h, hs⟩
    split at h
    · rename_i h7
      rw [if_pos h7] at hs
      exact (Ticket.mk.injEq ..).mpr ⟨BitVec.eq_of_toNat_eq h7, BitVec.eq_of_toNat_eq hs⟩
    · exact absurd rfl h
  · rintro rfl
    decide +kernel

theorem booked_places (g : Lane) (r : Request) :
    booked.places g r → g = 0 ∧ r = .terminal origin (.extend tk 0x10) := by
  unfold State.places
  rw [booked_engine]
  rintro (h | ⟨op, h, hw⟩ | h)
  · split at h <;> exact (List.not_mem_nil h).elim
  · split at h
    · injection h with h
      subst h
      injection hw with hw
      exact ⟨by assumption, hw.symm⟩
    · cases h
  · cases h

theorem booked_claims (g : Lane) : (booked.engine g).claims = [] := by
  revert g
  decide +kernel

theorem booked_updating (u : IndexUpdate) : ¬booked.updating u := by
  rintro (h | h)
  · exact (List.not_mem_nil h).elim
  · cases h

theorem test_meets_EveryStepKeepsEveryKeyInOneWay :
    (∃ t, step booked = .next t) ∧ booked.canonical ∧ booked.taskRule ∧ booked.indexRule := by
  refine ⟨⟨_, rfl⟩, by unfold State.canonical; decide +kernel, by unfold State.taskRule; decide +kernel, fun w e h => ?_,
    fun v w e f h k _ => ?_, ?_⟩
  · rw [booked_way] at h
    split at h
    · injection h with h
      subst h
      rename_i hw
      rw [hw]
      decide
    · cases h
  · rw [booked_way] at h k
    split at h
    · split at k
      · omega
      · cases k
    · cases h
  · rintro key (⟨g, n, b, fl, lo, ta, h⟩ | ⟨n, h⟩)
    · cases (booked_places _ _ h).2
    · exact absurd h (booked_updating _)

theorem booked_holdsRule : booked.holdsRule := by
  refine ⟨fun n => ?_, fun n t => ?_, fun n h => ?_, fun h => ?_⟩
  · rw [booked_record]
    split
    · exact ⟨by decide +kernel, by decide +kernel, by decide +kernel, by decide +kernel, fun h => absurd h (by decide +kernel)⟩
    · exact ⟨List.nodup_nil, by decide, rfl, by decide, fun _ => rfl⟩
  · rw [booked_isOpen, booked_record]
    split
    · rename_i h
      subst h
      constructor
      · intro h
        have h : t = tk := by simpa [acctHeld] using h
        subst h
        exact ⟨rfl, by decide +kernel⟩
      · rintro ⟨rfl, -⟩
        decide
    · rename_i hn
      refine ⟨fun h => (List.not_mem_nil h).elim, ?_⟩
      rintro ⟨rfl, h⟩
      have : (booked.hold tk.entry.toNat).slot = 4 := by decide +kernel
      omega
  · rw [booked_hold, if_neg (by omega)]
    rfl
  · cases h

theorem booked_deadlinesRule : booked.deadlinesRule := by
  refine ⟨by decide +kernel, fun g => by rw [booked_claims]; exact List.nodup_nil, fun i hi => ?_, fun g t h => ?_, fun t h _ => .inl ?_⟩
  · have hi : i = ⟨tk, 600⟩ := by simpa using (show i ∈ [(⟨tk, 600⟩ : DeadlineItem)] from hi)
    subst hi
    exact ⟨(booked_isOpen tk).mpr rfl, by decide +kernel, by decide +kernel, fun g => by rw [booked_claims]; exact List.not_mem_nil⟩
  · rw [booked_claims] at h
    exact (List.not_mem_nil h).elim
  · rw [(booked_isOpen t).mp h]
    decide +kernel

theorem booked_workRule : booked.workRule := by
  refine ⟨fun g r h ht => ?_, fun g n h => ?_, fun n => ?_, ?_, fun g op h => ?_⟩
  · rw [(booked_places g r h).2] at ht
    cases ht
  · rw [booked_engine] at h
    rcases h with h | ⟨op, h, hw⟩
    · split at h <;> exact (List.not_mem_nil h).elim
    · split at h
      · injection h with h
        subst h
        cases hw
      · cases h
  · have : booked.removals n = 0 := by
      unfold State.removals Engine.removals
      rw [booked_engine]
      split <;> rfl
    omega
  · rintro n (⟨g, h⟩ | ⟨key, h⟩)
    · cases (booked_places _ _ h).2
    · exact absurd h (booked_updating _)
  · rw [booked_engine] at h
    split at h
    · injection h with h
      subst h
      refine ⟨fun r hw hr => ?_, fun t hw _ => ?_, fun hc => ?_, fun n hc => ?_, fun t hw => ?_⟩
      · injection hw with hw
        subst hw
        cases hr
      · injection hw with hw
        subst hw
        exact ⟨by decide +kernel, ⟨by decide +kernel, by decide +kernel, by decide +kernel⟩⟩
      · rcases hc with hc | ⟨n, hc⟩ <;> cases hc
      · cases hc
      · cases hw
    · cases h

theorem test_meets_EveryStepKeepsHoldsAndDeadlines :
    ((∃ t, step booked = .next t) ∧ booked.canonical ∧ booked.taskRule ∧ booked.indexRule) ∧
      (booked.powerRule ∧ booked.restsUntilReady) ∧ booked.holdsRule ∧ booked.deadlinesRule ∧ booked.workRule ∧
      ∀ n v rest, booked.pending ≠ .retainedStoreDisturbance (.record n (.stateCode v)) :: rest :=
  ⟨test_meets_EveryStepKeepsEveryKeyInOneWay, by unfold State.powerRule State.restsUntilReady; decide +kernel, booked_holdsRule,
    booked_deadlinesRule, booked_workRule, nofun⟩

/-! ### Witnesses: links and router -/

def frame4 : List Byte := encodeRequest 2 (.read h4)

theorem test_meets_FramesAreReceivedOrDiscarded :
    let k := { Link.cold with enabled := true, receiver := .inFrame [165] }
    chip.isReady = true ∧ (chip.link 0).enabled = true ∧ (chip.link 0).receiver = .idle ∧
      ((chip.setLink 0 k).link 0).receiver = .inFrame [165] ∧ (4 : Byte).toNat < 5 ∧ 32 < (33 : Byte).toNat ∧
      frameRestOk frame4.tail = true ∧ crcGood (165 :: frame4.tail) = true ∧
      frameRestOk [5, 8, 0, 0] = true ∧ crcGood (165 :: [5, 8, 0, 0]) = false ∧
      (List.replicate 11 frame4).length + 1 = k.high ∧ (List.replicate 15 frame4).length < 16 ∧
      (List.replicate 16 frame4).length ≤ 16 := by decide +kernel

/-- At 9,600 baud a frame of 20 bytes and one of 21, without a start byte behind the twentieth. -/
theorem test_meets_FramesAreReceivedOrDiscarded_slow :
    let k := { Link.cold with enabled := true, receiver := .inFrame [165], baud := 0 }
    k.baud = 0 ∧ Link.cold.baud ≠ 0 ∧ frameRestOk (20 :: List.replicate 18 0) = true ∧
      (20 :: List.replicate 18 (0 : Byte)).length < 20 ∧ frameRestOk (21 :: List.replicate 19 0) = true ∧
      20 ≤ (21 :: List.replicate 19 (0 : Byte)).length ∧ (165 : Byte) ∉ (21 :: List.replicate 19 (0 : Byte)).drop 19 ∧
      chip.isReady = true := by decide +kernel

theorem test_meets_ResponsesLeaveInOrder :
    (busyChip.link 1).queue = ⟨0, .ok, .bare⟩ :: [] ∧ (busyChip.link 1).sending = true := by decide +kernel

/-- A link with one stored frame, the router's pointer at it. -/
def stored (f : List Byte) : State :=
  { (chipHeld 500 0 held).setLink 3 { Link.cold with enabled := true, fifo := [f] } with router := 3 }

/-- A frame whose command code is 0: command byte 1, no payload. -/
def unknown : List Byte := frameOf 1 []

theorem test_meets_RouterTakesTheFirstTakeableFrame_route :
    (routeFrame (stored (encodeRequest 0 (.read h4))) (encodeRequest 0 (.read h4)) = .engine 0 (.read h4)) ∧
      (routeFrame (stored (encodeRequest 0 (.lookup 7))) (encodeRequest 0 (.lookup 7)) = .index 7) ∧
      routeFrame (stored unknown) unknown = .answer .badCommand := by decide +kernel

theorem test_meets_RouterTakesTheFirstTakeableFrame :
    ∀ f ∈ [encodeRequest 0 (.read h4), encodeRequest 0 (.lookup 7), unknown],
      [(stored f).router, (stored f).router + 1, (stored f).router + 2, (stored f).router + 3].find? (stored f).takeable = some 3 ∧
        ((stored f).link 3).fifo = f :: [] := by decide +kernel

theorem test_meets_Router_answersTagged : (stored frame4).answersTagged ∧ (stored unknown).answersTagged := by
  unfold State.answersTagged Link.answersTagged
  decide +kernel

theorem test_meets_DirectAnswersPassThroughTheirTags :
    (∀ f ∈ [(unknown, Status.badCommand), (frameOf 8 [0, 4], .badLength), (encodeRequest 0 (.settle tk 0xA), .badDigit),
        (encodeRequest 0 (.cancel ⟨7, 3⟩), .holdGone)],
      routeFrame (stored f.1) f.1 = .answer f.2 ∧ ((stored f.1).link 3).fifo = f.1 :: [] ∧ (stored f.1).takeable 3 = true ∧
        (stored f.1).router = 3) ∧
      (let t := chip.setLink 3 { Link.cold with enabled := true, sending := true, queue := [⟨1, .badCommand, .bare⟩] }
       (t.link 3).sending = true ∧ (t.link 3).queue.head? = some ⟨frameCommand unknown, .badCommand, .bare⟩) := by
  decide +kernel

theorem test_meets_RouterDecodesInOrder_refusals :
    commandCode (frameCommand (frameOf 3 [])) = 0 ∧ commandCode (frameCommand (frameOf 36 [])) = 9 ∧
      requestLength (commandCode (frameCommand (frameOf 8 [0, 4]))) = some 3 ∧ (framePayload (frameOf 8 [0, 4])).length ≠ 3 ∧
      (let f := encodeRequest 0 (.settle tk 0xA)
       requestLength (commandCode (frameCommand f)) = some 4 ∧ (framePayload f).length = 4 ∧
         requestFields (commandCode (frameCommand f)) (framePayload f) = some (.settle tk 0xA) ∧
         TermReq.digitsOk (.settle tk 0xA) = false) := by decide +kernel

theorem test_meets_RouterDecodesInOrder_routes :
    (∀ r ∈ [TermReq.lookup 7, .read h4, .authorize h4 0 2 0, .debit h4 (pay 1) 0, .probe h4 (pay 1), .settle tk 1, .extend tk 0x10,
        .cancel tk],
      (decodeRequest (frameCommand (encodeRequest 3 r)) (framePayload (encodeRequest 3 r))).toOption = some r) ∧
      ticketCurrent tk held = true ∧ ticketCurrent ⟨7, 3⟩ held = false := by decide +kernel

/-! ### Witnesses: values -/

theorem test_meets_TerminalReadAnswersTheRecord :
    (∀ r ∈ [acct .active 500 0, { acct .active 500 0 with checkCode := 0 }, acct .gone 0 0],
      let s := doing (chipWith r) (term (.read h4))
      s.terminalOp 0 = some ((chipWith r).readFor (term (.read h4)), origin, .read h4)) ∧
      (handleTest h4 (acct .active 500 0) = none ∧ (acct .active 500 0).verifies = true) ∧
      (handleTest h4 { acct .active 500 0 with checkCode := 0 } = none ∧
        { acct .active 500 0 with checkCode := 0 }.verifies = false) ∧
      handleTest h4 (acct .gone 0 0) = some .staleHandle := by decide +kernel

/-- Spendable is 600 here: STRICT for 600 passes and for 601 does not; PARTIAL for 601 is reduced. -/
theorem test_meets_DebitChargesOrAnswersShort :
    let r := acct .active 500 40
    (∀ a ∈ [(pay 600, (0 : Byte)), (pay 601, 0), (pay 601, 1), (pay 1, 0), (pay 99999999, 1)],
      (doing (chipWith r) (term (.debit h4 a.1 a.2))).terminalOp 0 =
        some ((chipWith r).readFor (term (.debit h4 a.1 a.2)), origin, .debit h4 a.1 a.2) ∧
      1 ≤ a.1.value ∧ a.1.value ≤ 99999999) ∧
      ((chipWith r).readFor (term (.debit h4 (pay 600) 0))).record = r ∧
      handleTest h4 r = none ∧ r.state = .active ∧ r.suspect = false ∧ r.verifies = true ∧
      r.spendable = 600 ∧ (pay 600).value ≤ r.spendable ∧ ¬(pay 601).value ≤ r.spendable := by decide +kernel

/-- PARTIAL at spendable 1 and 0. -/
theorem test_meets_DebitChargesOrAnswersShort_partial :
    0 < (acct .active (-99) 0).spendable ∧ ¬0 < (acct .active (-100) 0).spendable ∧
      (acct .active (-99) 0).verifies = true ∧ (acct .active (-100) 0).verifies = true ∧
      handleTest h4 (acct .active (-100) 0) = none := by decide +kernel

theorem test_meets_DebitAndProbeAnswerInOrder :
    (∀ r ∈ [acct .active 500 0, acct .frozen 500 0, acct .closing 500 0, acct .gone 0 0, { acct .active 500 0 with suspect := true },
        { acct .active 500 0 with checkCode := 0 }],
      (doing (chipWith r) (term (.debit h4 (pay 1) 0))).terminalOp 0 =
        some ((chipWith r).readFor (term (.debit h4 (pay 1) 0)), origin, .debit h4 (pay 1) 0) ∧
      (doing (chipWith r) (term (.probe h4 (pay 1)))).terminalOp 0 =
        some ((chipWith r).readFor (term (.probe h4 (pay 1))), origin, .probe h4 (pay 1))) ∧
      (1 ≤ (pay 1).value ∧ ¬1 ≤ (pay 0).value ∧ (pay 99999999).value ≤ 99999999) ∧
      handleTest h4 (acct .gone 0 0) = some .staleHandle ∧ handleTest ⟨4096, 0⟩ Record.cold = some .notFound ∧
      (acct .frozen 500 0).state = .frozen ∧ (acct .closing 500 0).state = .closing ∧
      { acct .active 500 0 with suspect := true }.verifies = true ∧
      { acct .active 500 0 with checkCode := 0 }.verifies = false := by decide +kernel

/-! ### Witnesses: holds -/

/-- Tariff 0: enabled, price 100, at most 5 units, window 600, CAPTURE. -/
def fare : Tariff := { enabled := true, price := 100, maxUnits := 5, window := 600, action := .capture }

def chipFare : State := (chipWith (acct .active 500 0)).setTariff 0 fare

/-- What an engine reads for an AUTHORIZE that claims an entry and for one that is refused. -/
theorem test_meets_WorkIsTakenInOrder_reads :
    (chipFare.readFor (term (.authorize h4 0 5 0))).alloc = .claimed ∧
      (chipFare.readFor (term (.authorize h4 0 6 0))).alloc = .notClaimed ∧
      ((chipHeld 500 0 held).readFor (.expiry tk)).entry = held ∧
      ((chipHeld 500 0 held).readFor (.expiry tk)).record = acctHeld 500 0 := by decide +kernel

/-- An AUTHORIZE of 2 units whose claim entry 7 has answered. -/
def allotted (w : B6) : Operation := { chipFare.readFor (term (.authorize h4 0 2 w)) with alloc := .allotted 7 }

/-- A window of 0 or 43200: the deadline is one second ahead, or the timebase stands at it. -/
theorem test_meets_AuthorizeCreatesTheHold :
    (7 < 256 ∧ (allotted 0).tariff.window = 600 ∧ B6.value 0x43200 = 43200) ∧
      ∀ w ∈ [((0 : B6), 600), (0x43200, 43200)], ∀ now ∈ [w.2 - 1, w.2],
        let s := { chipFare.setEngine 0 { Engine.cleared with op := some (allotted w.1) } with timebase := now }
        s.terminalOp 0 = some (allotted w.1, origin, .authorize h4 0 2 w.1) ∧ (allotted w.1).alloc = .allotted 7 ∧
          (allotted w.1).time = 0 ∧ s.isReady = true ∧ ∀ i ∈ s.deadlines, s.timebase < i.deadline := by decide +kernel

/-- The checks at the ends of their ranges: tariff 15 and 16; windows 10, 9, 43200, 43201. -/
theorem test_meets_AuthorizeRefusesInOrder_checks :
    let r := acct .active 500 0
    r.verifies = true ∧ handleTest h4 r = none ∧ r.state = .active ∧ r.suspect = false ∧
      (15 : Byte).toNat ≤ 15 ∧ ¬(16 : Byte).toNat ≤ 15 ∧ B6.value 0x10 = 10 ∧ B6.value 9 = 9 ∧ B6.value 0x43200 = 43200 ∧
      B6.value 0x43201 = 43201 ∧
      authorizeRefusal h4 0 5 0 r fare = none ∧
      (authorizeRefusal h4 0 5 0 { acct .active 500 0 with suspect := true } fare).isSome = true ∧
      (authorizeRefusal h4 0 5 0 r Tariff.cold).isSome = true ∧ (authorizeRefusal h4 1 5 0 r fare).isSome = true ∧
      (authorizeRefusal h4 0 6 0 r fare).isSome = true ∧ (authorizeRefusal h4 0 0 0 r fare).isSome = true ∧
      (authorizeRefusal h4 0 5 0 { r with holds := [tk, tk, tk, tk] } fare).isSome = true ∧
      (authorizeRefusal h4 0 5 0 (acct .active 399 0) fare).isSome = true ∧
      (authorizeRefusal h4 0 5 0 { acct .active 99999999 0 with held := 99999500 } fare).isSome = true ∧
      (authorizeRefusal h4 0 5 0 (acct .frozen 500 0) fare).isSome = true ∧
      (authorizeRefusal h4 0 5 0 (acct .closing 500 0) fare).isSome = true := by decide +kernel

theorem test_meets_AuthorizeRefusesInOrder :
    let w := term (.authorize h4 0 6 0)
    let full := { chipFare.readFor (term (.authorize h4 0 5 0)) with alloc := .full }
    (doing chipFare w).terminalOp 0 = some (chipFare.readFor w, origin, .authorize h4 0 6 0) ∧
      (chipFare.readFor w).record.verifies = true ∧ (chipFare.readFor w).alloc = .notClaimed ∧
      (authorizeRefusal h4 0 6 0 (chipFare.readFor w).record (chipFare.readFor w).tariff).isSome = true ∧
      (chipFare.setEngine 0 { Engine.cleared with op := some full }).terminalOp 0 = some (full, origin, .authorize h4 0 5 0) ∧
      full.alloc = .full ∧
      (let s := chipFare.setRecord 4 (disturbed4 500 0)
       (doing s (term (.authorize h4 0 5 0))).terminalOp 0 =
           some (s.readFor (term (.authorize h4 0 5 0)), origin, .authorize h4 0 5 0) ∧
         (s.readFor (term (.authorize h4 0 5 0))).alloc = .notClaimed ∧ (disturbed4 500 0).verifies = false ∧
         handleTest h4 (disturbed4 500 0) = none ∧
         authorizeRefusal h4 0 5 0 (disturbed4 500 0) fare = some (.suspect, .bare)) := by decide +kernel

/-- Engine 2 claims; entry 0 is LIVE and entry 1 is free. -/
def claiming : State :=
  { (chipFare.setHold 0 held).setEngine 2 { Engine.cleared with op := some (chipFare.readFor (term (.authorize h4 0 5 0))) } with
    allocPtr := 3 }

theorem test_meets_AllocatorServesInRotation :
    [claiming.allocPtr, claiming.allocPtr + 1, claiming.allocPtr + 2, claiming.allocPtr + 3].find? claiming.claimsEntry = some 2 ∧
      (claiming.hold 1).state = .free ∧ claiming.isAllotted 1 = false ∧
      (∀ m, m < 1 → (claiming.hold m).state ≠ .free ∨ claiming.isAllotted m = true) := by decide +kernel

theorem test_meets_AllocatorServesInRotation_full :
    let s := { claiming with holds := (List.range 256).map fun n => (n, held) }
    [s.allocPtr, s.allocPtr + 1, s.allocPtr + 2, s.allocPtr + 3].find? s.claimsEntry = some 2 ∧
      ∀ n, n < 256 → (s.hold n).state ≠ .free ∨ s.isAllotted n = true := by decide +kernel

/-- Units 1, 2 (the full amount) and 3 (capped), and a balance at the lower limit (clamped). -/
theorem test_meets_SettleAndCancelEndTheHold_settle :
    (∀ n ∈ [1, 2, 3], ∀ b ∈ [(500 : Int), -99999999],
      let u : B4 := BitVec.ofNat 16 n
      let s := chipHeld b 400 held
      let op := s.readFor (term (.settle tk u))
      (doing s (term (.settle tk u))).terminalOp 0 = some (op, origin, .settle tk u) ∧ ticketOfGroup 0 tk op.entry = true ∧
        origin.link = op.entry.link ∧ origin.epoch = op.entry.epoch ∧ op.entry.state = .live ∧ op.record.suspect = false ∧
        op.record.verifies = true ∧ ∀ i ∈ s.deadlines, s.timebase < i.deadline) := by decide +kernel

/-- A LIVE and a STALLED hold, of a sound record, a suspect one and one whose check code does not match. -/
theorem test_meets_SettleAndCancelEndTheHold_cancel :
    (∀ e ∈ [held, { held with state := .stalled }],
      ∀ r ∈ [acctHeld 500 0, { acctHeld 500 0 with suspect := true }, { acctHeld 500 0 with checkCode := 0 }],
      let s := (chipHeld 500 0 e).setRecord 4 r
      let op := s.readFor (term (.cancel tk))
      (doing s (term (.cancel tk))).terminalOp 0 = some (op, origin, .cancel tk) ∧ ticketOfGroup 0 tk op.entry = true ∧
        origin.link = op.entry.link ∧ origin.epoch = op.entry.epoch) ∧
      (acctHeld 500 0).verifies = true ∧
      ticketOfGroup 0 ⟨7, 3⟩ held = false ∧ ticketOfGroup 1 tk held = false ∧
      (origin.link ≠ { held with link := 2 }.link ∧ origin.epoch ≠ { held with epoch := 1 }.epoch) ∧
      { held with state := .stalled }.state = .stalled := by decide +kernel

/-- A SETTLE of a suspect account's hold and of one whose record does not match; NOT_OWNER and HOLD_GONE beside them. -/
theorem test_meets_SettleAndCancelEndTheHold_refused :
    (∀ r ∈ [{ acctHeld 500 0 with suspect := true }, { acctHeld 500 0 with checkCode := 0 }],
      let s := (chipHeld 500 0 held).setRecord 4 r
      let op := s.readFor (term (.settle tk 1))
      (doing s (term (.settle tk 1))).terminalOp 0 = some (op, origin, .settle tk 1) ∧ ticketOfGroup 0 tk op.entry = true ∧
        origin.link = op.entry.link ∧ origin.epoch = op.entry.epoch ∧ (op.record.suspect = true ∨ op.record.verifies = false)) ∧
      (let s := chipHeld 500 0 { held with link := 2 }
       let op := s.readFor (term (.settle tk 1))
       (doing s (term (.settle tk 1))).terminalOp 0 = some (op, origin, .settle tk 1) ∧ ticketOfGroup 0 tk op.entry = true ∧
         origin.link ≠ op.entry.link) := by decide +kernel

/-- A hold of an account whose held is its amount ends with held 0; where the amount is above held the spec is silent (log
entry 35). -/
theorem test_heldWithout : heldWithout 200 200 = 0 ∧ heldWithout 201 200 = 1 := by decide +kernel

/-- An EXTEND by 10 and by 43200 seconds whose new deadline is one second ahead, or reached. -/
theorem test_meets_ExtendMovesTheDeadline :
    ∀ n ∈ [((0x10 : B6), 610), (0x43200, 43800)], ∀ now ∈ [n.2 - 1, n.2],
      let s := chipHeld 500 0 { held with extensions := 2 }
      let op := s.readFor (term (.extend tk n.1))
      let x := { doing s (term (.extend tk n.1)) with timebase := now }
      x.terminalOp 0 = some (op, origin, .extend tk n.1) ∧ 10 ≤ B6.value n.1 ∧ B6.value n.1 ≤ 43200 ∧
        ticketOfGroup 0 tk op.entry = true ∧ origin.link = op.entry.link ∧ origin.epoch = op.entry.epoch ∧
        op.entry.state = .live ∧ op.record.suspect = false ∧ op.record.verifies = true ∧ x.isClaimed 0 tk = false ∧
        op.entry.extensions < 3 ∧ op.entry.deadline + B6.value n.1 = n.2 ∧ n.2 ≤ op.time + 86400 ∧ x.isReady = true ∧
        ∀ i ∈ x.deadlines, i.ticket ≠ tk → x.timebase < i.deadline := by decide +kernel

/-- Each refusal of an EXTEND, at the first value that gives it. -/
theorem test_meets_ExtendMovesTheDeadline_refusals :
    let r := acctHeld 500 0
    r.verifies = true ∧ extendRefusal 0 origin tk 9 held r 0 false = some (.badRange, .bare) ∧
      extendRefusal 0 origin tk 43201 held r 0 false = some (.badRange, .bare) ∧
      extendRefusal 0 origin ⟨7, 3⟩ 10 held r 0 false = some (.holdGone, .bare) ∧
      extendRefusal 0 ⟨2, 0, 0⟩ tk 10 held r 0 false = some (.notOwner, .ticket tk) ∧
      extendRefusal 0 origin tk 10 { held with state := .stalled } r 0 false = some (.suspect, .extendRefused tk 600 0) ∧
      extendRefusal 0 origin tk 10 held { r with checkCode := 0 } 0 false = some (.suspect, .extendRefused tk 600 0) ∧
      { r with checkCode := 0 }.verifies = false ∧
      extendRefusal 0 origin tk 10 held r 0 true = some (.expiring, .extendRefused tk 600 0) ∧
      extendRefusal 0 origin tk 10 { held with extensions := 3 } r 0 false = some (.extendLimit, .extendRefused tk 600 3) ∧
      extendRefusal 0 origin tk 10 { held with deadline := 86391 } r 0 false = some (.badRange, .extendRefused tk 86391 0) ∧
      extendRefusal 0 origin tk 10 { held with deadline := 86390 } r 0 false = none := by decide +kernel

theorem test_meets_ExpiryEndsOrStallsTheHold :
    (∀ e ∈ [held, { held with action := .capture }, { held with serial := 3 }],
      let s := { chipHeld 500 400 e with deadlines := [] }
      ((doing s (.expiry tk)).engine 0).op = some (s.readFor (.expiry tk)) ∧ (s.readFor (.expiry tk)).work = .expiry tk ∧
        (s.readFor (.expiry tk)).entry = e) ∧
      ticketOfGroup 0 tk { held with serial := 3 } = false ∧ ticketOfGroup 0 tk held = true ∧ held.action = .release ∧
      (acctHeld 500 400).suspect = false ∧ (acctHeld 500 400).verifies = true ∧
      { acctHeld 500 400 with suspect := true }.suspect = true ∧ { acctHeld 500 400 with checkCode := 0 }.verifies = false := by
  decide +kernel

/-- A stale claim, and a stall by the flag and by a mismatch, with claims waiting at engine 0 and at another. -/
theorem test_meets_ExpiryEndsOrStallsTheHold_waiting :
    ∀ e ∈ [{ held with serial := 3 }, { held with action := .capture }],
      ∀ r ∈ [{ acctHeld 500 400 with suspect := true }, { acctHeld 500 400 with checkCode := 0 }],
      let s := { (chipHeld 500 400 e).setRecord 4 r with deadlines := [] }
      let op := s.readFor (.expiry tk)
      let x := (s.setEngine 0 { Engine.cleared with op := some op, expiry := [⟨8, 0⟩] }).setEngine 1
        { Engine.cleared with expiry := [⟨9, 0⟩] }
      (x.engine 0).op = some op ∧ op.work = .expiry tk ∧ (x.engine 1).expiry = [⟨9, 0⟩] ∧
        (ticketOfGroup 0 tk op.entry = false ∨
          (ticketOfGroup 0 tk op.entry = true ∧ op.entry.action = .capture ∧
            (op.record.suspect = true ∨ op.record.verifies = false))) := by decide +kernel

theorem test_meets_SlotFreeFreesTheSlot :
    let s := chipWith (acct .gone 500 0)
    ((doing s (.slotFree 4)).engine 0).op = some (s.readFor (.slotFree 4)) ∧ (s.readFor (.slotFree 4)).work = .slotFree 4 := by
  decide +kernel

/-! ### Witnesses: deadlines and checks -/

/-- The hold is due at the next second, in RUN and in STANDBY, and after the last second nothing is raised. -/
theorem test_meets_DueHoldsArePostedInQueueOrder :
    (∀ m ∈ [Mode.run, .economy, .standby],
      let s := { chipHeld 500 0 held with timebase := 599, power := { chip.power with mode := m, resume := .run } }
      s.isReady = true ∧ (∀ i ∈ s.deadlines, s.timebase < i.deadline) ∧ s.timebase < 4294967295 ∧ s.check.timer = some 60 ∧
        (s.deadlines.any fun i => decide (i.deadline ≤ s.timebase + 1)) = true) ∧
      (let s := { chip with timebase := 4294967295 }
       s.isReady = true ∧ 4294967295 ≤ s.timebase ∧ ∀ i ∈ s.deadlines, s.timebase < i.deadline) := by decide +kernel

/-- A stopped timer in RUN, and STANDBY with nothing due yet. -/
theorem test_meets_DueHoldsArePostedInQueueOrder_quiet :
    ∀ m ∈ [Mode.run, .standby], ∀ timer ∈ [none, some 1],
      let s := { chipHeld 500 0 held with
        timebase := 598, power := { chip.power with mode := m }, check := { chip.check with timer := timer } }
      s.isReady = true ∧ (∀ i ∈ s.deadlines, s.timebase < i.deadline) ∧ s.timebase < 4294967295 ∧
        (s.deadlines.any fun i => decide (i.deadline ≤ s.timebase + 1)) = false ∧
        s.power.mode = m ∧ s.check.timer = timer := by decide +kernel

theorem test_meets_DueHoldsArePostedInQueueOrder_ordered : ordered (chipHeld 500 0 held).deadlines :=
  ⟨fun _ h => (List.not_mem_nil h).elim, trivial⟩

/-- The cursor at its first and last place; the first slot of group 0 that is not FREE is slot 4. -/
theorem test_meets_IntervalExpiryBeginsASlice :
    (∀ c ∈ [0, 4032],
      let s := { chipWith (acct .active 500 0) with check := { chip.check with timer := some 0, cursor := c } }
      s.working = true ∧ s.check.timer = some 0 ∧ s.check.cursor % 64 = 0 ∧ s.check.cursor ≤ 4032 ∧ s.check.slice = none) ∧
      (let s := chipWith (acct .active 500 0)
       laneOf 4 = 0 ∧ (s.record 4).state ≠ .free ∧ ∀ m, m < 4 → laneOf m = 0 → (s.record m).state = .free) := by
  decide +kernel

def slice0 : Slice := { first := 0, parts := ⟨⟨8, true⟩, ⟨1, false⟩, ⟨2, false⟩, ⟨3, false⟩⟩ }

theorem test_meets_IntervalExpiryBeginsASlice_owed :
    let s := { chip with check := { chip.check with timer := some 0, slice := some slice0 } }
    s.working = true ∧ s.check.timer = some 0 ∧ s.check.slice = some slice0 ∧ s.check.cursor % 64 = 0 := by decide +kernel

/-- The second in which the timer reaches 0, with no slice and with one, and a second before. -/
theorem test_meets_IntervalExpiryBeginsASlice_raise :
    ∀ n ∈ [1, 2], ∀ sl ∈ [none, some slice0],
      let s := { chip with check := { chip.check with timer := some n, slice := sl } }
      s.working = true ∧ s.timebase < 4294967295 ∧ s.check.timer = some n ∧ s.check.slice = sl := by decide +kernel

theorem test_meets_IntervalExpiryBeginsASlice_rule :
    { chip with check := { chip.check with timer := some 1, cursor := 4032 } }.shortCheckRule :=
  ⟨by decide, fun n h => by
    cases h
    decide, by decide, by decide⟩

/-- The last check of a slice, with a slice owed. -/
theorem test_meets_IntervalExpiryBeginsASlice_next :
    let s := { chipWith (acct .active 500 0) with check := { chip.check with slice := some slice0, owed := true } }
    ((doing s (.check 4)).engine 0).op = some (s.readFor (.check 4)) ∧ (s.readFor (.check 4)).work = .check 4 ∧
      s.check.slice = some slice0 ∧ s.check.owed = true ∧
      nextChecked (doing s (.check 4)) (slice0.first + 64) 16 (slice0.parts.get 0).next = none ∧
      ∀ m : Lane, m ≠ 0 → (slice0.parts.get m).inHand = false := by decide +kernel

/-- A slot is left in the group, with and without a slice owed. -/
theorem test_meets_CheckClaimVerifiesAndGoesOn :
    (∀ r ∈ [acct .active 500 0, { acct .active 500 0 with checkCode := 0 }, Record.cold], ∀ owed ∈ [false, true],
      let s := { (chipWith r).setRecord 8 (acct .active 1 0) with
        check := { chip.check with slice := some slice0, owed := owed } }
      ((doing s (.check 4)).engine 0).op = some (s.readFor (.check 4)) ∧ (s.readFor (.check 4)).work = .check 4 ∧
        s.check.slice = some slice0 ∧ s.check.owed = owed ∧
        nextChecked s (slice0.first + 64) 16 (slice0.parts.get 0).next = some 8) ∧
      (acct .active 500 0).verifies = true ∧ { acct .active 500 0 with checkCode := 0 }.verifies = false ∧
      Record.cold.state = .free := by decide +kernel

/-- The last check of a group's part, with another group's slot in hand and with none, with and without a slice owed. -/
theorem test_meets_CheckClaimVerifiesAndGoesOn_last :
    (∀ b ∈ [true, false], ∀ owed ∈ [false, true],
      let sl := { slice0 with parts := slice0.parts.set 1 ⟨9, b⟩ }
      let s := { chipWith (acct .active 500 0) with check := { chip.check with slice := some sl, owed := owed } }
      ((doing s (.check 4)).engine 0).op = some (s.readFor (.check 4)) ∧ s.check.slice = some sl ∧ s.check.owed = owed ∧
        nextChecked (doing s (.check 4)) (sl.first + 64) 16 (sl.parts.get 0).next = none ∧ (sl.parts.get 1).inHand = b) ∧
      ∀ m : Lane, m ≠ 0 → (slice0.parts.get m).inHand = false := by decide +kernel

/-! ### Witnesses: key index and enrolment -/

/-- Key 1001 is indexed for slot 4. -/
def indexed : State := (chipWith (acct .active 500 0)).setWay (8 * (1001 % 1021)) (some ⟨1001, 4⟩)

theorem test_meets_LookupAndFindAnswerFromTheIndex :
    indexed.findAccount 1001 = some 4 ∧ indexed.findAccount 2022 = none ∧ indexed.findAccount 1 = none ∧
      (∀ n ∈ [0, 4294967295, 1, 1001],
        let k : Key := BitVec.ofNat 32 n
        let u := { IndexUnit.cleared with lookups := Four.set (Four.all none) 1 (some ⟨origin, k⟩), op := some (.link 1) }
        { indexed with indexUnit := u }.indexUnit.op = some (.link 1) ∧
          { indexed with indexUnit := u }.indexUnit.lookups.get 1 = some ⟨origin, k⟩) ∧
      (let u := { IndexUnit.cleared with mgmt := some (.find 1001), op := some .mgmt }
       u.op = some .mgmt ∧ u.mgmt = some (.find 1001)) := by decide +kernel

/-- The one way of its bucket that holds the key, and the record that holds it too. -/
theorem test_meets_LookupAndFindAnswerFromTheIndex_found :
    8 * ((1001 : Key).toNat % 1021) ≤ 8008 ∧ 8008 < 8 * ((1001 : Key).toNat % 1021) + 8 ∧
      indexed.way 8008 = some ⟨1001, 4⟩ ∧ (indexed.record 4).state = .active ∧ (indexed.record 4).key = 1001 ∧
      ∀ v, v ≠ 8008 → indexed.way v = none := by
  refine ⟨by decide +kernel, by decide +kernel, by decide +kernel, by decide +kernel, by decide +kernel, fun v hv => ?_⟩
  have h : indexed.index = [(8008, some ⟨1001, 4⟩)] := by decide +kernel
  show Table.get none indexed.index v = none
  rw [h]
  simp [Table.get, Ne.symm hv]

def enrolment (k : Key) : EnrolFields := ⟨k, pay 0, 0, 0, 1⟩

/-- The four ends of a search: the key is there, its bucket is full, and the lowest free slot with a place in its
queue. -/
theorem test_meets_EnrolSearchDecidesTheEnrolment :
    let full := { indexed with index := (List.range 8).map fun w => (8 * 5 + w, some ⟨BitVec.ofNat 32 (5 + 1021 * (w + 1)), 4⟩) }
    let u := { IndexUnit.cleared with mgmt := some (.search (enrolment 5)), op := some .mgmt }
    (u.op = some .mgmt ∧ u.mgmt = some (.search (enrolment 5))) ∧ (indexed.wayOfKey 1001).isSome = true ∧
      (full.wayOfKey 5 = none ∧ full.freeWay 5 = none) ∧ (indexed.wayOfKey 5 = none ∧ (indexed.freeWay 5).isSome = true) ∧
      (let s := (indexed.setRecord 0 (acct .active 0 0)).setRecord 1 (acct .active 0 0)
       (s.record 2).state = .free ∧ (∀ m, m < 2 → (s.record m).state ≠ .free) ∧ (s.engine (laneOf 2)).queue.length < 8 ∧
         ((queueFull 2 s).record 2).state = .free ∧ 8 ≤ ((queueFull 2 s).engine (laneOf 2)).queue.length) := by
  decide +kernel

/-- A table of one record for every slot from n on. -/
def filled (r : Record) : Nat → Nat → List (Nat × Record)
  | 0, _ => []
  | k + 1, n => (n, r) :: filled r k (n + 1)

theorem get_filled (d r : Record) : ∀ k n m, n ≤ m → m < n + k → Table.get d (filled r k n) m = r := by
  intro k
  induction k with
  | zero =>
    intro n m h1 h2
    omega
  | succ k ih =>
    intro n m h1 h2
    unfold filled Table.get
    split
    · rfl
    · exact ih (n + 1) m (by omega) (by omega)

/-- A full table: no slot is FREE, while a way is free. -/
theorem test_meets_EnrolSearchDecidesTheEnrolment_tableFull :
    let s := { chip with accounts := filled (acct .active 0 0) 4096 0 }
    (s.wayOfKey 5 = none ∧ (s.freeWay 5).isSome = true) ∧ ∀ n, n < 4096 → (s.record n).state ≠ .free := by
  refine ⟨by decide +kernel, fun n hn => ?_⟩
  have h : Table.get Record.cold (filled (acct .active 0 0) 4096 0) n = acct .active 0 0 :=
    get_filled _ _ 4096 0 n (Nat.zero_le n) (by omega)
  show (Table.get Record.cold (filled (acct .active 0 0) 4096 0) n).state ≠ .free
  rw [h]
  decide +kernel

theorem test_meets_EnrolmentStepsWriteTheirStores :
    let c := MgmtReq.create 4 1001 (pay 500) 0 0 1
    (∀ r ∈ [Record.freed 9, acct .active 500 0], (doing (chipWith r) (mgmt c)).mgmtOp 0 = some ((chipWith r).readFor (mgmt c), c)) ∧
      (Record.freed 9).state = .free ∧ (acct .active 500 0).state ≠ .free ∧
      (let s := { chip with indexUnit := { IndexUnit.cleared with op := some (.update (.insert 1001 4)) } }
       s.indexUnit.op = some (.update (.insert 1001 4)) ∧ s.freeWay 1001 = some 8008 ∧ (s.engine (laneOf 4)).queue.length < 8 ∧
         (queueFull 0 s).indexUnit.op = some (.update (.insert 1001 4)) ∧ (queueFull 0 s).freeWay 1001 = some 8008 ∧
         8 ≤ ((queueFull 0 s).engine (laneOf 4)).queue.length) ∧
      (∀ r ∈ [acct .new 500 0, { acct .new 500 0 with suspect := true }, { acct .new 500 0 with checkCode := 0 }],
        (doing (chipWith r) (mgmt (.activate 4))).mgmtOp 0 = some ((chipWith r).readFor (mgmt (.activate 4)), .activate 4)) ∧
      { acct .new 500 0 with suspect := true }.verifies = true ∧ { acct .new 500 0 with checkCode := 0 }.verifies = false := by
  decide +kernel

theorem test_meets_KeyRemovalFreesTheWay :
    let s := { indexed with indexUnit := { IndexUnit.cleared with op := some (.update (.remove 1001 4)) } }
    s.indexUnit.op = some (.update (.remove 1001 4)) ∧ s.wayOfEntry 1001 4 = some 8008 ∧ s.wayOfEntry 5 4 = none := by
  decide +kernel

theorem test_meets_KeyRemovalFreesTheWay_canonical : indexed.canonical := by
  unfold State.canonical
  decide +kernel

/-! ### Witnesses: transfers -/

/-- Slots 4 and 8 are in group 0, slot 5 in group 1. -/
def three : State := ((chipWith (acct .active 500 40)).setRecord 8 (acct .active 7 0)).setRecord 5 (acct .active 7 0)

/-- The source at its free balance and one above it, ALL with and without free balance; the receiver at its limit. -/
theorem test_meets_SameGroupTransferMovesTheAmount_checks :
    let r := acct .active 500 40
    (r.verifies = true ∧ handleTest h4 r = none ∧ r.suspect = false ∧ r.bal - r.held = 500) ∧
      ((pay 500).value ≤ 500 ∧ ¬(pay 501).value ≤ 500) ∧ (acct .active 0 0).bal - (acct .active 0 0).held ≤ 0 ∧
      handleTest h4 (acct .closing 500 40) = none ∧ (acct .closing 500 40).state = .closing ∧
      handleTest h4 (acct .gone 500 40) = some .staleHandle ∧ { r with suspect := true }.verifies = true ∧
      (sourceCheck h4 false (pay 1) (disturbed4 500 40)).toOption = none ∧ (disturbed4 500 40).verifies = false ∧
      receiverCheck h4 1 (disturbed4 500 40) = some .suspect ∧ receiverCheck h4 1 (acct .gone 5 0) = some .staleHandle ∧
      receiverCheck h4 99999499 r = none ∧ receiverCheck h4 99999500 r = some .overRange ∧
      receiverCheck h4 1 (acct .closing 5 0) = some .closing := by decide +kernel

theorem test_meets_SameGroupTransferMovesTheAmount :
    ∀ v ∈ [(500 : Int), 501],
      let m := MgmtReq.sameTransfer h4 h8 false (pay v)
      let op := three.readFor (mgmt m)
      (doing three (mgmt m)).mgmtOp 0 = some (op, m) ∧ h4.slot ≠ h8.slot ∧ op.record.verifies = true ∧
        op.record2.verifies = true ∧ (sourceCheck h4 false (pay v) op.record).toOption = (if v = 500 then some 500 else none) ∧
        receiverCheck h8 500 op.record2 = none := by decide +kernel

/-- The source's record does not match, the destination's does not, and neither does. -/
theorem test_meets_SameGroupTransferMovesTheAmount_mismatch :
    ∀ r ∈ [(disturbed4 500 40, acct .active 7 0), (acct .active 500 40, disturbed4 7 0), (disturbed4 500 40, disturbed4 7 0)],
      let m := MgmtReq.sameTransfer h4 h8 false (pay 5)
      let s := (three.setRecord 4 r.1).setRecord 8 r.2
      (doing s (mgmt m)).mgmtOp 0 = some (s.readFor (mgmt m), m) ∧ h4.slot ≠ h8.slot ∧
        (s.readFor (mgmt m)).record = r.1 ∧ (s.readFor (mgmt m)).record2 = r.2 ∧ handleTest h4 r.1 = none ∧
        handleTest h8 r.2 = none ∧ (sourceCheck h4 false (pay 5) r.1).toOption = (if r.1.verifies then some 5 else none) ∧
        (r.1.verifies && r.2.verifies) = false := by decide +kernel

theorem test_meets_CrossGroupTransferGoesThroughTheRegister_step1 :
    ∀ v ∈ [(500 : Int), 501],
      let m := MgmtReq.step1 h4 h5 false (pay v)
      let op := three.readFor (mgmt m)
      (doing three (mgmt m)).mgmtOp 0 = some (op, m) ∧ op.record.verifies = true ∧ laneOf h5.slot.toNat ≠ 0 ∧
        (sourceCheck h4 false (pay v) op.record).toOption = (if v = 500 then some 500 else none) := by decide +kernel

/-- Step 2 at engine 0 towards slot 4 from slot 5, and the return step towards slot 4; 99,999,500 is one too much. -/
theorem test_meets_CrossGroupTransferGoesThroughTheRegister :
    ∀ a ∈ [(99999499 : Nat), 99999500],
      let s2 := { three with transit := ⟨.out, h5, h4, a⟩ }
      let s3 := { three with transit := ⟨.returning, h4, h5, a⟩ }
      (doing s2 (.transit .step2)).transitOp 0 = some (s2.readFor (.transit .step2), .step2) ∧
        (s2.readFor (.transit .step2)).record.verifies = true ∧ laneOf h5.slot.toNat ≠ 0 ∧
        (doing s3 (.transit (.ret none))).transitOp 0 = some (s3.readFor (.transit (.ret none)), .ret none) ∧
        (doing s3 (.transit (.ret (some .frozen)))).transitOp 0 =
          some (s3.readFor (.transit (.ret (some .frozen))), .ret (some .frozen)) ∧
        (s3.readFor (.transit (.ret none))).record.verifies = true ∧
        receiverCheck h4 a (acct .active 500 40) = (if a = 99999499 then none else some .overRange) := by decide +kernel

/-- The record that a step or the return step reads does not match. -/
theorem test_meets_CrossGroupTransferGoesThroughTheRegister_mismatch :
    let x := three.setRecord 4 (disturbed4 500 40)
    let m := MgmtReq.step1 h4 h5 false (pay 5)
    let s2 := { x with transit := ⟨.out, h5, h4, 5⟩ }
    let s3 := { x with transit := ⟨.returning, h4, h5, 5⟩ }
    ((doing x (mgmt m)).mgmtOp 0 = some (x.readFor (mgmt m), m) ∧ (x.readFor (mgmt m)).record = disturbed4 500 40) ∧
      ((doing s2 (.transit .step2)).transitOp 0 = some (s2.readFor (.transit .step2), .step2) ∧
        (s2.readFor (.transit .step2)).record = disturbed4 500 40) ∧
      ((doing s3 (.transit (.ret none))).transitOp 0 = some (s3.readFor (.transit (.ret none)), .ret none) ∧
        (s3.readFor (.transit (.ret none))).record = disturbed4 500 40) ∧
      handleTest h4 (disturbed4 500 40) = none ∧ (disturbed4 500 40).verifies = false := by decide +kernel

/-- A step whose register was disturbed before its taking, to a source in the engine's own group, and after it. -/
theorem test_meets_CrossGroupTransferGoesThroughTheRegister_disturbed :
    let s2 := { three with transit := ⟨.stranded, h8, h4, 5⟩ }
    let s3 := { doing s2 (.transit .step2) with transit := ⟨.empty, h5, h8, 7⟩ }
    s3.transitOp 0 = some (s2.readFor (.transit .step2), .step2) ∧
      (s2.readFor (.transit .step2)).transit = ⟨.stranded, h8, h4, 5⟩ ∧ laneOf h8.slot.toNat = 0 := by decide +kernel

/-- The transfer in progress keeps its source's balance item. -/
theorem test_meets_CrossGroupTransferGoesThroughTheRegister_items :
    let item : BalanceItem := ⟨.source, pay 7, balanceConds 7 0⟩
    let s := { three with transit := ⟨.out, h5, h4, 1⟩, cmd := { chip.cmd with state := .busy (.transfer (some item)) } }
    (doing s (.transit .step2)).cmd.state = .busy (.transfer (some item)) ∧
      (doing s (.transit .step2)).transitOp 0 = some (s.readFor (.transit .step2), .step2) := by decide +kernel

/-! ### Witnesses: the management port -/

theorem test_meets_portOpen : chip.portOpen ∧ three.portOpen ∧ (chipHeld 500 0 held).portOpen := by
  unfold State.portOpen
  decide +kernel

def replying : State := { chip with cmd := { chip.cmd with state := .reply ⟨23, .ok, .time 0⟩ } }
def busyUnit : State := { chip with cmd := { chip.cmd with state := .busy .find } }

theorem test_meets_ThePortReadsAndPlaces :
    let s := { chip with cmd := { busyUnit.cmd with held := some (2, .mgmt (.freeze ⟨6, 0⟩)) } }
    (∀ x ∈ [chip, replying, busyUnit], x.powered = true ∧ x.cmd.armed = false) ∧ chip.cmd.state = .idle ∧
      replying.cmd.state = .reply ⟨23, .ok, .time 0⟩ ∧ busyUnit.cmd.state = .busy .find ∧
      s.cmd.held = some (2, .mgmt (.freeze ⟨6, 0⟩)) ∧ (s.engine 2).queue.length < 8 := by decide +kernel

/-- Reads of the reply's block, of the empty block and of a BUSY unit's, one byte short and whole; SDO's bytes. -/
theorem test_meets_ThePortReadsAndPlaces_reads :
    (∀ x ∈ [(replying, (⟨23, .ok, .time 0⟩ : MgmtResponse)), (chip, ⟨255, .ok, .bare⟩), (busyUnit, ⟨255, .busy, .bare⟩)],
      x.1.powered = true ∧ x.1.cmd.armed = false ∧ x.1.readBlock = x.2 ∧
        (List.replicate (x.2.bytes.length - 1) (0 : Byte)).length < x.2.bytes.length ∧
        x.2.bytes.length ≤ (List.replicate x.2.bytes.length (0 : Byte)).length) ∧
      busyUnit.cmd.immediate.getD ⟨255, .busy, .bare⟩ = ⟨255, .busy, .bare⟩ ∧
      (⟨23, .ok, .time 0⟩ : MgmtResponse).bytes.length = 9 := by decide +kernel

/-- R154: a read cut short after four bytes leaves the reply unread, and shows its first three bytes on SDO. -/
theorem test_read_cut_short :
    ∃ t, exec (.undecodableBlock [255, 0, 0, 0]) replying = .next t ∧ t.cmd.state = replying.cmd.state ∧
      [t.sdoByte 0, t.sdoByte 1, t.sdoByte 2, t.sdoByte 3, t.sdoByte 4] = [255, 23, 4, 0, 255] :=
  ⟨_, rfl, by decide +kernel⟩

/-- R155: the tests of a block in their order: a wrong CRC before a wrong opcode, an opcode before a length; opcodes 24 and
25; a block whose CRC has not come whole; a block and what follows it. -/
theorem test_meets_BlocksAreScreened_order :
    (∀ x ∈ [(25 : Byte), 24, 0],
      ([x, 1, 7, 0, 0].drop 3).take 2 ≠ crcBytes ([x, 1, 7, 0, 0].take 3) ∧ (1 : Byte).toNat + 2 ≤ [(7 : Byte), 0, 0].length ∧
      (([x, 1, 7] ++ crcBytes [x, 1, 7]).drop 3).take 2 = crcBytes (([x, 1, 7] ++ crcBytes [x, 1, 7]).take 3)) ∧
      24 < (25 : Byte).toNat ∧ (24 : Byte).toNat ≤ 24 ∧ commandLength 24 ≠ some 1 ∧ commandLength 0 ≠ some 1 ∧
      [(7 : Byte), 0].length < (1 : Byte).toNat + 2 ∧ [(0 : Byte)].length < 2 ∧
      (([0, 0] ++ crcBytes [0, 0] ++ [9]).drop 2).take 2 = crcBytes (([0, 0] ++ crcBytes [0, 0] ++ [9]).take 2) ∧
      commandLength 0 = some 0 := by decide +kernel

/-- A block without its CRC, an unknown opcode and a length of 1 for POLL; then the two states that refuse commands. -/
theorem test_meets_BlocksAreScreened :
    (decodeBlock [0, 0]).toOption = none ∧ (decodeBlock ([25, 0] ++ crcBytes [25, 0])).toOption = none ∧
      (decodeBlock ([0, 1, 0] ++ crcBytes [0, 1, 0])).toOption = none ∧ (0 : Byte) ≠ 255 ∧
      (State.reset.isReady = false ∧ State.reset.isBusy = false ∧ State.reset.powered = true ∧ State.reset.cmd.armed = false) ∧
      (busyUnit.isReady = true ∧ busyUnit.isBusy = true ∧ busyUnit.powered = true ∧ busyUnit.cmd.armed = false) ∧
      Command.opcode .reset ≠ 0 := by decide +kernel

theorem test_meets_PollAnswersThePhase :
    (∀ x ∈ [chip, State.reset, replying], x.powered = true ∧ x.cmd.armed = false ∧ x.isBusy = false) ∧
      (busyUnit.powered = true ∧ busyUnit.cmd.armed = false ∧ busyUnit.isBusy = true) := by decide +kernel

/-- Tariff numbers 15 and 16; the TARIFF_SET whose entry a later read answers. -/
theorem test_meets_TariffReadAnswersTheEntry :
    (15 : Byte).toNat ≤ 15 ∧ 15 < (16 : Byte).toNat ∧
      ∃ t, exec (.tariffSet 15 1 0x100 5 0x600 1) chip = .next t ∧ t.cmd.state = .reply ⟨16, .ok, .tariff fare⟩ ∧
        t.powered = true ∧ t.isReady = true ∧ t.isBusy = false ∧ t.cmd.armed = false ∧ t.tariffs = [(15, fare)] :=
  ⟨by decide, by decide, _, rfl, by decide +kernel⟩

/-- Each field of a TARIFF_SET at the ends of its range and beyond; a digit above 9. -/
theorem test_meets_TariffSetWritesTheWholeEntry :
    B4.ok 0xA = false ∧ B4.ok 0x9999 = true ∧ B6.ok 0x43200 = true ∧ B6.value 0x10 = 10 ∧ B6.value 9 = 9 ∧
      B6.value 0x43200 = 43200 ∧ B6.value 0x43201 = 43201 ∧ B4.value 1 = 1 ∧ B4.value 0 = 0 ∧ (15 : Byte).toNat ≤ 15 ∧
      ¬(16 : Byte).toNat ≤ 15 ∧ (1 : Byte).toNat ≤ 1 ∧ ¬(2 : Byte).toNat ≤ 1 := by decide +kernel

/-- The settings at the ends of their ranges; a change that clears an enabled link, one that keeps it; ECONOMY. -/
theorem test_meets_LinkSetWritesTheSettings :
    let eco := { chip with links := Four.all Link.cold, power := { chip.power with mode := .economy } }
    (3 : Byte).toNat ≤ 3 ∧ ¬(4 : Byte).toNat ≤ 3 ∧ (5 : Byte).toNat ≤ 5 ∧ ¬(6 : Byte).toNat ≤ 5 ∧ (16 : Byte).toNat ≤ 16 ∧
      ¬(17 : Byte).toNat ≤ 16 ∧ (15 : Byte).toNat < (16 : Byte).toNat ∧ ¬(4 : Byte).toNat < (4 : Byte).toNat ∧
      ((chip.link 3).enabled = true ∧ (chip.link 3).baud.val ≠ (5 : Byte).toNat ∧ (chip.link 3).baud.val = (2 : Byte).toNat) ∧
      (chip.wake.power.mode ≠ .economy ∧ eco.wake.power.mode = .economy ∧ 1 < (2 : Byte).toNat ∧ (1 : Byte).toNat ≤ 1) := by
  decide +kernel

/-- One frame stands between the marks 0 and 2 of a setting that keeps the link as it is, with RDY up and down. -/
theorem test_meets_LinkSetWritesTheSettings_between :
    ∀ b ∈ [true, false],
      let s := chip.setLink 3 { chip.link 3 with fifo := [frame4], rdy := b }
      ∃ t, exec (.linkSet 3 1 2 2 0) s = .next t ∧ (0 : Byte).toNat < (t.link 3).fifo.length ∧
        (t.link 3).fifo.length < (2 : Byte).toNat ∧ (t.link 3).rdy = b := by
  intro b hb
  cases b <;> exact ⟨_, rfl, by decide +kernel⟩

/-- The four ends of CONFIG's ranges, and a notice queue with more than four notices. -/
theorem test_meets_UnitCommandsAnswerAtOnce :
    (1 ≤ (1 : Half).toNat ∧ (3600 : Half).toNat ≤ 3600 ∧ ¬(3601 : Half).toNat ≤ 3600 ∧ ¬1 ≤ (0 : Half).toNat) ∧
      (1 ≤ (1 : Byte).toNat ∧ (32 : Byte).toNat ≤ 32 ∧ ¬(33 : Byte).toNat ≤ 32 ∧ ¬1 ≤ (0 : Byte).toNat) := by decide +kernel

/-- Baud codes 1 (no link above 19,200) and 2; quiet and not; with notices; with a hold. -/
theorem test_meets_ModeChangesOnItsConditions :
    let slow := { chip with links := Four.all { Link.cold with baud := 1 } }
    (chip.wake.power.mode = .run ∧ chip.anyFastBaud = true ∧ slow.anyFastBaud = false ∧ 3 < (4 : Byte).toNat) ∧
      (chip.quiet = true ∧ chip.notices.list = [] ∧ chip.noHolds = true) ∧ busyChip.quiet = false ∧
      (let s := chip.setHold 7 held
       s.quiet = true ∧ s.notices.list = [] ∧ s.noHolds = false) ∧
      ({ chip with notices := busyChip.notices }.quiet = true ∧ { chip with notices := busyChip.notices }.notices.list ≠ []) ∧
      { chip with power := { chip.power with mode := .standby, resume := .economy } }.wake.power.mode = .economy ∧
      { chip with power := { chip.power with mode := .economy } }.wake.power.mode = .economy := by
  decide +kernel

/-- Keys at the ends of their range, a balance of minus 1 and 0, amounts 0 and 1, and the register's states. -/
theorem test_meets_CommandUnitStartsOrRefuses :
    ((1 : Key) ≠ 0 ∧ (4294967294 : Key) ≠ 4294967295 ∧ (pay 0).ok = true ∧ 0 ≤ (pay 0).value ∧ (pay (-1)).value < 0 ∧
        S8.ok ⟨0, 0⟩ = false ∧ B6.ok 0xA = false) ∧
      ((pay 1).ok = true ∧ 1 ≤ (pay 1).value ∧ (pay 0).value < 1 ∧ 1 < (2 : Byte).toNat ∧ h4.slot ≠ h8.slot) ∧
      (three.transit.state = .empty ∧ (three.engine (laneOf h4.slot.toNat)).queue.length < 8 ∧
        laneOf h4.slot.toNat = laneOf h8.slot.toNat ∧ laneOf h4.slot.toNat ≠ laneOf h5.slot.toNat) ∧
      { three with transit := ⟨.stranded, h4, h5, 5⟩ }.transit.state = .stranded ∧ 1 < (2 : Byte).toNat := by decide +kernel

/-- No request waits, one, all but one place. -/
theorem test_meets_CommandUnitStartsOrRefuses_room :
    ∀ n ∈ [0, 1, 7],
      let s := queueOf n 0 { chipHeld 500 0 held with transit := ⟨.stranded, h4, h5, 5⟩ }
      (s.engine (laneOf h4.slot.toNat)).queue.length < 8 ∧ s.transit.state = .stranded ∧
        ticketCurrent tk (s.hold tk.entry.toNat) = true ∧
        (s.engine (laneOf (s.hold tk.entry.toNat).slot)).queue.length < 8 ∧ s.powered = true ∧ s.isReady = true ∧
        s.isBusy = false ∧ s.cmd.armed = false := by decide +kernel

/-- The group's queue is full. -/
theorem test_meets_CommandUnitStartsOrRefuses_held :
    let s := queueFull 0 { chipHeld 500 0 held with transit := ⟨.stranded, h4, h5, 5⟩ }
    (8 ≤ (s.engine (laneOf h4.slot.toNat)).queue.length ∧ s.transit.state = .stranded ∧
        (queueFull 0 three).transit.state = .empty ∧ 8 ≤ ((queueFull 0 three).engine (laneOf h4.slot.toNat)).queue.length) ∧
      (ticketCurrent tk (s.hold tk.entry.toNat) = true ∧ 8 ≤ (s.engine (laneOf (s.hold tk.entry.toNat).slot)).queue.length) ∧
      (1 ≤ (1 : Byte).toNat ∧ (7 : Byte).toNat ≤ 7 ∧ (pay 1).ok = true ∧ 1 ≤ (pay 1).value ∧ (pay (-1)).value ≠ 0 ∧
        B6.ok 0x10 = true) := by decide +kernel

theorem test_meets_CommandUnitStartsOrRefuses_held_open : (queueFull 0 three).portOpen ∧ (queueFull 0 (chipHeld 500 0 held)).portOpen := by
  unfold State.portOpen
  decide +kernel

/-! ### Witnesses: management commands by handle and ticket -/

theorem test_meets_engineFree_soundAccount :
    (chipWith (acct .active 500 40)).engineFree 0 ∧ (chipWith (acct .active 500 40)).soundAccount h4 ∧
      (chipWith (acct .frozen 500 40)).soundAccount h4 ∧ (chipWith (acct .closing 500 40)).soundAccount h4 ∧
      (chipHeld 500 40 held).soundAccount h4 := by
  unfold State.engineFree State.soundAccount Record.sound
  decide +kernel

/-- A refused handle; a CLOSING account; a suspect one, by its flag and by its check code. -/
theorem test_meets_commands_refused :
    (∀ r ∈ [acct .closing 500 40, { acct .active 500 40 with suspect := true }, { acct .active 500 40 with checkCode := 0 }],
      (chipWith r).portOpen ∧ (chipWith r).engineFree (laneOf h4.slot.toNat) ∧
        handleTest h4 ((chipWith r).record h4.slot.toNat) = none) ∧
      (chipWith (acct .gone 0 0)).engineFree (laneOf h4.slot.toNat) ∧
      handleTest h4 ((chipWith (acct .gone 0 0)).record h4.slot.toNat) = some .staleHandle ∧
      handleTest ⟨4096, 0⟩ (chip.record 4096) = some .notFound ∧
      (acct .closing 500 40).state = .closing ∧ (acct .active 500 40).state ≠ .closing ∧
      { acct .active 500 40 with checkCode := 0 }.verifies = false := by
  unfold State.engineFree State.portOpen
  decide +kernel

theorem test_meets_AccountStatesChangeOnCommand :
    (acct .active 500 40).state = .active ∧ (acct .frozen 500 40).state = .frozen ∧ (acct .active 500 40).holds = [] ∧
      (acctHeld 500 40).holds ≠ [] ∧ (acctHeld 500 40).state ≠ .closing := by decide +kernel

/-- A TOPUP to the last amount in range and one beyond; an ADJUST to the lower limit and one beyond; bad digits; a stranded
transit, in range and beyond. -/
theorem test_meets_CreditsAreWrittenOnCommand :
    let r := acct .active 99999998 40
    ((pay 1).ok = true ∧ 1 ≤ (pay 1).value ∧ r.bal + (pay 1).value ≤ 99999999 ∧ 99999999 < r.bal + (pay 2).value) ∧
      ((pay (-99999999)).value ≠ 0 ∧ -99999999 ≤ (acct .active 0 0).bal + (pay (-99999999)).value ∧
        (acct .active (-1) 0).bal + (pay (-99999999)).value < -99999999) ∧
      (S8.ok ⟨0, 0⟩ = false ∧ (pay 0).ok = true ∧ (pay 0).value < 1 ∧ (pay 0).value = 0) ∧
      (let s := { chipWith r with transit := ⟨.stranded, h4, h5, 1⟩ }
       s.transit.state = .stranded ∧ r.state ≠ .closing ∧ r.bal + s.transit.amount ≤ 99999999) ∧
      (let s := { chipWith r with transit := ⟨.stranded, h4, h5, 2⟩ }
       s.transit.state = .stranded ∧ 99999999 < r.bal + s.transit.amount) := by decide +kernel

/-- Each request by handle in progress at an engine, on a sound account in either state, a CLOSING one, a suspect one, by its
flag and by its check code, a GONE one, an account with a hold; and on a record disturbed since the taking. -/
theorem test_meets_completions_byHandle :
    ∀ m ∈ [MgmtReq.read h4 false, .read h4 true, .update h4 7 0 0 1, .freeze h4, .thaw h4, .retire h4, .topup h4 (pay 1),
        .adjust h4 (pay (-1)), .restore h4 (pay 5) 0 0 1, .transitCredit h4],
      ∀ r ∈ [acct .active 500 40, acct .frozen 500 40, acct .closing 500 40, { acct .active 500 40 with suspect := true },
          { acct .active 500 40 with checkCode := 0 }, acct .gone 500 40, acctHeld 500 40, acct .active 99999999 40],
        let s := { chipWith r with transit := ⟨.stranded, h4, h5, 1⟩ }
        let t := doing s (mgmt m)
        t.mgmtOp 0 = some (s.readFor (mgmt m), m) ∧ (s.readFor (mgmt m)).record = r ∧
          (s.readFor (mgmt m)).transit.amount = 1 ∧
          (t.setRecord 4 { r with floor := 0 }).mgmtOp 0 = some (s.readFor (mgmt m), m) ∧
          (t.setRecord 4 { r with floor := 0 }).record 4 ≠ r := by decide +kernel

/-- What the records of those requests come to at their checks: a handle refused and current, in range and beyond. -/
theorem test_meets_completions_byHandle_checks :
    (handleTest h4 (acct .gone 500 40) = some .staleHandle ∧ handleTest h4 (acct .closing 500 40) = none ∧
        handleTest h4 (acct .frozen 500 40) = none ∧ (acct .active 500 40).verifies = true ∧
        (acctHeld 500 40).verifies = true ∧ (acctHeld 500 40).holds ≠ []) ∧
      (acct .active 500 40).bal + (pay 1).value ≤ 99999999 ∧ 99999999 < (acct .active 99999999 40).bal + (pay 1).value ∧
      (acct .active 99999999 40).bal + (pay (-1)).value ≤ 99999999 := by decide +kernel

/-- Masks 0, 1, 7 and 8; forms 0, 1 and 2; digits in the selected fields alone. -/
theorem test_meets_RecordsAreReadAndRewrittenOnCommand :
    (1 ≤ (1 : Byte).toNat ∧ (7 : Byte).toNat ≤ 7 ∧ 7 < (8 : Byte).toNat) ∧
      ((1 : Byte).toNat ≤ 1 ∧ (0 : Byte).toNat ≤ 1 ∧ 1 < (2 : Byte).toNat) ∧
      (pay 5).ok = true ∧ S8.ok ⟨0, 0⟩ = false ∧ B6.ok 0x10 = true ∧ B6.ok 0xA = false ∧
      ((1 : Byte).getLsbD 0 = true ∧ (1 : Byte).getLsbD 1 = false ∧ (2 : Byte).getLsbD 1 = true) ∧
      (∀ t ∈ (acctHeld 500 0).holds, ((chipHeld 500 0 held).hold t.entry.toNat).state ≠ .stalled) ∧
      ∀ i ∈ (chipHeld 500 0 held).deadlines, (chipHeld 500 0 held).timebase < i.deadline := by decide +kernel

/-- A suspect account with a STALLED hold, and one whose check code does not match; the one that is re-armed, and a LIVE hold
that is not. -/
theorem test_meets_RecordsAreReadAndRewrittenOnCommand_restore :
    let m := MgmtReq.restore h4 (pay 5) 0 0 1
    ∀ r ∈ [{ acctHeld 500 0 with suspect := true }, { acctHeld 500 0 with checkCode := 0 }],
      let s := { chipWith r with holds := [(7, { held with state := .stalled })] }
      (doing s (mgmt m)).mgmtOp 0 = some (s.readFor (mgmt m), m) ∧ handleTest h4 (s.readFor (mgmt m)).record = none ∧
        (s.readFor (mgmt m)).record.verifies = r.suspect ∧ (s.readFor (mgmt m)).record.holds = [tk] ∧
        (((doing s (mgmt m)).hold tk.entry.toNat).state == .stalled) = true ∧ (doing s (mgmt m)).isReady = true ∧
        ([tk].filter fun t => (s.hold t.entry.toNat).state == .stalled) = [tk] ∧
        ([tk].filter fun t => ((chipHeld 500 0 held).hold t.entry.toNat).state == .stalled) = [] ∧
        ∀ i ∈ (doing s (mgmt m)).deadlines, (doing s (mgmt m)).timebase < i.deadline := by decide +kernel

/-- A stale and a current ticket, a LIVE and a STALLED hold, a sound and a suspect account; a request whose ticket is stale
at its taking. -/
theorem test_meets_HoldCommandsActOnTheHold :
    (let s := chipHeld 500 400 held
     ticketCurrent ⟨7, 3⟩ (s.hold 7) = false ∧ ticketCurrent tk (s.hold tk.entry.toNat) = true ∧
       (s.hold tk.entry.toNat).state = .live ∧ (s.record (s.hold tk.entry.toNat).slot).verifies = true ∧
       (s.record (s.hold tk.entry.toNat).slot).suspect = false) ∧
      (let s := chipHeld 500 400 { held with state := .stalled }
       ticketCurrent tk (s.hold tk.entry.toNat) = true ∧ (s.hold tk.entry.toNat).state = .stalled) ∧
      { acctHeld 500 0 with suspect := true }.suspect = true ∧ { acctHeld 500 0 with checkCode := 0 }.verifies = false ∧
      (∀ m ∈ [MgmtReq.holdRead ⟨7, 3⟩, .holdRelease ⟨7, 3⟩, .holdCapture ⟨7, 3⟩],
        let s := chipHeld 500 400 held
        (doing s (mgmt m)).mgmtOp 0 = some (s.readFor (mgmt m), m) ∧ ticketOfGroup 0 ⟨7, 3⟩ (s.readFor (mgmt m)).entry = false) := by
  decide +kernel

/-- Each request by ticket in progress while the hold stands in the deadline queue, and while its expiry claim waits behind it;
on a LIVE hold of a sound account, a STALLED one, a suspect account, by its flag and by its check code. -/
theorem test_meets_HoldCommandsActOnTheHold_completions :
    ∀ m ∈ [MgmtReq.holdRead tk, .holdRelease tk, .holdCapture tk],
      ∀ r ∈ [acctHeld 500 400, { acctHeld 500 400 with suspect := true }, { acctHeld 500 400 with checkCode := 0 }],
        ∀ e ∈ [held, { held with state := .stalled }],
          let s := (chipHeld 500 400 e).setRecord 4 r
          let t := doing s (mgmt m)
          let u := { t with deadlines := [] }.modifyEngine 0 fun k => { k with expiry := [tk] }
          (t.mgmtOp 0 = some (s.readFor (mgmt m), m) ∧ u.mgmtOp 0 = t.mgmtOp 0) ∧
            ((s.readFor (mgmt m)).record = r ∧ (s.readFor (mgmt m)).entry = e ∧ ticketOfGroup 0 tk e = true) ∧
            (t.isQueued tk = true ∧ u.isQueued tk = false ∧ u.isClaimed 0 tk = true) ∧
            (∀ i ∈ t.deadlines, t.timebase < i.deadline) ∧ ∀ i ∈ u.deadlines, u.timebase < i.deadline := by decide +kernel

theorem test_meets_HoldCommandsActOnTheHold_free : (chipHeld 500 400 held).engineFree (laneOf 4) := by
  unfold State.engineFree
  decide +kernel

/-! ### Witnesses: resets and starts -/

/-- The period after a RESET: the row itself, a read, a command, other bytes, no byte. -/
theorem test_meets_ResetEventsClearTheVolatileStores :
    (busyChip.powered = true ∧ busyChip.power.mark = false) ∧
      { busyChip with power := { busyChip.power with mark := true } }.powered = true ∧ { chip.cmd with armed := true }.armed = true ∧
      rowOf .poll = .poll ∧ rowOf (.find 7) = .find (.block 7) := ⟨by decide +kernel, by decide +kernel, rfl, rfl, rfl⟩

/-- The RESET's answer, read whole in the period after it: as RESPONSE_READ and as bytes. -/
theorem test_meets_ResetEventsClearTheVolatileStores_read :
    ∃ t, exec .reset chip = .next t ∧ t.powered = true ∧ t.cmd.armed = true ∧ t.cmd.state = .reply ⟨24, .ok, .bare⟩ ∧
      (⟨24, .ok, .bare⟩ : MgmtResponse).bytes.length = 5 ∧ [(0 : Byte), 0, 0, 0, 0].length = 5 := ⟨_, rfl, by decide +kernel⟩

theorem test_meets_ResetEventsClearTheVolatileStores_canonical : busyChip.canonical := by
  unfold State.canonical
  decide +kernel

/-- A chip with RST low, one without its supply, one in RETAIN with and without it. -/
theorem test_meets_StartsBeginWithTheirCauses :
    let p := { State.reset.power with stage := .held }
    ({ p with rstLow := true }.rstLow = true ∧ { p with rstLow := true }.supply = true) ∧
      ({ p with supply := false }.supply = false ∧ { p with supply := false }.rstLow = false ∧
        { p with supply := false }.mode ≠ .retain) ∧
      ({ p with mode := .retain }.mode = .retain ∧ { p with mode := .retain }.supply = true ∧
        { p with mode := .retain }.rstLow = false) ∧
      ({ p with mode := .retain, supply := false }.mode = .retain ∧ { p with mode := .retain, supply := false }.supply = false) := by
  decide +kernel

theorem test_meets_WarmUpWritesTheColdDefaults :
    State.reset.power.stage = .warmUp ∧ State.reset.power.mark = true ∧
      { State.reset.power with mark := false }.stage = .warmUp := by decide +kernel

/-- The first and the last slot and bucket, and the register. -/
theorem test_meets_TheLongCheckVisitsTheStores :
    (∀ st ∈ [LongStage.scan 0, .scan 4095, .sweep 0, .sweep 1020, .transit],
      { State.reset with check := { CheckUnit.cleared with stage := st } }.check.stage = st) ∧
      (∀ st ∈ [AcctState.free, .new, .active, .frozen, .closing, .gone], (acct st 0 0).state = st ∧ (acct st 0 0).verifies = true) ∧
      { acct .active 0 0 with checkCode := 0 }.verifies = false ∧
      (handleTest h4 (acct .active 500 0) = none ∧ handleTest h4 Record.cold ≠ none) := by decide +kernel

/-- A CLOSING slot whose way stands in the bucket of its key, and one without a way. -/
theorem test_meets_TheLongCheckVisitsTheStores_ways :
    let s := { indexed with check := { CheckUnit.cleared with stage := .scan 4 } }
    s.check.stage = .scan 4 ∧ (acct .closing 0 0).key.toNat % 1021 = 1001 ∧ s.way 8008 = some ⟨1001, 4⟩ ∧
      8 * 1001 ≤ 8008 ∧ 8008 < 8 * 1001 + 8 ∧ State.reset.index = [] := by decide +kernel

/-- Two ways of one bucket name slot 4, as after a disturbance and an enrolment (log entry 44): the lower has no earlier
way that names it. -/
theorem test_meets_TheLongCheckVisitsTheStores_twoWays :
    let s := { (indexed.setWay 8009 (some ⟨2022, 4⟩)).setRecord 4 (acct .gone 0 0) with
      check := { CheckUnit.cleared with stage := .scan 4 } }
    s.check.stage = .scan 4 ∧ (s.record 4).state = .gone ∧ (s.record 4).key.toNat % 1021 = 1001 ∧
      s.way 8008 = some ⟨1001, 4⟩ ∧ s.way 8009 = some ⟨2022, 4⟩ ∧ (2022 : Nat) % 1021 = 1001 := by decide +kernel

/-- A start with an account, and a transit register that calls for a return step. -/
def starting : State :=
  { State.reset with accounts := [(4, acct .active 500 0)], transit := ⟨.out, h4, h5, 20⟩,
                     power := { State.reset.power with stage := .longCheck, mark := false, cause := .pinReset } }

theorem test_meets_ReadyBringsTheChipUp :
    starting.power.stage = .longCheck ∧ starting.restsUntilReady ∧ starting.rdyRule ∧ (∀ l, (starting.link l).fifo = []) ∧
      1 ≤ starting.cmd.threshold ∧ starting.check.stage ≠ .done := by
  unfold State.restsUntilReady State.rdyRule
  decide +kernel

theorem test_meets_ReadyBringsTheChipUp_canonical : starting.canonical := by
  unfold State.canonical
  decide +kernel

theorem test_phaseReady_posts_the_return :
    ∃ t, exec .phaseReady starting = .next t ∧ (t.engine 0).transit = some (.ret none) ∧
      t.notices.list = [.warmStart .pinReset 0 .returnPosted] ∧ t.notices.attn = true := ⟨_, rfl, by decide +kernel⟩

/-- The same where the long check has been finished by visits before. -/
theorem test_meets_ReadyBringsTheChipUp_done :
    { starting with check := { starting.check with stage := .done, outcome := .returnPosted } }.check.stage = .done ∧
      { starting with check := { starting.check with stage := .done, outcome := .returnPosted } }.check.outcome =
        .returnPosted := by decide +kernel

theorem test_meets_DisturbancesChangeStoredFieldsAlone : (4095 : Nat) < 4096 ∧ ¬(4096 : Nat) < 4096 := by decide

/-! ### One step each, worked out by hand -/

/-- R54: spendable 600; a STRICT debit of 600 leaves minus 100, below the low mark of 40. -/
theorem test_debit_strict :
    ∃ t, exec (.debit 0) (doing (chipWith (acct .active 500 40)) (term (.debit h4 (pay 600) 0))) = .next t ∧
      t.record 4 = acct .active (-100) 40 ∧ t.notices.list = [.lowBalance h4 (pay (-100))] := ⟨_, rfl, by decide +kernel⟩

/-- R160: a notice that finds 32 in the queue is dropped and sets the lost flag; the debit stands. -/
theorem test_notice_dropped :
    let full := { chipWith (acct .active 500 40) with
      notices := { list := List.replicate 32 (.coldStart .cold), lost := false, attn := true } }
    ∃ t, exec (.debit 0) (doing full (term (.debit h4 (pay 600) 0))) = .next t ∧ t.record 4 = acct .active (-100) 40 ∧
      t.notices = { full.notices with lost := true } := ⟨_, rfl, by decide +kernel⟩

/-- R34: the activate step on a slot whose flag is set answers SUSPECT, though its check code matches. -/
theorem test_activateStep_suspect :
    ∃ t, exec (.activateStep 0) (doing (chipWith { acct .new 500 0 with suspect := true }) (mgmt (.activate 4))) = .next t ∧
      (t.record 4).state = .active ∧ t.notices.list = [] ∧ t.cmd.state = .reply ⟨1, .suspect, .enrolled h4⟩ :=
  ⟨_, rfl, by decide +kernel⟩

/-- R165, R167: the entry into RETAIN records the cause of the next start. -/
theorem test_mode_retain :
    ∃ t, exec (.mode 3) chip = .next t ∧ t.power.mode = .retain ∧ t.power.stage = .held ∧ t.power.cause = .retainWake :=
  ⟨_, rfl, by decide +kernel⟩

/-- R76: two units at 100 for 600 seconds. -/
theorem test_authorize :
    ∃ t, exec (.authorize 0) (chipFare.setEngine 0 { Engine.cleared with
        op := some { chipFare.readFor (term (.authorize h4 0 2 0)) with alloc := .allotted 7 } }) = .next t ∧
      (t.record 4).held = 200 ∧ (t.record 4).holds = [⟨7, 0⟩] ∧ (t.hold 7).amount = 200 ∧ t.deadlines = [⟨⟨7, 0⟩, 600⟩] :=
  ⟨_, rfl, by decide +kernel⟩

/-- R82: one unit of two is charged; the entry's serial is raised and the item leaves the queue. -/
theorem test_settle :
    ∃ t, exec (.settle 0) (doing (chipHeld 500 0 held) (term (.settle tk 1))) = .next t ∧
      t.record 4 = acct .active 400 0 ∧ t.hold 7 = HoldEntry.freed 3 ∧ t.deadlines = [] := ⟨_, rfl, by decide +kernel⟩

/-- R96, R103: the second in which the hold falls due, in STANDBY: the chip wakes and the claim is posted. -/
theorem test_timebaseRaise :
    ∃ t, exec .timebaseRaise { chipHeld 500 0 held with timebase := 599, power := { chip.power with mode := .standby, resume := .economy } }
        = .next t ∧
      t.timebase = 600 ∧ t.deadlines = [] ∧ (t.engine 0).expiry = [tk] ∧ t.power.mode = .economy ∧ t.check.timer = some 60 :=
  ⟨_, rfl, by decide +kernel⟩

/-- R144, R145, R146: a whole frame on an idle link. -/
theorem test_frame_arrives :
    let k := { Link.cold with enabled := true, rdy := true, high := 1, resume := 0, receiver := .inFrame [165] }
    ∃ t, exec (.frameComplete 1 frame4.tail) (chip.setLink 1 k) = .next t ∧ (t.link 1).fifo = [frame4] ∧
      (t.link 1).rdy = false := ⟨_, rfl, by decide +kernel⟩

/-- R144: at 9,600 baud the twenty-first byte of a frame comes too late; here it is a start byte and begins a frame. -/
theorem test_frame_too_slow :
    let k := { Link.cold with enabled := true, rdy := true, baud := 0, receiver := .inFrame [165] }
    ∃ t, exec (.frameComplete 1 (21 :: List.replicate 18 0 ++ [165])) (chip.setLink 1 k) = .next t ∧
      t.link 1 = { k with receiver := .inFrame [165], badCrc := 1 } := ⟨_, rfl, by decide +kernel⟩

/-- R66, R69: the destination refuses with OVER and the register turns RETURNING. -/
theorem test_transitStep_refused :
    let s := { three with transit := ⟨.out, h5, h4, 99999500⟩ }
    ∃ t, exec (.transitStep 0) (doing s (.transit .step2)) = .next t ∧ t.transit.state = .returning ∧
      t.accounts = three.accounts ∧ (t.engine 1).transit = some (.ret (some .overRange)) := ⟨_, rfl, by decide +kernel⟩

/-- R115: seven keys of one bucket leave a way, eight do not. -/
theorem test_enrolSearch_indexFull :
    let s := { indexed with
      index := (List.range 8).map fun w => (8 * 5 + w, some ⟨BitVec.ofNat 32 (5 + 1021 * (w + 1)), 4⟩)
      indexUnit := { IndexUnit.cleared with mgmt := some (.search (enrolment 5)), op := some .mgmt }
      cmd := busyUnit.cmd }
    ∃ t, exec .enrolSearch s = .next t ∧ t.cmd.state = .reply ⟨1, .indexFull, .bare⟩ := ⟨_, rfl, by decide +kernel⟩

/-- R168: the RESET that was armed takes effect at the end of the next select period. -/
theorem test_reset_takes_effect :
    ∃ t, exec .softResetEffect { chip with cmd := { chip.cmd with armed := true } } = .next t ∧ t.power.cause = .softReset ∧
      t.power.stage = .warmUp ∧ t.cmd.armed = false := ⟨_, rfl, by decide +kernel⟩

end Sys2Proof.Tests
end

section
/-! The router's direct answers (R45): which frames are answered at once and with what status, when their head frame is
takeable, what the take does at the link, and how the response leaves. -/

namespace Sys2Proof.Machine

/-! ### The arms of the dispatch -/

theorem exec_routerTake_eq (s : State) : exec .routerTake s = execRouterTake s := rfl

theorem exec_responseSent_eq (l : Lane) (s : State) : exec (.responseSent l) s = .next (s.modifyLink l Link.sent) := rfl

/-! ### The link's operations, field by field -/

/-- R148: the beginning of a transmission moves the transmitter alone. -/
@[simp] theorem Link.txBegin_frame (k : Link) :
    k.txBegin.tags = k.tags ∧ k.txBegin.fifo = k.fifo ∧ k.txBegin.queue = k.queue ∧ k.txBegin.lastSent = k.lastSent := by
  unfold Link.txBegin
  split <;> simp

@[simp] theorem Link.popFrame_fifo (k : Link) : k.popFrame.fifo = k.fifo.tail := by
  unfold Link.popFrame
  dsimp only
  split <;> rfl

/-- R146: a take moves the FIFO and RDY alone. -/
@[simp] theorem Link.popFrame_frame (k : Link) :
    k.popFrame.tags = k.tags ∧ k.popFrame.queue = k.queue ∧ k.popFrame.epoch = k.epoch := by
  unfold Link.popFrame
  dsimp only
  split <;> simp

/-- R147: no response under a free tag waits in the queue. -/
theorem Link.answersTagged.tag_ne_of_free {k : Link} (hk : k.answersTagged) {tag : Lane} (hfree : k.tags.get tag = false) :
    ∀ r ∈ k.queue, commandTag r.cmd ≠ tag := by
  rintro r hr rfl
  have hbusy := hk.2 r hr
  rw [hfree] at hbusy
  contradiction

/-- R148: the sent head of the queue frees its tag, and is what left the link last. -/
theorem Link.sent_of_head {k : Link} {r : Response} (hs : k.sending = true) (hq : k.queue.head? = some r) :
    k.sent.tags = k.tags.set (commandTag r.cmd) false ∧ k.sent.lastSent = some r := by
  obtain ⟨rest, hrest⟩ := List.head?_eq_some_iff.1 hq
  simp [Link.sent, hrest, hs]

/-! ### The frames that are answered at once (R41, R43) -/

theorem frameErrorStatus_cases (e : FrameError) :
    frameErrorStatus e = .badCommand ∨ frameErrorStatus e = .badLength ∨ frameErrorStatus e = .badDigit := by
  cases e <;> simp [frameErrorStatus]

/-- R43: a request by ticket that is answered at once is answered HOLD_GONE. -/
theorem routeTicket_answer {s : State} {t : Ticket} {r : TermReq} {st : Status} (h : routeTicket s t r = .answer st) :
    st = .holdGone := by
  unfold routeTicket at h
  dsimp only at h
  split at h
  case isTrue => exact Route.noConfusion h
  case isFalse => exact (Route.answer.inj h).symm

/-- R42 to R44: of the well-formed requests only those by ticket can be answered at once. -/
theorem routeRequest_answer {s : State} {r : TermReq} {st : Status} (h : routeRequest s r = .answer st) :
    st = .holdGone := by
  cases r with
  | lookup => exact Route.noConfusion h
  | read => exact Route.noConfusion h
  | authorize => exact Route.noConfusion h
  | debit => exact Route.noConfusion h
  | probe => exact Route.noConfusion h
  | settle => exact routeTicket_answer h
  | extend => exact routeTicket_answer h
  | cancel => exact routeTicket_answer h

/-- R41, R43: the four statuses of a direct answer. -/
theorem routeFrame_answer_status {s : State} {frame : List Byte} {st : Status} (h : routeFrame s frame = .answer st) :
    st = .badCommand ∨ st = .badLength ∨ st = .badDigit ∨ st = .holdGone := by
  unfold routeFrame at h
  split at h
  next e _ =>
    obtain rfl := Route.answer.inj h
    rcases frameErrorStatus_cases e with hs | hs | hs <;> simp [hs]
  next => simp [routeRequest_answer h]

/-! ### The take (R39, R40) -/

/-- R40: the four conditions on a head frame. -/
theorem State.takeable_of_head {s : State} {l : Lane} {frame : List Byte} {rest : List (List Byte)}
    (hf : (s.link l).fifo = frame :: rest) :
    s.takeable l = (s.working && (s.link l).enabled && !(s.link l).tags.get (commandTag (frameCommand frame)) &&
      s.routeOpen l (routeFrame s frame)) := by
  simp [State.takeable, hf]

/-- R40, R45: a direct answer needs no place at any target. -/
theorem State.takeable_of_answer {s : State} {l : Lane} {frame : List Byte} {rest : List (List Byte)} {st : Status}
    (hf : (s.link l).fifo = frame :: rest) (hroute : routeFrame s frame = .answer st) :
    s.takeable l = (s.working && (s.link l).enabled && !(s.link l).tags.get (commandTag (frameCommand frame))) := by
  rw [State.takeable_of_head hf, hroute, State.routeOpen, Bool.and_true]

/-- R40: a frame is taken only when its tag is free. -/
theorem State.tag_free_of_takeable {s : State} {l : Lane} {frame : List Byte} {rest : List (List Byte)}
    (hf : (s.link l).fifo = frame :: rest) (ht : s.takeable l = true) :
    (s.link l).tags.get (commandTag (frameCommand frame)) = false := by
  rw [State.takeable_of_head hf] at ht
  simp only [Bool.and_eq_true, Bool.not_eq_true'] at ht
  obtain ⟨⟨_, hfree⟩, _⟩ := ht
  exact hfree

/-- R39: a takeable head frame at the link of the pointer is the one taken. -/
theorem exec_routerTake_at_pointer {s : State} {l : Lane} {frame : List Byte} {rest : List (List Byte)}
    (hp : s.router = l) (ht : s.takeable l = true) (hf : (s.link l).fifo = frame :: rest) :
    exec .routerTake s = .next (s.takeFrame l frame) := by
  simp [exec_routerTake_eq, execRouterTake, rotation, hp, ht, hf]

/-- R39: the link of a taken frame, before the request is delivered or answered. -/
def Link.taken (k : Link) (frame : List Byte) : Link :=
  { k with tags := k.tags.set (commandTag (frameCommand frame)) true }.popFrame

theorem Link.taken_fifo (k : Link) (frame : List Byte) : (k.taken frame).fifo = k.fifo.tail := by simp [Link.taken]

theorem Link.taken_tag (k : Link) (frame : List Byte) : (k.taken frame).tags.get (commandTag (frameCommand frame)) = true := by
  simp [Link.taken]

theorem Link.taken_queue (k : Link) (frame : List Byte) : (k.taken frame).queue = k.queue := by simp [Link.taken]

theorem Link.taken_epoch (k : Link) (frame : List Byte) : (k.taken frame).epoch = k.epoch := by simp [Link.taken]

/-- R39: the state between the take of a frame and its delivery: the frame is out of its FIFO and the pointer has moved. -/
def State.afterTake (s : State) (l : Lane) (frame : List Byte) : State :=
  { s.modifyLink l (Link.taken · frame) with router := l + 1 }

theorem State.afterTake_link (s : State) (l : Lane) (frame : List Byte) :
    (s.afterTake l frame).link l = (s.link l).taken frame :=
  State.link_modifyLink_same s l (Link.taken · frame)

/-- R45: a taken frame that is answered at once is a response at its own link. -/
theorem State.takeFrame_of_answer {s : State} {l : Lane} {frame : List Byte} {st : Status}
    (hroute : routeFrame s frame = .answer st) :
    s.takeFrame l frame = (s.afterTake l frame).answer ⟨l, frameCommand frame, (s.link l).epoch⟩ st .bare := by
  unfold State.takeFrame
  dsimp only
  rw [hroute]
  rfl

/-- R45: the take of a direct answer places the response at its own link at that same event. -/
theorem State.takeFrame_answer_link {s : State} {l : Lane} {frame : List Byte} {st : Status}
    (hroute : routeFrame s frame = .answer st) :
    (s.takeFrame l frame).link l =
      ((s.link l).taken frame).arrive (s.link l).epoch ⟨frameCommand frame, st, .bare⟩ := by
  rw [State.takeFrame_of_answer hroute, State.answer, State.link_modifyLink_same, State.afterTake_link]

/-- R45: the take of a direct answer leaves the group engines and their queues alone. -/
theorem State.takeFrame_answer_engines {s : State} {l : Lane} {frame : List Byte} {st : Status}
    (hroute : routeFrame s frame = .answer st) : (s.takeFrame l frame).engines = s.engines := by
  simp [State.takeFrame_of_answer hroute, State.afterTake]

/-- R45, R147: the response to a taken frame joins the queue, its tag having been free. -/
theorem Link.taken_arrive_queue {k : Link} (hk : k.answersTagged) {frame : List Byte}
    (hfree : k.tags.get (commandTag (frameCommand frame)) = false) (st : Status) :
    ((k.taken frame).arrive k.epoch ⟨frameCommand frame, st, .bare⟩).queue =
      k.queue ++ [⟨frameCommand frame, st, .bare⟩] := by
  rw [Link.arrive_queue (Link.taken_epoch k frame) (Link.taken_tag k frame), Link.taken_queue]
  rw [Link.taken_queue]
  exact hk.tag_ne_of_free hfree

/-- R45: the link after the take of a direct answer: the frames behind come to the head, the tag is busy, and the
response waits. -/
theorem State.takeFrame_answer_spec {s : State} {l : Lane} {frame : List Byte} {rest : List (List Byte)} {st : Status}
    (hs : s.answersTagged) (hf : (s.link l).fifo = frame :: rest) (hroute : routeFrame s frame = .answer st)
    (ht : s.takeable l = true) :
    ((s.takeFrame l frame).link l).fifo = rest ∧
      ((s.takeFrame l frame).link l).tags.get (commandTag (frameCommand frame)) = true ∧
      ((s.takeFrame l frame).link l).queue = (s.link l).queue ++ [⟨frameCommand frame, st, .bare⟩] := by
  rw [State.takeFrame_answer_link hroute]
  refine ⟨?_, ?_, Link.taken_arrive_queue (hs l) (State.tag_free_of_takeable hf ht) st⟩
  · rw [Link.arrive_frame]
    exact (Link.taken_fifo _ _).trans (congrArg List.tail hf)
  · rw [Link.arrive_frame]
    exact Link.taken_tag _ _

/-! ### R45 -/

/-- R169: a bare response is its command byte and its status. -/
theorem Response.bytes_bare (cmd : Byte) (st : Status) : Response.bytes ⟨cmd, st, .bare⟩ = frameOf cmd [st.code] := rfl

/-- Settles O20: the route decides the status and the takeability, the take at the pointer is takeFrame, and RESPONSE_SENT
frees the tag of the head of the queue. -/
theorem directAnswersPassThroughTheirTags : Obligations.DirectAnswersPassThroughTheirTags := by
  intro s l frame rest st hs hf hroute
  refine ⟨routeFrame_answer_status hroute, State.takeable_of_answer hf hroute, ?take, ?sent, Response.bytes_bare _ st⟩
  case take =>
    intro ht hp
    obtain ⟨hfifo, htag, hqueue⟩ := State.takeFrame_answer_spec hs hf hroute ht
    exact ⟨_, exec_routerTake_at_pointer hp ht hf, hfifo, State.takeFrame_answer_engines hroute, htag, hqueue⟩
  case sent =>
    intro t hsending hhead
    obtain ⟨htags, hlast⟩ := Link.sent_of_head hsending hhead
    refine ⟨_, exec_responseSent_eq l t, ?_, ?_⟩
    · rw [State.link_modifyLink_same, htags, Four.get_set_same]
    · rw [State.link_modifyLink_same, hlast]

end Sys2Proof.Machine
end

section
/-! The tariff commands of the management port (R125, R126): what a TARIFF_SET and a TARIFF_READ do to a port that takes
them, and that a read answers what the last OK set wrote. -/

namespace Sys2Proof.Machine

/-! ### The arms of the dispatch -/

theorem exec_tariffSet_eq (n enabled : Byte) (price maxUnits : B4) (window : B6) (action : Byte) (s : State) :
    exec (.tariffSet n enabled price maxUnits window action) s =
      .next (s.command 16 (takeTariffSet n enabled price maxUnits window action)) := rfl

theorem exec_tariffRead_eq (n : Byte) (s : State) : exec (.tariffRead n) s = .next (s.command 17 (takeTariffRead n)) := rfl

/-! ### TARIFF_READ -/

/-- R126: a number above 15 is refused, and nothing but the reply is written. -/
theorem exec_tariffRead_outOfRange {s : State} (ho : s.portOpen) {n : Byte} (hn : 15 < n.toNat) :
    exec (.tariffRead n) s = .next (s.replied 17 .badRange .bare) := by
  rw [exec_tariffRead_eq, State.command_open 17 _ ho, takeTariffRead, if_pos hn, State.reply_closeSelect]

/-- R126: a number in range is answered with its entry, which the select period has not touched. -/
theorem exec_tariffRead_inRange {s : State} (ho : s.portOpen) {n : Byte} (hn : n.toNat ≤ 15) :
    exec (.tariffRead n) s = .next (s.replied 17 .ok (.tariff (s.tariff n.toNat))) := by
  have hentry : s.openSelect.tariff n.toNat = s.tariff n.toNat := by simp
  rw [exec_tariffRead_eq, State.command_open 17 _ ho, takeTariffRead, if_neg (Nat.not_lt.2 hn), hentry,
    State.reply_closeSelect]

/-! ### TARIFF_SET -/

/-- R125: a TARIFF_SET is refused with BAD_DIGIT or BAD_RANGE, and with no other status. -/
theorem tariffRefusal_status {n enabled : Byte} {price maxUnits : B4} {window : B6} {action : Byte} {st : Status}
    (h : tariffRefusal n enabled price maxUnits window action = some st) : st = .badDigit ∨ st = .badRange := by
  unfold tariffRefusal at h
  split at h
  · exact .inl (Option.some.inj h).symm
  · split at h
    · exact .inr (Option.some.inj h).symm
    · contradiction

/-- R125: a TARIFF_SET that passes the range check names one of the sixteen entries. -/
theorem number_le_of_tariffRefusal_eq_none {n enabled : Byte} {price maxUnits : B4} {window : B6} {action : Byte}
    (h : tariffRefusal n enabled price maxUnits window action = none) : n.toNat ≤ 15 := by
  unfold tariffRefusal at h
  split at h
  · contradiction
  · split at h
    · contradiction
    next hrange =>
      simp only [Bool.or_eq_true, decide_eq_true_eq, not_or] at hrange
      obtain ⟨⟨⟨⟨⟨hnumber, -⟩, -⟩, -⟩, -⟩, -⟩ := hrange
      exact Nat.not_lt.1 hnumber

/-- R125: a refused TARIFF_SET leaves its status in REPLY and writes nothing else. -/
theorem exec_tariffSet_refused {s : State} (ho : s.portOpen) {n enabled : Byte} {price maxUnits : B4} {window : B6}
    {action : Byte} {st : Status} (h : tariffRefusal n enabled price maxUnits window action = some st) :
    exec (.tariffSet n enabled price maxUnits window action) s = .next (s.replied 16 st .bare) := by
  rw [exec_tariffSet_eq, State.command_open 16 _ ho, takeTariffSet, h]
  exact congrArg _ (State.reply_closeSelect s 16 st .bare)

/-- R125: a TARIFF_SET that passes its checks is answered with the entry its fields spell, and writes that entry whole. -/
theorem exec_tariffSet_written {s : State} (ho : s.portOpen) {n enabled : Byte} {price maxUnits : B4} {window : B6}
    {action : Byte} (h : tariffRefusal n enabled price maxUnits window action = none) :
    exec (.tariffSet n enabled price maxUnits window action) s =
      .next ((s.replied 16 .ok (.tariff (tariffOf enabled price maxUnits window action))).setTariff n.toNat
        (tariffOf enabled price maxUnits window action)) := by
  rw [exec_tariffSet_eq, State.command_open 16 _ ho, takeTariffSet, h]
  rfl

/-- R125: a TARIFF_SET answered OK named an entry of the table, and that entry stands as the answer tells it. -/
theorem exec_tariffSet_ok_entry {s t : State} (ho : s.portOpen) {n enabled : Byte} {price maxUnits : B4} {window : B6}
    {action : Byte} {entry : Tariff} (ht : exec (.tariffSet n enabled price maxUnits window action) s = .next t)
    (hok : t.cmd.state = .reply ⟨16, .ok, .tariff entry⟩) : n.toNat ≤ 15 ∧ t.tariff n.toNat = entry := by
  cases h : tariffRefusal n enabled price maxUnits window action with
  | some st =>
    rw [exec_tariffSet_refused ho h] at ht
    cases ht
    have hst : st = .ok := congrArg MgmtResponse.status (CmdState.reply.inj hok)
    rcases tariffRefusal_status h with rfl | rfl <;> contradiction
  | none =>
    rw [exec_tariffSet_written ho h] at ht
    cases ht
    have hentry : tariffOf enabled price maxUnits window action = entry :=
      MgmtBody.tariff.inj (congrArg MgmtResponse.body (CmdState.reply.inj hok))
    exact ⟨number_le_of_tariffRefusal_eq_none h, by rw [State.tariff_setTariff_same, hentry]⟩

/-! ### R126 -/

/-- Settles O44: the number decides between BAD_RANGE and the entry, and an OK TARIFF_SET leaves in the table the entry of
its answer, which a read of the same table answers. -/
theorem tariffReadAnswersTheEntry : Obligations.TariffReadAnswersTheEntry := by
  refine ⟨fun s n ho => ⟨exec_tariffRead_outOfRange ho, exec_tariffRead_inRange ho⟩, ?afterSet⟩
  case afterSet =>
    intro s t u n enabled action price maxUnits window entry ho ht hok hu htable
    obtain ⟨hn, hentry⟩ := exec_tariffSet_ok_entry ho ht hok
    have hread : u.tariff n.toNat = entry := (congrArg (Table.get Tariff.cold · n.toNat) htable).trans hentry
    rw [exec_tariffRead_inRange hu hn, hread]

end Sys2Proof.Machine
end

section
/-! LINK_READ (R151): what it does to a port that takes it, and that the fields of its answer are the link's settings and
state. -/

namespace Sys2Proof.Machine

/-! ### The arm of the dispatch -/

theorem exec_linkRead_eq (link : Byte) (s : State) :
    exec (.linkRead link) s = .next (s.command 19 (takeLinkRead link)) := rfl

/-! ### The fields of the answer -/

/-- R144: a receiver is busy when it is in either state but IDLE. -/
theorem Receiver.busy_eq (r : Receiver) : r.busy = decide (r ≠ .idle) := by
  cases r <;> rfl

/-- A list with a Boolean at its head holds one `true` more when the head is `true`. -/
theorem count_true_cons (b : Bool) (bs : List Bool) : (b :: bs).count true = b.toNat + bs.count true := by
  cases b
  · exact (List.count_cons_of_ne Bool.false_ne_true).trans (Nat.zero_add _).symm
  · exact List.count_cons_self.trans (Nat.add_comm _ _)

/-- R147, R151: the number of busy tags is the number of tags whose mark is set. -/
theorem Link.busyTags_eq (k : Link) :
    k.busyTags = [k.tags.at0, k.tags.at1, k.tags.at2, k.tags.at3].count true := by
  simp only [Link.busyTags, count_true_cons, List.count_nil, Nat.add_zero, Nat.add_assoc]

/-- R151: the answer's body, field by field. -/
theorem Link.readBody_eq (k : Link) :
    k.readBody = .linkRead k.enabled k.baud k.high k.resume k.epoch (decide (k.receiver ≠ .idle)) k.fifo.length
      ([k.tags.at0, k.tags.at1, k.tags.at2, k.tags.at3].count true) k.queue.length k.rdy k.hld k.badCrc k.overrun := by
  rw [Link.readBody, Receiver.busy_eq, Link.busyTags_eq]

/-! ### LINK_READ -/

/-- An answer given at once beside a write of a link: the write stands in the state that the select period leaves. -/
theorem State.setLink_reply_closeSelect (s : State) (l : Lane) (k : Link) (op : Byte) (st : Status) (body : MgmtBody) :
    ((s.openSelect.setLink l k).reply op st body).closeSelect = (s.replied op st body).setLink l k :=
  rfl

/-- R151: a link number above 3 is refused, and nothing but the reply is written. -/
theorem exec_linkRead_outOfRange {s : State} (ho : s.portOpen) {link : Byte} (hl : 3 < link.toNat) :
    exec (.linkRead link) s = .next (s.replied 19 .badRange .bare) := by
  rw [exec_linkRead_eq, State.command_open 19 _ ho, takeLinkRead, if_pos hl, State.reply_closeSelect]

/-- R151: a link number in range is answered with the link as the select period found it, and the same completion clears
the bad-CRC count and the overrun flag. -/
theorem exec_linkRead_inRange {s : State} (ho : s.portOpen) {link : Byte} (hl : link.toNat ≤ 3) :
    exec (.linkRead link) s =
      .next ((s.replied 19 .ok (s.link (laneOf link.toNat)).readBody).setLink (laneOf link.toNat)
        { s.link (laneOf link.toNat) with badCrc := 0, overrun := false }) := by
  have hlink : s.openSelect.link (laneOf link.toNat) = s.link (laneOf link.toNat) := by simp
  rw [exec_linkRead_eq, State.command_open 19 _ ho, takeLinkRead, if_neg (Nat.not_lt.2 hl), hlink,
    State.setLink_reply_closeSelect]

/-! ### R151 -/

/-- Settles O47: the number decides between BAD_RANGE and the answer, whose body is the link's settings and state. -/
theorem linkReadAnswersAndClears : Obligations.LinkReadAnswersAndClears := by
  intro s link ho
  refine ⟨exec_linkRead_outOfRange ho, fun hl => ?inRange⟩
  case inRange => rw [exec_linkRead_inRange ho hl, Link.readBody_eq]

end Sys2Proof.Machine
end

section
/-! POLL (R156): what the unit answers in any phase, and where the answer goes in BUSY and out of it. -/

namespace Sys2Proof.Machine

/-! ### The arm of the dispatch -/

theorem exec_poll_eq (s : State) : exec .poll s = .next (s.command 0 takePoll) := rfl

/-! ### The answer -/

/-- R156: the body of the answer to a POLL that finds the state `s`. Its mode is the one the select wakes the chip to (R164);
nothing else that it tells is changed by the select. -/
def State.pollBody (s : State) : MgmtBody :=
  .poll (decide (s.power.stage = .ready)) s.wake.power.mode s.isBusy s.notices.list.length s.notices.lost s.transit.state

theorem State.isReady_eq_decide (s : State) : s.isReady = decide (s.power.stage = .ready) := by
  rw [State.isReady, Bool.eq_iff_iff, beq_iff_eq, decide_eq_true_iff]

/-- R156: in an open select period POLL is answered at once, OK, with the body above. -/
theorem takePoll_openSelect (s : State) : takePoll s.openSelect = s.openSelect.answerAtOnce 0 .ok s.pollBody := by
  have hnotices : s.openSelect.notices = s.notices := by simp
  have htransit : s.openSelect.transit = s.transit := by simp
  rw [takePoll, State.openSelect_isReady, State.isReady_eq_decide, State.openSelect_power, State.openSelect_isBusy,
    hnotices, htransit, State.pollBody]

/-- R155: neither STARTING nor BUSY holds a POLL back. -/
theorem State.screened_poll (s : State) (take : State → State) : s.screened 0 take = take s := by
  have hpoll : ((0 : Byte) != 0) = false := bne_self_eq_false 0
  simp only [State.screened, hpoll, Bool.and_false, Bool.false_eq_true, if_false]

/-- R153, R156: a POLL block, in any phase: the answer goes to the immediate slot in BUSY, else to REPLY. -/
theorem exec_poll_answered {s : State} (hp : s.powered = true) (ha : s.cmd.armed = false) :
    exec .poll s = .next (
      if s.isBusy = true then
        { s.wake with cmd := { s.cmd with immediate := some ⟨0, .ok, s.pollBody⟩, selected := false, sdo := [] } }
      else s.replied 0 .ok s.pollBody) := by
  rw [exec_poll_eq, State.command_unarmed 0 _ hp ha, State.screened_poll, takePoll_openSelect,
    State.answerAtOnce_closeSelect]

/-! ### R156 -/

/-- Settles O43: the answer is the same in every state of the unit; whether it is BUSY decides between the immediate slot
and REPLY. -/
theorem pollAnswersThePhase : Obligations.PollAnswersThePhase := by
  intro s hp ha answer
  rw [exec_poll_answered hp ha]
  refine ⟨fun hidle => ?idleOrReply, fun hbusy => ?busy⟩
  case idleOrReply =>
    rw [if_neg (Bool.eq_false_iff.1 hidle)]
    exact ⟨_, rfl, rfl, rfl, rfl⟩
  case busy =>
    rw [if_pos hbusy]
    exact ⟨_, rfl, rfl, rfl, hbusy, rfl⟩

end Sys2Proof.Machine
end

section
/-! The invariants of power, rest, the command unit's task, the key index and the holds along every step (R3, R37, R98, R109,
R153, R162 to R167). -/

namespace Sys2Proof.Machine

/-! ### The command in progress, the key index, the holds -/

/-- On an empty queue the block idles, or makes the long check's next visit. -/
theorem step_empty {s : State} (h : s.pending = []) : step s = .next s.idle := by
  rw [step, h]

theorem step_front {s : State} {c : Instr} {rest : List Instr} (h : s.pending = c :: rest) :
    step s = exec c (s.withPending rest) := by
  rw [step, h]

theorem State.idle_of_longCheck {s : State} (h : s.power.stage = .longCheck) : s.idle = s.longCheckVisit := by
  simp [State.idle, h]

theorem State.idle_of_not_longCheck {s : State} (h : s.power.stage ≠ .longCheck) : s.idle = s := by
  simp [State.idle, h]

/-- A step idles, makes a visit of the long check, or runs the command at the front of the queue. -/
theorem step_cases {s t : State} (h : step s = .next t) :
    t = s ∨ (s.power.stage = .longCheck ∧ t = s.longCheckVisit) ∨
      ∃ c rest, s.pending = c :: rest ∧ exec c (s.withPending rest) = .next t := by
  cases hq : s.pending with
  | nil =>
    rw [step_empty hq] at h
    injection h with h
    by_cases hs : s.power.stage = .longCheck
    · exact .inr (.inl ⟨hs, by rw [← h, State.idle_of_longCheck hs]⟩)
    · exact .inl (by rw [← h, State.idle_of_not_longCheck hs])
  | cons c rest => exact .inr (.inr ⟨c, rest, rfl, step_front hq ▸ h⟩)

theorem State.isBusy_longCheckVisit (s : State) : s.longCheckVisit.isBusy = s.isBusy := by
  rw [longCheckOnly_visit]
  rfl

theorem step_oneTask {s t : State} (hc : s.canonical) (h : s.oneTask) (ht : step s = .next t) : t.oneTask := by
  rcases step_cases ht with rfl | ⟨-, rfl⟩ | ⟨c, rest, -, ht⟩
  · exact h
  · exact (NoTask.longCheckVisit hc).oneTask (State.isBusy_longCheckVisit s) h
  · exact exec_oneTask c (s := s.withPending rest) hc h ht

/-- Settles O14: a step idles, visits the long check, or runs a command, and each keeps the one task and the index. -/
theorem everyStepKeepsEveryKeyInOneWay : Obligations.EveryStepKeepsEveryKeyInOneWay :=
  fun _ _ hc htask hindex ht => step_oneTask hc ⟨htask, hindex⟩ ht

theorem step_books {s t : State} (hc : s.canonical) (hp : s.powerRule) (hr : s.restsUntilReady) (h1 : s.oneTask)
    (hdis : ∀ n v rest, s.pending ≠ .retainedStoreDisturbance (.record n (.stateCode v)) :: rest) (hb : s.books)
    (ht : step s = .next t) : t.books := by
  rcases step_cases ht with rfl | ⟨hs, rfl⟩ | ⟨c, rest, hq, ht⟩
  · exact hb
  · exact books_longCheckVisit hb hr (State.notReady_of_stage hs (by decide))
  · exact exec_books c (s := s.withPending rest) hc hp hr h1 hb (fun n v hcv => hdis n v rest (hcv ▸ hq)) ht

/-- Settles O15: a step idles, visits the long check, or runs a command other than a disturbance of a stored state, and each
keeps the books. -/
theorem everyStepKeepsHoldsAndDeadlines : Obligations.EveryStepKeepsHoldsAndDeadlines :=
  fun _ _ hc hp hr htask hindex hdis hholds hdeadlines hwork ht =>
    step_books hc hp hr ⟨htask, hindex⟩ hdis ⟨hholds, hdeadlines, hwork⟩ ht

/-! ### Power and rest -/

theorem State.powered_iff {s : State} :
    s.powered = true ↔ s.power.supply = true ∧ s.power.rstLow = false ∧ s.power.mode ≠ .retain := by
  simp [State.powered, and_assoc]

/-- A powerRule reads power control alone. -/
theorem State.powerRule_of_power {s t : State} (h : s.powerRule) (hp : t.power = s.power) : t.powerRule := by
  unfold State.powerRule State.powered at *
  rw [hp]
  exact h

theorem State.powered_wake {s : State} (h : s.powerRule) (hp : s.powered = true) : s.wake.powered = true := by
  obtain ⟨-, hresume⟩ := h
  rw [State.powered_iff] at hp ⊢
  rw [State.power_wake_eq]
  split
  · refine ⟨hp.1, hp.2.1, ?_⟩
    rcases hresume with h | h <;> simp [h]
  · exact hp

theorem State.power_wake_resume (s : State) : s.wake.power.resume = s.power.resume := by
  rw [State.power_wake_eq]
  split <;> rfl

theorem State.powerRule_wake {s : State} (h : s.powerRule) : s.wake.powerRule := by
  refine ⟨fun hp => ?_, ?_⟩
  · rw [State.wake_stage]
    refine h.1 (Bool.eq_false_iff.2 fun hs => ?_)
    rw [State.powered_wake h hs] at hp
    exact Bool.noConfusion hp
  · rw [State.power_wake_resume]
    exact h.2

/-- The due test changes of power control what a wake changes. -/
theorem State.powerRule_dueTest {s : State} (h : s.powerRule) : s.dueTest.powerRule := by
  have hp := State.power_dueTest s
  split at hp
  · exact State.powerRule_of_power (State.powerRule_wake h) hp
  · exact State.powerRule_of_power h hp

theorem closed_powerRule : Closed State.powerRule where
  setRecord _ _ _ h := h
  setHold _ _ _ h := h
  setTariff _ _ _ h := h
  setWay _ _ _ h := h
  filterIndex _ _ h := h
  transit _ _ h := h
  setEngine _ _ _ _ h := h
  enqueue _ _ _ _ h := h
  allocPtr _ _ h := h
  indexUnit _ _ h := h
  check _ _ _ h := h
  cmd _ _ _ h := h
  post _ _ h := State.powerRule_of_power h (by simp)
  answer _ _ _ _ h := h
  wake _ h := State.powerRule_wake h
  removeDeadline _ _ h := h
  dueTest _ h := State.powerRule_dueTest h
  insertDue _ _ _ _ _ _ h := State.powerRule_dueTest h
  replaceDue _ _ _ _ _ _ h := State.powerRule_dueTest h
  rearmDue s list h := State.powerRule_dueTest (State.powerRule_of_power h (by rw [State.rearm_all_frame]))
  raise _ _ _ _ _ h := State.powerRule_dueTest h

/-- R164: a chip whose port has been selected is in RUN or ECONOMY, where nothing wakes into STANDBY. -/
theorem State.mode_of_awake {s : State} (h : s.powerRule) (ha : s.awake) : s.power.mode = .run ∨ s.power.mode = .economy := by
  have hresume := h.2
  cases hm : s.power.mode with
  | run => exact .inl rfl
  | economy => exact .inr rfl
  | standby => rw [ha (.inl hm), hm] at hresume; simp at hresume
  | retain => rw [ha (.inr hm), hm] at hresume; simp at hresume

/-- A chip in READY is powered. -/
theorem State.powered_of_isReady {s : State} (h : s.powerRule) (hr : s.isReady = true) : s.powered = true := by
  cases hp : s.powered with
  | true => rfl
  | false =>
    have hstage := h.1 hp
    simp [State.isReady, hstage] at hr

/-- A powered chip with RUN or ECONOMY to wake to satisfies the rule whatever the phase. -/
theorem State.powerRule_of_powered {s : State} (hp : s.powered = true)
    (hresume : s.power.resume = .run ∨ s.power.resume = .economy) : s.powerRule :=
  ⟨fun h => absurd (hp.symm.trans h) (by decide), hresume⟩

theorem State.powerRule_changeMode {s : State} (m : Mode) (hr : s.isReady = true) (ha : s.awake) (h : s.powerRule) :
    (s.changeMode m).powerRule := by
  obtain ⟨hsupply, hrst, -⟩ := State.powered_iff.1 (State.powered_of_isReady h hr)
  have taken : ∀ m, m ≠ .retain → (s.takenMode m).powerRule := fun m hm =>
    State.powerRule_of_powered (State.powered_iff.2 ⟨hsupply, hrst, hm⟩) h.2
  unfold State.changeMode
  cases m with
  | run => exact taken .run (by decide)
  | economy =>
    dsimp only
    split
    · exact h
    · exact taken .economy (by decide)
  | standby =>
    dsimp only
    split
    · exact State.powerRule_of_powered (State.powered_iff.2 ⟨hsupply, hrst, by simp [State.enterStandby, State.takenMode, State.reply]⟩)
        (State.mode_of_awake h ha)
    · exact h
  | retain =>
    dsimp only
    split
    · exact h
    · split
      · exact h
      · exact ⟨fun _ => rfl, .inl rfl⟩

theorem State.powerRule_beginStart {s : State} (c : StartCause) (hs : s.power.supply = true) (hr : s.power.rstLow = false) :
    (s.beginStart c).powerRule :=
  State.powerRule_of_powered (State.powered_iff.2 ⟨hs, hr, by simp [State.beginStart]⟩) (.inl rfl)

theorem State.powerRule_atStage {s t : State} (h : s.powerRule) (hs : s.power.stage ≠ .held)
    (hp : t.powered = s.powered) (hresume : t.power.resume = s.power.resume) : t.powerRule :=
  ⟨fun ht => absurd (h.1 (hp ▸ ht)) hs, hresume ▸ h.2⟩

theorem powerRule_warmUpDone {s t : State} (h : s.powerRule) (ht : execOscillatorWarmUpDone s = .next t) : t.powerRule := by
  injection ht with ht
  subst ht
  split
  · rename_i hs
    refine State.powerRule_atStage h (by rw [beq_iff_eq.1 hs]; decide) ?_ ?_ <;> split <;> rfl
  · exact h

theorem powerRule_longCheckVisit {s : State} (h : s.powerRule) : s.longCheckVisit.powerRule :=
  State.powerRule_of_power h (by rw [longCheckOnly_visit])

theorem State.power_postReturn (s : State) : s.postReturn.power = s.power := by
  unfold State.postReturn
  split <;> rfl

theorem powerRule_phaseReady {s t : State} (h : s.powerRule) (ht : execPhaseReady s = .next t) : t.powerRule := by
  injection ht with ht
  subst ht
  split
  · rename_i hs
    have hrest : s.longCheckRest.power = s.power := by rw [longCheckOnly_rest]
    have hstage : s.longCheckRest.power.stage ≠ .held := by rw [hrest, beq_iff_eq.1 hs]; decide
    have hready : s.longCheckRest.becomeReady.powerRule :=
      State.powerRule_atStage (State.powerRule_of_power h hrest) hstage rfl rfl
    exact closed_powerRule.post _ _ (State.powerRule_of_power hready (State.power_postReturn _))
  · exact h

theorem powerRule_rstFall {s t : State} (h : s.powerRule) (ht : execRstFall s = .next t) : t.powerRule := by
  injection ht with ht
  subst ht
  split
  · exact h
  · split
    · rename_i hoff
      refine ⟨fun _ => h.1 ?_, h.2⟩
      rcases (Bool.or_eq_true _ _).mp hoff with hm | hs
      · simp [State.powered, beq_iff_eq.1 hm]
      · simp [State.powered, (Bool.not_eq_true' _).mp hs]
    · exact ⟨fun _ => rfl, .inl rfl⟩

theorem powerRule_rstRelease {s t : State} (h : s.powerRule) (ht : execRstRelease s = .next t) : t.powerRule := by
  injection ht with ht
  subst ht
  split
  · rename_i hl
    dsimp only
    split
    · rename_i hs
      exact State.powerRule_beginStart _ hs rfl
    · exact ⟨fun _ => h.1 (by simp [State.powered, hl]), h.2⟩
  · exact h

theorem powerRule_mainSupplyLoss {s t : State} (h : s.powerRule) (ht : execMainSupplyLoss s = .next t) : t.powerRule := by
  injection ht with ht
  subst ht
  split
  · exact h
  · dsimp only
    split
    · rename_i hm
      exact ⟨fun _ => h.1 (by simp [State.powered, beq_iff_eq.1 hm]), h.2⟩
    · exact ⟨fun _ => rfl, .inl rfl⟩

theorem powerRule_mainSupplyReturn {s t : State} (h : s.powerRule) (ht : execMainSupplyReturn s = .next t) :
    t.powerRule := by
  injection ht with ht
  subst ht
  split
  · exact h
  · rename_i hs
    have hheld : s.power.stage = .held := h.1 (by simp [State.powered, hs])
    dsimp only
    split
    · exact ⟨fun _ => hheld, h.2⟩
    · split
      · exact ⟨fun _ => hheld, h.2⟩
      · rename_i hr
        exact State.powerRule_beginStart _ rfl (Bool.eq_false_iff.2 hr)

theorem powerRule_wakeEdge {s t : State} (h : s.powerRule) (ht : execWakeEdge s = .next t) : t.powerRule := by
  injection ht with ht
  subst ht
  split
  · rename_i hw
    simp only [Bool.and_eq_true, Bool.not_eq_true'] at hw
    exact State.powerRule_beginStart _ hw.1.2 hw.2
  · exact h

/-- Every command keeps the power rule. -/
theorem kept_powerRule : Kept (fun _ => True) State.powerRule where
  toClosed := closed_powerRule
  takeByte s l b h := by
    unfold State.takeByte State.frameDone
    dsimp only
    repeat' split
    all_goals first
      | exact h
      | exact closed_powerRule.wake _ h
      | exact closed_powerRule.post _ _ h
  discardFrame s l h := by
    unfold State.discardFrame
    dsimp only
    repeat' split
    all_goals exact h
  sent _ _ h := h
  hldOff _ _ h := h
  hldOn _ _ h := h
  takeFrame s l frame rest _ _ h := by
    unfold State.takeFrame State.deliverRoute
    dsimp only
    split <;> exact h
  linkSet _ _ _ _ _ _ _ _ _ h := h
  linkRead _ _ h := h
  noticeRead _ h := h
  config _ _ _ _ _ h := h
  changeMode _ m hr ha _ h := State.powerRule_changeMode m hr ha h
  softReset _ hs hr _ := State.powerRule_beginStart _ hs hr
  rstFall _ _ _ h ht := powerRule_rstFall h ht
  rstRelease _ _ _ h ht := powerRule_rstRelease h ht
  mainSupplyLoss _ _ _ h ht := powerRule_mainSupplyLoss h ht
  mainSupplyReturn _ _ _ h ht := powerRule_mainSupplyReturn h ht
  wakeEdge _ _ _ h ht := powerRule_wakeEdge h ht
  backupSupplyLow s t _ h ht := by
    injection ht with ht
    subst ht
    split <;> exact h
  warmUpDone _ _ _ h ht := powerRule_warmUpDone h ht
  phaseReady _ _ _ h ht := powerRule_phaseReady h ht

theorem step_powerRule {s t : State} (h : s.powerRule) (ht : step s = .next t) : t.powerRule :=
  kept_powerRule.step (fun _ _ _ => trivial) (fun _ _ h => h) (fun _ _ _ h => powerRule_longCheckVisit h) trivial h ht

/-- Settles O10: power by every command of its own; rest by what a step does to a chip in READY or at rest, the power rule
excluding the start of a chip without power. -/
theorem everyStepKeepsTheRestUntilReady : Obligations.EveryStepKeepsTheRestUntilReady := by
  intro s t hp hrest ht
  refine ⟨step_powerRule hp ht, ?_⟩
  rcases step_readyOrAtRest hrest ht with h | ⟨hr, hpow, -⟩
  · exact (restsUntilReady_iff t).2 h
  · exact absurd (State.powered_of_isReady hp hr) (by simp [hpow])

end Sys2Proof.Machine
end

section
/-! Properties of states that every command keeps: what the receivers do to a link, the queue of waiting commands, the
canonical tables, the bounds of the queues, the timer and cursor of the short check (R26, R135, R143 to R145, R160). -/

namespace Sys2Proof.Machine

/-! ### Reception -/

/-- R144, R145: what the receiver of a link unit can make of the link when a byte arrives. -/
inductive Link.Received (k : Link) : Link → Prop
  | receiver (r : Receiver) : Link.Received k { k with receiver := r }
  | discarded : Link.Received k k.discard
  | stored (frame : List Byte) (h : k.fifo.length < 16) : Link.Received k ({ k with receiver := .idle }.pushFrame frame)
  | overrun : Link.Received k { k with receiver := .idle, overrun := true }

/-- A property that a wake, a notice and the changes of a receiving link keep is kept when a byte arrives. -/
theorem State.takeByte_keeps {P : State → Prop} (hwake : ∀ s, P s → P s.wake) (hpost : ∀ s n, P s → P (s.post n))
    (hset : ∀ (s : State) l k, s.isReady = true → (s.link l).enabled = true → (s.link l).Received k → P s →
      P (s.setLink l k)) (s : State) (l : Lane) (b : Byte) (h : P s) : P (s.takeByte l b) := by
  unfold State.takeByte
  dsimp only
  split
  case isFalse => exact h
  case isTrue hon =>
    obtain ⟨hr, he⟩ := (Bool.and_eq_true _ _).mp hon
    have hset' : ∀ k, (s.link l).Received k → P (s.setLink l k) := fun k hk => hset s l k hr he hk h
    split
    · split
      · have hlink : s.wake.link l = s.link l := by simp
        refine hset s.wake l _ (by simpa using hr) (by rw [hlink]; exact he) ?_ (hwake s h)
        rw [hlink]
        exact .receiver _
      · exact h
    · split
      · exact hset' _ .discarded
      · split
        · exact hset' _ (.receiver _)
        · unfold State.frameDone
          dsimp only
          split
          · exact hset' _ .discarded
          · split
            · rename_i hroom
              exact hset' _ (.stored _ hroom)
            · split
              · exact hset' _ .overrun
              · exact hpost _ _ (hset' _ .overrun)

/-- The same of the end of a frame by the timer or a faulty stop bit. -/
theorem State.discardFrame_keeps {P : State → Prop}
    (hset : ∀ (s : State) l k, s.isReady = true → (s.link l).enabled = true → (s.link l).Received k → P s →
      P (s.setLink l k)) (s : State) (l : Lane) (h : P s) : P (s.discardFrame l) := by
  unfold State.discardFrame
  dsimp only
  split
  case isFalse => exact h
  case isTrue hon =>
    obtain ⟨hr, he⟩ := (Bool.and_eq_true _ _).mp hon
    split
    · exact h
    · exact hset s l _ hr he .discarded h

/-! ### The queue of waiting commands -/

theorem closed_pending (q : List Instr) : Closed (fun s => s.pending = q) where
  setRecord _ _ _ h := h
  setHold _ _ _ h := h
  setTariff _ _ _ h := h
  setWay _ _ _ h := h
  filterIndex _ _ h := h
  transit _ _ h := h
  setEngine _ _ _ _ h := h
  enqueue _ _ _ _ h := h
  allocPtr _ _ h := h
  indexUnit _ _ h := h
  check _ _ _ h := h
  cmd _ _ _ h := h
  post _ _ h := by simpa using h
  answer _ _ _ _ h := h
  wake _ h := by simpa using h
  removeDeadline _ _ h := h
  dueTest _ h := by simpa using h
  insertDue _ _ _ _ _ _ h := by simpa using h
  replaceDue _ _ _ _ _ _ h := by simpa using h
  rearmDue s list h := by rw [State.rearm_all_frame]; simpa using h
  raise _ _ _ _ _ h := by simpa using h

theorem State.pending_changeMode (s : State) (m : Mode) : (s.changeMode m).pending = s.pending := by
  unfold State.changeMode
  cases m <;> (repeat' split) <;> rfl

theorem State.pending_postReturn (s : State) : s.postReturn.pending = s.pending := by
  unfold State.postReturn
  split <;> rfl

theorem kept_pending (q : List Instr) : Kept (fun _ => True) (fun s => s.pending = q) where
  toClosed := closed_pending q
  takeByte := State.takeByte_keeps (closed_pending q).wake (closed_pending q).post fun _ _ _ _ _ _ h => h
  discardFrame := State.discardFrame_keeps fun _ _ _ _ _ _ h => h
  sent _ _ h := h
  hldOff _ _ h := h
  hldOn _ _ h := h
  takeFrame s l frame rest _ _ h := by
    unfold State.takeFrame State.deliverRoute
    dsimp only
    split <;> exact h
  linkSet _ _ _ _ _ _ _ _ _ h := h
  linkRead _ _ h := h
  noticeRead _ h := h
  config _ _ _ _ _ h := h
  changeMode s m _ _ _ h := (State.pending_changeMode s m).trans h
  softReset _ _ _ h := h
  rstFall s t _ h ht := by injection ht with ht; subst ht; (repeat' split) <;> exact h
  rstRelease s t _ h ht := by injection ht with ht; subst ht; dsimp only; (repeat' split) <;> exact h
  mainSupplyLoss s t _ h ht := by injection ht with ht; subst ht; dsimp only; (repeat' split) <;> exact h
  mainSupplyReturn s t _ h ht := by injection ht with ht; subst ht; dsimp only; (repeat' split) <;> exact h
  wakeEdge s t _ h ht := by injection ht with ht; subst ht; split <;> exact h
  backupSupplyLow s t _ h ht := by injection ht with ht; subst ht; split <;> exact h
  warmUpDone s t _ h ht := by injection ht with ht; subst ht; (repeat' split) <;> exact h
  phaseReady s t _ h ht := by
    injection ht with ht
    subst ht
    split
    · refine (closed_pending q).post _ _ ((State.pending_postReturn _).trans ?_)
      show s.longCheckRest.pending = q
      rw [longCheckOnly_rest]
      exact h
    · exact h

/-- No command faults or is refused. -/
theorem exec_next (c : Instr) (s : State) : ∃ t, exec c s = .next t := by
  cases c <;> exact ⟨_, rfl⟩

/-- Settles O2: each arm of the dispatch answers a next state, and no update writes the queue. -/
theorem everyCommandAnswersANextState : Obligations.EveryCommandAnswersANextState := by
  intro c s
  obtain ⟨t, ht⟩ := exec_next c s
  exact ⟨t, ht, (kept_pending s.pending).exec c trivial rfl ht⟩

/-- Settles O1: the two cases of the queue, and of the stage where it is empty. -/
theorem stepRunsTheFrontCommand : Obligations.StepRunsTheFrontCommand :=
  ⟨fun _ _ _ hq => step_front hq,
    fun _ hq hs => (step_empty hq).trans (congrArg _ (State.idle_of_not_longCheck hs)),
    fun _ hq hs => (step_empty hq).trans (congrArg _ (State.idle_of_longCheck hs))⟩

/-! ### The tables' canonical form -/

theorem State.canonical_resetEvent {s : State} (c : StartCause) (h : s.canonical) : (s.resetEvent c).canonical :=
  ⟨Table.wf_mapTable _ _ _ h.1, h.2.1, Table.wf_mapTable _ _ _ h.2.2.1, h.2.2.2⟩

theorem State.canonical_rearm {s : State} (t : Ticket) (h : s.canonical) : (s.rearm t).canonical :=
  have hput := Table.wf_put HoldEntry.cold { s.hold t.entry.toNat with state := .live, deadline := s.timebase }
    t.entry.toNat s.holds h.2.2.1
  show (State.insertDeadline _ t s.timebase).canonical from ⟨h.1, h.2.1, hput, h.2.2.2⟩

theorem State.canonical_rearm_all {list : List Ticket} : ∀ {s : State}, s.canonical →
    (list.foldl State.rearm s).canonical := by
  induction list with
  | nil => exact fun h => h
  | cons t list ih => exact fun h => ih (State.canonical_rearm t h)

theorem closed_canonical : Closed State.canonical where
  setRecord _ _ _ h := ⟨Table.wf_put _ _ _ _ h.1, h.2⟩
  setHold _ _ _ h := ⟨h.1, h.2.1, Table.wf_put _ _ _ _ h.2.2.1, h.2.2.2⟩
  setTariff _ _ _ h := ⟨h.1, h.2.1, h.2.2.1, Table.wf_put _ _ _ _ h.2.2.2⟩
  setWay _ _ _ h := ⟨h.1, Table.wf_put _ _ _ _ h.2.1, h.2.2⟩
  filterIndex _ _ h := ⟨h.1, Table.wf_filter _ _ _ h.2.1, h.2.2⟩
  transit _ _ h := h
  setEngine _ _ _ _ h := h
  enqueue _ _ _ _ h := h
  allocPtr _ _ h := h
  indexUnit _ _ h := h
  check _ _ _ h := h
  cmd _ _ _ h := h
  post _ _ h := State.canonical_congr h (by simp) (by simp) (by simp) (by simp)
  answer _ _ _ _ h := h
  wake _ h := State.canonical_congr h (by simp) (by simp) (by simp) (by simp)
  removeDeadline _ _ h := h
  dueTest _ h := State.canonical_congr h (by simp) (by simp) (by simp) (by simp)
  insertDue _ _ _ _ _ _ h := State.canonical_congr h (by simp) (by simp) (by simp) (by simp)
  replaceDue _ _ _ _ _ _ h := State.canonical_congr h (by simp) (by simp) (by simp) (by simp)
  rearmDue s list h := State.canonical_congr (s := list.foldl State.rearm s) (State.canonical_rearm_all h)
    (by simp) (by simp) (by simp) (by simp)
  raise _ _ _ _ _ h := State.canonical_congr h (by simp) (by simp) (by simp) (by simp)

theorem State.canonical_freeWayOfSlot {s : State} (key : Key) (n : Nat) (h : s.canonical) :
    (s.freeWayOfSlot key n).canonical := by
  unfold State.freeWayOfSlot
  split
  · exact closed_canonical.setWay _ _ _ h
  · exact h

theorem State.canonical_scanSlot {s : State} (n : Nat) (h : s.canonical) : (s.scanSlot n).canonical := by
  have hfree : ∀ gen, (s.scanFree n gen).canonical := fun gen =>
    State.canonical_freeWayOfSlot _ _ (closed_canonical.setRecord _ _ _ h)
  have hmismatch : (s.scanMismatch n).canonical := closed_canonical.setRecord _ _ _ h
  unfold State.scanSlot
  dsimp only
  split
  · exact h
  · exact hfree _
  · exact hfree _
  · exact hfree _
  · split
    · exact h
    · exact hmismatch
  · split
    · exact h
    · exact hmismatch

theorem State.canonical_scanRest (n : Nat) (list : List (Nat × Record)) : ∀ s : State, s.canonical →
    (list.foldl (fun s p => if n ≤ p.1 ∧ p.1 < Config.slots then s.scanSlot p.1 else s) s).canonical := by
  induction list with
  | nil => exact fun _ h => h
  | cons p list ih =>
    intro s h
    refine ih _ ?_
    dsimp only
    split
    · exact State.canonical_scanSlot _ h
    · exact h

theorem State.canonical_sweepRest {s : State} (b : Nat) (h : s.canonical) : (s.sweepRest b).canonical :=
  closed_canonical.filterIndex _ _ h

theorem State.canonical_longCheckVisit {s : State} (h : s.canonical) : s.longCheckVisit.canonical := by
  unfold State.longCheckVisit
  split
  · exact State.canonical_scanSlot _ h
  · exact closed_canonical.filterIndex _ _ h
  · exact h
  · exact h

theorem State.canonical_longCheckRest {s : State} (h : s.canonical) : s.longCheckRest.canonical := by
  unfold State.longCheckRest
  split
  · exact State.canonical_sweepRest _ (State.canonical_scanRest _ _ _ (State.canonical_scanSlot _ h))
  · exact State.canonical_sweepRest _ (closed_canonical.filterIndex _ _ h)
  · exact h
  · exact h

theorem State.canonical_changeMode {s : State} (m : Mode) (h : s.canonical) : (s.changeMode m).canonical := by
  unfold State.changeMode
  cases m with
  | run => exact h
  | economy => dsimp only; split <;> exact h
  | standby => dsimp only; split <;> exact h
  | retain =>
    dsimp only
    split
    · exact h
    · split
      · exact h
      · exact State.canonical_resetEvent .retainWake h

theorem kept_canonical : Kept (fun _ => True) State.canonical where
  toClosed := closed_canonical
  takeByte := State.takeByte_keeps closed_canonical.wake closed_canonical.post fun _ _ _ _ _ _ h => h
  discardFrame := State.discardFrame_keeps fun _ _ _ _ _ _ h => h
  sent _ _ h := h
  hldOff _ _ h := h
  hldOn _ _ h := h
  takeFrame s l frame rest _ _ h := by
    unfold State.takeFrame State.deliverRoute
    dsimp only
    split <;> exact h
  linkSet _ _ _ _ _ _ _ _ _ h := h
  linkRead _ _ h := h
  noticeRead _ h := h
  config _ _ _ _ _ h := h
  changeMode _ m _ _ _ h := State.canonical_changeMode m h
  softReset _ _ _ h := State.canonical_resetEvent .softReset h
  rstFall s t _ h ht := by
    injection ht with ht
    subst ht
    (repeat' split) <;> first | exact h | exact State.canonical_resetEvent .pinReset h
  rstRelease s t _ h ht := by injection ht with ht; subst ht; dsimp only; (repeat' split) <;> exact h
  mainSupplyLoss s t _ h ht := by
    injection ht with ht
    subst ht
    dsimp only
    (repeat' split) <;> first | exact h | exact State.canonical_resetEvent .powerReturn h
  mainSupplyReturn s t _ h ht := by injection ht with ht; subst ht; dsimp only; (repeat' split) <;> exact h
  wakeEdge s t _ h ht := by injection ht with ht; subst ht; split <;> exact h
  backupSupplyLow s t _ h ht := by injection ht with ht; subst ht; split <;> exact h
  warmUpDone s t _ h ht := by
    injection ht with ht
    subst ht
    (repeat' split) <;> first | exact h | exact ⟨rfl, rfl, rfl, rfl⟩
  phaseReady s t _ h ht := by
    injection ht with ht
    subst ht
    split
    · refine closed_canonical.post _ _ ?_
      have hr : s.longCheckRest.becomeReady.canonical := State.canonical_longCheckRest h
      unfold State.postReturn
      split <;> exact hr
    · exact h

/-- Settles O7: every command and every visit of the long check writes the tables through put, filter and map, which keep
the form. -/
theorem everyStepKeepsTheTablesCanonical : Obligations.EveryStepKeepsTheTablesCanonical := fun _ _ h ht =>
  kept_canonical.step (fun _ _ _ => trivial) (fun _ _ h => h) (fun _ _ _ h => State.canonical_longCheckVisit h) trivial h ht

/-! ### The bounds of the queues -/

/-- The bounds speak of the group queues, the link FIFOs and the notices alone. -/
theorem State.bounded_congr {s t : State} (h : s.bounded) (he : ∀ g, (t.engine g).queue.length ≤ (s.engine g).queue.length)
    (hl : ∀ l, (t.link l).fifo.length ≤ (s.link l).fifo.length) (hn : t.notices.list.length ≤ s.notices.list.length) :
    t.bounded :=
  ⟨fun g => Nat.le_trans (he g) (h.1 g), fun l => Nat.le_trans (hl l) (h.2.1 l), Nat.le_trans hn h.2.2⟩

theorem State.bounded_setEngine {s : State} (h : s.bounded) (g : Lane) (e : Engine)
    (he : e.queue.length ≤ Config.groupQueuePlaces) : (s.setEngine g e).bounded := by
  refine ⟨fun m => ?_, by simpa using h.2⟩
  by_cases hm : m = g
  · subst hm
    simpa using he
  · rw [State.engine_setEngine_ne _ _ hm]
    exact h.1 m

theorem State.bounded_setLink {s : State} (h : s.bounded) (l : Lane) (k : Link)
    (hk : k.fifo.length ≤ Config.fifoFrames) : (s.setLink l k).bounded := by
  refine ⟨by simpa using h.1, fun m => ?_, by simpa using h.2.2⟩
  by_cases hm : m = l
  · subst hm
    simpa using hk
  · rw [State.link_setLink_ne _ _ hm]
    exact h.2.1 m

theorem State.post_list_length {s : State} (n : Notice) (h : s.notices.list.length ≤ 32) :
    (s.post n).notices.list.length ≤ 32 := by
  rw [State.post_notices]
  split
  · rename_i hroom
    rw [List.length_append, List.length_singleton]
    exact hroom
  · exact h

theorem State.bounded_post {s : State} (n : Notice) (h : s.bounded) : (s.post n).bounded :=
  ⟨by simpa using h.1, by simpa using h.2.1, State.post_list_length n h.2.2⟩

theorem State.bounded_dueTest {s : State} (h : s.bounded) : s.dueTest.bounded :=
  State.bounded_congr h (fun g => Nat.le_of_eq (by rw [State.engine_dueTest])) (fun l => by simp) (by simp)

@[simp] theorem Link.arrive_fifo (k : Link) (epoch : Byte) (r : Response) : (k.arrive epoch r).fifo = k.fifo := by
  rw [Link.arrive_frame]

theorem State.bounded_answer {s : State} (o : Origin) (st : Status) (b : TermBody) (h : s.bounded) :
    (s.answer o st b).bounded :=
  State.bounded_setLink h _ _ (by rw [Link.arrive_fifo]; exact h.2.1 _)

theorem State.bounded_enqueue {s : State} (g : Lane) (r : Request) (hroom : s.queueRoom g = true) (h : s.bounded) :
    (s.enqueue g r).bounded := by
  refine State.bounded_setEngine h _ _ ?_
  rw [List.length_append, List.length_singleton]
  exact of_decide_eq_true hroom

theorem closed_bounded : Closed State.bounded where
  setRecord _ _ _ h := h
  setHold _ _ _ h := h
  setTariff _ _ _ h := h
  setWay _ _ _ h := h
  filterIndex _ _ h := h
  transit _ _ h := h
  setEngine _ g _ he h := State.bounded_setEngine h _ _ (Nat.le_trans he (h.1 g))
  enqueue _ g r hroom h := State.bounded_enqueue g r hroom h
  allocPtr _ _ h := h
  indexUnit _ _ h := h
  check _ _ _ h := h
  cmd _ _ _ h := h
  post _ n h := State.bounded_post n h
  answer _ o st b h := State.bounded_answer o st b h
  wake _ h := State.bounded_congr h (by simp) (by simp) (by simp)
  removeDeadline _ _ h := h
  dueTest _ h := State.bounded_dueTest h
  insertDue _ _ _ o st b h := State.bounded_dueTest (State.bounded_answer o st b h)
  replaceDue _ _ _ o st b h := State.bounded_dueTest (State.bounded_answer o st b h)
  rearmDue s list h := State.bounded_dueTest (by rw [State.rearm_all_frame]; exact h)
  raise _ _ _ _ he h := State.bounded_dueTest
    (State.bounded_congr h (fun g => Nat.le_of_eq (congrArg List.length (he g))) (fun _ => Nat.le_refl _) (Nat.le_refl _))

@[simp] theorem Link.txBegin_fifo (k : Link) : k.txBegin.fifo = k.fifo := by
  unfold Link.txBegin
  split <;> rfl

@[simp] theorem Link.testRdy_fifo (k : Link) : k.testRdy.fifo = k.fifo := by
  unfold Link.testRdy
  (repeat' split) <;> rfl

@[simp] theorem Link.sent_fifo (k : Link) : k.sent.fifo = k.fifo := by
  unfold Link.sent
  (repeat' split) <;> simp

theorem Link.pushFrame_fifo (k : Link) (frame : List Byte) : (k.pushFrame frame).fifo = k.fifo ++ [frame] := by
  unfold Link.pushFrame
  dsimp only
  split <;> rfl

theorem Link.Received.fifo_length {k k' : Link} (h : k.Received k') (hk : k.fifo.length ≤ 16) : k'.fifo.length ≤ 16 := by
  cases h with
  | receiver r => exact hk
  | discarded => exact hk
  | stored frame hroom => rw [Link.pushFrame_fifo, List.length_append]; exact hroom
  | overrun => exact hk

theorem Link.withSettings_fifo_length (k : Link) (enable : Bool) (baud : Fin 6) (high resume : Nat) :
    (k.withSettings enable baud high resume).fifo.length ≤ k.fifo.length := by
  unfold Link.withSettings
  rw [Link.testRdy_fifo]
  dsimp only
  split
  · exact Nat.zero_le _
  · exact Nat.le_refl _

/-- A chip whose engines, links and notices have been cleared is within the bounds. -/
theorem State.bounded_resetEvent (s : State) (c : StartCause) : (s.resetEvent c).bounded := by
  refine ⟨fun g => ?_, fun l => ?_, Nat.zero_le _⟩
  · simp [State.engine, State.resetEvent, Engine.cleared]
  · simp [State.link, State.resetEvent, Link.afterReset]

theorem State.bounded_changeMode {s : State} (m : Mode) (h : s.bounded) : (s.changeMode m).bounded := by
  unfold State.changeMode
  cases m with
  | run => exact h
  | economy => dsimp only; split <;> exact h
  | standby => dsimp only; split <;> exact h
  | retain =>
    dsimp only
    split
    · exact h
    · split
      · exact h
      · exact State.bounded_resetEvent s .retainWake

theorem State.queueRoom_of_takeable {s : State} {l : Lane} {frame : List Byte} {rest : List (List Byte)} {g : Lane}
    {r : TermReq} (ht : s.takeable l = true) (hf : (s.link l).fifo = frame :: rest)
    (hroute : routeFrame s frame = .engine g r) : s.queueRoom g = true := by
  rw [State.takeable_of_head hf, hroute, Bool.and_eq_true] at ht
  exact ht.2

/-- R39, R40: the taken frame leaves its FIFO, and a request finds its place in the group queue. -/
theorem State.bounded_takeFrame {s : State} {l : Lane} {frame : List Byte} {rest : List (List Byte)} (h : s.bounded)
    (ht : s.takeable l = true) (hf : (s.link l).fifo = frame :: rest) : (s.takeFrame l frame).bounded := by
  have htaken : (s.afterTake l frame).bounded := by
    refine State.bounded_setLink h _ _ ?_
    rw [Link.taken_fifo, List.length_tail]
    exact Nat.le_trans (Nat.sub_le _ _) (h.2.1 l)
  show ((s.afterTake l frame).deliverRoute _ (routeFrame s frame)).bounded
  cases hroute : routeFrame s frame with
  | answer st => exact State.bounded_answer _ _ _ htaken
  | engine g r =>
    have hroom : s.queueRoom g = true := State.queueRoom_of_takeable ht hf hroute
    exact State.bounded_enqueue (s := s.afterTake l frame) g _ hroom htaken
  | index key => exact htaken

theorem kept_bounded : Kept (fun _ => True) State.bounded where
  toClosed := closed_bounded
  takeByte := State.takeByte_keeps closed_bounded.wake closed_bounded.post fun _ l _ _ _ hk h =>
    State.bounded_setLink h _ _ (hk.fifo_length (h.2.1 l))
  discardFrame := State.discardFrame_keeps fun _ l _ _ _ hk h => State.bounded_setLink h _ _ (hk.fifo_length (h.2.1 l))
  sent _ l h := State.bounded_setLink h _ _ (by rw [Link.sent_fifo]; exact h.2.1 l)
  hldOff _ l h := State.bounded_setLink h _ _ (by rw [Link.txBegin_fifo]; exact h.2.1 l)
  hldOn _ l h := State.bounded_setLink h _ _ (h.2.1 l)
  takeFrame _ _ _ _ ht hf h := State.bounded_takeFrame h ht hf
  linkSet _ _ _ _ _ _ _ _ _ h := State.bounded_setLink h _ _ (Nat.le_trans (Link.withSettings_fifo_length ..) (h.2.1 _))
  linkRead _ l h := State.bounded_setLink h _ _ (h.2.1 l)
  noticeRead _ h := State.bounded_congr h (fun _ => Nat.le_refl _) (fun _ => Nat.le_refl _)
    (Nat.le_trans (Nat.le_of_eq List.length_drop) (Nat.sub_le _ _))
  config _ _ _ _ _ h := h
  changeMode _ m _ _ _ h := State.bounded_changeMode m h
  softReset s _ _ _ := State.bounded_resetEvent s .softReset
  rstFall s t _ h ht := by
    injection ht with ht
    subst ht
    (repeat' split) <;> first | exact h | exact State.bounded_resetEvent s .pinReset
  rstRelease s t _ h ht := by injection ht with ht; subst ht; dsimp only; (repeat' split) <;> exact h
  mainSupplyLoss s t _ h ht := by
    injection ht with ht
    subst ht
    dsimp only
    (repeat' split) <;> first | exact h | exact State.bounded_resetEvent s .powerReturn
  mainSupplyReturn s t _ h ht := by injection ht with ht; subst ht; dsimp only; (repeat' split) <;> exact h
  wakeEdge s t _ h ht := by injection ht with ht; subst ht; split <;> exact h
  backupSupplyLow s t _ h ht := by injection ht with ht; subst ht; split <;> exact h
  warmUpDone s t _ h ht := by
    injection ht with ht
    subst ht
    split
    · split
      · exact State.bounded_congr h (fun _ => Nat.le_refl _)
          (fun l => by simp [State.link, State.beginLongCheck, State.coldDefaults, Link.withColdSettings]) (Nat.le_refl _)
      · exact h
    · exact h
  phaseReady s t _ h ht := by
    injection ht with ht
    subst ht
    split
    · refine State.bounded_post _ ?_
      have hrest : s.longCheckRest.bounded := by rw [longCheckOnly_rest]; exact h
      have hr : s.longCheckRest.becomeReady.bounded := State.bounded_congr hrest (fun _ => Nat.le_refl _)
        (fun l => by simp [State.link, State.becomeReady]) (Nat.le_refl _)
      unfold State.postReturn
      split
      · exact closed_bounded.modifyEngine _ _ _ (Nat.le_refl _) hr
      · exact hr
    · exact h

/-- Settles O8: every command keeps the bounds, a frame, a request and a notice being placed only where there is room. -/
theorem everyStepKeepsTheQueuesBounded : Obligations.EveryStepKeepsTheQueuesBounded := fun _ _ h ht =>
  kept_bounded.step (fun _ _ _ => trivial) (fun _ _ h => h)
    (fun _ _ _ h => by rw [longCheckOnly_visit]; exact h) trivial h ht

/-! ### The short check's timer and cursor -/

theorem State.shortCheckRule_congr {s t : State} (h : s.shortCheckRule) (hi : t.cmd.interval = s.cmd.interval)
    (ht : t.check.timer = s.check.timer) (hc : t.check.cursor = s.check.cursor) : t.shortCheckRule := by
  unfold State.shortCheckRule at *
  rw [hi, ht, hc]
  exact h

theorem State.shortCheckRule_moves {s t : State} (h : s.shortCheckRule) (hi : t.cmd.interval = s.cmd.interval)
    (hm : checkMoves s t.check) : t.shortCheckRule := by
  obtain ⟨hint, htimer, hcursor, hlast⟩ := h
  obtain ⟨hmt, hmc⟩ := hm
  refine ⟨hi ▸ hint, fun n hn => ?_, ?_⟩
  · rcases hmt with hsame | ⟨m, hload, hpos⟩
    · exact htimer n (hsame ▸ hn)
    · obtain rfl : m = n := Option.some.inj (hload.symm.trans hn)
      omega
  · rcases hmc with hsame | hnext
    · rw [hsame]
      exact ⟨hcursor, hlast⟩
    · rw [hnext]
      omega

theorem State.shortCheckRule_cleared {t : State} (hint : 1 ≤ t.cmd.interval) (hc : t.check = CheckUnit.cleared) :
    t.shortCheckRule := by
  refine ⟨hint, fun n hn => ?_, ?_, ?_⟩
  · rw [hc] at hn
    contradiction
  · rw [hc]
    rfl
  · rw [hc]
    exact Nat.zero_le _

theorem State.shortCheckRule_resetEvent {s : State} (c : StartCause) (h : s.shortCheckRule) :
    (s.resetEvent c).shortCheckRule :=
  State.shortCheckRule_cleared h.1 rfl

theorem closed_shortCheckRule : Closed State.shortCheckRule where
  setRecord _ _ _ h := h
  setHold _ _ _ h := h
  setTariff _ _ _ h := h
  setWay _ _ _ h := h
  filterIndex _ _ h := h
  transit _ _ h := h
  setEngine _ _ _ _ h := h
  enqueue _ _ _ _ h := h
  allocPtr _ _ h := h
  indexUnit _ _ h := h
  check _ _ hm h := State.shortCheckRule_moves h rfl hm
  cmd _ _ hc h := State.shortCheckRule_congr h hc.2 rfl rfl
  post _ _ h := State.shortCheckRule_congr h (by simp) (by simp) (by simp)
  answer _ _ _ _ h := h
  wake _ h := State.shortCheckRule_congr h (by simp) (by simp) (by simp)
  removeDeadline _ _ h := h
  dueTest _ h := State.shortCheckRule_congr h (by simp) (by simp) (by simp)
  insertDue _ _ _ _ _ _ h := State.shortCheckRule_congr h (by simp) (by simp) (by simp)
  replaceDue _ _ _ _ _ _ h := State.shortCheckRule_congr h (by simp) (by simp) (by simp)
  rearmDue s list h := by
    refine State.shortCheckRule_congr h ?_ ?_ ?_ <;> rw [State.rearm_all_frame] <;> simp
  raise s c es hm _ h := State.shortCheckRule_moves h (by simp) (by simpa using hm)

theorem State.shortCheckRule_changeMode {s : State} (m : Mode) (h : s.shortCheckRule) : (s.changeMode m).shortCheckRule := by
  unfold State.changeMode
  cases m with
  | run => exact h
  | economy => dsimp only; split <;> exact h
  | standby => dsimp only; split <;> exact h
  | retain =>
    dsimp only
    split
    · exact h
    · split
      · exact h
      · exact State.shortCheckRule_cleared h.1 rfl

theorem kept_shortCheckRule : Kept (fun _ => True) State.shortCheckRule where
  toClosed := closed_shortCheckRule
  takeByte := State.takeByte_keeps closed_shortCheckRule.wake closed_shortCheckRule.post fun _ _ _ _ _ _ h => h
  discardFrame := State.discardFrame_keeps fun _ _ _ _ _ _ h => h
  sent _ _ h := h
  hldOff _ _ h := h
  hldOn _ _ h := h
  takeFrame s l frame rest _ _ h := by
    unfold State.takeFrame State.deliverRoute
    dsimp only
    split <;> exact h
  linkSet _ _ _ _ _ _ _ _ _ h := h
  linkRead _ _ h := h
  noticeRead _ h := h
  config s interval threshold hi _ h :=
    ⟨hi, fun n hn => Option.some.inj hn ▸ hi, h.2.2⟩
  changeMode _ m _ _ _ h := State.shortCheckRule_changeMode m h
  softReset _ _ _ h := State.shortCheckRule_resetEvent .softReset h
  rstFall s t _ h ht := by
    injection ht with ht
    subst ht
    (repeat' split) <;> first | exact h | exact State.shortCheckRule_resetEvent .pinReset h
  rstRelease s t _ h ht := by injection ht with ht; subst ht; dsimp only; (repeat' split) <;> exact h
  mainSupplyLoss s t _ h ht := by
    injection ht with ht
    subst ht
    dsimp only
    (repeat' split) <;> first | exact h | exact State.shortCheckRule_resetEvent .powerReturn h
  mainSupplyReturn s t _ h ht := by injection ht with ht; subst ht; dsimp only; (repeat' split) <;> exact h
  wakeEdge s t _ h ht := by injection ht with ht; subst ht; split <;> exact h
  backupSupplyLow s t _ h ht := by injection ht with ht; subst ht; split <;> exact h
  warmUpDone s t _ h ht := by
    injection ht with ht
    subst ht
    split
    · split
      · exact ⟨show 1 ≤ 60 by decide, h.2⟩
      · exact h
    · exact h
  phaseReady s t _ h ht := by
    injection ht with ht
    subst ht
    split
    · refine closed_shortCheckRule.post _ _ ?_
      have hrest : s.longCheckRest.shortCheckRule := by rw [longCheckOnly_rest]; exact h
      have hr : s.longCheckRest.becomeReady.shortCheckRule :=
        ⟨hrest.1, fun n hn => Option.some.inj hn ▸ hrest.1, hrest.2.2⟩
      unfold State.postReturn
      split <;> exact hr
    · exact h

theorem step_shortCheckRule {s t : State} (h : s.shortCheckRule) (ht : step s = .next t) : t.shortCheckRule :=
  kept_shortCheckRule.step (fun _ _ _ => trivial) (fun _ _ h => h)
    (fun _ _ _ h => by rw [longCheckOnly_visit]; exact h) trivial h ht

end Sys2Proof.Machine
end

section
/-! The tags of the waiting responses and the deadline queue along every step (R98, R103, R147). -/

namespace Sys2Proof.Machine

/-! ### Responses under their tags -/

/-- R147 speaks of a link's queue and tags alone. -/
theorem Link.answersTagged_congr {k k' : Link} (h : k.answersTagged) (hq : k'.queue = k.queue) (ht : k'.tags = k.tags) :
    k'.answersTagged := by
  unfold Link.answersTagged at *
  rw [hq, ht]
  exact h

theorem Link.answersTagged_of_empty {k : Link} (hq : k.queue = []) : k.answersTagged := by
  simp [Link.answersTagged, hq]

theorem Link.answersTagged_txBegin {k : Link} (h : k.answersTagged) : k.txBegin.answersTagged :=
  Link.answersTagged_congr h (by simp) (by simp)

/-- R147: a response joins the queue only under a busy tag that no waiting response bears. -/
theorem Link.answersTagged_arrive {k : Link} (h : k.answersTagged) (epoch : Byte) (r : Response) :
    (k.arrive epoch r).answersTagged := by
  unfold Link.arrive
  split
  · rename_i hc
    simp only [Bool.and_eq_true, Bool.not_eq_true', List.any_eq_false, beq_iff_eq] at hc
    obtain ⟨⟨-, htag⟩, hfree⟩ := hc
    refine Link.answersTagged_txBegin ⟨?_, fun q hq => ?_⟩
    · simp only [List.map_append, List.map_cons, List.map_nil]
      refine List.nodup_append.2 ⟨h.1, List.nodup_cons.2 ⟨List.not_mem_nil, List.nodup_nil⟩, fun a ha b hb => ?_⟩
      obtain ⟨q, hq, rfl⟩ := List.mem_map.1 ha
      obtain rfl := List.mem_singleton.1 hb
      exact hfree q hq
    · rcases List.mem_append.1 hq with hq | hq
      · exact h.2 q hq
      · obtain rfl := List.mem_singleton.1 hq
        exact htag
  · exact h

/-- R148: the tag that a sent response frees is borne by no other response in the queue. -/
theorem Link.answersTagged_sent {k : Link} (h : k.answersTagged) : k.sent.answersTagged := by
  unfold Link.sent
  split
  · rename_i r rest hq
    split
    · obtain ⟨hnodup, htags⟩ := h
      rw [hq] at hnodup htags
      obtain ⟨hr, hrest⟩ := List.nodup_cons.1 hnodup
      refine Link.answersTagged_txBegin ⟨hrest, fun q hmem => ?_⟩
      rw [Four.get_set_ne _ _ fun he => hr (List.mem_map.2 ⟨q, hmem, he⟩)]
      exact htags q (List.mem_cons_of_mem _ hmem)
    · exact h
  · exact h

theorem Link.answersTagged_taken {k : Link} (h : k.answersTagged) (frame : List Byte) : (k.taken frame).answersTagged := by
  have htags : (k.taken frame).tags = k.tags.set (commandTag (frameCommand frame)) true := by simp [Link.taken]
  unfold Link.answersTagged
  rw [Link.taken_queue, htags]
  refine ⟨h.1, fun r hr => ?_⟩
  by_cases he : commandTag r.cmd = commandTag (frameCommand frame)
  · rw [he, Four.get_set_same]
  · rw [Four.get_set_ne _ _ he]
    exact h.2 r hr

@[simp] theorem Link.testRdy_queue (k : Link) : k.testRdy.queue = k.queue ∧ k.testRdy.tags = k.tags := by
  unfold Link.testRdy
  (repeat' split) <;> simp

theorem Link.answersTagged_testRdy {k : Link} (h : k.answersTagged) : k.testRdy.answersTagged :=
  Link.answersTagged_congr h (by simp) (by simp)

theorem Link.answersTagged_withSettings {k : Link} (h : k.answersTagged) (enable : Bool) (baud : Fin 6)
    (high resume : Nat) : (k.withSettings enable baud high resume).answersTagged := by
  unfold Link.withSettings
  refine Link.answersTagged_testRdy ?_
  split
  · exact Link.answersTagged_of_empty rfl
  · exact h

theorem Link.Received.answersTagged {k k' : Link} (h : k.Received k') (hk : k.answersTagged) : k'.answersTagged := by
  cases h with
  | receiver r => exact hk
  | discarded => exact hk
  | stored frame hroom =>
    unfold Link.pushFrame
    dsimp only
    split <;> exact hk
  | overrun => exact hk

theorem State.answersTagged_setLink {s : State} (h : s.answersTagged) (l : Lane) {k : Link} (hk : k.answersTagged) :
    (s.setLink l k).answersTagged := by
  intro m
  by_cases hm : m = l
  · subst hm
    rw [State.link_setLink_same]
    exact hk
  · rw [State.link_setLink_ne _ _ hm]
    exact h m

theorem State.answersTagged_congr {s t : State} (h : s.answersTagged) (hl : t.links = s.links) : t.answersTagged := by
  intro l
  unfold State.link
  rw [hl]
  exact h l

/-- A change that each link's rule bears on its own. -/
theorem State.answersTagged_map {s t : State} (h : s.answersTagged) {f : Link → Link} (hl : t.links = s.links.map f)
    (hf : ∀ k : Link, k.answersTagged → (f k).answersTagged) : t.answersTagged := by
  intro l
  unfold State.link
  rw [hl, Four.get_map]
  exact hf _ (h l)

theorem State.answersTagged_answer {s : State} (o : Origin) (st : Status) (b : TermBody) (h : s.answersTagged) :
    (s.answer o st b).answersTagged :=
  State.answersTagged_setLink h _ (Link.answersTagged_arrive (h _) _ _)

theorem State.answersTagged_dueTest {s : State} (h : s.answersTagged) : s.dueTest.answersTagged :=
  State.answersTagged_congr h (by simp)

theorem State.answersTagged_resetEvent (s : State) (c : StartCause) : (s.resetEvent c).answersTagged := fun l =>
  Link.answersTagged_of_empty (by simp [State.link, State.resetEvent, Link.afterReset])

theorem closed_answersTagged : Closed State.answersTagged where
  setRecord _ _ _ h := h
  setHold _ _ _ h := h
  setTariff _ _ _ h := h
  setWay _ _ _ h := h
  filterIndex _ _ h := h
  transit _ _ h := h
  setEngine _ _ _ _ h := h
  enqueue _ _ _ _ h := h
  allocPtr _ _ h := h
  indexUnit _ _ h := h
  check _ _ _ h := h
  cmd _ _ _ h := h
  post _ _ h := State.answersTagged_congr h (by simp)
  answer _ o st b h := State.answersTagged_answer o st b h
  wake _ h := State.answersTagged_congr h (by simp)
  removeDeadline _ _ h := h
  dueTest _ h := State.answersTagged_dueTest h
  insertDue _ _ _ o st b h := State.answersTagged_dueTest (State.answersTagged_answer o st b h)
  replaceDue _ _ _ o st b h := State.answersTagged_dueTest (State.answersTagged_answer o st b h)
  rearmDue _ _ h := State.answersTagged_dueTest (by rw [State.rearm_all_frame]; exact h)
  raise _ _ _ _ _ h := State.answersTagged_dueTest h

theorem State.answersTagged_changeMode {s : State} (m : Mode) (h : s.answersTagged) : (s.changeMode m).answersTagged := by
  unfold State.changeMode
  cases m with
  | run => exact h
  | economy => dsimp only; split <;> exact h
  | standby => dsimp only; split <;> exact h
  | retain =>
    dsimp only
    split
    · exact h
    · split
      · exact h
      · exact State.answersTagged_resetEvent s .retainWake

theorem State.answersTagged_takeFrame {s : State} (l : Lane) (frame : List Byte) (h : s.answersTagged) :
    (s.takeFrame l frame).answersTagged := by
  have htaken : (s.afterTake l frame).answersTagged :=
    State.answersTagged_setLink h l (Link.answersTagged_taken (h l) frame)
  show ((s.afterTake l frame).deliverRoute _ (routeFrame s frame)).answersTagged
  cases routeFrame s frame with
  | answer st => exact State.answersTagged_answer _ _ _ htaken
  | engine g r => exact htaken
  | index key => exact htaken

theorem kept_answersTagged : Kept (fun _ => True) State.answersTagged where
  toClosed := closed_answersTagged
  takeByte := State.takeByte_keeps closed_answersTagged.wake closed_answersTagged.post fun _ l _ _ _ hk h =>
    State.answersTagged_setLink h l (hk.answersTagged (h l))
  discardFrame := State.discardFrame_keeps fun _ l _ _ _ hk h => State.answersTagged_setLink h l (hk.answersTagged (h l))
  sent _ l h := State.answersTagged_setLink h l (Link.answersTagged_sent (h l))
  hldOff s l h := State.answersTagged_setLink h l (Link.answersTagged_txBegin (k := { s.link l with hld := false }) (h l))
  hldOn _ l h := State.answersTagged_setLink h l (h l)
  takeFrame _ l frame _ _ _ h := State.answersTagged_takeFrame l frame h
  linkSet _ _ _ _ _ _ _ _ _ h := State.answersTagged_setLink h _ (Link.answersTagged_withSettings (h _) _ _ _ _)
  linkRead _ l h := State.answersTagged_setLink h l (h l)
  noticeRead _ h := h
  config _ _ _ _ _ h := h
  changeMode _ m _ _ _ h := State.answersTagged_changeMode m h
  softReset s _ _ _ := State.answersTagged_resetEvent s .softReset
  rstFall s t _ h ht := by
    injection ht with ht
    subst ht
    split
    · exact h
    · split
      · exact h
      · exact State.answersTagged_resetEvent s .pinReset
  rstRelease s t _ h ht := by injection ht with ht; subst ht; dsimp only; (repeat' split) <;> exact h
  mainSupplyLoss s t _ h ht := by
    injection ht with ht
    subst ht
    dsimp only
    split
    · exact h
    · split
      · exact h
      · exact State.answersTagged_resetEvent s .powerReturn
  mainSupplyReturn s t _ h ht := by injection ht with ht; subst ht; dsimp only; (repeat' split) <;> exact h
  wakeEdge s t _ h ht := by injection ht with ht; subst ht; split <;> exact h
  backupSupplyLow s t _ h ht := by injection ht with ht; subst ht; split <;> exact h
  warmUpDone s t _ h ht := by
    injection ht with ht
    subst ht
    split
    · split
      · exact State.answersTagged_map h (f := Link.withColdSettings) rfl fun k hk => hk
      · exact h
    · exact h
  phaseReady s t _ h ht := by
    injection ht with ht
    subst ht
    split
    · have hrest : s.longCheckRest.answersTagged := by rw [longCheckOnly_rest]; exact h
      have hready : s.longCheckRest.becomeReady.answersTagged :=
        State.answersTagged_map hrest (f := Link.testRdy) rfl fun k hk => Link.answersTagged_testRdy hk
      refine closed_answersTagged.post _ _ ?_
      unfold State.postReturn
      split <;> exact hready
    · exact h

/-- Settles O9: a response joins the queue under a busy tag that no other bears, and leaves it as its tag is freed. -/
theorem everyStepKeepsAnswersUnderTheirTags : Obligations.EveryStepKeepsAnswersUnderTheirTags := fun _ _ h ht =>
  kept_answersTagged.step (fun _ _ _ => trivial) (fun _ _ h => h)
    (fun _ _ _ h => by rw [longCheckOnly_visit]; exact h) trivial h ht

/-! ### The deadline queue -/

/-- The due test runs in READY alone, so outside it only the order is kept by every command. -/
def State.deadlinesAheadInReady (s : State) : Prop :=
  ordered s.deadlines ∧ (s.isReady = true → ∀ i ∈ s.deadlines, s.timebase < i.deadline)

theorem State.deadlinesAhead.inReady {s : State} (h : s.deadlinesAhead) : s.deadlinesAheadInReady := ⟨h.1, fun _ => h.2⟩

theorem State.deadlinesAheadInReady_congr {s t : State} (h : s.deadlinesAheadInReady) (hd : t.deadlines = s.deadlines)
    (ht : t.timebase = s.timebase) (hr : t.isReady = true → s.isReady = true) : t.deadlinesAheadInReady := by
  refine ⟨hd ▸ h.1, fun hready => ?_⟩
  rw [hd, ht]
  exact h.2 (hr hready)

theorem State.deadlinesAheadInReady_of_empty {s : State} (hd : s.deadlines = []) : s.deadlinesAheadInReady := by
  simp [State.deadlinesAheadInReady, hd, ordered]

theorem State.deadlinesAheadInReady_of_notReady {s : State} (h : ordered s.deadlines) (hr : s.isReady = false) :
    s.deadlinesAheadInReady :=
  ⟨h, fun hready => absurd (hr.symm.trans hready) (by decide)⟩

/-- R103: the due test leaves in an ordered queue what lies above the timebase. -/
theorem State.deadlinesAheadInReady_dueTest {s : State} (h : ordered s.deadlines) : s.dueTest.deadlinesAheadInReady := by
  cases hr : s.isReady
  · rw [dueTest_notReady hr]
    exact State.deadlinesAheadInReady_of_notReady h hr
  · obtain ⟨hd, -, -⟩ := State.dueTest_spec hr h
    have ht : s.dueTest.timebase = s.timebase := by simp
    refine ⟨?_, fun _ i hi => ?_⟩
    · rw [hd]
      exact ordered_filter _ _ h
    · rw [hd, List.mem_filter] at hi
      rw [ht]
      exact of_decide_eq_true hi.2

theorem ordered_rearm_all (list : List Ticket) : ∀ s : State, ordered s.deadlines →
    ordered (list.foldl State.rearm s).deadlines := by
  induction list with
  | nil => exact fun _ h => h
  | cons t list ih => exact fun s h => ih _ (ordered_insertItem _ _ h)

theorem closed_deadlinesAheadInReady : Closed State.deadlinesAheadInReady where
  setRecord _ _ _ h := h
  setHold _ _ _ h := h
  setTariff _ _ _ h := h
  setWay _ _ _ h := h
  filterIndex _ _ h := h
  transit _ _ h := h
  setEngine _ _ _ _ h := h
  enqueue _ _ _ _ h := h
  allocPtr _ _ h := h
  indexUnit _ _ h := h
  check _ _ _ h := h
  cmd _ _ _ h := h
  post _ _ h := State.deadlinesAheadInReady_congr h (by simp) (by simp) (by simp)
  answer _ _ _ _ h := h
  wake _ h := State.deadlinesAheadInReady_congr h (by simp) (by simp) (by simp)
  removeDeadline _ _ h := ⟨ordered_filter _ _ h.1, fun hr i hi => h.2 hr i (List.mem_filter.1 hi).1⟩
  dueTest _ h := State.deadlinesAheadInReady_dueTest h.1
  insertDue _ _ _ _ _ _ h := State.deadlinesAheadInReady_dueTest (ordered_insertItem _ _ h.1)
  replaceDue _ _ _ _ _ _ h := State.deadlinesAheadInReady_dueTest (ordered_insertItem _ _ (ordered_filter _ _ h.1))
  rearmDue _ list h := State.deadlinesAheadInReady_dueTest (ordered_rearm_all list _ h.1)
  raise _ _ _ _ _ h := State.deadlinesAheadInReady_dueTest h.1

theorem State.deadlinesAheadInReady_changeMode {s : State} (m : Mode) (h : s.deadlinesAheadInReady) :
    (s.changeMode m).deadlinesAheadInReady := by
  unfold State.changeMode
  cases m with
  | run => exact h
  | economy => dsimp only; split <;> exact h
  | standby => dsimp only; split <;> exact h
  | retain =>
    dsimp only
    split
    · exact h
    · split
      · exact h
      · exact State.deadlinesAheadInReady_of_empty rfl

theorem kept_deadlinesAheadInReady : Kept State.restsUntilReady State.deadlinesAheadInReady where
  toClosed := closed_deadlinesAheadInReady
  takeByte := State.takeByte_keeps closed_deadlinesAheadInReady.wake closed_deadlinesAheadInReady.post
    fun _ _ _ _ _ _ h => h
  discardFrame := State.discardFrame_keeps fun _ _ _ _ _ _ h => h
  sent _ _ h := h
  hldOff _ _ h := h
  hldOn _ _ h := h
  takeFrame s l frame rest _ _ h := by
    unfold State.takeFrame State.deliverRoute
    dsimp only
    split <;> exact h
  linkSet _ _ _ _ _ _ _ _ _ h := h
  linkRead _ _ h := h
  noticeRead _ h := h
  config _ _ _ _ _ h := h
  changeMode _ m _ _ _ h := State.deadlinesAheadInReady_changeMode m h
  softReset _ _ _ _ := State.deadlinesAheadInReady_of_empty rfl
  rstFall s t _ h ht := by
    injection ht with ht
    subst ht
    split
    · exact h
    · split
      · exact h
      · exact State.deadlinesAheadInReady_of_empty rfl
  rstRelease s t _ h ht := by
    injection ht with ht
    subst ht
    dsimp only
    split
    · split
      · exact State.deadlinesAheadInReady_of_notReady h.1 rfl
      · exact h
    · exact h
  mainSupplyLoss s t _ h ht := by
    injection ht with ht
    subst ht
    dsimp only
    split
    · exact h
    · split
      · exact h
      · exact State.deadlinesAheadInReady_of_empty rfl
  mainSupplyReturn s t _ h ht := by
    injection ht with ht
    subst ht
    dsimp only
    split
    · exact h
    · split
      · exact h
      · split
        · exact h
        · exact State.deadlinesAheadInReady_of_notReady h.1 rfl
  wakeEdge s t _ h ht := by
    injection ht with ht
    subst ht
    split
    · exact State.deadlinesAheadInReady_of_notReady h.1 rfl
    · exact h
  backupSupplyLow s t _ h ht := by injection ht with ht; subst ht; split <;> exact h
  warmUpDone s t _ h ht := by
    injection ht with ht
    subst ht
    split
    · refine State.deadlinesAheadInReady_of_notReady ?_ rfl
      split <;> exact h.1
    · exact h
  phaseReady s t hrest h ht := by
    by_cases hs : s.power.stage = .longCheck
    · obtain ⟨-, -, hempty, -⟩ := hrest (State.notReady_of_stage hs (by decide))
      obtain ⟨-, hd⟩ := execPhaseReady_ready hs ht
      exact State.deadlinesAheadInReady_of_empty (hd.trans hempty)
    · injection ht with ht
      subst ht
      rw [if_neg (by simpa using hs)]
      exact h

theorem step_deadlinesAheadInReady {s t : State} (hrest : s.restsUntilReady) (h : s.deadlinesAheadInReady)
    (ht : step s = .next t) : t.deadlinesAheadInReady :=
  kept_deadlinesAheadInReady.step (fun _ _ h => h) (fun _ _ h => h)
    (fun _ _ _ h => by rw [longCheckOnly_visit]; exact h) hrest h ht

/-- Settles O11: in READY the due test follows every insertion and every second; at rest the queue is empty. -/
theorem everyStepKeepsDeadlinesAhead : Obligations.EveryStepKeepsDeadlinesAhead := by
  intro s t hrest h ht
  obtain ⟨hordered, hahead⟩ := step_deadlinesAheadInReady hrest h.inReady ht
  refine ⟨hordered, ?_⟩
  rcases step_readyOrAtRest hrest ht with (hr | hrested) | ⟨-, -, hd, htime⟩
  · exact hahead hr
  · obtain ⟨-, -, hempty, -⟩ := hrested
    simp [hempty]
  · rw [hd, htime]
    exact h.2

end Sys2Proof.Machine
end

section
/-! The speed of the links in ECONOMY, RDY and ATTN along every step, and the state after reset (R146, R150, R161, R162, R166). -/

namespace Sys2Proof.Machine

/-! ### The speed of the links -/

theorem State.anyFastBaud_iff {s : State} : s.anyFastBaud = false ↔ ∀ l, fastBaud (s.link l).baud.val = false := by
  refine ⟨fun h l => ?_, fun h => ?_⟩
  · simp only [State.anyFastBaud, Bool.or_eq_false_iff] at h
    obtain ⟨⟨⟨h0, h1⟩, h2⟩, h3⟩ := h
    match l with
    | 0 => exact h0
    | 1 => exact h1
    | 2 => exact h2
    | 3 => exact h3
  · simp only [State.anyFastBaud, Bool.or_eq_false_iff]
    exact ⟨⟨⟨h 0, h 1⟩, h 2⟩, h 3⟩

/-- The modes in which every link is slow: ECONOMY, and a STANDBY entered from it (R150, R164). -/
def Power.slowMode (p : Power) : Prop := p.mode = .economy ∨ (p.mode = .standby ∧ p.resume = .economy)

theorem State.slowInEconomy_iff {s : State} :
    s.slowInEconomy ↔ (s.power.slowMode → ∀ l, fastBaud (s.link l).baud.val = false) := by
  rw [← State.anyFastBaud_iff]
  rfl

theorem Power.slowMode_of_mode {p : Power} (h : p.mode = .run ∨ p.mode = .retain) : ¬ p.slowMode := by
  rcases h with h | h <;> simp [Power.slowMode, h]

theorem State.slowInEconomy_of_mode {s : State} (h : s.power.mode = .run ∨ s.power.mode = .retain) : s.slowInEconomy :=
  fun hslow => absurd hslow (Power.slowMode_of_mode h)

theorem State.slowInEconomy_of {s t : State} (h : s.slowInEconomy) (hmode : t.power.slowMode → s.power.slowMode)
    (hbaud : ∀ l, (t.link l).baud = (s.link l).baud) : t.slowInEconomy := by
  rw [State.slowInEconomy_iff] at *
  intro ht l
  rw [hbaud]
  exact h (hmode ht) l

theorem State.slowInEconomy_setLink {s : State} (h : s.slowInEconomy) (l : Lane) {k : Link} (hk : k.baud = (s.link l).baud) :
    (s.setLink l k).slowInEconomy := by
  refine State.slowInEconomy_of h id fun m => ?_
  by_cases hm : m = l
  · subst hm
    rw [State.link_setLink_same]
    exact hk
  · rw [State.link_setLink_ne _ _ hm]

/-- R164: a wake returns to the mode that STANDBY was entered from. -/
theorem State.slowInEconomy_wake {s : State} (h : s.slowInEconomy) : s.wake.slowInEconomy := by
  refine State.slowInEconomy_of h (fun hw => ?_) (by simp)
  rw [State.power_wake_eq] at hw
  split at hw
  · rename_i hmode
    rcases hw with hr | ⟨-, hr⟩ <;> exact .inr ⟨hmode, hr⟩
  · exact hw

theorem State.slowInEconomy_dueTest {s : State} (h : s.slowInEconomy) : s.dueTest.slowInEconomy := by
  have hpower := State.power_dueTest s
  split at hpower
  · exact State.slowInEconomy_of (State.slowInEconomy_wake h) (by rw [hpower]; exact id) (by simp)
  · exact State.slowInEconomy_of h (by rw [hpower]; exact id) (by simp)

@[simp] theorem Link.txBegin_baud (k : Link) : k.txBegin.baud = k.baud := by
  unfold Link.txBegin
  split <;> rfl

@[simp] theorem Link.testRdy_baud (k : Link) : k.testRdy.baud = k.baud := by
  unfold Link.testRdy
  (repeat' split) <;> rfl

@[simp] theorem Link.arrive_baud (k : Link) (epoch : Byte) (r : Response) : (k.arrive epoch r).baud = k.baud := by
  rw [Link.arrive_frame]

@[simp] theorem Link.sent_baud (k : Link) : k.sent.baud = k.baud := by
  unfold Link.sent
  (repeat' split) <;> simp

@[simp] theorem Link.taken_baud (k : Link) (frame : List Byte) : (k.taken frame).baud = k.baud := by
  unfold Link.taken Link.popFrame
  dsimp only
  split <;> rfl

@[simp] theorem Link.withSettings_baud (k : Link) (enable : Bool) (baud : Fin 6) (high resume : Nat) :
    (k.withSettings enable baud high resume).baud = baud := by
  simp [Link.withSettings]

theorem Link.Received.baud {k k' : Link} (h : k.Received k') : k'.baud = k.baud := by
  cases h with
  | receiver r => rfl
  | discarded => rfl
  | stored frame hroom =>
    unfold Link.pushFrame
    dsimp only
    split <;> rfl
  | overrun => rfl

theorem State.slowInEconomy_answer {s : State} (o : Origin) (st : Status) (b : TermBody) (h : s.slowInEconomy) :
    (s.answer o st b).slowInEconomy :=
  State.slowInEconomy_setLink h _ (by simp)

theorem closed_slowInEconomy : Closed State.slowInEconomy where
  setRecord _ _ _ h := h
  setHold _ _ _ h := h
  setTariff _ _ _ h := h
  setWay _ _ _ h := h
  filterIndex _ _ h := h
  transit _ _ h := h
  setEngine _ _ _ _ h := h
  enqueue _ _ _ _ h := h
  allocPtr _ _ h := h
  indexUnit _ _ h := h
  check _ _ _ h := h
  cmd _ _ _ h := h
  post _ _ h := State.slowInEconomy_of h (by simp) (by simp)
  answer _ o st b h := State.slowInEconomy_answer o st b h
  wake _ h := State.slowInEconomy_wake h
  removeDeadline _ _ h := h
  dueTest _ h := State.slowInEconomy_dueTest h
  insertDue _ _ _ o st b h := State.slowInEconomy_dueTest (State.slowInEconomy_answer o st b h)
  replaceDue _ _ _ o st b h := State.slowInEconomy_dueTest (State.slowInEconomy_answer o st b h)
  rearmDue _ _ h := State.slowInEconomy_dueTest (by rw [State.rearm_all_frame]; exact h)
  raise _ _ _ _ _ h := State.slowInEconomy_dueTest h

/-- R150: a setting that LINK_SET accepts. -/
theorem linkRefusal_none {l enable baud high resume : Byte} {m : Mode} (h : linkRefusal l enable baud high resume m = none) :
    baud.toNat ≤ 5 ∧ 1 ≤ high.toNat ∧ resume.toNat < high.toNat ∧ (m = .economy → fastBaud baud.toNat = false) := by
  unfold linkRefusal at h
  split at h
  · contradiction
  · rename_i hrange
    split at h
    · contradiction
    · rename_i hspeed
      simp only [Bool.or_eq_true, decide_eq_true_eq, not_or, Nat.not_lt, Nat.not_le] at hrange
      obtain ⟨⟨⟨⟨⟨⟨-, -⟩, hbaud⟩, hhigh⟩, -⟩, -⟩, hresume⟩ := hrange
      exact ⟨hbaud, hhigh, hresume, fun hm => by simpa [hm] using hspeed⟩

theorem State.slowInEconomy_linkSet {s : State} {l enable baud high resume : Byte} (ha : s.awake)
    (hok : linkRefusal l enable baud high resume s.power.mode = none) (h : s.slowInEconomy) :
    (s.setLink (laneOf l.toNat) ((s.link (laneOf l.toNat)).withSettings (enable == 1) (baudOf baud) high.toNat
      resume.toNat)).slowInEconomy := by
  obtain ⟨hbaud, -, -, hspeed⟩ := linkRefusal_none hok
  rw [State.slowInEconomy_iff]
  intro hslow m
  have heco : s.power.mode = .economy := by
    rcases hslow with hm | ⟨hm, hr⟩
    · exact hm
    · exact absurd ((ha (.inl hm)).symm.trans hr) (by rw [show s.power.mode = .standby from hm]; decide)
  by_cases hm : m = laneOf l.toNat
  · subst hm
    rw [State.link_setLink_same, Link.withSettings_baud]
    have hval : (baudOf baud).val = baud.toNat := Nat.mod_eq_of_lt (by omega)
    rw [hval]
    exact hspeed heco
  · rw [State.link_setLink_ne _ _ hm]
    exact State.slowInEconomy_iff.1 h (.inl heco) m

theorem State.slowInEconomy_changeMode {s : State} (m : Mode) (h : s.slowInEconomy) : (s.changeMode m).slowInEconomy := by
  unfold State.changeMode
  cases m with
  | run => exact State.slowInEconomy_of_mode (.inl rfl)
  | economy =>
    dsimp only
    split
    · exact h
    · rename_i hslow
      exact fun _ => Bool.eq_false_iff.2 hslow
  | standby =>
    dsimp only
    split
    · refine State.slowInEconomy_of h (fun hm => .inl ?_) fun _ => rfl
      rcases hm with hm | ⟨-, hr⟩
      · contradiction
      · exact hr
    · exact h
  | retain =>
    dsimp only
    split
    · exact h
    · split
      · exact h
      · exact State.slowInEconomy_of_mode (.inr rfl)

theorem State.slowInEconomy_takeFrame {s : State} (l : Lane) (frame : List Byte) (h : s.slowInEconomy) :
    (s.takeFrame l frame).slowInEconomy := by
  have htaken : (s.afterTake l frame).slowInEconomy := State.slowInEconomy_setLink h l (Link.taken_baud _ _)
  show ((s.afterTake l frame).deliverRoute _ (routeFrame s frame)).slowInEconomy
  cases routeFrame s frame with
  | answer st => exact State.slowInEconomy_answer _ _ _ htaken
  | engine g r => exact htaken
  | index key => exact htaken

/-- The cold defaults are written outside READY, where the mode is RUN or RETAIN. -/
theorem slowInEconomy_warmUpDone {s t : State} (hrest : s.restsUntilReady) (h : s.slowInEconomy)
    (ht : execOscillatorWarmUpDone s = .next t) : t.slowInEconomy := by
  injection ht with ht
  subst ht
  split
  · rename_i hs
    obtain ⟨-, -, -, -, hmode, -⟩ := hrest (State.notReady_of_stage (beq_iff_eq.1 hs) (by decide))
    refine State.slowInEconomy_of_mode ?_
    split <;> exact hmode
  · exact h

theorem kept_slowInEconomy : Kept State.restsUntilReady State.slowInEconomy where
  toClosed := closed_slowInEconomy
  takeByte := State.takeByte_keeps closed_slowInEconomy.wake closed_slowInEconomy.post fun _ l _ _ _ hk h =>
    State.slowInEconomy_setLink h l hk.baud
  discardFrame := State.discardFrame_keeps fun _ l _ _ _ hk h => State.slowInEconomy_setLink h l hk.baud
  sent _ l h := State.slowInEconomy_setLink h l (by simp)
  hldOff _ l h := State.slowInEconomy_setLink h l (by simp)
  hldOn _ l h := State.slowInEconomy_setLink h l rfl
  takeFrame _ l frame _ _ _ h := State.slowInEconomy_takeFrame l frame h
  linkSet _ _ _ _ _ _ _ ha hok h := State.slowInEconomy_linkSet ha hok h
  linkRead _ l h := State.slowInEconomy_setLink h l rfl
  noticeRead _ h := h
  config _ _ _ _ _ h := h
  changeMode _ m _ _ _ h := State.slowInEconomy_changeMode m h
  softReset _ _ _ _ := State.slowInEconomy_of_mode (.inl rfl)
  rstFall s t _ h ht := by
    injection ht with ht
    subst ht
    split
    · exact h
    · split
      · exact h
      · exact State.slowInEconomy_of_mode (.inl rfl)
  rstRelease s t _ h ht := by
    injection ht with ht
    subst ht
    dsimp only
    split
    · split
      · exact State.slowInEconomy_of_mode (.inl rfl)
      · exact h
    · exact h
  mainSupplyLoss s t _ h ht := by
    injection ht with ht
    subst ht
    dsimp only
    split
    · exact h
    · split
      · exact h
      · exact State.slowInEconomy_of_mode (.inl rfl)
  mainSupplyReturn s t _ h ht := by
    injection ht with ht
    subst ht
    dsimp only
    split
    · exact h
    · split
      · exact h
      · split
        · exact h
        · exact State.slowInEconomy_of_mode (.inl rfl)
  wakeEdge s t _ h ht := by
    injection ht with ht
    subst ht
    split
    · exact State.slowInEconomy_of_mode (.inl rfl)
    · exact h
  backupSupplyLow s t _ h ht := by injection ht with ht; subst ht; split <;> exact h
  warmUpDone _ _ hrest h ht := slowInEconomy_warmUpDone hrest h ht
  phaseReady s t _ h ht := by
    injection ht with ht
    subst ht
    split
    · have hlongCheck : s.longCheckRest.slowInEconomy := by rw [longCheckOnly_rest]; exact h
      have hready : s.longCheckRest.becomeReady.slowInEconomy :=
        State.slowInEconomy_of hlongCheck id fun l => by simp [State.link, State.becomeReady]
      refine closed_slowInEconomy.post _ _ ?_
      unfold State.postReturn
      split <;> exact hready
    · exact h

/-- Settles O12: ECONOMY is entered with slow links only, LINK_SET refuses a fast one in it, and the cold defaults are
written outside it. -/
theorem everyStepKeepsEconomySlow : Obligations.EveryStepKeepsEconomySlow := fun _ _ _ hrest h ht =>
  kept_slowInEconomy.step (fun _ _ h => h) (fun _ _ h => h)
    (fun _ _ _ h => by rw [longCheckOnly_visit]; exact h) hrest h ht

/-! ### RDY -/

/-- R143, R146: the rule of RDY at one link of a chip that is in READY or not. -/
def Link.rdyRule (k : Link) (ready : Bool) : Prop :=
  k.resume < k.high ∧ (k.rdy = true → k.enabled = true ∧ k.fifo.length < k.high ∧ ready = true)

theorem State.rdyRule_iff {s : State} : s.rdyRule ↔ ∀ l, (s.link l).rdyRule s.isReady := Iff.rfl

theorem Link.rdyRule_of_fall {k : Link} {ready : Bool} (hmarks : k.resume < k.high) (hrdy : k.rdy = false) : k.rdyRule ready :=
  ⟨hmarks, fun h => absurd (hrdy.symm.trans h) (by decide)⟩

/-- Outside READY the rule says that RDY is deasserted. -/
theorem Link.rdyRule_of_notReady {k : Link} (h : k.rdyRule false) (ready : Bool) : k.rdyRule ready :=
  ⟨h.1, fun hrdy => absurd (h.2 hrdy).2.2 (by decide)⟩

theorem Link.rdyRule_txBegin {k : Link} {ready : Bool} (h : k.rdyRule ready) : k.txBegin.rdyRule ready := by
  unfold Link.txBegin
  split <;> exact h

theorem Link.rdyRule_arrive {k : Link} {ready : Bool} (h : k.rdyRule ready) (epoch : Byte) (r : Response) :
    (k.arrive epoch r).rdyRule ready := by
  rw [Link.arrive_frame]
  exact h

theorem Link.rdyRule_sent {k : Link} {ready : Bool} (h : k.rdyRule ready) : k.sent.rdyRule ready := by
  unfold Link.sent
  split
  · split
    · exact Link.rdyRule_txBegin (k := { k with queue := _, sending := false, tags := _, lastSent := _ }) h
    · exact h
  · exact h

/-- R146: RDY tested in READY against marks in order. -/
theorem Link.rdyRule_testRdy {k : Link} (hmarks : k.resume < k.high) : k.testRdy.rdyRule true := by
  unfold Link.testRdy
  split
  · exact Link.rdyRule_of_fall hmarks rfl
  · rename_i henabled
    have he : k.enabled = true := by simpa using henabled
    split
    · exact Link.rdyRule_of_fall hmarks rfl
    · rename_i hhigh
      split <;> exact ⟨hmarks, fun _ => ⟨he, Nat.lt_of_not_le hhigh, rfl⟩⟩

theorem Link.rdyRule_withSettings (k : Link) (enable : Bool) (baud : Fin 6) {high resume : Nat} (hmarks : resume < high) :
    (k.withSettings enable baud high resume).rdyRule true := by
  unfold Link.withSettings
  exact Link.rdyRule_testRdy hmarks

theorem Link.rdyRule_taken {k : Link} (h : k.rdyRule true) (henabled : k.enabled = true) (frame : List Byte) :
    (k.taken frame).rdyRule true := by
  obtain ⟨hmarks, hrdy⟩ := h
  unfold Link.taken Link.popFrame
  dsimp only
  split
  · rename_i hresume
    exact ⟨hmarks, fun _ => ⟨henabled, Nat.lt_of_le_of_lt hresume hmarks, rfl⟩⟩
  · refine ⟨hmarks, fun h => ?_⟩
    obtain ⟨he, hlen, hready⟩ := hrdy h
    exact ⟨he, Nat.lt_of_le_of_lt (by simp) hlen, hready⟩

theorem Link.Received.rdyRule {k k' : Link} {ready : Bool} (h : k.Received k') (hk : k.rdyRule ready) : k'.rdyRule ready := by
  cases h with
  | receiver r => exact hk
  | discarded => exact hk
  | stored frame hroom =>
    obtain ⟨hmarks, hrdy⟩ := hk
    unfold Link.pushFrame
    dsimp only
    split
    · exact Link.rdyRule_of_fall hmarks rfl
    · rename_i hhigh
      refine ⟨hmarks, fun h => ?_⟩
      obtain ⟨he, -, hready⟩ := hrdy h
      exact ⟨he, Nat.lt_of_not_le hhigh, hready⟩
  | overrun => exact hk

theorem State.rdyRule_setLink {s : State} (h : s.rdyRule) (l : Lane) {k : Link} (hk : k.rdyRule s.isReady) :
    (s.setLink l k).rdyRule := by
  intro m
  by_cases hm : m = l
  · subst hm
    rw [State.link_setLink_same]
    exact hk
  · rw [State.link_setLink_ne _ _ hm]
    exact h m

theorem State.rdyRule_congr {s t : State} (h : s.rdyRule) (hl : ∀ l, t.link l = s.link l) (hr : t.isReady = s.isReady) :
    t.rdyRule := by
  rw [State.rdyRule_iff] at *
  intro l
  rw [hl, hr]
  exact h l

/-- A chip that leaves for another phase from outside READY. -/
theorem State.rdyRule_of_notReady {s t : State} (h : s.rdyRule) (hr : s.isReady = false) (hl : ∀ l, t.link l = s.link l) :
    t.rdyRule := by
  rw [State.rdyRule_iff, hr] at h
  intro l
  rw [hl]
  exact Link.rdyRule_of_notReady (h l) _

theorem State.rdyRule_resetEvent {s : State} (c : StartCause) (h : s.rdyRule) : (s.resetEvent c).rdyRule := by
  intro l
  have hlink : (s.resetEvent c).link l = (s.link l).afterReset := by simp [State.link, State.resetEvent]
  rw [hlink]
  exact Link.rdyRule_of_fall (h l).1 rfl

theorem State.rdyRule_answer {s : State} (o : Origin) (st : Status) (b : TermBody) (h : s.rdyRule) :
    (s.answer o st b).rdyRule :=
  State.rdyRule_setLink h _ (Link.rdyRule_arrive (h _) _ _)

theorem State.rdyRule_dueTest {s : State} (h : s.rdyRule) : s.dueTest.rdyRule :=
  State.rdyRule_congr h (by simp) (by simp)

theorem closed_rdyRule : Closed State.rdyRule where
  setRecord _ _ _ h := h
  setHold _ _ _ h := h
  setTariff _ _ _ h := h
  setWay _ _ _ h := h
  filterIndex _ _ h := h
  transit _ _ h := h
  setEngine _ _ _ _ h := h
  enqueue _ _ _ _ h := h
  allocPtr _ _ h := h
  indexUnit _ _ h := h
  check _ _ _ h := h
  cmd _ _ _ h := h
  post _ _ h := State.rdyRule_congr h (by simp) (by simp)
  answer _ o st b h := State.rdyRule_answer o st b h
  wake _ h := State.rdyRule_congr h (by simp) (by simp)
  removeDeadline _ _ h := h
  dueTest _ h := State.rdyRule_dueTest h
  insertDue _ _ _ o st b h := State.rdyRule_dueTest (State.rdyRule_answer o st b h)
  replaceDue _ _ _ o st b h := State.rdyRule_dueTest (State.rdyRule_answer o st b h)
  rearmDue _ _ h := State.rdyRule_dueTest (by rw [State.rearm_all_frame]; exact h)
  raise _ _ _ _ _ h := State.rdyRule_dueTest h

theorem State.rdyRule_changeMode {s : State} (m : Mode) (h : s.rdyRule) : (s.changeMode m).rdyRule := by
  unfold State.changeMode
  cases m with
  | run => exact h
  | economy => dsimp only; split <;> exact h
  | standby => dsimp only; split <;> exact h
  | retain =>
    dsimp only
    split
    · exact h
    · split
      · exact h
      · exact State.rdyRule_resetEvent .retainWake h

/-- R40: a frame is taken at an enabled link of a chip in READY. -/
theorem State.rdyRule_takeFrame {s : State} {l : Lane} {frame : List Byte} {rest : List (List Byte)}
    (ht : s.takeable l = true) (hf : (s.link l).fifo = frame :: rest) (h : s.rdyRule) : (s.takeFrame l frame).rdyRule := by
  rw [State.takeable_of_head hf] at ht
  simp only [Bool.and_eq_true] at ht
  obtain ⟨⟨⟨hworking, henabled⟩, -⟩, -⟩ := ht
  have hready : s.isReady = true := by
    unfold State.working at hworking
    exact ((Bool.and_eq_true _ _).mp hworking).1
  have htaken : (s.afterTake l frame).rdyRule := State.rdyRule_setLink h l (by
    rw [hready]
    exact Link.rdyRule_taken (hready ▸ h l) henabled frame)
  show ((s.afterTake l frame).deliverRoute _ (routeFrame s frame)).rdyRule
  cases routeFrame s frame with
  | answer st => exact State.rdyRule_answer _ _ _ htaken
  | engine g r => exact htaken
  | index key => exact htaken

theorem State.notReady_of_unpowered {s : State} (h : s.powerRule) (hp : s.powered = false) : s.isReady = false :=
  State.notReady_of_stage (h.1 hp) (by decide)

theorem State.powered_of_rstLow {s : State} (h : s.power.rstLow = true) : s.powered = false := by
  simp [State.powered, h]

theorem State.powered_of_inRetain {s : State} (h : s.inRetain = true) : s.powered = false := by
  have hm : s.power.mode = .retain := by simpa [State.inRetain] using h
  simp [State.powered, hm]

theorem State.powered_of_noSupply {s : State} (h : ¬ s.power.supply = true) : s.powered = false := by
  simp [State.powered, h]

theorem kept_rdyRule : Kept State.powerRule State.rdyRule where
  toClosed := closed_rdyRule
  takeByte := State.takeByte_keeps closed_rdyRule.wake closed_rdyRule.post fun _ l _ _ _ hk h =>
    State.rdyRule_setLink h l (hk.rdyRule (h l))
  discardFrame := State.discardFrame_keeps fun _ l _ _ _ hk h => State.rdyRule_setLink h l (hk.rdyRule (h l))
  sent _ l h := State.rdyRule_setLink h l (Link.rdyRule_sent (h l))
  hldOff s l h := State.rdyRule_setLink h l (Link.rdyRule_txBegin (k := { s.link l with hld := false }) (h l))
  hldOn _ l h := State.rdyRule_setLink h l (h l)
  takeFrame _ _ _ _ ht hf h := State.rdyRule_takeFrame ht hf h
  linkSet s _ _ _ _ _ hready _ hok h := State.rdyRule_setLink h _ (by
    obtain ⟨-, -, hmarks, -⟩ := linkRefusal_none hok
    rw [hready]
    exact Link.rdyRule_withSettings _ _ _ hmarks)
  linkRead _ l h := State.rdyRule_setLink h l (h l)
  noticeRead _ h := h
  config _ _ _ _ _ h := h
  changeMode _ m _ _ _ h := State.rdyRule_changeMode m h
  softReset _ _ _ h := State.rdyRule_of_notReady (State.rdyRule_resetEvent .softReset h) rfl fun _ => rfl
  rstFall s t _ h ht := by
    injection ht with ht
    subst ht
    split
    · exact h
    · split
      · exact h
      · exact State.rdyRule_resetEvent .pinReset h
  rstRelease s t hp h ht := by
    injection ht with ht
    subst ht
    dsimp only
    split
    · rename_i hlow
      split
      · exact State.rdyRule_of_notReady h (State.notReady_of_unpowered hp (State.powered_of_rstLow hlow)) fun _ => rfl
      · exact h
    · exact h
  mainSupplyLoss s t _ h ht := by
    injection ht with ht
    subst ht
    dsimp only
    split
    · exact h
    · split
      · exact h
      · exact State.rdyRule_resetEvent .powerReturn h
  mainSupplyReturn s t hp h ht := by
    injection ht with ht
    subst ht
    dsimp only
    split
    · exact h
    · rename_i hs
      split
      · exact h
      · split
        · exact h
        · exact State.rdyRule_of_notReady h (State.notReady_of_unpowered hp (State.powered_of_noSupply hs)) fun _ => rfl
  wakeEdge s t hp h ht := by
    injection ht with ht
    subst ht
    split
    · rename_i hwake
      simp only [Bool.and_eq_true] at hwake
      obtain ⟨⟨hretain, -⟩, -⟩ := hwake
      exact State.rdyRule_of_notReady h (State.notReady_of_unpowered hp (State.powered_of_inRetain hretain)) fun _ => rfl
    · exact h
  backupSupplyLow s t _ h ht := by injection ht with ht; subst ht; split <;> exact h
  warmUpDone s t _ h ht := by
    injection ht with ht
    subst ht
    split
    · rename_i hs
      have hnot : s.isReady = false := State.notReady_of_stage (beq_iff_eq.1 hs) (by decide)
      split
      · intro l
        have hlink : s.coldDefaults.beginLongCheck.link l = (s.link l).withColdSettings := by
          simp [State.link, State.coldDefaults, State.beginLongCheck]
        have hrdy : (s.link l).rdy = false := by
          have hrule := (h l).2
          rw [hnot] at hrule
          exact Bool.eq_false_iff.2 fun hr => absurd (hrule hr).2.2 (by decide)
        rw [hlink]
        exact Link.rdyRule_of_fall (show 4 < 12 by decide) hrdy
      · exact State.rdyRule_of_notReady h hnot fun _ => rfl
    · exact h
  phaseReady s t _ h ht := by
    injection ht with ht
    subst ht
    split
    · have hready : s.longCheckRest.becomeReady.rdyRule := by
        intro l
        have hlink : s.longCheckRest.becomeReady.link l = (s.link l).testRdy := by
          rw [longCheckOnly_rest]
          simp [State.link, State.becomeReady]
        rw [hlink]
        exact Link.rdyRule_testRdy (h l).1
      refine closed_rdyRule.post _ _ ?_
      unfold State.postReturn
      split <;> exact hready
    · exact h

/-! ### ATTN -/

/-- R161 speaks of the notices and the threshold alone. -/
theorem State.attnRule_congr {s t : State} (h : s.attnRule) (hn : t.notices = s.notices)
    (hc : t.cmd.threshold = s.cmd.threshold) : t.attnRule := by
  unfold State.attnRule at *
  rw [hn, hc]
  exact h

theorem State.attnRule_testAttn {s : State} (h : 1 ≤ s.cmd.threshold) : s.testAttn.attnRule := ⟨h, rfl⟩

theorem State.attnRule_post {s : State} (n : Notice) (h : s.attnRule) : (s.post n).attnRule := by
  unfold State.post
  split
  · exact State.attnRule_testAttn h.1
  · exact h

/-- A queue without notices stands below every threshold. -/
theorem State.attnRule_of_empty {s : State} (hc : 1 ≤ s.cmd.threshold)
    (hn : s.notices = { list := [], lost := false, attn := false }) : s.attnRule := by
  refine ⟨hc, ?_⟩
  rw [hn]
  exact (decide_eq_false (Nat.not_le.2 hc)).symm

theorem State.attnRule_resetEvent {s : State} (c : StartCause) (h : s.attnRule) : (s.resetEvent c).attnRule :=
  State.attnRule_of_empty h.1 rfl

theorem State.attnRule_dueTest {s : State} (h : s.attnRule) : s.dueTest.attnRule :=
  State.attnRule_congr h (by simp) (by simp)

theorem closed_attnRule : Closed State.attnRule where
  setRecord _ _ _ h := h
  setHold _ _ _ h := h
  setTariff _ _ _ h := h
  setWay _ _ _ h := h
  filterIndex _ _ h := h
  transit _ _ h := h
  setEngine _ _ _ _ h := h
  enqueue _ _ _ _ h := h
  allocPtr _ _ h := h
  indexUnit _ _ h := h
  check _ _ _ h := h
  cmd _ _ hc h := State.attnRule_congr h rfl hc.1
  post _ n h := State.attnRule_post n h
  answer _ _ _ _ h := h
  wake _ h := State.attnRule_congr h (by simp) (by simp)
  removeDeadline _ _ h := h
  dueTest _ h := State.attnRule_dueTest h
  insertDue _ _ _ _ _ _ h := State.attnRule_dueTest h
  replaceDue _ _ _ _ _ _ h := State.attnRule_dueTest h
  rearmDue _ _ h := State.attnRule_dueTest (by rw [State.rearm_all_frame]; exact h)
  raise _ _ _ _ _ h := State.attnRule_dueTest h

theorem State.attnRule_changeMode {s : State} (m : Mode) (h : s.attnRule) : (s.changeMode m).attnRule := by
  unfold State.changeMode
  cases m with
  | run => exact h
  | economy => dsimp only; split <;> exact h
  | standby => dsimp only; split <;> exact h
  | retain =>
    dsimp only
    split
    · exact h
    · split
      · exact h
      · exact State.attnRule_resetEvent .retainWake h

theorem kept_attnRule : Kept State.restsUntilReady State.attnRule where
  toClosed := closed_attnRule
  takeByte := State.takeByte_keeps closed_attnRule.wake closed_attnRule.post fun _ _ _ _ _ _ h => h
  discardFrame := State.discardFrame_keeps fun _ _ _ _ _ _ h => h
  sent _ _ h := h
  hldOff _ _ h := h
  hldOn _ _ h := h
  takeFrame s l frame rest _ _ h := by
    unfold State.takeFrame State.deliverRoute
    dsimp only
    split <;> exact h
  linkSet _ _ _ _ _ _ _ _ _ h := h
  linkRead _ _ h := h
  noticeRead _ h := State.attnRule_testAttn h.1
  config _ _ _ _ hthreshold _ := State.attnRule_testAttn hthreshold
  changeMode _ m _ _ _ h := State.attnRule_changeMode m h
  softReset _ _ _ h := State.attnRule_resetEvent .softReset h
  rstFall s t _ h ht := by
    injection ht with ht
    subst ht
    split
    · exact h
    · split
      · exact h
      · exact State.attnRule_resetEvent .pinReset h
  rstRelease s t _ h ht := by injection ht with ht; subst ht; dsimp only; (repeat' split) <;> exact h
  mainSupplyLoss s t _ h ht := by
    injection ht with ht
    subst ht
    dsimp only
    split
    · exact h
    · split
      · exact h
      · exact State.attnRule_resetEvent .powerReturn h
  mainSupplyReturn s t _ h ht := by injection ht with ht; subst ht; dsimp only; (repeat' split) <;> exact h
  wakeEdge s t _ h ht := by injection ht with ht; subst ht; split <;> exact h
  backupSupplyLow s t _ h ht := by injection ht with ht; subst ht; split <;> exact h
  warmUpDone s t hrest h ht := by
    injection ht with ht
    subst ht
    split
    · rename_i hs
      obtain ⟨-, -, -, -, -, hnotices, -⟩ := hrest (State.notReady_of_stage (beq_iff_eq.1 hs) (by decide))
      split
      · exact State.attnRule_of_empty (Nat.le_refl 1) hnotices
      · exact h
    · exact h
  phaseReady s t _ h ht := by
    injection ht with ht
    subst ht
    split
    · have hlongCheck : s.longCheckRest.attnRule := by rw [longCheckOnly_rest]; exact h
      refine closed_attnRule.post _ _ ?_
      unfold State.postReturn
      split <;> exact hlongCheck
    · exact h

/-- Settles O13: RDY by every change of a link and of the phase, ATTN by every change of the notices and the threshold. -/
theorem everyStepKeepsTheSignalRules : Obligations.EveryStepKeepsTheSignalRules := by
  intro s t hp hrest hrdy hattn ht
  refine ⟨?_, ?_⟩
  · exact kept_rdyRule.step (fun _ _ h => h) (fun _ _ h => h)
      (fun _ _ _ h => by rw [longCheckOnly_visit]; exact h) hp hrdy ht
  · exact kept_attnRule.step (fun _ _ h => h) (fun _ _ h => h)
      (fun _ _ _ h => by rw [longCheckOnly_visit]; exact h) hrest hattn ht

/-! ### The state after reset -/

@[simp] theorem reset_record (n : Nat) : State.reset.record n = Record.cold := rfl

@[simp] theorem reset_hold (n : Nat) : State.reset.hold n = HoldEntry.cold := rfl

@[simp] theorem reset_way (n : Nat) : State.reset.way n = none := rfl

@[simp] theorem reset_link (l : Lane) : State.reset.link l = Link.cold := by simp [State.link, State.reset]

@[simp] theorem reset_engine (g : Lane) : State.reset.engine g = Engine.cleared := by simp [State.engine, State.reset]

theorem reset_indexUnit : State.reset.indexUnit = IndexUnit.cleared := rfl

theorem reset_not_places (g : Lane) (r : Request) : ¬ State.reset.places g r := by
  rintro (h | ⟨op, h, -⟩ | h)
  · simp [Engine.cleared] at h
  · simp [Engine.cleared] at h
  · exact Option.some_ne_none (g, r) h.symm

theorem reset_not_updating (u : IndexUpdate) : ¬ State.reset.updating u := by
  rintro (h | h)
  · simp [reset_indexUnit, IndexUnit.cleared] at h
  · simp [reset_indexUnit, IndexUnit.cleared] at h

theorem reset_not_isOpen (t : Ticket) : ¬ State.reset.isOpen t := by
  unfold State.isOpen
  rw [ticketCurrent_iff, reset_hold]
  exact fun h => h.1 rfl

theorem reset_canonical : State.reset.canonical := ⟨rfl, rfl, rfl, rfl⟩

theorem reset_bounded : State.reset.bounded :=
  ⟨fun g => by simp [Engine.cleared], fun l => by simp [Link.cold], Nat.zero_le _⟩

theorem reset_answersTagged : State.reset.answersTagged := fun l =>
  Link.answersTagged_of_empty (by simp [Link.cold])

theorem reset_powerRule : State.reset.powerRule := State.powerRule_of_powered rfl (.inl rfl)

theorem reset_restsUntilReady : State.reset.restsUntilReady := fun _ => ⟨rfl, rfl, rfl, rfl, .inl rfl, rfl, rfl, rfl⟩

theorem reset_deadlinesAhead : State.reset.deadlinesAhead := ⟨trivial, fun _ hi => absurd hi List.not_mem_nil⟩

theorem reset_rdyRule : State.reset.rdyRule := fun l => by
  rw [reset_link]
  exact Link.rdyRule_of_fall (show 4 < 12 by decide) rfl

theorem reset_shortCheckRule : State.reset.shortCheckRule := State.shortCheckRule_cleared (show 1 ≤ 60 by decide) rfl

theorem reset_taskRule : State.reset.taskRule := by
  unfold State.taskRule State.tasks
  simp only [reset_engine]
  decide

theorem reset_indexRule : State.reset.indexRule :=
  ⟨fun w e h => by simp at h, fun v w e f h => by simp at h, fun key _ w e h => by simp at h⟩

theorem reset_holdsRule : State.reset.holdsRule := by
  refine ⟨fun n => ?_, fun n t => ?_, fun _ _ => rfl, fun _ _ => rfl⟩
  · rw [reset_record]
    exact ⟨List.nodup_nil, Nat.zero_le _, rfl, Nat.zero_le _, fun _ => rfl⟩
  · refine ⟨fun h => ?_, fun h => absurd h.1 (reset_not_isOpen t)⟩
    rw [reset_record] at h
    exact absurd h List.not_mem_nil

theorem reset_deadlinesRule : State.reset.deadlinesRule := by
  have hclaims : ∀ g, (State.reset.engine g).claims = [] := fun g => by rw [reset_engine]; rfl
  refine ⟨List.nodup_nil, fun g => ?_, fun i hi => absurd hi List.not_mem_nil, fun g t ht => ?_, fun t ht => ?_⟩
  · rw [hclaims]
    exact List.nodup_nil
  · rw [hclaims] at ht
    exact absurd ht List.not_mem_nil
  · exact absurd ht (reset_not_isOpen t)

theorem reset_workRule : State.reset.workRule := by
  refine ⟨fun g r h => absurd h (reset_not_places g r), fun g n h => ?_, fun n => ?_, fun n h => ?_, fun g op h => ?_⟩
  · rcases h with h | ⟨op, h, -⟩ <;> simp [Engine.cleared] at h
  · simp [State.removals, Engine.removals, reset_indexUnit, IndexUnit.cleared, Engine.cleared]
  · rcases h with ⟨g, h⟩ | ⟨key, h⟩
    · exact absurd h (reset_not_places g _)
    · exact absurd h (reset_not_updating _)
  · simp [Engine.cleared] at h

/-- Settles O16: every store of the state after reset is empty or cold, and no work stands anywhere. -/
theorem resetSatisfiesTheInvariants : Obligations.ResetSatisfiesTheInvariants :=
  ⟨reset_canonical, reset_bounded, reset_answersTagged, reset_powerRule, reset_restsUntilReady, reset_deadlinesAhead,
    State.slowInEconomy_of_mode (.inl rfl), reset_rdyRule, State.attnRule_of_empty (Nat.le_refl 1) rfl,
    reset_shortCheckRule, reset_taskRule, reset_indexRule, reset_holdsRule, reset_deadlinesRule, reset_workRule,
    rfl, rfl, rfl, rfl⟩

end Sys2Proof.Machine
end

section
/-! What is written on the wire and in a record reads back: command blocks, request frames, check codes (R4, R41, R154, R155,
R169, R171). -/

namespace Sys2Proof

/-! ### Fields at their places -/

theorem fieldOf_beBytes_only (w n : Nat) (x : BitVec w) (h : w = 8 * n) : fieldOf w n (beBytes n x.toNat) = x := by
  simpa using fieldOf_beBytes w n x [] h

theorem Handle.ofBytes_bytes_only (h : Handle) : Handle.ofBytes h.bytes = h := by
  simpa using Handle.ofBytes_bytes h []

theorem Ticket.ofBytes_bytes_only (t : Ticket) : Ticket.ofBytes t.bytes = t := by
  simpa using Ticket.ofBytes_bytes t []

theorem Ticket.drop_bytes (t : Ticket) (rest : List Byte) : (t.bytes ++ rest).drop 2 = rest := rfl

theorem S8.ofBytes_bytes_only (a : S8) : S8.ofBytes a.bytes = a := by
  simpa using S8.ofBytes_bytes a []

theorem drop_append_of_le {a b : List α} {n : Nat} (h : a.length ≤ n) : (a ++ b).drop n = b.drop (n - a.length) := by
  rw [List.drop_append, List.drop_eq_nil_of_le h, List.nil_append]

/-! ### Command blocks -/

/-- R171: each field of a command stands at the place it is read from. -/
theorem commandFields_fields (c : Command) : commandFields c.opcode.toNat c.fields = some c := by
  cases c <;>
    simp [commandFields, Command.opcode, Command.fields, fieldOf_beBytes_only, fieldOf_beBytes, fieldOf_byte,
      drop_append_of_le, Handle.ofBytes_bytes, Handle.ofBytes_bytes_only, Ticket.ofBytes_bytes_only, S8.ofBytes_bytes,
      S8.ofBytes_bytes_only, Handle.bytes_length, S8.bytes_length]

theorem Command.fields_length_lt (c : Command) : c.fields.length < 252 := by
  cases c <;> simp [Command.fields, Handle.bytes_length, S8.bytes_length, Ticket.bytes_length]

/-- Settles O4: the extent of the block is its own, the check code is good, and the fields read back. -/
theorem commandBlocksDecodeToWhatWasEncoded : Obligations.CommandBlocksDecodeToWhatWasEncoded := fun c extra =>
  have ⟨_, hlength⟩ := Laws.BlockRows.ofBlock c
  decodeBlock_frame c.opcode c.fields extra c c.fields_length_lt hlength (commandFields_fields c)

/-! ### Request frames -/

theorem TermReq.code_le (r : TermReq) : r.code ≤ 8 := by
  cases r <;> simp [TermReq.code]

theorem requestLength_payload (r : TermReq) : requestLength r.code = some r.payload.length := by
  cases r <;> simp [requestLength, TermReq.code, TermReq.payload, Handle.bytes_length, Ticket.bytes_length, S8.bytes_length]

/-- R169: each field of a request stands at the place it is read from. -/
theorem requestFields_payload (r : TermReq) : requestFields r.code r.payload = some r := by
  cases r <;>
    simp [requestFields, TermReq.code, TermReq.payload, fieldOf_beBytes_only, fieldOf_beBytes, fieldOf_byte,
      drop_append_of_le, Handle.ofBytes_bytes, Handle.ofBytes_bytes_only, Ticket.ofBytes_bytes, Ticket.ofBytes_bytes_only,
      S8.ofBytes_bytes, S8.ofBytes_bytes_only, Handle.bytes_length, S8.bytes_length, Ticket.drop_bytes]

theorem TermReq.payload_length_le (r : TermReq) : r.payload.length ≤ 9 := by
  cases r <;> simp [TermReq.payload, Handle.bytes_length, Ticket.bytes_length, S8.bytes_length]

theorem TermReq.commandByte_toNat (r : TermReq) (tag : Lane) : (r.commandByte tag).toNat = r.code * 4 + tag.val := by
  have hcode := r.code_le
  have htag := tag.isLt
  rw [TermReq.commandByte, BitVec.toNat_ofNat]
  omega

theorem commandCode_commandByte (r : TermReq) (tag : Lane) : commandCode (r.commandByte tag) = r.code := by
  have htag := tag.isLt
  rw [commandCode, TermReq.commandByte_toNat]
  omega

theorem commandTag_commandByte (r : TermReq) (tag : Lane) : commandTag (r.commandByte tag) = tag := by
  have htag := tag.isLt
  apply Fin.ext
  show (r.commandByte tag).toNat % 4 = tag.val
  rw [TermReq.commandByte_toNat]
  omega

theorem frameCommand_frameOf (cmd : Byte) (payload : List Byte) : frameCommand (frameOf cmd payload) = cmd := rfl

theorem frameOf_length (cmd : Byte) (payload : List Byte) : (frameOf cmd payload).length = payload.length + 5 := by
  simp [frameOf, crcBytes_length]

theorem framePayload_frameOf (cmd : Byte) (payload : List Byte) : framePayload (frameOf cmd payload) = payload := by
  rw [framePayload, frameOf_length, Nat.add_sub_cancel]
  exact List.take_left' rfl

theorem crcGood_frameOf (cmd : Byte) (payload : List Byte) : crcGood (frameOf cmd payload) = true := crcGood_append _

/-- R144, R169: the length byte of a frame counts its bytes. -/
theorem frameRestOk_frameOf (cmd : Byte) {payload : List Byte} (h : payload.length ≤ 27) :
    frameRestOk (frameOf cmd payload).tail = true := by
  have hlen : (frameOf cmd payload).tail.length = payload.length + 4 := by simp [frameOf_length]
  have hbyte : (BitVec.ofNat 8 (payload.length + 5)).toNat = payload.length + 5 := by
    rw [BitVec.toNat_ofNat]
    omega
  show (decide _ && decide _ && decide _) = true
  rw [hlen, hbyte]
  simp [Config.maxFrame]
  omega

theorem decodeRequest_payload (r : TermReq) (tag : Lane) :
    decodeRequest (r.commandByte tag) r.payload = if r.digitsOk then .ok r else .error .badDigit := by
  simp [decodeRequest, commandCode_commandByte, requestLength_payload, requestFields_payload]

/-- Settles O5: the frame of a request carries its command byte and its payload, which read back. -/
theorem requestFramesDecodeToWhatWasEncoded : Obligations.RequestFramesDecodeToWhatWasEncoded := by
  intro tag r
  have hlen := r.payload_length_le
  unfold encodeRequest
  rw [frameCommand_frameOf, framePayload_frameOf]
  exact ⟨crcGood_frameOf _ _, frameRestOk_frameOf _ (by omega), commandTag_commandByte r tag, decodeRequest_payload r tag⟩

/-! ### Records -/

/-- Settles O6: the suspect flag is not covered, and a record that cannot be decoded never matches. -/
theorem sealedRecordsVerify : Obligations.SealedRecordsVerify := by
  intro r flag
  refine ⟨fun h => ?_, fun h => ?_⟩
  · show (r.decodable && crc16 r.covered == crc16 r.covered) = true
    rw [h, beq_self_eq_true]
    rfl
  · show (r.decodable && r.checkCode == crc16 r.covered) = false
    rw [h, Bool.false_and]

end Sys2Proof
end

section
/-! Taking work (R29, R30, R37, R47, R112, R162): the router, the engines and the index unit of a chip that does not work, the
arbiter's order, what an operation reads. -/

namespace Sys2Proof.Machine

theorem exec_engineTakeWork_eq (g : Lane) (s : State) : exec (.engineTakeWork g) s = execEngineTakeWork g s := rfl

theorem exec_indexTakeWork_eq (s : State) : exec .indexTakeWork s = execIndexTakeWork s := rfl

/-! ### A chip that does not work -/

theorem State.not_working_of {s : State} (h : s.power.stage ≠ .ready ∨ s.power.mode = .standby ∨ s.power.mode = .retain) :
    s.working = false := by
  rcases h with h | h | h <;> simp [State.working, State.isReady, h]

theorem State.takeable_of_not_working {s : State} (h : s.working = false) (l : Lane) : s.takeable l = false := by
  unfold State.takeable
  dsimp only
  split
  · rfl
  · simp [h]

theorem execRouterTake_of_not_working {s : State} (h : s.working = false) : execRouterTake s = .next s := by
  simp [execRouterTake, rotation, State.takeable_of_not_working h]

theorem execEngineTakeWork_of_not_working (g : Lane) {s : State} (h : s.working = false) :
    execEngineTakeWork g s = .next s := by
  simp [execEngineTakeWork, h]

theorem execIndexTakeWork_of_not_working {s : State} (h : s.working = false) : execIndexTakeWork s = .next s := by
  simp [execIndexTakeWork, h]

/-! ### The arbiter's order (R29) -/

theorem execEngineTakeWork_of_next {s : State} {g : Lane} {w : Work} {e : Engine} (hw : s.working = true)
    (ho : (s.engine g).op = none) (hn : (s.engine g).nextWork = some (w, e)) :
    execEngineTakeWork g s = .next (s.setEngine g { e with op := some (s.readFor w) }) := by
  simp [execEngineTakeWork, hw, ho, hn]

theorem Engine.nextWork_transit {e : Engine} {c : TransitClaim} (h : e.transit = some c) :
    e.nextWork = some (.transit c, { e with transit := none }) := by
  simp [Engine.nextWork, h]

theorem Engine.nextWork_slotFree {e : Engine} {n : Nat} {rest : List Nat} (h1 : e.transit = none)
    (h : e.slotFree = n :: rest) : e.nextWork = some (.slotFree n, { e with slotFree := rest }) := by
  simp [Engine.nextWork, h1, h]

theorem Engine.nextWork_expiry {e : Engine} {t : Ticket} {rest : List Ticket} (h1 : e.transit = none)
    (h2 : e.slotFree = []) (h : e.expiry = t :: rest) : e.nextWork = some (.expiry t, { e with expiry := rest }) := by
  simp [Engine.nextWork, h1, h2, h]

theorem Engine.nextWork_check {e : Engine} {n : Nat} (h1 : e.transit = none) (h2 : e.slotFree = []) (h3 : e.expiry = [])
    (h : e.check = some n) : e.nextWork = some (.check n, { e with check := none }) := by
  simp [Engine.nextWork, h1, h2, h3, h]

theorem Engine.nextWork_request {e : Engine} {r : Request} {rest : List Request} (h1 : e.transit = none)
    (h2 : e.slotFree = []) (h3 : e.expiry = []) (h4 : e.check = none) (h : e.queue = r :: rest) :
    e.nextWork = some (.request r, { e with queue := rest }) := by
  simp [Engine.nextWork, h1, h2, h3, h4, h]

/-! ### The index unit's choice (R112) -/

theorem execIndexTakeWork_of_idle {s : State} (hw : s.working = true) (ho : s.indexUnit.op = none) :
    execIndexTakeWork s = .next { s with indexUnit := s.indexUnit.take } := by
  simp [execIndexTakeWork, hw, ho]

theorem IndexUnit.take_update {u : IndexUnit} {i : IndexUpdate} {rest : List IndexUpdate} (h : u.updates = i :: rest) :
    u.take = { u with updates := rest, op := some (.update i) } := by
  simp [IndexUnit.take, h]

theorem IndexUnit.take_lookup {u : IndexUnit} {i : Fin 5} (h : u.updates = [])
    (hi : [u.ptr, u.ptr + 1, u.ptr + 2, u.ptr + 3, u.ptr + 4].find? (fun j => (u.source j).isSome) = some i) :
    u.take = { u with op := u.source i, ptr := i + 1 } := by
  unfold IndexUnit.take
  rw [h]
  dsimp only
  rw [hi]

/-! ### What an operation reads (R30) -/

/-- R30: the record of a piece of work without a ticket. -/
theorem State.readFor_record {s : State} {w : Work} {n : Nat} (h : s.workSlot w = n) : (s.readFor w).record = s.record n :=
  congrArg s.record h

/-- R30: work by ticket reads the hold entry, and the record of its account. -/
theorem State.readFor_ticket {s : State} {w : Work} {t : Ticket} (h : w.ticket? = some t) :
    (s.readFor w).entry = s.hold t.entry.toNat ∧ (s.readFor w).record = s.record (s.hold t.entry.toNat).slot := by
  refine ⟨?_, State.readFor_record ?_⟩
  · simp [State.readFor, h]
  · simp [State.workSlot, h]

theorem Work.ticket?_of_byTicket {w : Work} {t : Ticket}
    (h : w = .expiry t ∨ (∃ o u, w = .request (.terminal o (.settle t u))) ∨
      (∃ o n, w = .request (.terminal o (.extend t n))) ∨ (∃ o, w = .request (.terminal o (.cancel t))) ∨
      w = .request (.mgmt (.holdRead t)) ∨ w = .request (.mgmt (.holdRelease t)) ∨
      w = .request (.mgmt (.holdCapture t))) : w.ticket? = some t := by
  rcases h with rfl | ⟨o, u, rfl⟩ | ⟨o, n, rfl⟩ | ⟨o, rfl⟩ | rfl | rfl | rfl <;> rfl

/-- R73: an AUTHORIZE has its allocation claim exactly when its checks have passed. -/
theorem firstAlloc_authorize (o : Origin) (h : Handle) (n : Byte) (units : B4) (window : B6) (r : Record) (t : Tariff) :
    firstAlloc (.request (.terminal o (.authorize h n units window))) r t =
      if authorizeRefusal h n units window r t = none then .claimed else .notClaimed := by
  simp [firstAlloc]

theorem State.readFor_authorize (s : State) (o : Origin) (h : Handle) (n : Byte) (units : B4) (window : B6) :
    let op := s.readFor (.request (.terminal o (.authorize h n units window)))
    op.record = s.record h.slot.toNat ∧ op.tariff = s.tariff n.toNat ∧
      op.alloc = if authorizeRefusal h n units window (s.record h.slot.toNat) (s.tariff n.toNat) = none then .claimed
        else .notClaimed :=
  ⟨rfl, rfl, firstAlloc_authorize o h n units window _ _⟩

theorem State.readFor_terminal {s : State} {w : Work} {o : Origin} {h : Handle}
    (hw : w = .request (.terminal o (.read h)) ∨ (∃ a m, w = .request (.terminal o (.debit h a m))) ∨
      (∃ a, w = .request (.terminal o (.probe h a)))) : (s.readFor w).record = s.record h.slot.toNat := by
  rcases hw with rfl | ⟨a, m, rfl⟩ | ⟨a, rfl⟩ <;> rfl

theorem State.readFor_mgmt {s : State} {w : Work} {m : MgmtReq} {h : Handle} (hw : w = .request (.mgmt m))
    (hm : (∃ full, m = .read h full) ∨ (∃ k f l x, m = .update h k f l x) ∨ m = .freeze h ∨ m = .thaw h ∨ m = .retire h ∨
      (∃ a, m = .topup h a) ∨ (∃ a, m = .adjust h a) ∨ (∃ b f l x, m = .restore h b f l x) ∨ m = .transitCredit h ∨
      (∃ d all a, m = .step1 h d all a) ∨ (∃ d all a, m = .sameTransfer h d all a)) :
    (s.readFor w).record = s.record h.slot.toNat := by
  subst hw
  rcases hm with ⟨f, rfl⟩ | ⟨k, f, l, x, rfl⟩ | rfl | rfl | rfl | ⟨a, rfl⟩ | ⟨a, rfl⟩ | ⟨b, f, l, x, rfl⟩ | rfl |
    ⟨d, all, a, rfl⟩ | ⟨d, all, a, rfl⟩ <;> rfl

/-- Settles O3: a chip that does not work leaves all as it is; the arbiter and the index unit choose in their orders; what an
operation reads, kind by kind. -/
theorem workIsTakenInOrder : Obligations.WorkIsTakenInOrder := by
  refine ⟨fun g s hrest => ?rest, fun g s hw ho => ?engine, fun s hw ho => ?index, fun s w => ?reads⟩
  case rest =>
    have hnot := State.not_working_of hrest
    exact ⟨execRouterTake_of_not_working hnot, execEngineTakeWork_of_not_working g hnot, execIndexTakeWork_of_not_working hnot⟩
  case engine =>
    exact ⟨fun c h => execEngineTakeWork_of_next hw ho (Engine.nextWork_transit h),
      fun n rest h1 h => execEngineTakeWork_of_next hw ho (Engine.nextWork_slotFree h1 h),
      fun t rest h1 h2 h => execEngineTakeWork_of_next hw ho (Engine.nextWork_expiry h1 h2 h),
      fun n h1 h2 h3 h => execEngineTakeWork_of_next hw ho (Engine.nextWork_check h1 h2 h3 h),
      fun r rest h1 h2 h3 h4 h => execEngineTakeWork_of_next hw ho (Engine.nextWork_request h1 h2 h3 h4 h)⟩
  case index =>
    refine ⟨fun u rest h => ?_, fun i h hi => ?_⟩
    · rw [exec_indexTakeWork_eq, execIndexTakeWork_of_idle hw ho, IndexUnit.take_update h]
    · rw [exec_indexTakeWork_eq, execIndexTakeWork_of_idle hw ho, IndexUnit.take_lookup h hi]
  case reads =>
    refine ⟨rfl, rfl, rfl, fun n h => ?_, fun h => ?_, fun refusal h => ?_,
      fun t h => State.readFor_ticket (Work.ticket?_of_byTicket h), fun o h hw => State.readFor_terminal hw,
      fun o h n u window hw => ?_, fun m h hw hm => State.readFor_mgmt hw hm, fun src dst all a h => ?_, fun n h => ?_⟩
    · rcases h with rfl | rfl <;> rfl
    · subst h
      rfl
    · subst h
      rfl
    · subst hw
      exact State.readFor_authorize s o h n u window
    · subst h
      rfl
    · rcases h with rfl | ⟨k, b, f, l, x, rfl⟩ <;> rfl

end Sys2Proof.Machine
end

section
/-! The terminal links and the router, command by command (R39 to R45, R144 to R148, R164). -/

namespace Sys2Proof.Machine

/-! ### Reception -/

theorem exec_startByte_eq (l : Lane) (s : State) : exec (.startByte l) s = .next (s.receiveByte l 165) := rfl

theorem exec_frameTimeout_eq (l : Lane) (s : State) : exec (.frameTimeout l) s = .next (s.discardFrame l) := rfl

theorem exec_frameDiscard_length_eq (l : Lane) (v : Byte) (s : State) :
    exec (.frameDiscard l (.lengthByte v)) s = .next (s.receiveByte l v) := rfl

theorem exec_frameDiscard_stopBit_eq (l : Lane) (s : State) :
    exec (.frameDiscard l .faultyStopBit) s = .next (s.discardFrame l) := rfl

theorem exec_frameComplete_eq (l : Lane) (bytes : List Byte) (s : State) :
    exec (.frameComplete l bytes) s = .next (bytes.foldl (fun s b => s.receiveByte l b) s) := rfl

/-- R144: a receiver in a frame discards it and counts it. -/
theorem State.discardFrame_inFrame {s : State} {l : Lane} {bytes : List Byte} (hr : s.isReady = true)
    (he : (s.link l).enabled = true) (hi : (s.link l).receiver = .inFrame bytes) :
    s.discardFrame l = s.setLink l (s.link l).discard := by
  simp [State.discardFrame, hr, he, hi]

/-- R144, R164: an idle receiver begins a frame at a start byte, which wakes the chip. -/
theorem State.receiveByte_start {s : State} {l : Lane} (hr : s.isReady = true) (he : (s.link l).enabled = true)
    (hi : (s.link l).receiver = .idle) :
    s.receiveByte l 165 = s.wake.setLink l { s.link l with receiver := .inFrame [165] } := by
  rw [State.receiveByte, State.runTimer_of_idle hi]
  simp [State.takeByte, hr, he, hi]

/-- R144: a length byte out of range discards its frame. -/
theorem State.receiveByte_badLength {s : State} {l : Lane} {v : Byte} (hr : s.isReady = true)
    (he : (s.link l).enabled = true) (hi : (s.link l).receiver = .inFrame [165]) (hv : v.toNat < 5 ∨ 32 < v.toNat) :
    s.receiveByte l v = s.setLink l (s.link l).discard := by
  rw [State.receiveByte, State.runTimer_of_time hi (.inr (by decide))]
  have hout : (v.toNat < Config.minFrame || Config.maxFrame < v.toNat) = true := by simpa using hv
  simp [State.takeByte, hr, he, hi, hv]

/-- R146: RDY after a frame has joined the FIFO, against the high mark. -/
theorem Link.pushFrame_eq (k : Link) (frame : List Byte) :
    k.pushFrame frame =
      { k with fifo := k.fifo ++ [frame], rdy := if k.high ≤ k.fifo.length + 1 then false else k.rdy } := by
  have hlen : (k.fifo ++ [frame]).length = k.fifo.length + 1 := List.length_append
  unfold Link.pushFrame
  dsimp only
  rw [hlen]
  by_cases h : k.high ≤ k.fifo.length + 1
  · rw [if_pos h, if_pos h]
  · rw [if_neg h, if_neg h]

/-- R145: what becomes of a complete frame. -/
theorem State.frameDone_eq (s : State) (l : Lane) (frame : List Byte) :
    s.frameDone l frame =
      if crcGood frame = false then s.setLink l (s.link l).discard
      else if (s.link l).fifo.length < 16 then
        s.setLink l { s.link l with receiver := .idle, fifo := (s.link l).fifo ++ [frame],
                                    rdy := if (s.link l).high ≤ (s.link l).fifo.length + 1 then false else (s.link l).rdy }
      else if (s.link l).overrun = true then s.setLink l { s.link l with receiver := .idle, overrun := true }
      else (s.setLink l { s.link l with receiver := .idle, overrun := true }).post
        (.linkOverrun l (s.link l).fifo.length) := by
  unfold State.frameDone
  dsimp only
  by_cases hcrc : crcGood frame = false
  · simp [hcrc]
  · rw [if_neg hcrc, if_neg (by simpa using hcrc)]
    by_cases hroom : (s.link l).fifo.length < 16
    · rw [if_pos hroom, if_pos hroom, Link.pushFrame_eq]
    · rw [if_neg hroom, if_neg hroom]

/-- R144: what frameRestOk says of the bytes after the start byte. -/
theorem frameRestOk_iff {bytes : List Byte} (h : frameRestOk bytes = true) :
    bytes ≠ [] ∧ (bytes.headD 0).toNat = bytes.length + 1 ∧ 5 ≤ bytes.length + 1 ∧ bytes.length + 1 ≤ 32 := by
  cases bytes with
  | nil => simp [frameRestOk] at h
  | cons len rest =>
    simp only [frameRestOk, Bool.and_eq_true, beq_iff_eq, decide_eq_true_eq] at h
    obtain ⟨⟨hlen, hmin⟩, hmax⟩ := h
    exact ⟨List.cons_ne_nil _ _, hlen, hlen ▸ hmin, hlen ▸ hmax⟩

/-- R144, R145: the bytes after the start byte, arriving in time. -/
theorem State.receiveBytes_frame {s : State} {l : Lane} {bytes : List Byte} (hr : s.isReady = true)
    (he : (s.link l).enabled = true) (hi : (s.link l).receiver = .inFrame [165]) (hok : frameRestOk bytes = true)
    (ht : (s.link l).baud ≠ 0 ∨ bytes.length < 20) :
    bytes.foldl (fun s b => s.receiveByte l b) s = s.frameDone l (165 :: bytes) := by
  obtain ⟨hne, hlen, h5, h32⟩ := frameRestOk_iff hok
  have hhead : ((([165] ++ bytes).drop 1).headD 0).toNat = ([165] ++ bytes).length := by
    simpa [Nat.add_comm] using hlen
  have hcount : ([(165 : Byte)] ++ bytes).length = bytes.length + 1 := by simp
  exact State.receiveBytes l bytes s [165] hr he hi (by simp) hne (ht.imp id fun h => by omega) hhead (by omega) (by omega)

/-- R144: at 9,600 baud the timer discards a frame of more than 20 bytes at its twentieth. -/
theorem State.receiveBytes_slowFrame {s : State} {l : Lane} {bytes : List Byte} (hr : s.isReady = true)
    (he : (s.link l).enabled = true) (hi : (s.link l).receiver = .inFrame [165]) (hok : frameRestOk bytes = true)
    (h0 : (s.link l).baud = 0) (hlong : 20 ≤ bytes.length) :
    bytes.foldl (fun s b => s.receiveByte l b) s =
      (bytes.drop 19).foldl (fun s b => s.receiveByte l b) (s.setLink l (s.link l).discard) := by
  obtain ⟨-, hlen, -, h32⟩ := frameRestOk_iff hok
  have hhead : ((([165] ++ bytes).drop 1).headD 0).toNat = ([165] ++ bytes).length := by
    simpa [Nat.add_comm] using hlen
  have hcount : ([(165 : Byte)] ++ bytes).length = bytes.length + 1 := by simp
  exact State.receiveBytes_slow l bytes s [165] hr he hi (by simp) (by simp) h0 (by omega) hhead (by omega)

/-- Settles O17: byte by byte, in time or against the timer, and the frame's end by its check code and the FIFO. -/
theorem framesAreReceivedOrDiscarded : Obligations.FramesAreReceivedOrDiscarded := by
  refine ⟨fun l s hr he => ⟨fun hi => ?start, fun bytes hi => ?discard, fun v hi hv => ?badLength⟩,
    fun l bytes s hr he hi hok hfull ht => ?complete, fun l bytes s hr he hi hok h0 hlong => ?slow⟩
  case start => rw [exec_startByte_eq, State.receiveByte_start hr he hi]
  case discard =>
    rw [exec_frameTimeout_eq, exec_frameDiscard_stopBit_eq, State.discardFrame_inFrame hr he hi]
    exact ⟨rfl, rfl⟩
  case badLength => rw [exec_frameDiscard_length_eq, State.receiveByte_badLength hr he hi hv, Link.discard]
  case complete =>
    rw [exec_frameComplete_eq, State.receiveBytes_frame hr he hi hok ht, State.frameDone_eq]
    by_cases hroom : (s.link l).fifo.length < 16
    · rw [if_pos hroom, if_pos hroom]
      rfl
    · have hlen : (s.link l).fifo.length = 16 := by omega
      rw [if_neg hroom, if_neg hroom, hlen]
      rfl
  case slow =>
    dsimp only
    rw [exec_frameComplete_eq, exec_frameComplete_eq, State.receiveBytes_slowFrame hr he hi hok h0 hlong]
    refine ⟨rfl, fun hno => ?_⟩
    rw [State.receiveBytes_idle l _ _ (by rw [State.link_setLink_same]; rfl) hno]
    rfl

/-! ### Transmission -/

theorem exec_hldAssert_eq (l : Lane) (s : State) : exec (.hldAssert l) s = .next (s.setLink l { s.link l with hld := true }) :=
  rfl

theorem exec_hldDeassert_eq (l : Lane) (s : State) :
    exec (.hldDeassert l) s = .next (s.setLink l { s.link l with hld := false }.txBegin) := rfl

/-- R148: when the transmitter is sending after a chance to begin. -/
theorem Link.txBegin_eq (k : Link) :
    k.txBegin = { k with sending := k.sending || (k.enabled && !k.queue.isEmpty && !k.hld) } := by
  obtain ⟨_, _, _, _, _, _, _, _, _, sending, _, _, _, _, _⟩ := k
  unfold Link.txBegin
  cases sending
  · dsimp only
    split
    · rename_i hmay
      simpa using hmay
    · rename_i hmay
      simpa using hmay
  · simp

theorem Link.sent_of_sending {k : Link} {r : Response} {rest : List Response} (hq : k.queue = r :: rest)
    (hs : k.sending = true) :
    k.sent = { k with queue := rest, tags := k.tags.set (commandTag r.cmd) false, lastSent := some r,
                      sending := k.enabled && !rest.isEmpty && !k.hld } := by
  unfold Link.sent
  rw [hq]
  dsimp only
  rw [if_pos hs, Link.txBegin_eq]
  simp

/-- Settles O18: the sent head frees its tag, and each chance to begin is Link.txBegin. -/
theorem responsesLeaveInOrder : Obligations.ResponsesLeaveInOrder := by
  intro l s
  refine ⟨fun r rest hq hs => ?_, exec_hldAssert_eq l s, ?_⟩
  · rw [exec_responseSent_eq, ← Link.sent_of_sending hq hs]
    rfl
  · rw [exec_hldDeassert_eq, Link.txBegin_eq]
    simp

/-! ### The router -/

/-- R146: RDY after a take, against the resume mark. -/
theorem Link.popFrame_eq (k : Link) :
    k.popFrame = { k with fifo := k.fifo.tail, rdy := decide (k.fifo.tail.length ≤ k.resume) || k.rdy } := by
  unfold Link.popFrame
  dsimp only
  by_cases h : k.fifo.tail.length ≤ k.resume
  · rw [if_pos h, decide_eq_true h, Bool.true_or]
  · rw [if_neg h, decide_eq_false h, Bool.false_or]

theorem Link.taken_eq {k : Link} {frame : List Byte} {rest : List (List Byte)} (hf : k.fifo = frame :: rest) :
    k.taken frame = { k with fifo := rest, tags := k.tags.set (commandTag (frameCommand frame)) true,
                             rdy := decide (rest.length ≤ k.resume) || k.rdy } := by
  rw [Link.taken, Link.popFrame_eq]
  simp [hf]

/-- R147, R148: a response that finds its tag busy and borne by no other joins the queue, and the transmitter may begin. -/
theorem Link.arrive_eq {k : Link} {epoch : Byte} {r : Response} (he : k.epoch = epoch)
    (ht : k.tags.get (commandTag r.cmd) = true) (hq : ∀ q ∈ k.queue, commandTag q.cmd ≠ commandTag r.cmd) :
    k.arrive epoch r = { k with queue := k.queue ++ [r], sending := k.sending || (k.enabled && !k.hld) } := by
  have hany : (k.queue.any fun q => commandTag q.cmd == commandTag r.cmd) = false := by simpa using hq
  unfold Link.arrive
  have hne : (k.queue ++ [r]).isEmpty = false := by simp
  rw [if_pos (by simp [he, ht, hany]), Link.txBegin_eq]
  simp [hne]

theorem State.takeable_iff {s : State} {l : Lane} {frame : List Byte} {rest : List (List Byte)}
    (hf : (s.link l).fifo = frame :: rest) :
    s.takeable l = true ↔ s.working = true ∧ (s.link l).enabled = true ∧
      (s.link l).tags.get (commandTag (frameCommand frame)) = false ∧ s.routeOpen l (routeFrame s frame) = true := by
  rw [State.takeable_of_head hf]
  simp only [Bool.and_eq_true, Bool.not_eq_true', and_assoc]

theorem exec_routerTake_of_find {s : State} {l : Lane} {frame : List Byte} {rest : List (List Byte)}
    (hfind : [s.router, s.router + 1, s.router + 2, s.router + 3].find? s.takeable = some l)
    (hf : (s.link l).fifo = frame :: rest) : exec .routerTake s = .next (s.takeFrame l frame) := by
  rw [exec_routerTake_eq, execRouterTake, rotation, hfind]
  dsimp only
  rw [hf]

theorem State.takeFrame_eq (s : State) (l : Lane) (frame : List Byte) :
    s.takeFrame l frame =
      (s.afterTake l frame).deliverRoute ⟨l, frameCommand frame, (s.link l).epoch⟩ (routeFrame s frame) := rfl

/-- R39: a take touches its own link, the router's pointer, the queues of the engines and the index unit. -/
theorem State.takeFrame_frame (s : State) (l : Lane) (frame : List Byte) :
    (s.takeFrame l frame).router = l + 1 ∧ (∀ m, m ≠ l → (s.takeFrame l frame).link m = s.link m) ∧
      s.takeFrame l frame = { s with links := (s.takeFrame l frame).links, router := (s.takeFrame l frame).router,
                                     engines := (s.takeFrame l frame).engines,
                                     indexUnit := (s.takeFrame l frame).indexUnit } := by
  have hlinks : ∀ m, m ≠ l → (s.afterTake l frame).link m = s.link m := fun m hm =>
    State.link_setLink_ne _ _ hm
  rw [State.takeFrame_eq]
  cases routeFrame s frame with
  | answer st => exact ⟨rfl, fun m hm => (State.link_setLink_ne _ _ hm).trans (hlinks m hm), rfl⟩
  | engine g r => exact ⟨rfl, hlinks, rfl⟩
  | index key => exact ⟨rfl, hlinks, rfl⟩

/-- Settles O19: the take, then the delivery by the route. -/
theorem routerTakesTheFirstTakeableFrame : Obligations.RouterTakesTheFirstTakeableFrame := by
  intro s l frame rest hs hfind hf taken o
  have htake := List.find?_some hfind
  obtain ⟨-, henabled, hfree, hopen⟩ := (State.takeable_iff hf).1 htake
  have htaken : (s.link l).taken frame = taken := Link.taken_eq hf
  obtain ⟨hrouter, hlinks, hframe⟩ := State.takeFrame_frame s l frame
  refine ⟨_, exec_routerTake_of_find hfind hf, hrouter, hlinks, hframe, fun st hroute => ?answer, fun g r hroute => ?engine,
    fun key hroute => ?index⟩
  case answer =>
    refine ⟨?_, State.takeFrame_answer_engines hroute, ?_⟩
    · have hbusy : taken.tags.get (commandTag (frameCommand frame)) = true := Four.get_set_same ..
      rw [State.takeFrame_answer_link hroute, htaken,
        Link.arrive_eq (k := taken) rfl hbusy ((hs l).tag_ne_of_free hfree)]
      simp [taken, henabled]
    · rw [State.takeFrame_of_answer hroute]
      rfl
  case engine =>
    have hroom : s.queueRoom g = true := State.queueRoom_of_takeable htake hf hroute
    rw [State.takeFrame_eq, hroute]
    refine ⟨(State.afterTake_link s l frame).trans htaken, ?_, ?_, fun m hm => ?_, rfl⟩
    · exact State.engine_setEngine_same ..
    · rw [State.deliverRoute, State.enqueue, State.engine_modifyEngine_same]
      have hlen : (s.engine g).queue.length < 8 := of_decide_eq_true hroom
      show ((s.engine g).queue ++ _).length ≤ 8
      rw [List.length_append]
      exact hlen
    · exact State.engine_setEngine_ne _ _ hm
  case index =>
    rw [State.takeFrame_eq, hroute]
    exact ⟨(State.afterTake_link s l frame).trans htaken, rfl, rfl⟩

/-! ### Where a frame goes -/

theorem requestLength_none {n : Nat} (h : n = 0 ∨ 8 < n) : requestLength n = none := by
  unfold requestLength
  split
  case h_9 => rfl
  all_goals omega

theorem requestFields_isSome (n : Nat) (p : List Byte) : (requestFields n p).isSome = (requestLength n).isSome := by
  unfold requestFields requestLength
  split <;> rfl

theorem decodeRequest_badCommand {cmd : Byte} (p : List Byte) (h : requestLength (commandCode cmd) = none) :
    decodeRequest cmd p = .error .badCommand := by
  simp [decodeRequest, h]

theorem decodeRequest_badLength {cmd : Byte} {p : List Byte} {n : Nat} (h : requestLength (commandCode cmd) = some n)
    (hp : p.length ≠ n) : decodeRequest cmd p = .error .badLength := by
  have hsome : (requestFields (commandCode cmd) p).isSome = true := by rw [requestFields_isSome, h]; rfl
  obtain ⟨r, hr⟩ := Option.isSome_iff_exists.1 hsome
  simp [decodeRequest, h, hr, hp]

theorem decodeRequest_badDigit {cmd : Byte} {p : List Byte} {n : Nat} {r : TermReq}
    (h : requestLength (commandCode cmd) = some n) (hp : p.length = n) (hr : requestFields (commandCode cmd) p = some r)
    (hd : r.digitsOk = false) : decodeRequest cmd p = .error .badDigit := by
  simp [decodeRequest, h, hr, hp, hd]

theorem routeFrame_error {s : State} {frame : List Byte} {e : FrameError}
    (h : decodeRequest (frameCommand frame) (framePayload frame) = .error e) :
    routeFrame s frame = .answer (frameErrorStatus e) := by
  rw [routeFrame, h]

theorem routeFrame_ok {s : State} {frame : List Byte} {r : TermReq}
    (h : decodeRequest (frameCommand frame) (framePayload frame) = .ok r) : routeFrame s frame = routeRequest s r := by
  rw [routeFrame, h]

/-- Settles O21: the three tests in their order, then the target by the request. -/
theorem routerDecodesInOrder : Obligations.RouterDecodesInOrder := by
  intro s frame
  refine ⟨fun h => routeFrame_error (decodeRequest_badCommand _ (requestLength_none h)),
    fun n h hp => routeFrame_error (decodeRequest_badLength h hp),
    fun n r h hp hr hd => routeFrame_error (decodeRequest_badDigit h hp hr hd), fun r hok => ?_⟩
  rw [routeFrame_ok hok]
  refine ⟨fun key hr => ?_, fun h hr => ?_, fun t hr => ?_⟩
  · subst hr
    rfl
  · rcases hr with rfl | ⟨t, u, w, rfl⟩ | ⟨a, m, rfl⟩ | ⟨a, rfl⟩ <;> rfl
  · rcases hr with ⟨u, rfl⟩ | ⟨n, rfl⟩ | rfl <;> rfl

end Sys2Proof.Machine
end

section
/-! Operations at the engines on a balance without a hold: READ, DEBIT and PROBE (R7, R33, R52 to R59). -/

namespace Sys2Proof.Machine

theorem exec_terminalRead_eq (g : Lane) (s : State) : exec (.terminalRead g) s = execTerminalRead g s := rfl

theorem exec_debit_eq (g : Lane) (s : State) : exec (.debit g) s = execDebit g s := rfl

theorem exec_probe_eq (g : Lane) (s : State) : exec (.probe g) s = execProbe g s := rfl

/-! ### The tests on a record -/

theorem handleTest_status {h : Handle} {r : Record} {st : Status} (ht : handleTest h r = some st) :
    st = .notFound ∨ st = .staleHandle := by
  unfold handleTest at ht
  split at ht
  · exact .inl (Option.some.inj ht).symm
  · split at ht
    · exact .inr (Option.some.inj ht).symm
    · split at ht
      · exact .inr (Option.some.inj ht).symm
      · contradiction

theorem spendCheck_status {r : Record} {st : Status} (h : spendCheck r = some st) :
    (r.state = .frozen ∧ st = .frozen) ∨ (r.state = .closing ∧ st = .closing) := by
  unfold spendCheck at h
  split at h
  next hs => exact .inl ⟨hs, (Option.some.inj h).symm⟩
  next hs => exact .inr ⟨hs, (Option.some.inj h).symm⟩
  next => contradiction

theorem spendCheck_frozen {r : Record} (h : r.state = .frozen) : spendCheck r = some .frozen := by simp [spendCheck, h]

theorem spendCheck_closing {r : Record} (h : r.state = .closing) : spendCheck r = some .closing := by simp [spendCheck, h]

theorem spendCheck_active {r : Record} (h : r.state = .active) : spendCheck r = none := by simp [spendCheck, h]

theorem Record.found_suspect_iff {r : Record} : r.found.suspect = true ↔ r.suspect = true ∨ r.verifies = false := by
  simp [Record.found]

theorem Record.found_suspect_of_sound {r : Record} (h : r.sound) : r.found.suspect = false := by
  rw [Record.found_of_sound h]
  exact h.1

/-! ### READ -/

theorem exec_terminalRead_of_op {g : Lane} {s : State} {op : Operation} {o : Origin} {h : Handle}
    (hop : s.terminalOp g = some (op, o, .read h)) :
    exec (.terminalRead g) s = .next (s.completeTerminal g op o h.slot.toNat (handleTest h op.record).isNone none
      (readOutcome h op.record).1 (readOutcome h op.record).2) := by
  rw [exec_terminalRead_eq, execTerminalRead, hop]

/-- R33: the flag that a mismatch sets, and the notice of a flag that was clear. -/
theorem State.onlyFlags_mismatch {s t : State} {slot : Nat} (h : s.onlyFlags t slot true) :
    t.record slot = { s.record slot with suspect := true } ∧ s.otherRecords t slot ∧
      s.noticed t (if (s.record slot).suspect = true then [] else
        [.suspectFound slot (s.record slot).gen (s.record slot).state .operation]) := by
  obtain ⟨hrec, hothers, hnoticed, -⟩ := h
  refine ⟨?_, hothers, ?_⟩
  · rw [hrec, State.flagSet, Bool.or_true]
  · unfold State.suspectNotice at hnoticed
    cases hs : (s.record slot).suspect
    · simpa [hs] using hnoticed
    · simpa [hs] using hnoticed

/-- Settles O22: the completion of a terminal request that writes no balance. -/
theorem terminalReadAnswersTheRecord : Obligations.TerminalReadAnswersTheRecord := by
  intro g s op o h hop
  obtain ⟨hans, heng, hothers, hflags, hframe⟩ := s.completeTerminal_spec g op o h.slot.toNat
    (handleTest h op.record).isNone (readOutcome h op.record).1 (readOutcome h op.record).2
  refine ⟨_, exec_terminalRead_of_op hop, heng, hothers, fun st hst => ?refused, fun hst => ?current⟩
  case refused =>
    obtain ⟨-, -, hquiet⟩ := s.completeTerminal_quiet g op o h.slot.toNat (handleTest h op.record).isNone
      (readOutcome h op.record).1 (readOutcome h op.record).2 (by rw [hst]; rfl)
    have hout : readOutcome h op.record = (st, .bare) := by simp [readOutcome, hst]
    exact ⟨by simpa only [hout] using hans, hquiet⟩
  case current =>
    have hout : readOutcome h op.record = (.ok, .report (reportOf op.record.found (storedConds op.record))) := by
      simp [readOutcome, hst]
    refine ⟨by simpa only [hout] using hans, fun hv => ?_, fun hv => ?_⟩
    · obtain ⟨-, -, hquiet⟩ := s.completeTerminal_quiet g op o h.slot.toNat (handleTest h op.record).isNone
        (readOutcome h op.record).1 (readOutcome h op.record).2 (by rw [hv, Bool.not_true, Bool.and_false])
      exact hquiet
    · rw [show ((handleTest h op.record).isNone && !op.record.verifies) = true by rw [hst, hv]; rfl] at hflags
      obtain ⟨hrec, hrest, hnoticed⟩ := State.onlyFlags_mismatch hflags
      exact ⟨hrec, hrest, hnoticed, hframe⟩

/-! ### DEBIT and PROBE -/

/-- R53, R56: checks 1 to 4, which DEBIT and PROBE have in common, on an amount in range or not. -/
def spendRefusal (inRange : Bool) (h : Handle) (amount : S8) (r : Record) : Option (Status × TermBody) :=
  if inRange = false then some (.badRange, .bare)
  else match handleTest h r with
  | some st => some (st, .bare)
  | none =>
    match spendCheck r with
    | some st => some (st, .report (reportOf r.found (wouldBeDebit r amount.value)))
    | none => if r.found.suspect then some (.suspect, .bare) else none

theorem spendRefusal_range (h : Handle) (amount : S8) (r : Record) :
    spendRefusal false h amount r = some (.badRange, .bare) := rfl

theorem spendRefusal_handle {h : Handle} {amount : S8} {r : Record} {st : Status} (ht : handleTest h r = some st) :
    spendRefusal true h amount r = some (st, .bare) := by
  simp [spendRefusal, ht]

theorem spendRefusal_state {h : Handle} {amount : S8} {r : Record} {st : Status} (ht : handleTest h r = none)
    (hs : spendCheck r = some st) :
    spendRefusal true h amount r = some (st, .report (reportOf r.found (wouldBeDebit r amount.value))) := by
  simp [spendRefusal, ht, hs]

theorem spendRefusal_suspect {h : Handle} {amount : S8} {r : Record} (ht : handleTest h r = none)
    (hs : spendCheck r = none) (hf : r.found.suspect = true) : spendRefusal true h amount r = some (.suspect, .bare) := by
  simp [spendRefusal, ht, hs, hf]

theorem spendRefusal_none {h : Handle} {amount : S8} {r : Record} (ht : handleTest h r = none) (hs : r.state = .active)
    (hr : r.sound) : spendRefusal true h amount r = none := by
  simp [spendRefusal, ht, spendCheck_active hs, Record.found_suspect_of_sound hr]

/-- R53: a mismatch on a current handle refuses, with the state or with SUSPECT. -/
theorem spendRefusal_of_mismatch {h : Handle} {amount : S8} {r : Record} (ht : handleTest h r = none)
    (hv : r.verifies = false) : ∃ x, spendRefusal true h amount r = some x := by
  cases hs : spendCheck r with
  | some st => exact ⟨_, spendRefusal_state ht hs⟩
  | none => exact ⟨_, spendRefusal_suspect ht hs (Record.found_suspect_iff.2 (.inr hv))⟩

theorem debitOutcome_refused {h : Handle} {amount : S8} {how : Byte} {r : Record} {x : Status × TermBody}
    (hx : spendRefusal (debitRangeOk amount how) h amount r = some x) :
    debitOutcome h amount how r = (x.1, x.2, none) := by
  unfold spendRefusal at hx
  unfold debitOutcome
  cases hrange : debitRangeOk amount how with
  | false =>
    obtain rfl : (Status.badRange, TermBody.bare) = x := by simpa [hrange] using hx
    rfl
  | true =>
    cases ht : handleTest h r with
    | some st =>
      obtain rfl : (st, TermBody.bare) = x := by simpa [hrange, ht] using hx
      rfl
    | none =>
      cases hs : spendCheck r with
      | some st =>
        obtain rfl : (st, TermBody.report _) = x := by simpa [hrange, ht, hs] using hx
        rfl
      | none =>
        cases hf : r.found.suspect with
        | true =>
          obtain rfl : (Status.suspect, TermBody.bare) = x := by simpa [hrange, ht, hs, hf] using hx
          simp
        | false => simp [hrange, ht, hs, hf] at hx

theorem probeOutcome_eq (h : Handle) (amount : S8) (r : Record) :
    probeOutcome h amount r = (spendRefusal (debitAmountOk amount) h amount r).getD
      (.ok, .report (reportOf r.found (wouldBeDebit r amount.value))) := by
  unfold probeOutcome spendRefusal
  cases debitAmountOk amount with
  | false => rfl
  | true =>
    cases handleTest h r with
    | some st => rfl
    | none =>
      cases spendCheck r with
      | some st => rfl
      | none => cases r.found.suspect <;> rfl

/-- R54, R55: DEBIT on a sound ACTIVE account is the credit test. -/
theorem debitOutcome_credit {h : Handle} {amount : S8} {how : Byte} {r : Record} (hrange : debitRangeOk amount how = true)
    (ht : handleTest h r = none) (hs : r.state = .active) (hr : r.sound) :
    debitOutcome h amount how r = match debitCharge how amount.value r.spendable with
      | none => (.short, .report (reportOf r (wouldBeDebit r amount.value)), none)
      | some c => (.ok, .debited c.toNat (debitReport r amount.value c), some (r.bal - c)) := by
  have hf := Record.found_suspect_of_sound hr
  rw [Record.found_of_sound hr] at hf
  unfold debitOutcome
  rw [ht, spendCheck_active hs, Record.found_of_sound hr]
  simp [hrange, hf] <;> rfl

theorem debitRangeOk_iff {amount : S8} {how : Byte} :
    debitRangeOk amount how = true ↔ 1 ≤ amount.value ∧ amount.value ≤ 99999999 ∧ (how = 0 ∨ how = 1) := by
  simp [debitRangeOk, debitAmountOk, and_assoc]

theorem debitAmountOk_iff {amount : S8} : debitAmountOk amount = true ↔ 1 ≤ amount.value ∧ amount.value ≤ 99999999 := by
  simp [debitAmountOk]

/-- R53: a DEBIT answers OK, SHORT or a refusal, never OVER. -/
theorem debitOutcome_ne_overRange (h : Handle) (amount : S8) (how : Byte) (r : Record) :
    (debitOutcome h amount how r).1 ≠ .overRange := by
  unfold debitOutcome
  split
  · exact nofun
  · split
    next ht => rcases handleTest_status ht with rfl | rfl <;> exact nofun
    next =>
      split
      next hs => rcases spendCheck_status hs with ⟨-, rfl⟩ | ⟨-, rfl⟩ <;> exact nofun
      next =>
        split
        · exact nofun
        · split <;> exact nofun

theorem debitCharge_of_passes {how : Byte} {amount spendable : Int}
    (h : (how = 0 ∧ amount ≤ spendable) ∨ (how = 1 ∧ 0 < spendable)) :
    debitCharge how amount spendable = some (if how = 0 then amount else min amount spendable) := by
  rcases h with ⟨rfl, h⟩ | ⟨rfl, h⟩
  · simp [debitCharge, h]
  · simp [debitCharge, h]

theorem debitCharge_of_fails {how : Byte} {amount spendable : Int} (hhow : how = 0 ∨ how = 1)
    (h : ¬((how = 0 ∧ amount ≤ spendable) ∨ (how = 1 ∧ 0 < spendable))) : debitCharge how amount spendable = none := by
  rcases hhow with rfl | rfl
  · simpa [debitCharge] using h
  · simpa [debitCharge] using h

/-- R54, R55: a charge that passes is above 0 and not above spendable. -/
theorem debitCharge_bounds {how : Byte} {amount spendable c : Int} (ha : 1 ≤ amount)
    (h : debitCharge how amount spendable = some c) :
    0 < c ∧ c ≤ spendable ∧ (how = 1 → c < amount → c = spendable) := by
  unfold debitCharge at h
  split at h
  next hhow =>
    split at h
    · obtain rfl := Option.some.inj h
      exact ⟨by omega, by omega, fun _ hlt => absurd hlt (Int.lt_irrefl _)⟩
    · contradiction
  next =>
    split at h
    · contradiction
    · obtain rfl := Option.some.inj h
      exact ⟨by omega, by omega, fun _ hlt => by omega⟩

/-- R2, R50: a charge within spendable leaves the balance in range. -/
theorem Record.charge_in_range {r : Record} {c : Int} (h0 : 0 < c) (hc : c ≤ r.spendable) :
    (r.held : Int) - 999999 ≤ r.bal - c ∧ -99999999 ≤ r.bal - c ∧ r.bal - c ≤ 99999999 := by
  have hfloor : r.floorValue ≤ 999999 := B6.value_le r.floor
  have hmax : r.bal ≤ 99999999 := (S8.value_bounds r.balance).2
  unfold Record.spendable at hc
  omega

theorem exec_debit_of_op {g : Lane} {s : State} {op : Operation} {o : Origin} {h : Handle} {amount : S8} {how : Byte}
    (hop : s.terminalOp g = some (op, o, .debit h amount how)) :
    exec (.debit g) s = .next (s.completeTerminal g op o h.slot.toNat
      (debitRangeOk amount how && (handleTest h op.record).isNone) (debitOutcome h amount how op.record).2.2
      (debitOutcome h amount how op.record).1 (debitOutcome h amount how op.record).2.1) := by
  rw [exec_debit_eq, execDebit, hop]

theorem exec_probe_of_op {g : Lane} {s : State} {op : Operation} {o : Origin} {h : Handle} {amount : S8}
    (hop : s.terminalOp g = some (op, o, .probe h amount)) :
    exec (.probe g) s = .next (s.completeTerminal g op o h.slot.toNat
      (debitAmountOk amount && (handleTest h op.record).isNone) none (probeOutcome h amount op.record).1
      (probeOutcome h amount op.record).2) := by
  rw [exec_probe_eq, execProbe, hop]

/-- R51, R54, R55: the report of a DEBIT answered OK on a sound ACTIVE account. -/
theorem debitReport_of_sound {r : Record} (hs : r.state = .active) (hr : r.sound) (c amount : Int) :
    debitReport r amount c =
      ⟨(S8.ofInt (r.bal - c)).sent, r.held, (S8.ofInt (r.bal - c)).value + r.floorValue - r.held, .active, false,
        r.holds.length, { balanceConds (r.bal - c) r.lowValue with short := decide (c < amount) }⟩ := by
  have hsus := hr.1
  unfold debitReport
  rw [Record.found_of_sound hr]
  simp only [reportOf, Record.withBalance, hsus]
  congr 1

/-- Settles O23: the credit test decides, and the completion writes the balance or nothing. -/
theorem debitChargesOrAnswersShort : Obligations.DebitChargesOrAnswersShort := by
  intro g s op o h amount how hop
  refine ⟨debitOutcome_ne_overRange h amount how op.record, fun h1 h2 hhow ht hs hr => ?_⟩
  intro r passes c
  have hcredit := debitOutcome_credit (debitRangeOk_iff.2 ⟨h1, h2, hhow⟩) ht hs hr
  have hquiet : (debitRangeOk amount how && (handleTest h op.record).isNone && !op.record.verifies) = false := by
    rw [hr.2, Bool.not_true, Bool.and_false]
  refine ⟨fun hp => ?passes, fun hp => ?fails⟩
  case passes =>
    have hcharge : debitCharge how amount.value op.record.spendable = some c := debitCharge_of_passes hp
    obtain ⟨hpos, hle, hpart⟩ := debitCharge_bounds h1 hcharge
    have hbounds := Record.charge_in_range hpos hle
    rw [hcharge] at hcredit
    obtain ⟨heng, hans, hrec, hrecs, hnoticed, hframe⟩ := s.completeTerminal_balance g op o h.slot.toNat _
      (op.record.bal - c) .ok (.debited c.toNat (debitReport op.record amount.value c)) hquiet
    have hspend : r.bal - c + r.floorValue - r.held = r.spendable - c := by
      unfold Record.spendable
      omega
    have hle' : c ≤ r.spendable := hle
    refine ⟨_, by rw [exec_debit_of_op hop, hcredit], heng, State.otherEngines_completeTerminal _ _ _ _ _ _ _ _ _, hrec, hrecs, ?_, ?_, hframe,
      hpos, hbounds.1, hbounds.2.1, hbounds.2.2, fun hh hlt => ?_, fun _ => by omega⟩
    · rw [← debitReport_of_sound hs hr]
      exact hans
    · have hcross : crossesLow op.record (op.record.bal - c) = true ↔
          (r.lowValue : Int) ≤ r.bal ∧ r.bal - c < r.lowValue := by
        rw [crossesLow_iff]
        exact ⟨fun h => h.2, fun h => ⟨by omega, h⟩⟩
      simpa only [hcross] using hnoticed
    · have hall : c = r.spendable := hpart hh hlt
      omega
  case fails =>
    have hcharge : debitCharge how amount.value op.record.spendable = none := debitCharge_of_fails hhow hp
    rw [hcharge] at hcredit
    obtain ⟨heng, hans, hframe⟩ := s.completeTerminal_quiet g op o h.slot.toNat _ .short
      (.report (reportOf op.record (wouldBeDebit op.record amount.value))) hquiet
    refine ⟨_, by rw [exec_debit_of_op hop, hcredit], heng, State.otherEngines_completeTerminal _ _ _ _ _ _ _ _ _, ?_, hframe⟩
    have hshort : r.spendable < amount.value := by
      rcases hhow with rfl | rfl
      · exact Int.not_le.1 fun hle => hp (.inl ⟨rfl, hle⟩)
      · have : ¬0 < r.spendable := fun hlt => hp (.inr ⟨rfl, hlt⟩)
        omega
    have hreport : reportOf op.record (wouldBeDebit op.record amount.value) =
        ⟨r.balance.sent, r.held, r.spendable, .active, false, r.holds.length,
          { balanceConds (r.bal - amount.value) r.lowValue with short := true }⟩ := by
      have hcond : decide (op.record.spendable < amount.value) = true := decide_eq_true hshort
      simp only [reportOf, wouldBeDebit, hs, hr.1, hcond]
      rfl
    rw [← hreport]
    exact hans

/-- R31, R33: an operation by handle that writes no balance completes with an answer, on a record that is verified or not. -/
def State.completesWith (s t : State) (op : Operation) (o : Origin) (slot : Nat) (verified : Bool)
    (x : Status × TermBody) : Prop :=
  s.answered t o x.1 x.2 ∧ s.onlyFlags t slot (verified && !op.record.verifies) ∧
    t = { s with accounts := t.accounts, notices := t.notices, engines := t.engines, links := t.links } ∧
    ((verified && !op.record.verifies) = false → t = { s with engines := t.engines, links := t.links })

theorem State.completesWith_completeTerminal (s : State) (g : Lane) (op : Operation) (o : Origin) (slot : Nat)
    (verified : Bool) (x : Status × TermBody) :
    s.completesWith (s.completeTerminal g op o slot verified none x.1 x.2) op o slot verified x := by
  obtain ⟨hans, -, -, hflags, hframe⟩ := s.completeTerminal_spec g op o slot verified x.1 x.2
  refine ⟨hans, hflags, hframe, fun hq => ?_⟩
  obtain ⟨-, -, hquiet⟩ := s.completeTerminal_quiet g op o slot verified x.1 x.2 hq
  exact hquiet

theorem State.engine_completeTerminal (s : State) (g : Lane) (op : Operation) (o : Origin) (slot : Nat) (verified : Bool)
    (newBal : Option Int) (st : Status) (body : TermBody) :
    (s.completeTerminal g op o slot verified newBal st body).engine g = { s.engine g with op := none } := by
  simp [State.completeTerminal]

/-- R53, R56: the completion of a DEBIT or a PROBE: of a refused one, and of a PROBE that passes. -/
theorem exec_debitOrProbe {g : Lane} {s : State} {op : Operation} {o : Origin} {h : Handle} {amount : S8} {how : Byte}
    {probe : Bool} (hop : s.terminalOp g = some (op, o, if probe then .probe h amount else .debit h amount how)) :
    ∃ inRange t,
      (inRange = true ↔ 1 ≤ amount.value ∧ amount.value ≤ 99999999 ∧ (probe = true ∨ how = 0 ∨ how = 1)) ∧
      exec (if probe then .probe g else .debit g) s = .next t ∧ t.engine g = { s.engine g with op := none } ∧
      s.otherEngines t g ∧
      (∀ x, spendRefusal inRange h amount op.record = some x →
        s.completesWith t op o h.slot.toNat (inRange && (handleTest h op.record).isNone) x) ∧
      (probe = true → spendRefusal inRange h amount op.record = none →
        s.completesWith t op o h.slot.toNat (inRange && (handleTest h op.record).isNone)
          (.ok, .report (reportOf op.record.found (wouldBeDebit op.record amount.value)))) := by
  cases probe with
  | true =>
    refine ⟨debitAmountOk amount, _, ?_, exec_probe_of_op hop, s.engine_completeTerminal .., s.otherEngines_completeTerminal _ _ _ _ _ _ _ _,
      fun x hx => ?_, fun _ hx => ?_⟩
    · simp [debitAmountOk_iff]
    · rw [probeOutcome_eq, hx]
      exact State.completesWith_completeTerminal ..
    · rw [probeOutcome_eq, hx]
      exact State.completesWith_completeTerminal ..
  | false =>
    refine ⟨debitRangeOk amount how, _, ?_, exec_debit_of_op hop, s.engine_completeTerminal .., s.otherEngines_completeTerminal _ _ _ _ _ _ _ _,
      fun x hx => ?_, nofun⟩
    · simp [debitRangeOk_iff]
    · rw [debitOutcome_refused hx]
      exact State.completesWith_completeTerminal ..

/-- Settles O24: each refusal of the common checks completes without a balance, on a record that is verified once the handle
test has passed. -/
theorem debitAndProbeAnswerInOrder : Obligations.DebitAndProbeAnswerInOrder := by
  intro g s op o h amount how probe hop inRange wouldBe
  obtain ⟨ok, t, hok, hexec, heng, hothers, hrefused, hpassed⟩ := exec_debitOrProbe hop
  refine ⟨t, hexec, heng, hothers, fun hn => ?outOfRange, fun st hin ht => ?stale, fun hin ht => ?current⟩
  case outOfRange =>
    have hfalse : ok = false := Bool.eq_false_iff.2 fun h => hn (hok.1 h)
    subst hfalse
    obtain ⟨hans, -, -, hquiet⟩ := hrefused _ (spendRefusal_range h amount op.record)
    exact ⟨hans, hquiet rfl⟩
  case stale =>
    obtain rfl : ok = true := hok.2 hin
    obtain ⟨hans, -, -, hquiet⟩ := hrefused _ (spendRefusal_handle ht)
    exact ⟨hans, hquiet (by rw [ht]; rfl)⟩
  case current =>
    obtain rfl : ok = true := hok.2 hin
    have hverified : (true && (handleTest h op.record).isNone && !op.record.verifies) = !op.record.verifies := by
      rw [ht]
      rfl
    have hsound : op.record.verifies = true →
        (true && (handleTest h op.record).isNone && !op.record.verifies) = false := fun hv => by rw [hverified, hv]; rfl
    refine ⟨fun hs => ?_, fun hs => ?_, fun hs hv => ?_, fun hs hf => ?_, fun hv => ?_, fun hs hf hv => ?_,
      fun hp hs hr => ?_⟩
    · exact (hrefused _ (spendRefusal_state ht (spendCheck_frozen hs))).1
    · exact (hrefused _ (spendRefusal_state ht (spendCheck_closing hs))).1
    · rcases hs with hs | hs
      · obtain ⟨-, -, -, hquiet⟩ := hrefused _ (spendRefusal_state ht (spendCheck_frozen hs))
        exact hquiet (hsound hv)
      · obtain ⟨-, -, -, hquiet⟩ := hrefused _ (spendRefusal_state ht (spendCheck_closing hs))
        exact hquiet (hsound hv)
    · exact (hrefused _ (spendRefusal_suspect ht (spendCheck_active hs) (Record.found_suspect_iff.2 hf))).1
    · obtain ⟨x, hx⟩ := spendRefusal_of_mismatch (amount := amount) ht hv
      obtain ⟨-, hflags, hframe, -⟩ := hrefused x hx
      rw [hverified, hv] at hflags
      exact ⟨hflags, hframe⟩
    · obtain ⟨-, -, -, hquiet⟩ :=
        hrefused _ (spendRefusal_suspect ht (spendCheck_active hs) (Record.found_suspect_iff.2 (.inl hf)))
      exact hquiet (hsound hv)
    · obtain ⟨hans, -, -, hquiet⟩ := hpassed hp (spendRefusal_none ht hs hr)
      exact ⟨hans, hquiet (hsound hr.2)⟩

end Sys2Proof.Machine
end

section
/-! AUTHORIZE and the hold allocator (R33, R73, R75 to R78, R99, R103, R128). -/

namespace Sys2Proof.Machine

theorem exec_authorize_eq (g : Lane) (s : State) : exec (.authorize g) s = execAuthorize g s := rfl

theorem exec_holdEntryAllocation_eq (s : State) : exec .holdEntryAllocation s = execHoldEntryAllocation s := rfl

/-! ### Creation -/

/-- The operation at an engine is over: at every engine, what remains. -/
theorem State.engine_endOp (s : State) (g m : Lane) :
    (s.endOp g).engine m = { s.engine m with op := if m = g then none else (s.engine m).op } := by
  by_cases hm : m = g
  · subst hm
    simp
  · rw [State.engine_endOp_ne _ hm, if_neg hm]

/-- R77: the results of an AUTHORIZE that passes, before the due test. -/
def State.withNewHold (s : State) (g : Lane) (o : Origin) (e : HoldEntry) (n : Nat) (tk : Ticket) (body : TermBody) : State :=
  ((((s.endOp g).setHold n e).modifyRecord e.slot fun r => r.withHold tk e.amount).insertDeadline tk e.deadline).answer o .ok
    body

theorem State.withNewHold_spec (s : State) (g : Lane) (o : Origin) (e : HoldEntry) (n : Nat) (tk : Ticket) (body : TermBody) :
    let x := s.withNewHold g o e n tk body
    x.hold n = e ∧ s.otherHolds x n ∧ x.record e.slot = (s.record e.slot).withHold tk e.amount ∧ s.otherRecords x e.slot ∧
      x.deadlines = insertItem ⟨tk, e.deadline⟩ s.deadlines ∧ s.answered x o .ok body ∧
      (∀ m, x.engine m = { s.engine m with op := if m = g then none else (s.engine m).op }) ∧
      x = { s with accounts := x.accounts, holds := x.holds, deadlines := x.deadlines, engines := x.engines,
                   links := x.links } := by
  unfold State.withNewHold
  refine ⟨by simp, fun m hm => ?_, by simp, fun m hm => ?_, ?_, State.answered_answer _ _ _ (by simp), fun m => ?_, ?_⟩
  · simp [State.hold_setHold_ne _ _ hm]
  · simp [State.record_modifyRecord_ne _ _ hm]
  · simp [State.insertDeadline]
  · simp [State.engine_endOp]
  · apply State.eq_of_fields <;> simp

/-- R77, R103: the hold written, then the due test, which takes its item where its deadline has been reached. -/
theorem State.dueTest_withNewHold {s : State} (g : Lane) (o : Origin) (e : HoldEntry) {n : Nat} {tk : Ticket}
    (body : TermBody) (hn : tk.entry.toNat = n) (hready : e.deadline ≤ s.timebase → s.isReady = true)
    (hahead : ∀ i ∈ s.deadlines, s.timebase < i.deadline) :
    let y := (s.withNewHold g o e n tk body).dueTest
    (∀ m, y.engine m = { s.engine m with
      op := if m = g then none else (s.engine m).op,
      expiry := if e.deadline ≤ s.timebase ∧ m = laneOf e.slot then (s.engine m).expiry ++ [tk]
        else (s.engine m).expiry }) ∧
    y.hold n = e ∧ s.otherHolds y n ∧ y.record e.slot = (s.record e.slot).withHold tk e.amount ∧
    s.otherRecords y e.slot ∧
    y.deadlines = (if e.deadline ≤ s.timebase then s.deadlines else insertItem ⟨tk, e.deadline⟩ s.deadlines) ∧
    y.power = (if e.deadline ≤ s.timebase then s.wake.power else s.power) ∧ s.answered y o .ok body ∧
    y = { s with accounts := y.accounts, holds := y.holds, deadlines := y.deadlines, engines := y.engines, links := y.links,
                 power := y.power } := by
  obtain ⟨hhold, hholds, hrec, hrecs, hdl, hans, heng, hframe⟩ := s.withNewHold_spec g o e n tk body
  generalize s.withNewHold g o e n tk body = x at *
  have htime : x.timebase = s.timebase := by rw [hframe]
  have hpower : x.power = s.power := by rw [hframe]
  have hisReady : x.isReady = s.isReady := by rw [State.isReady, hpower]; rfl
  obtain ⟨hdue, hclaims⟩ := State.dueTest_insert hdl (by rwa [htime]) (by rwa [htime, hisReady])
  rw [htime] at hdue hclaims
  refine ⟨fun m => ?_, by simpa using hhold, fun m hm => ?_, by simpa using hrec, fun m hm => ?_, ?_, ?_, ?_, ?_⟩
  · rw [hclaims, heng, hn, hhold]
  · simpa using hholds m hm
  · simpa using hrecs m hm
  · rw [hdue]
  · rw [hdue, State.power_wake hpower, hpower]
  · exact State.answered_congr (by simp) hans
  · apply State.eq_of_fields <;> simp <;> rw [hframe]

theorem exec_authorize_allotted {g : Lane} {s : State} {op : Operation} {o : Origin} {h : Handle} {tariff : Byte}
    {units : B4} {window : B6} {n : Nat} (hop : s.terminalOp g = some (op, o, .authorize h tariff units window))
    (ha : op.alloc = .allotted n) :
    let e := newHold op o h tariff units window (s.hold n).serial
    let tk := ticketOf n (s.hold n).serial
    exec (.authorize g) s = .next (s.withNewHold g o e n tk (.authorized tk e.amount e.deadline
      (reportOf (op.record.found.withHold tk e.amount) (storedConds op.record)))).dueTest := by
  rw [exec_authorize_eq, execAuthorize, hop]
  dsimp only
  rw [ha]
  rfl

/-- R51, R76: the report of a record with a new hold. -/
theorem reportOf_withHold (r : Record) (tk : Ticket) (amount : Nat) :
    reportOf (r.found.withHold tk amount) (storedConds r) =
      ⟨r.balance.sent, r.held + amount, r.bal + r.floorValue - (r.held + amount : Nat), r.state, r.suspect || !r.verifies,
        r.holds.length + 1, balanceConds r.bal r.lowValue⟩ := by
  have hcount : (r.holds ++ [tk]).length = r.holds.length + 1 := List.length_append
  rw [← hcount]
  rfl

/-- Settles O25: the hold is written, then the due test takes its item where its deadline has been reached. -/
theorem authorizeCreatesTheHold : Obligations.AuthorizeCreatesTheHold := by
  intro g s op o h tariff units window n hop ha hn seconds deadline amount ticket due hready hahead
  have hexec := exec_authorize_allotted hop ha
  obtain ⟨heng, hhold, hholds, hrec, hrecs, hdl, hpower, hans, hframe⟩ := State.dueTest_withNewHold (s := s) g o
    (newHold op o h tariff units window (s.hold n).serial) (tk := ticketOf n (s.hold n).serial)
    (.authorized (ticketOf n (s.hold n).serial) (newHold op o h tariff units window (s.hold n).serial).amount
      (newHold op o h tariff units window (s.hold n).serial).deadline
      (reportOf (op.record.found.withHold (ticketOf n (s.hold n).serial)
        (newHold op o h tariff units window (s.hold n).serial).amount) (storedConds op.record)))
    (ticketOf_entry hn (s.hold n).serial) hready hahead
  refine ⟨_, hexec, heng, hhold, hholds, hrec, hrecs, hdl, hpower, ?_, hframe⟩
  rw [← reportOf_withHold op.record ticket amount]
  exact hans

/-! ### Refusals -/

/-- R49, R75: the ranges of an AUTHORIZE. -/
theorem authorizeRange_iff (tariff : Byte) (window : B6) :
    (15 < tariff.toNat || (B6.value window != 0 && !windowInRange (B6.value window))) = false ↔
      tariff.toNat ≤ 15 ∧ (B6.value window = 0 ∨ (10 ≤ B6.value window ∧ B6.value window ≤ 43200)) := by
  simp [windowInRange, Config.minWindow, Config.maxWindow]
  exact fun _ => Decidable.or_iff_not_imp_left.symm

section
variable {h : Handle} {tariff : Byte} {units : B4} {window : B6} {r : Record} {t : Tariff}

theorem authorizeRefusal_range
    (hn : ¬(tariff.toNat ≤ 15 ∧ (B6.value window = 0 ∨ (10 ≤ B6.value window ∧ B6.value window ≤ 43200)))) :
    authorizeRefusal h tariff units window r t = some (.badRange, .bare) := by
  have hout := mt (authorizeRange_iff tariff window).1 hn
  rw [Bool.not_eq_false] at hout
  unfold authorizeRefusal
  rw [if_pos hout]

variable (hrange : tariff.toNat ≤ 15 ∧ (B6.value window = 0 ∨ (10 ≤ B6.value window ∧ B6.value window ≤ 43200)))
include hrange

theorem authorizeRefusal_handle {st : Status} (ht : handleTest h r = some st) :
    authorizeRefusal h tariff units window r t = some (st, .bare) := by
  unfold authorizeRefusal
  rw [if_neg (by rw [(authorizeRange_iff tariff window).2 hrange]; decide), ht]

theorem authorizeRefusal_state {st : Status} (ht : handleTest h r = none) (hs : spendCheck r = some st) :
    authorizeRefusal h tariff units window r t = some (st, .report (reportOf r.found (storedConds r))) := by
  unfold authorizeRefusal
  rw [if_neg (by rw [(authorizeRange_iff tariff window).2 hrange]; decide), ht, hs]

theorem authorizeRefusal_suspect (ht : handleTest h r = none) (hs : spendCheck r = none) (hf : r.found.suspect = true) :
    authorizeRefusal h tariff units window r t = some (.suspect, .bare) := by
  unfold authorizeRefusal
  rw [if_neg (by rw [(authorizeRange_iff tariff window).2 hrange]; decide), ht, hs]
  dsimp only
  rw [if_pos hf]

/-- R75: checks 4 to 9 on a sound account. -/
theorem authorizeRefusal_sound (ht : handleTest h r = none) (hs : spendCheck r = none) (hr : r.sound) :
    authorizeRefusal h tariff units window r t =
      if t.enabled = false then some (.tariffOff, .report (reportOf r (storedConds r)))
      else if inTariffSet r.tariffs tariff.toNat = false then some (.tariffDenied, .report (reportOf r (storedConds r)))
      else if B4.value units = 0 ∨ t.maxUnits < B4.value units then
        some (.unitsLimit, .unitsLimit (reportOf r (storedConds r)) t.maxUnits)
      else if 4 ≤ r.holds.length then some (.accountHoldsFull, .report (reportOf r (storedConds r)))
      else if r.spendable < (B4.value units * t.price : Nat) then
        some (.short, .shortAsked (reportOf r { storedConds r with short := true }) (B4.value units * t.price))
      else if 99999999 < r.held + B4.value units * t.price then
        some (.overRange, .report (reportOf r { storedConds r with overRange := true }))
      else none := by
  have hf := Record.found_suspect_of_sound hr
  unfold authorizeRefusal
  rw [if_neg (by rw [(authorizeRange_iff tariff window).2 hrange]; decide), ht, hs]
  dsimp only
  rw [if_neg (by rw [hf]; decide), Record.found_of_sound hr]
  have hmax : Config.maxAmount < (r.held : Int) + (holdAmount t units : Nat) ↔
      99999999 < r.held + B4.value units * t.price := by
    show (99999999 : Int) < r.held + (B4.value units * t.price : Nat) ↔ _
    omega
  simp only [Bool.not_eq_true', Bool.or_eq_true, decide_eq_true_eq, hmax]
  rfl

end

theorem authorizeVerifies_eq (h : Handle) (tariff : Byte) (window : B6) (r : Record) :
    (authorizeVerifies h tariff window r && !r.verifies) =
      decide (r.verifies = false ∧ handleTest h r = none ∧ tariff.toNat ≤ 15 ∧
        (B6.value window = 0 ∨ (10 ≤ B6.value window ∧ B6.value window ≤ 43200))) := by
  rw [Bool.eq_iff_iff, decide_eq_true_eq, Bool.and_eq_true, Bool.not_eq_true', authorizeVerifies, Bool.and_eq_true,
    Bool.not_eq_true', authorizeRange_iff, Option.isNone_iff_eq_none]
  exact ⟨fun ⟨⟨hrange, htest⟩, hver⟩ => ⟨hver, htest, hrange⟩, fun ⟨hver, htest, hrange⟩ => ⟨⟨hrange, htest⟩, hver⟩⟩

theorem exec_authorize_notClaimed {g : Lane} {s : State} {op : Operation} {o : Origin} {h : Handle} {tariff : Byte}
    {units : B4} {window : B6} {st : Status} {body : TermBody}
    (hop : s.terminalOp g = some (op, o, .authorize h tariff units window)) (ha : op.alloc = .notClaimed)
    (hr : authorizeRefusal h tariff units window op.record op.tariff = some (st, body)) :
    exec (.authorize g) s = .next (s.completeTerminal g op o h.slot.toNat (authorizeVerifies h tariff window op.record)
      none st body) := by
  rw [exec_authorize_eq, execAuthorize, hop]
  dsimp only
  rw [ha, hr]

theorem exec_authorize_full {g : Lane} {s : State} {op : Operation} {o : Origin} {h : Handle} {tariff : Byte}
    {units : B4} {window : B6} (hop : s.terminalOp g = some (op, o, .authorize h tariff units window))
    (ha : op.alloc = .full) :
    exec (.authorize g) s = .next (s.completeTerminal g op o h.slot.toNat true none .holdsFull
      (.report (reportOf op.record.found (storedConds op.record)))) := by
  rw [exec_authorize_eq, execAuthorize, hop]
  dsimp only
  rw [ha]

/-- Settles O26: the checks one by one, and the two refused completions. -/
theorem authorizeRefusesInOrder : Obligations.AuthorizeRefusesInOrder := by
  refine ⟨fun h tariff units window r t => ?checks, fun g s op o h tariff units window st body hop hcase => ?completion⟩
  case checks =>
    refine ⟨fun hn => authorizeRefusal_range hn, fun hrange st ht => authorizeRefusal_handle hrange ht,
      fun hrange ht => ⟨fun hs => ?_, fun hs => ?_, fun hs => ⟨fun hf => ?_, fun hsus hv => ?_⟩⟩⟩
    · exact authorizeRefusal_state hrange ht (spendCheck_frozen hs)
    · exact authorizeRefusal_state hrange ht (spendCheck_closing hs)
    · exact authorizeRefusal_suspect hrange ht (spendCheck_active hs) (Record.found_suspect_iff.2 hf)
    · exact authorizeRefusal_sound hrange ht (spendCheck_active hs) ⟨hsus, hv⟩
  case completion =>
    rcases hcase with ⟨ha, hr⟩ | ⟨ha, hv, rfl, rfl⟩
    · obtain ⟨hans, heng, hothers, hflags, hframe⟩ := s.completeTerminal_spec g op o h.slot.toNat
        (authorizeVerifies h tariff window op.record) st body
      rw [authorizeVerifies_eq] at hflags
      exact ⟨_, exec_authorize_notClaimed hop ha hr, hans, heng, hothers, hflags, hframe⟩
    · obtain ⟨hans, heng, hothers, hflags, hframe⟩ := s.completeTerminal_spec g op o h.slot.toNat true .holdsFull
        (.report (reportOf op.record (storedConds op.record)))
      have hexec := exec_authorize_full hop ha
      rw [Record.found_of_verifies hv] at hexec
      refine ⟨_, hexec, hans, heng, hothers, ?_, hframe⟩
      simpa [hv] using hflags

/-! ### The allocator -/

theorem Engine.allotted_eq (e : Engine) (a : Alloc) :
    e.allotted a = { e with op := e.op.map fun op => { op with alloc := a } } := by
  unfold Engine.allotted
  split
  · rename_i hop
    rw [hop]
    rfl
  · rename_i hop
    rw [hop, Option.map_none, ← hop]

/-- R73: the allocator's answer. -/
def State.allocation (s : State) : Alloc :=
  match s.lowestEntry with
  | some n => .allotted n
  | none => .full

theorem exec_holdEntryAllocation_of_find {s : State} {g : Lane}
    (h : [s.allocPtr, s.allocPtr + 1, s.allocPtr + 2, s.allocPtr + 3].find? s.claimsEntry = some g) :
    exec .holdEntryAllocation s =
      .next { s.modifyEngine g (fun e => e.allotted s.allocation) with allocPtr := g + 1 } := by
  rw [exec_holdEntryAllocation_eq, execHoldEntryAllocation, rotation, h]
  rfl

theorem State.allocation_lowest {s : State} {n : Nat} (hn : n < 256) (hfree : (s.hold n).state = .free)
    (hnot : s.isAllotted n = false)
    (hlow : ∀ m, m < n → (s.hold m).state ≠ .free ∨ s.isAllotted m = true) : s.allocation = .allotted n := by
  have hfound : s.lowestEntry = some n :=
    lowestFrom_some _ _ 0 n (Nat.zero_le n) (by simpa using hn) (by simp [hfree, hnot]) fun m _ hm => by
      rcases hlow m hm with h | h <;> simp [h]
  rw [State.allocation, hfound]

theorem State.allocation_full {s : State} (h : ∀ n, n < 256 → (s.hold n).state ≠ .free ∨ s.isAllotted n = true) :
    s.allocation = .full := by
  have hnone : s.lowestEntry = none :=
    lowestFrom_none _ _ 0 fun m _ hm => by
      rcases h m (by simpa using hm) with h | h <;> simp [h]
  rw [State.allocation, hnone]

/-- Settles O27: the claim found first is answered with the lowest entry, or with FULL. -/
theorem allocatorServesInRotation : Obligations.AllocatorServesInRotation := by
  intro s g hg
  refine ⟨_, s.allocation, exec_holdEntryAllocation_of_find hg, rfl, ?_, fun m hm => ?_, rfl,
    fun n hn hfree hnot hlow => State.allocation_lowest hn hfree hnot hlow, State.allocation_full⟩
  · rw [← Engine.allotted_eq]
    exact State.engine_setEngine_same ..
  · exact State.engine_setEngine_ne _ _ hm

end Sys2Proof.Machine
end

section
/-! SETTLE, CANCEL, EXTEND and EXPIRY (R33, R35, R51, R59, R79 to R85, R90 to R93, R99, R100, R103), and the freeing of a slot
(R8, R20, R21). -/

namespace Sys2Proof.Machine

theorem exec_settle_eq (g : Lane) (s : State) : exec (.settle g) s = execSettle g s := rfl

theorem exec_cancel_eq (g : Lane) (s : State) : exec (.cancel g) s = execCancel g s := rfl

theorem exec_extend_eq (g : Lane) (s : State) : exec (.extend g) s = execExtend g s := rfl

theorem exec_expiry_eq (g : Lane) (s : State) : exec (.expiry g) s = execExpiry g s := rfl

theorem exec_slotFree_eq (g : Lane) (s : State) : exec (.slotFree g) s = execSlotFree g s := rfl

/-! ### The checks of SETTLE and CANCEL -/

theorem ownerCheck_eq_false {o : Origin} {e : HoldEntry} : ownerCheck o e = false ↔ o.link ≠ e.link ∨ o.epoch ≠ e.epoch := by
  rw [← Bool.not_eq_true, ownerCheck_iff]
  exact Decidable.not_and_iff_not_or_not

section
variable {g : Lane} {o : Origin} {t : Ticket} {e : HoldEntry} {r : Record}

theorem settleRefusal_none (ht : ticketOfGroup g t e = true) (ho : ownerCheck o e = true) (hl : e.state = .live)
    (hr : r.sound) : settleRefusal g o t e r = none := by
  simp [settleRefusal, ht, ho, hl, Record.found_suspect_of_sound hr]

theorem settleRefusal_gone (ht : ticketOfGroup g t e = false) : settleRefusal g o t e r = some (.holdGone, .bare) := by
  simp [settleRefusal, ht]

theorem settleRefusal_notOwner (ht : ticketOfGroup g t e = true) (ho : ownerCheck o e = false) :
    settleRefusal g o t e r = some (.notOwner, .ticket t) := by
  simp [settleRefusal, ht, ho]

theorem settleRefusal_suspect (ht : ticketOfGroup g t e = true) (ho : ownerCheck o e = true)
    (hs : e.state = .stalled ∨ r.suspect = true ∨ r.verifies = false) :
    settleRefusal g o t e r = some (.suspect, .ticket t) := by
  have hbad : (e.state == .stalled || r.found.suspect) = true := by
    rw [Bool.or_eq_true, beq_iff_eq, Record.found_suspect_iff]
    exact hs
  simp only [settleRefusal, ht, ho, hbad]
  rfl

theorem cancelRefusal_none (ht : ticketOfGroup g t e = true) (ho : ownerCheck o e = true) : cancelRefusal g o t e = none := by
  simp [cancelRefusal, ht, ho]

theorem cancelRefusal_gone (ht : ticketOfGroup g t e = false) : cancelRefusal g o t e = some (.holdGone, .bare) := by
  simp [cancelRefusal, ht]

theorem cancelRefusal_notOwner (ht : ticketOfGroup g t e = true) (ho : ownerCheck o e = false) :
    cancelRefusal g o t e = some (.notOwner, .ticket t) := by
  simp [cancelRefusal, ht, ho]

end

/-! ### What a charge clamped to the range is (R80) -/

/-- R80: the charge of an ending, clamped so that the balance stays in range. -/
theorem clampCharge_bounds {r : Record} (usage : Nat) :
    let c : Int := if r.bal - usage < -99999999 then r.bal + 99999999 else usage
    0 ≤ c ∧ -99999999 ≤ r.bal - c := by
  have hmin : -99999999 ≤ r.bal := (S8.value_bounds r.balance).1
  dsimp only
  split <;> omega

theorem chargedBalance_eq (r : Record) (c : Int) : chargedBalance r c = if 0 < c then some (r.bal - c) else none := rfl

/-- R51, R79: the report of a record after an ending. -/
theorem reportOf_ended (r : Record) (t : Ticket) (e : HoldEntry) {c : Int} (conds : Conds) (hc : 0 ≤ c)
    (h : -99999999 ≤ r.bal - c) :
    reportOf (endedRecord r t e c) conds =
      { balance := if 0 < c then (S8.ofInt (r.bal - c)).sent else r.balance.sent
        held := heldWithout r.held e.amount
        spendable := r.bal - c + r.floorValue - (heldWithout r.held e.amount : Nat)
        state := if r.state = .closing ∧ r.holds.filter (· ≠ t) = [] then .gone else r.state
        suspect := r.suspect || !r.verifies
        count := (r.holds.filter (· ≠ t)).length
        conds := conds } := by
  obtain ⟨hbal, hheld, hholds, hspend, hstate, hsus⟩ := endedRecord_spec r t e c hc h
  simp only [reportOf, hbal, hheld, hholds, hspend, hstate, hsus]

/-! ### SETTLE and CANCEL -/

theorem exec_settle_refused {g : Lane} {s : State} {op : Operation} {o : Origin} {t : Ticket} {units : B4} {st : Status}
    {body : TermBody} (hop : s.terminalOp g = some (op, o, .settle t units))
    (hr : settleRefusal g o t op.entry op.record = some (st, body)) :
    exec (.settle g) s = .next (s.completeTerminal g op o op.entry.slot (ticketOfGroup g t op.entry) none st body) := by
  rw [exec_settle_eq, execSettle, hop]
  dsimp only
  rw [hr]

theorem exec_settle_passed {g : Lane} {s : State} {op : Operation} {o : Origin} {t : Ticket} {units : B4}
    (hop : s.terminalOp g = some (op, o, .settle t units)) (hr : settleRefusal g o t op.entry op.record = none) :
    let c := (clampCharge op.record.bal (settleCharge op.entry (B4.value units))).1
    exec (.settle g) s = .next (((s.endOp g).chargeHold g t op.entry op.record c).answer o .ok
      (.settled t c.toNat (settleReport op.record t op.entry (B4.value units)))) := by
  rw [exec_settle_eq, execSettle, hop]
  dsimp only
  rw [hr]

theorem exec_cancel_refused {g : Lane} {s : State} {op : Operation} {o : Origin} {t : Ticket} {st : Status}
    {body : TermBody} (hop : s.terminalOp g = some (op, o, .cancel t))
    (hr : cancelRefusal g o t op.entry = some (st, body)) :
    exec (.cancel g) s = .next (s.completeTerminal g op o op.entry.slot (ticketOfGroup g t op.entry) none st body) := by
  rw [exec_cancel_eq, execCancel, hop]
  dsimp only
  rw [hr]

theorem exec_cancel_passed {g : Lane} {s : State} {op : Operation} {o : Origin} {t : Ticket}
    (hop : s.terminalOp g = some (op, o, .cancel t)) (hr : cancelRefusal g o t op.entry = none) :
    exec (.cancel g) s = .next ((((s.endOp g).noteMismatch op.entry.slot (!op.record.verifies) .operation).endHold g t op.entry
      op.record none).answer o .ok (.cancelled t (reportOf (endedRecord op.record t op.entry 0) (storedConds op.record)))) := by
  rw [exec_cancel_eq, execCancel, hop]
  dsimp only
  rw [hr]

/-- R59, R79, R82: an ending with a charge on a sound account, answered: what it writes and what it leaves. -/
theorem State.charged_answered (s : State) (g : Lane) (t : Ticket) (e : HoldEntry) {r : Record} (c : Int) (o : Origin)
    (st : Status) (body : TermBody) (hv : r.verifies = true) :
    let s' := ((s.endOp g).chargeHold g t e r c).answer o st body
    s.holdEnded s' g t e r (if 0 < c then some (r.bal - c) else none) ∧
      s.noticed s' (if 0 < c ∧ (r.lowValue : Int) ≤ r.bal ∧ r.bal - c < r.lowValue then
        [.lowBalance ⟨BitVec.ofNat 16 e.slot, r.gen⟩ (S8.ofInt (r.bal - c))] else []) ∧
      s.answered s' o st body ∧
      ((∀ i ∈ s.deadlines, s.timebase < i.deadline) → s'.power = s.power) ∧
      (∀ m, s'.engine m = { s.engine m with op := if m = g then none else (s.engine m).op,
                                            expiry := (s'.engine m).expiry }) ∧
      s' = { s with accounts := s'.accounts, holds := s'.holds, deadlines := s'.deadlines, engines := s'.engines,
                    indexUnit := s'.indexUnit, links := s'.links, notices := s'.notices, power := s'.power } := by
  obtain ⟨hacc, hholds, hdl, heng, hindex, hlinks, hcmd, hnoticed⟩ := (s.endOp g).chargeHold_spec g t e r c
  have hpower := (s.endOp g).power_chargeHold g t e r c
  refine ⟨?_, ?_, ?_, fun hahead => ?_, fun m => ?_, ?_⟩
  · exact State.holdEnded_of_endHold s g t e r (chargedBalance r c) _ hv (by simpa using hacc) (by simpa using hholds)
      (by simpa using hdl) (by simpa using heng) (by simpa using hindex)
  · exact State.noticed_congr (s := s.endOp g) (by simp) (by simp) hnoticed
  · exact State.answered_answer _ _ _ (by simp)
  · exact State.power_ended s _ g t e r (chargedBalance r c) false .operation
      (by simpa [State.noteMismatch_false] using hpower) hahead
  · exact State.engine_ended s _ g t e r (chargedBalance r c) false .operation
      (by simpa [State.noteMismatch_false] using heng) m
  · apply State.eq_of_fields <;> simp

/-- R33, R79: an ending without a charge, answered: what it writes and what it leaves. -/
theorem State.released_answered (s : State) (g : Lane) (t : Ticket) (e : HoldEntry) (r : Record) (o : Origin) (st : Status)
    (body : TermBody) :
    let s' := (((s.endOp g).noteMismatch e.slot (!r.verifies) .operation).endHold g t e r none).answer o st body
    s.holdEnded s' g t e r none ∧ s.answered s' o st body ∧
      s.noticed s' (if r.verifies = false ∧ (s.record e.slot).suspect = false then
        [.suspectFound e.slot (s.record e.slot).gen (s.record e.slot).state .operation] else []) ∧
      ((∀ i ∈ s.deadlines, s.timebase < i.deadline) → s'.power = s.power) ∧
      (∀ m, s'.engine m = { s.engine m with op := if m = g then none else (s.engine m).op,
                                            expiry := (s'.engine m).expiry }) ∧
      s' = { s with accounts := s'.accounts, holds := s'.holds, deadlines := s'.deadlines, engines := s'.engines,
                    indexUnit := s'.indexUnit, links := s'.links, notices := s'.notices, power := s'.power } := by
  refine ⟨?_, ?_, ?_, fun hahead => ?_, fun m => ?_, ?_⟩
  · exact State.holdEnded_of_noted s g t e r none .operation _ (by simp) (by simp) (by simp) (by simp) (by simp)
  · exact State.answered_answer _ _ _ (by simp)
  · have hnoticed := (s.endOp g).noticed_noteMismatch e.slot (!r.verifies) .operation
    simp only [Bool.not_eq_true'] at hnoticed
    exact State.noticed_congr (s := s.endOp g) (t := (s.endOp g).noteMismatch e.slot (!r.verifies) .operation) (by simp)
      (by simp) (by simpa using hnoticed)
  · exact State.power_ended s _ g t e r none (!r.verifies) .operation (by simp) hahead
  · exact State.engine_ended s _ g t e r none (!r.verifies) .operation (by simp) m
  · apply State.eq_of_fields <;> simp

/-- Settles O28: the endings are the two lemmas above; a refusal writes nothing but the flag of a mismatch. -/
theorem settleAndCancelEndTheHold : Obligations.SettleAndCancelEndTheHold := by
  refine ⟨fun g s op o t units hop ht hlink hepoch hlive hr => ?settle, fun g s op o t hop ht hlink hepoch => ?cancel,
    fun g s op o t units settle st body hop hcase => ?refused⟩
  case settle =>
    intro e r usage charge left
    have howner : ownerCheck o op.entry = true := ownerCheck_iff.2 ⟨hlink, hepoch⟩
    have hexec := exec_settle_passed hop (settleRefusal_none ht howner hlive hr)
    have hclamp : clampCharge op.record.bal (settleCharge op.entry (B4.value units)) =
        (charge, decide (r.bal - usage < -99999999)) := clampCharge_eq _ _
    obtain ⟨hcharge, hbal⟩ := clampCharge_bounds (r := r) usage
    have hreport : settleReport op.record t op.entry (B4.value units) = reportOf (endedRecord r t e charge)
        ⟨decide (r.bal - charge = 0), decide (r.bal - charge < 0), decide (r.bal - charge < r.lowValue), false,
          decide (r.bal - usage < -99999999), decide (e.amount < B4.value units * e.price)⟩ := by
      unfold settleReport
      rw [hclamp]
      rfl
    have hsus : (r.suspect || !r.verifies) = false := by rw [hr.1, hr.2]; rfl
    rw [hclamp, hreport, reportOf_ended r t e _ hcharge hbal, hsus] at hexec
    exact ⟨_, hexec, s.charged_answered g t e charge o .ok _ hr.2⟩
  case cancel =>
    intro e r left
    have howner : ownerCheck o op.entry = true := ownerCheck_iff.2 ⟨hlink, hepoch⟩
    have hexec := exec_cancel_passed hop (cancelRefusal_none ht howner)
    have hmin : -99999999 ≤ op.record.bal - 0 := by
      have hbounds := (S8.value_bounds op.record.balance).1
      unfold Record.bal
      omega
    rw [reportOf_ended op.record t op.entry _ (Int.le_refl 0) hmin, Int.sub_zero, if_neg (Int.lt_irrefl _)] at hexec
    exact ⟨_, hexec, s.released_answered g t e r o .ok _⟩
  case refused =>
    obtain ⟨hans, heng, hothers, hflags, hframe⟩ := s.completeTerminal_spec g op o op.entry.slot
      (ticketOfGroup g t op.entry) st body
    refine ⟨s.completeTerminal g op o op.entry.slot (ticketOfGroup g t op.entry) none st body, ?_, hans, heng, hothers,
      hflags, hframe⟩
    cases settle with
    | true =>
      refine exec_settle_refused hop ?_
      rcases hcase with ⟨ht, rfl, rfl⟩ | ⟨ht, ho, rfl, rfl⟩ | ⟨-, ht, hlink, hepoch, hs, rfl, rfl⟩
      · exact settleRefusal_gone ht
      · exact settleRefusal_notOwner ht (ownerCheck_eq_false.2 ho)
      · exact settleRefusal_suspect ht (ownerCheck_iff.2 ⟨hlink, hepoch⟩) hs
    | false =>
      refine exec_cancel_refused hop ?_
      rcases hcase with ⟨ht, rfl, rfl⟩ | ⟨ht, ho, rfl, rfl⟩ | ⟨hsettle, -⟩
      · exact cancelRefusal_gone ht
      · exact cancelRefusal_notOwner ht (ownerCheck_eq_false.2 ho)
      · contradiction

/-! ### EXTEND -/

theorem windowInRange_eq (n : Nat) : windowInRange n = decide (10 ≤ n ∧ n ≤ 43200) := by
  rw [Bool.decide_and]
  rfl

/-- R84: the checks of an EXTEND as one chain. -/
theorem extendRefusal_eq (g : Lane) (o : Origin) (t : Ticket) (n : Nat) (e : HoldEntry) (r : Record) (time : Nat)
    (claimed : Bool) :
    extendRefusal g o t n e r time claimed =
      (if n < 10 ∨ 43200 < n then some (.badRange, .bare)
      else if ticketOfGroup g t e = false then some (.holdGone, .bare)
      else if o.link ≠ e.link ∨ o.epoch ≠ e.epoch then some (.notOwner, .ticket t)
      else if e.state = .stalled ∨ r.suspect = true ∨ r.verifies = false then
        some (.suspect, .extendRefused t e.deadline e.extensions)
      else if claimed = true then some (.expiring, .extendRefused t e.deadline e.extensions)
      else if 3 ≤ e.extensions then some (.extendLimit, .extendRefused t e.deadline e.extensions)
      else if time + 86400 < e.deadline + n then some (.badRange, .extendRefused t e.deadline e.extensions)
      else none) := by
  have hrange : (!windowInRange n) = true ↔ n < 10 ∨ 43200 < n := by
    rw [windowInRange_eq, Bool.not_eq_true', decide_eq_false_iff_not]
    omega
  have howner : (!ownerCheck o e) = true ↔ o.link ≠ e.link ∨ o.epoch ≠ e.epoch := by
    rw [Bool.not_eq_true', ownerCheck_eq_false]
  have hsuspect : (e.state == .stalled || r.found.suspect) = true ↔
      e.state = .stalled ∨ r.suspect = true ∨ r.verifies = false := by
    rw [Bool.or_eq_true, beq_iff_eq, Record.found_suspect_iff]
  unfold extendRefusal
  simp only [hrange, howner, hsuspect, Bool.not_eq_true']

/-- R85: the results of an EXTEND that passes, before the due test. -/
def State.withExtension (s : State) (g : Lane) (o : Origin) (t : Ticket) (e' : HoldEntry) (body : TermBody) : State :=
  (((s.endOp g).setHold t.entry.toNat e').replaceDeadline t e'.deadline).answer o .ok body

theorem State.withExtension_spec (s : State) (g : Lane) (o : Origin) (t : Ticket) (e' : HoldEntry) (body : TermBody) :
    let x := s.withExtension g o t e' body
    x.hold t.entry.toNat = e' ∧ s.otherHolds x t.entry.toNat ∧
      x.deadlines = insertItem ⟨t, e'.deadline⟩ (s.deadlines.filter fun i => i.ticket != t) ∧ s.answered x o .ok body ∧
      (∀ m, x.engine m = { s.engine m with op := if m = g then none else (s.engine m).op }) ∧
      x = { s with holds := x.holds, deadlines := x.deadlines, engines := x.engines, links := x.links } := by
  unfold State.withExtension
  refine ⟨by simp, fun m hm => ?_, ?_, State.answered_answer _ _ _ (by simp), fun m => ?_, ?_⟩
  · simp [State.hold_setHold_ne _ _ hm]
  · simp [State.replaceDeadline, State.insertDeadline, State.removeDeadline]
  · simp [State.engine_endOp]
  · apply State.eq_of_fields <;> simp

/-- R85, R100, R103: the extension written, then the due test, which takes the item where its deadline has been reached. -/
theorem State.dueTest_withExtension {s : State} {g : Lane} (o : Origin) {t : Ticket} {e' : HoldEntry} (body : TermBody)
    (hg : laneOf e'.slot = g) (hready : e'.deadline ≤ s.timebase → s.isReady = true)
    (hahead : ∀ i ∈ s.deadlines, i.ticket ≠ t → s.timebase < i.deadline) :
    let y := (s.withExtension g o t e' body).dueTest
    s.otherEngines y g ∧
    y.engine g = { s.engine g with
      op := none, expiry := if e'.deadline ≤ s.timebase then (s.engine g).expiry ++ [t] else (s.engine g).expiry } ∧
    y.hold t.entry.toNat = e' ∧ s.otherHolds y t.entry.toNat ∧
    y.deadlines = (if e'.deadline ≤ s.timebase then s.deadlines.filter (fun i => i.ticket != t)
      else insertItem ⟨t, e'.deadline⟩ (s.deadlines.filter fun i => i.ticket != t)) ∧
    y.power = (if e'.deadline ≤ s.timebase then s.wake.power else s.power) ∧ s.answered y o .ok body ∧
    y = { s with holds := y.holds, deadlines := y.deadlines, engines := y.engines, links := y.links, power := y.power } := by
  obtain ⟨hhold, hholds, hdl, hans, heng, hframe⟩ := s.withExtension_spec g o t e' body
  generalize s.withExtension g o t e' body = x at *
  have htime : x.timebase = s.timebase := by rw [hframe]
  have hpower : x.power = s.power := by rw [hframe]
  have hisReady : x.isReady = s.isReady := by rw [State.isReady, hpower]; rfl
  have hothers : ∀ i ∈ s.deadlines.filter (fun i => i.ticket != t), x.timebase < i.deadline := fun i hi => by
    obtain ⟨hmem, hne⟩ := List.mem_filter.1 hi
    rw [htime]
    exact hahead i hmem (by simpa using hne)
  obtain ⟨hdue, hclaims⟩ := State.dueTest_insert hdl hothers (by rwa [htime, hisReady])
  rw [htime] at hdue hclaims
  rw [hhold, hg] at hclaims
  refine ⟨fun m hm => ?_, ?_, by simpa using hhold, fun m hm => ?_, ?_, ?_, ?_, ?_⟩
  · rw [hclaims, heng, if_neg hm, if_neg fun h => hm h.2]
  · rw [hclaims, heng, if_pos rfl]
    simp only [and_true]
  · simpa using hholds m hm
  · rw [hdue]
  · rw [hdue, State.power_wake hpower, hpower]
  · exact State.answered_congr (by simp) hans
  · apply State.eq_of_fields <;> simp <;> rw [hframe]

theorem exec_extend_refused {g : Lane} {s : State} {op : Operation} {o : Origin} {t : Ticket} {seconds : B6} {st : Status}
    {body : TermBody} (hop : s.terminalOp g = some (op, o, .extend t seconds))
    (hr : extendRefusal g o t (B6.value seconds) op.entry op.record op.time (s.isClaimed g t) = some (st, body)) :
    exec (.extend g) s = .next (s.completeTerminal g op o op.entry.slot
      (windowInRange (B6.value seconds) && ticketOfGroup g t op.entry) none st body) := by
  rw [exec_extend_eq, execExtend, hop]
  dsimp only
  rw [hr]

theorem exec_extend_passed {g : Lane} {s : State} {op : Operation} {o : Origin} {t : Ticket} {seconds : B6}
    (hop : s.terminalOp g = some (op, o, .extend t seconds))
    (hr : extendRefusal g o t (B6.value seconds) op.entry op.record op.time (s.isClaimed g t) = none) :
    let e' := op.entry.extended (B6.value seconds)
    exec (.extend g) s = .next (s.withExtension g o t e' (.extended t e'.deadline (3 - e'.extensions))).dueTest := by
  rw [exec_extend_eq, execExtend, hop]
  dsimp only
  rw [hr]
  rfl

/-- Settles O29: the chain of checks, the refused completion, and the re-placement with its due test. -/
theorem extendMovesTheDeadline : Obligations.ExtendMovesTheDeadline := by
  refine ⟨extendRefusal_eq, fun g s op o t seconds hop => ⟨fun st body hr => ?refused, ?passed⟩⟩
  case refused =>
    obtain ⟨hans, heng, hothers, hflags, hframe⟩ := s.completeTerminal_spec g op o op.entry.slot
      (windowInRange (B6.value seconds) && ticketOfGroup g t op.entry) st body
    refine ⟨_, exec_extend_refused hop hr, hans, heng, hothers, ?_, hframe⟩
    rw [← windowInRange_eq]
    exact hflags
  case passed =>
    intro hmin hmax ht hlink hepoch hlive hr hclaimed hext hreach deadline due hready hahead
    have hnone : extendRefusal g o t (B6.value seconds) op.entry op.record op.time (s.isClaimed g t) = none := by
      rw [extendRefusal_eq, if_neg (by omega), if_neg (by simp [ht]), if_neg (by simp [hlink, hepoch]),
        if_neg (by simp [hlive, hr.1, hr.2]), if_neg (by simp [hclaimed]), if_neg (by omega), if_neg (by omega)]
    have hgroup : laneOf op.entry.slot = g := (ticketOfGroup_iff.1 ht).2
    have hleft : 3 - (op.entry.extensions + 1) = 2 - op.entry.extensions := by omega
    obtain ⟨hothers, heng, hhold, hholds, hdl, hpower, hans, hframe⟩ := State.dueTest_withExtension (s := s) o
      (t := t) (e' := op.entry.extended (B6.value seconds))
      (.extended t (op.entry.extended (B6.value seconds)).deadline (3 - (op.entry.extended (B6.value seconds)).extensions))
      hgroup hready hahead
    refine ⟨_, exec_extend_passed hop hnone, hothers, heng, hhold, hholds, hdl, hpower, ?_, hframe⟩
    rw [← hleft]
    exact hans

/-! ### EXPIRY -/

theorem exec_expiry_of_work {g : Lane} {s : State} {op : Operation} {t : Ticket} (hop : (s.engine g).op = some op)
    (hw : op.work = .expiry t) :
    exec (.expiry g) s = .next (if ticketOfGroup g t op.entry = true then
      ((s.endOp g).noteMismatch op.entry.slot (!op.record.verifies) .operation).expire g t op.entry op.record
        else s.endOp g) := by
  rw [exec_expiry_eq, execExpiry, hop]
  dsimp only
  rw [hw]

/-- R28, R35, R79: what every completion of an expiry claim keeps: power control while no deadline has been reached, and of
each engine all but the operation and the expiry claims. -/
def State.claimCompleted (s s' : State) (g : Lane) : Prop :=
  ((∀ i ∈ s.deadlines, s.timebase < i.deadline) → s'.power = s.power) ∧
    (∀ m, s'.engine m = { s.engine m with op := if m = g then none else (s.engine m).op,
                                          expiry := (s'.engine m).expiry }) ∧
    s' = { s with accounts := s'.accounts, holds := s'.holds, deadlines := s'.deadlines, engines := s'.engines,
                  indexUnit := s'.indexUnit, notices := s'.notices, power := s'.power }

theorem State.claimCompleted_stale (s : State) (g : Lane) : s.claimCompleted (s.endOp g) g := by
  refine ⟨fun _ => by simp, fun m => ?_, rfl⟩
  rw [State.engine_endOp]

/-- A state that agrees with an ending behind a verification but for its notices. -/
theorem State.claimCompleted_ended {s s' : State} {g : Lane} (t : Ticket) (e : HoldEntry) (r : Record) (v : Option Int)
    (h : s' = { ((s.endOp g).noteMismatch e.slot (!r.verifies) .operation).endHold g t e r v with notices := s'.notices }) :
    s.holdEnded s' g t e r v ∧ s.claimCompleted s' g := by
  generalize hy : ((s.endOp g).noteMismatch e.slot (!r.verifies) .operation).endHold g t e r v = y at h
  have hended : s.holdEnded s' g t e r v :=
    State.holdEnded_of_noted s g t e r v .operation s' (by rw [h, hy]) (by rw [h, hy]) (by rw [h, hy]) (by rw [h, hy])
      (by rw [h, hy])
  refine ⟨hended, fun hahead => ?_, fun m => ?_, ?_⟩
  · exact State.power_ended s s' g t e r v (!r.verifies) .operation (by rw [h, hy]) hahead
  · exact State.engine_ended s s' g t e r v (!r.verifies) .operation (by rw [h, hy]) m
  · apply State.eq_of_fields <;> first | rfl | (rw [h]; simp [← hy])

/-- R33: the notice of the verification that a completion makes. -/
theorem State.noticed_found (s : State) (g : Lane) (slot : Nat) (r : Record) :
    s.noticed ((s.endOp g).noteMismatch slot (!r.verifies) .operation)
      (if r.verifies = false ∧ (s.record slot).suspect = false then
        [.suspectFound slot (s.record slot).gen (s.record slot).state .operation] else []) := by
  have hnoticed := (s.endOp g).noticed_noteMismatch slot (!r.verifies) .operation
  simp only [Bool.not_eq_true'] at hnoticed
  exact State.noticed_congr (s := s.endOp g) (t := (s.endOp g).noteMismatch slot (!r.verifies) .operation) (by simp)
    rfl (by simpa using hnoticed)

theorem State.expire_release {s : State} {g : Lane} {t : Ticket} {e : HoldEntry} {r : Record} (h : e.action = .release) :
    s.expire g t e r = (s.endHold g t e r none).post (holdExpired t e .release 0 false) := by
  rw [State.expire, h]

theorem State.expire_stall {s : State} {g : Lane} {t : Ticket} {e : HoldEntry} {r : Record} (h : e.action = .capture)
    (hr : r.found.suspect = true) : s.expire g t e r = s.stallExpired t e := by
  rw [State.expire, h]
  dsimp only
  rw [if_pos hr]

theorem State.expire_capture {s : State} {g : Lane} {t : Ticket} {e : HoldEntry} {r : Record} (h : e.action = .capture)
    (hr : r.found.suspect = false) : s.expire g t e r = s.captureExpired g t e r := by
  rw [State.expire, h]
  dsimp only
  rw [if_neg (by rw [hr]; decide)]

/-- R33, R90: the notice of the verification, then the HOLD_EXPIRED. -/
theorem State.noticed_found_post {s s' : State} (g : Lane) (slot : Nat) (r : Record) (n : Notice)
    (h : s'.notices = (((s.endOp g).noteMismatch slot (!r.verifies) .operation).post n).notices) :
    s.noticed s' ((if r.verifies = false ∧ (s.record slot).suspect = false then
      [.suspectFound slot (s.record slot).gen (s.record slot).state .operation] else []) ++ [n]) :=
  State.noticed_trans (s.noticed_found g slot r) (State.noticed_post n h) (by simp)

theorem State.post_notices_congr {s t : State} (n : Notice) (h : s.notices = t.notices)
    (hc : s.cmd.threshold = t.cmd.threshold) : (s.post n).notices = (t.post n).notices := by
  rw [State.post_notices, State.post_notices, h, hc]

/-- R90: a hold whose expiry action is RELEASE. -/
theorem State.released_expired (s : State) (g : Lane) (t : Ticket) (e : HoldEntry) (r : Record) :
    let s' := (((s.endOp g).noteMismatch e.slot (!r.verifies) .operation).endHold g t e r none).post
      (holdExpired t e .release 0 false)
    s.holdEnded s' g t e r none ∧ s.claimCompleted s' g ∧
      s.noticed s' ((if r.verifies = false ∧ (s.record e.slot).suspect = false then
        [.suspectFound e.slot (s.record e.slot).gen (s.record e.slot).state .operation] else []) ++
        [holdExpired t e .release 0 false]) := by
  dsimp only
  obtain ⟨hended, hkept⟩ := State.claimCompleted_ended (s := s) (g := g)
    (s' := (((s.endOp g).noteMismatch e.slot (!r.verifies) .operation).endHold g t e r none).post
      (holdExpired t e .release 0 false)) t e r none (by apply State.eq_of_fields <;> simp)
  exact ⟨hended, hkept, State.noticed_found_post g e.slot r _ (State.post_notices_congr _ (by simp) (by simp))⟩

/-- R59, R91: what the capture of an expired hold changes beside its ending: the notices. -/
theorem State.captureExpired_spec (s : State) (g : Lane) (t : Ticket) (e : HoldEntry) (r : Record) :
    let c := clampCharge r.bal e.amount
    let x := s.captureExpired g t e r
    x = { s.endHold g t e r (chargedBalance r c.1) with notices := x.notices } ∧
      s.noticed x ([holdExpired t e .capture c.1.toNat c.2] ++
        (if 0 < c.1 ∧ (r.lowValue : Int) ≤ r.bal ∧ r.bal - c.1 < r.lowValue then
          [.lowBalance ⟨BitVec.ofNat 16 e.slot, r.gen⟩ (S8.ofInt (r.bal - c.1))] else [])) := by
  dsimp only
  generalize hc : clampCharge r.bal e.amount = c
  have hexpired : s.noticed ((s.endHold g t e r (chargedBalance r c.1)).post
      (holdExpired t e .capture c.1.toNat c.2)) [holdExpired t e .capture c.1.toNat c.2] :=
    State.noticed_post _ (State.post_notices_congr _ (by simp) (by simp))
  unfold State.captureExpired
  rw [hc]
  dsimp only
  by_cases hpos : 0 < c.1
  · have hcharged : chargedBalance r c.1 = some (r.bal - c.1) := if_pos hpos
    rw [hcharged] at hexpired ⊢
    refine ⟨by apply State.eq_of_fields <;> simp, State.noticed_trans hexpired ?_ (by simp)⟩
    have hcross : crossesLow r (r.bal - c.1) = true ↔
        0 < c.1 ∧ (r.lowValue : Int) ≤ r.bal ∧ r.bal - c.1 < r.lowValue := by
      rw [crossesLow_iff]
      omega
    simpa only [hcross] using State.noticed_postLow e.slot r (r.bal - c.1) rfl
  · have hcharged : chargedBalance r c.1 = none := if_neg hpos
    rw [hcharged] at hexpired ⊢
    refine ⟨by apply State.eq_of_fields <;> simp, ?_⟩
    rw [if_neg fun h => hpos h.1, List.append_nil]
    exact hexpired

/-- R91: a hold whose expiry action is CAPTURE, on a sound account. -/
theorem State.captured_expired (s : State) (g : Lane) (t : Ticket) (e : HoldEntry) {r : Record} (hv : r.verifies = true) :
    let charge : Int := if r.bal - e.amount < -99999999 then r.bal + 99999999 else e.amount
    let s' := ((s.endOp g).noteMismatch e.slot (!r.verifies) .operation).captureExpired g t e r
    s.holdEnded s' g t e r (if 0 < charge then some (r.bal - charge) else none) ∧ s.claimCompleted s' g ∧
      s.noticed s' ([holdExpired t e .capture charge.toNat (decide (r.bal - e.amount < -99999999))] ++
        (if 0 < charge ∧ (r.lowValue : Int) ≤ r.bal ∧ r.bal - charge < r.lowValue then
          [.lowBalance ⟨BitVec.ofNat 16 e.slot, r.gen⟩ (S8.ofInt (r.bal - charge))] else [])) := by
  intro charge s'
  have hquiet : (s.endOp g).noteMismatch e.slot (!r.verifies) .operation = s.endOp g := by
    rw [hv]
    rfl
  obtain ⟨hframe, hnoticed⟩ := ((s.endOp g).noteMismatch e.slot (!r.verifies) .operation).captureExpired_spec g t e r
  have hclamp : clampCharge r.bal e.amount = (charge, decide (r.bal - e.amount < -99999999)) := clampCharge_eq _ _
  rw [hclamp] at hframe hnoticed
  obtain ⟨hended, hkept⟩ := State.claimCompleted_ended t e r (chargedBalance r charge) hframe
  exact ⟨hended, hkept, State.noticed_congr (by rw [hquiet]; simp) rfl hnoticed (by rw [hquiet]; simp)⟩

/-- R92: a hold that turns STALLED. -/
theorem State.stalled_expired (s : State) (g : Lane) (t : Ticket) (e : HoldEntry) (r : Record) :
    let s' := ((s.endOp g).noteMismatch e.slot (!r.verifies) .operation).stallExpired t e
    s'.hold t.entry.toNat = { e with state := .stalled } ∧ s.otherHolds s' t.entry.toNat ∧
      s'.record e.slot = { s.record e.slot with suspect := (s.record e.slot).suspect || !r.verifies } ∧
      s.otherRecords s' e.slot ∧
      s.noticed s' ((if r.verifies = false ∧ (s.record e.slot).suspect = false then
        [.suspectFound e.slot (s.record e.slot).gen (s.record e.slot).state .operation] else []) ++
        [holdExpired t e .stalled 0 false]) ∧
      (r.verifies = true → s'.accounts = s.accounts) ∧
      s' = { s with accounts := s'.accounts, holds := s'.holds, notices := s'.notices, engines := s'.engines } ∧
      (∀ m, s'.engine m = { s.engine m with op := if m = g then none else (s.engine m).op }) := by
  dsimp only
  unfold State.stallExpired
  refine ⟨by simp, fun m hm => ?_, ?_, fun m hm => ?_, ?_, fun hv => ?_, ?_, fun m => ?_⟩
  · simp [State.hold_setHold_ne _ _ hm]
  · simp [State.record_noteMismatch_same]
  · simp [State.record_noteMismatch_ne _ _ _ hm]
  · exact State.noticed_found_post g e.slot r _ (State.post_notices_congr _ (by simp) (by simp))
  · simp [hv, State.noteMismatch_false]
  · apply State.eq_of_fields <;> simp
  · simp [State.engine_endOp]

theorem State.claimCompleted_stalled {s s' : State} {g : Lane}
    (h : s' = { s with accounts := s'.accounts, holds := s'.holds, notices := s'.notices, engines := s'.engines })
    (he : ∀ m, s'.engine m = { s.engine m with op := if m = g then none else (s.engine m).op }) :
    s.claimCompleted s' g := by
  refine ⟨fun _ => by rw [h], fun m => ?_, ?_⟩
  · rw [he]
  · apply State.eq_of_fields <;> first | rfl | rw [h]

theorem ExpiryAction.release_or_capture (a : ExpiryAction) : a = .release ∨ a = .capture := by
  cases a <;> simp

/-- Settles O30: a stale claim, and the three fates of a current one. -/
theorem expiryEndsOrStallsTheHold : Obligations.ExpiryEndsOrStallsTheHold := by
  intro g s op t hop hw e r charge h found
  have hexec := exec_expiry_of_work hop hw
  cases ht : ticketOfGroup g t op.entry with
  | false =>
    rw [ht, if_neg (by decide)] at hexec
    exact ⟨_, hexec, fun _ => ⟨by apply State.eq_of_fields <;> simp, fun m => by rw [State.engine_endOp]⟩, nofun, nofun, nofun,
      s.claimCompleted_stale g⟩
  | true =>
    rw [ht, if_pos rfl] at hexec
    rcases ExpiryAction.release_or_capture op.entry.action with ha | ha
    · obtain ⟨hended, hkept, hnoticed⟩ := s.released_expired g t op.entry op.record
      rw [State.expire_release ha] at hexec
      have hnot : op.entry.action ≠ .capture := by rw [ha]; decide
      exact ⟨_, hexec, nofun, fun _ _ => ⟨hended, hnoticed⟩, fun _ hc => absurd hc hnot, fun _ hc => absurd hc hnot, hkept⟩
    · have hnot : op.entry.action ≠ .release := by rw [ha]; decide
      by_cases hbad : op.record.suspect = true ∨ op.record.verifies = false
      · obtain ⟨hhold, hholds, hrec, hrecs, hnoticed, hacc, hframe, heng⟩ := s.stalled_expired g t op.entry op.record
        rw [State.expire_stall ha (Record.found_suspect_iff.2 hbad)] at hexec
        refine ⟨_, hexec, nofun, fun _ hc => absurd hc hnot, fun _ _ hr => ?_,
          fun _ _ _ => ⟨hhold, hholds, hrec, hrecs, hnoticed, hacc, hframe, fun m => by rw [heng]⟩,
          State.claimCompleted_stalled hframe heng⟩
        rcases hbad with hs | hv
        · exact absurd (hr.1.symm.trans hs) (by decide)
        · exact absurd (hr.2.symm.trans hv) (by decide)
      · obtain ⟨hsus, hv⟩ := not_or.1 hbad
        obtain ⟨hended, hkept, hnoticed⟩ := s.captured_expired g t op.entry (eq_true_of_ne_false hv)
        have hfound : op.record.found.suspect = false := Bool.eq_false_iff.2 (mt Record.found_suspect_iff.1 hbad)
        rw [State.expire_capture ha hfound] at hexec
        exact ⟨_, hexec, nofun, fun _ hc => absurd hc hnot, fun _ _ _ => ⟨hended, hnoticed⟩,
          fun _ _ h => absurd h hbad, hkept⟩

end Sys2Proof.Machine
end

section
/-! The slot-free operation (R8, R20, R21), the timebase and the due test (R96, R98, R103, R108), and the short check
(R135 to R139). -/

namespace Sys2Proof.Machine

@[simp] theorem State.record_post (s : State) (n : Notice) (m : Nat) : (s.post n).record m = s.record m := by simp

theorem State.engine_noteMismatch (s : State) (n : Nat) (b : Bool) (f : Finder) (g : Lane) :
    (s.noteMismatch n b f).engine g = s.engine g := by simp

theorem State.check_dueTest (s : State) : s.dueTest.check = s.check := by simp

/-! ### SLOT_FREE -/

/-- Settles O31: the write of the freed record (`Record.freed_spec`), and the notice of the record as read. -/
theorem slotFreeFreesTheSlot : Obligations.SlotFreeFreesTheSlot := by
  intro g s op n hop hw
  obtain ⟨hstate, hgen, hkey, hbal, hfloor, hlow, htariffs, hsuspect, hverifies, hheld, hholds⟩ :=
    Record.freed_spec (op.record.gen + 1)
  generalize hx : (s.endOp g).setRecord n (Record.freed (op.record.gen + 1)) = x
  have hexec : exec (.slotFree g) s = .next (x.post (.retired op.record.key n op.record.balance.sent op.record.found.suspect)) := by
    rw [exec_slotFree_eq, execSlotFree, hop]
    dsimp only
    rw [hw]
    dsimp only
    rw [hx]
  have hfound : op.record.found.suspect = (op.record.suspect || !op.record.verifies) := by
    rw [Bool.eq_iff_iff, Record.found_suspect_iff]
    simp
  have hrecord : x.record n = Record.freed (op.record.gen + 1) := by simp [← hx]
  rw [hfound] at hexec
  refine ⟨_, hexec, by simp [← hx], State.otherEngines_endOp (by simp [← hx]), ?_⟩
  rw [State.record_post, hrecord]
  refine ⟨hstate, hgen, hkey, hbal, hfloor, hlow, htariffs, hsuspect, hverifies, hheld, hholds, fun m hm => ?_, ?_, ?_⟩
  · rw [State.record_post, ← hx, State.record_setRecord_ne _ _ hm]
    rfl
  · exact State.noticed_post _ (State.post_notices_congr _ (by simp [← hx]) (by simp [← hx]))
  · apply State.eq_of_fields <;> simp [← hx]

/-! ### The due test and the timebase -/

theorem exec_timebaseRaise_eq (s : State) : exec .timebaseRaise s = execTimebaseRaise s := rfl

theorem exec_holdFallsDue_eq (s : State) : exec .holdFallsDue s = .next s.dueTest := rfl

theorem exec_shortCheckIntervalExpiry_eq (s : State) :
    exec .shortCheckIntervalExpiry s = .next (if s.working && s.check.timer == some 0 then s.intervalExpired else s) := rfl

theorem exec_checkClaim_eq (g : Lane) (s : State) : exec (.checkClaim g) s = execCheckClaim g s := rfl

/-- R164, R165: a chip that works is in READY. -/
theorem State.isReady_of_working {s : State} (h : s.working = true) : s.isReady = true := by
  rw [State.working, Bool.and_eq_true] at h
  exact h.1

theorem State.working_iff {s : State} (h : s.isReady = true) :
    s.working = true ↔ s.power.mode = .run ∨ s.power.mode = .economy := by
  simp [State.working, h]

/-- R96: the state of a second in READY before the due test. -/
def State.second (s : State) : State :=
  if s.working then { s with timebase := s.timebase + 1 }.countTimer else { s with timebase := s.timebase + 1 }

theorem exec_timebaseRaise_max {s : State} (h : 4294967295 ≤ s.timebase) : exec .timebaseRaise s = .next s := by
  rw [exec_timebaseRaise_eq, execTimebaseRaise, if_neg]
  rw [Bool.and_eq_true, decide_eq_true_eq, not_and]
  exact fun _ => Nat.not_lt.2 h

theorem exec_timebaseRaise_second {s : State} (hr : s.isReady = true) (h : s.timebase < 4294967295) :
    exec .timebaseRaise s = .next s.second.dueTest := by
  have hlt : s.timebase < Config.maxTime := h
  rw [exec_timebaseRaise_eq, execTimebaseRaise, if_pos (by simp [hr, hlt])]
  rfl

theorem State.second_working {s : State} (h : s.working = true) :
    s.second = { s with timebase := s.timebase + 1 }.countTimer := if_pos h

theorem State.second_resting {s : State} (h : ¬ s.working = true) : s.second = { s with timebase := s.timebase + 1 } := if_neg h

/-- R96, R135: a second touches the timebase, the check unit and the engines' check claims. -/
theorem State.second_frame (s : State) : checksOnly { s with timebase := s.timebase + 1 } s.second := by
  by_cases h : s.working = true
  · rw [State.second_working h]
    exact State.countTimer_frame _
  · rw [State.second_resting h]
    exact checksOnly_refl _

/-- R135: a second leaves of the check unit all but the timer, the cursor, the slice and the owed mark. -/
theorem State.check_second (s : State) :
    s.second.check = { s.check with timer := s.second.check.timer, cursor := s.second.check.cursor,
                                    slice := s.second.check.slice, owed := s.second.check.owed } := by
  by_cases h : s.working = true
  · rw [State.second_working h]
    exact (State.check_countTimer { s with timebase := s.timebase + 1 }).2.2
  · rw [State.second_resting h]

/-- R135: the timer runs in RUN and ECONOMY alone, and not before it has been started. -/
theorem State.second_idle {s : State} (h : ¬ s.working = true ∨ s.check.timer = none) :
    s.second = { s with timebase := s.timebase + 1 } := by
  by_cases hw : s.working = true
  · rw [State.second_working hw]
    exact (State.check_countTimer { s with timebase := s.timebase + 1 }).1 (h.resolve_left (Classical.not_not.2 hw))
  · exact State.second_resting hw

theorem State.timer_second {s : State} {n : Nat} (h : s.working = true) (hn : s.check.timer = some n) :
    s.second.check.timer = some (if n ≤ 1 then s.cmd.interval else n - 1) := by
  rw [State.second_working h]
  exact (State.check_countTimer { s with timebase := s.timebase + 1 }).2.1 n hn

/-- R103: the due test touches the deadlines, the engines' expiry claims and power control. -/
theorem State.dueTest_only (s : State) :
    s.dueTest = { s with deadlines := s.dueTest.deadlines, engines := s.dueTest.engines, power := s.dueTest.power } := by
  apply State.eq_of_fields <;> simp

/-- R108: the power control of a due test on an ordered queue. -/
theorem State.power_dueTest_any {s : State} (hr : s.isReady = true) (h : ordered s.deadlines) :
    s.dueTest.power =
      if s.power.mode = .standby ∧ (s.deadlines.any fun i => decide (i.deadline ≤ s.timebase)) = true
      then { s.power with mode := s.power.resume } else s.power := by
  rw [(State.dueTest_spec hr h).2.2, State.power_wake_eq]
  generalize (s.deadlines.any fun i => decide (i.deadline ≤ s.timebase)) = due
  cases due with
  | false => simp
  | true => simp

/-- Settles O32: the due test is `State.dueTest_spec`; a second before it is `State.second`. -/
theorem dueHoldsArePostedInQueueOrder : Obligations.DueHoldsArePostedInQueueOrder := by
  refine ⟨fun s hr hahead => ⟨exec_timebaseRaise_max, fun hlt => ?second⟩, fun s hr hord => ?due⟩
  case second =>
    obtain ⟨hframe, heng⟩ := s.second_frame
    have hdl : s.second.deadlines = s.deadlines := by rw [hframe]
    have htime : s.second.timebase = s.timebase + 1 := by rw [hframe]
    have hpower : s.second.power = s.power := by rw [hframe]
    have hhold : ∀ n, s.second.hold n = s.hold n := fun n => by rw [hframe]; rfl
    have hready : s.second.isReady = true := by rw [← hr, State.isReady, State.isReady, hpower]
    have hord : ordered s.second.deadlines := by rw [hdl]; exact hahead.1
    obtain ⟨hleft, hclaims, -⟩ := State.dueTest_spec hready hord
    have hwake := State.power_dueTest_any hready hord
    have hexpiry : ∀ g, (s.second.dueTest.engine g).expiry = (s.engine g).expiry ++
        ((s.deadlines.filter fun i => decide (i.deadline ≤ s.timebase + 1) &&
          laneOf (s.hold i.ticket.entry.toNat).slot == g).map DeadlineItem.ticket) := fun g => by
      rw [hclaims, heng]
      simp only [dueTickets, hhold, hdl, htime]
      rfl
    rw [hdl, htime] at hleft hwake
    rw [hpower] at hwake
    refine ⟨_, exec_timebaseRaise_second hr hlt, by simpa using htime, hleft, hexpiry, hwake, fun n hn hmode => ?_,
      fun hidle => ?_, ?_, fun g => ?_, ?_⟩
    · rw [State.check_dueTest]
      exact State.timer_second ((State.working_iff hr).2 hmode) hn
    · rw [← not_or, ← State.working_iff hr] at hidle
      refine ⟨by rw [State.check_dueTest, State.second_idle hidle], fun g => ?_⟩
      rw [hclaims, State.second_idle hidle]
      rfl
    · simpa using s.check_second
    · rw [hclaims, heng]
      rfl
    · apply State.eq_of_fields <;> simp <;> rw [hframe]
  case due =>
    obtain ⟨hleft, hclaims, -⟩ := State.dueTest_spec hr hord
    refine ⟨_, exec_holdFallsDue_eq s, hleft, fun g => ?_, State.power_dueTest_any hr hord, fun g => ?_, s.dueTest_only⟩
    · rw [hclaims]
      rfl
    · rw [hclaims]

/-! ### Slices -/

/-- The beginning of a slice goes by the cursor, the states of the records and the claims that stand. -/
theorem State.sliceBegun_congr {s s' t : State} (hc : s'.check.cursor = s.check.cursor)
    (hr : ∀ n, (s'.record n).state = (s.record n).state) (he : ∀ g, (s'.engine g).check = (s.engine g).check)
    (h : s'.sliceBegun t) : s.sliceBegun t := by
  simpa only [State.sliceBegun, hc, hr, he] using h

theorem State.sliceBegun_of_agrees {s t t' : State} (hc : t'.check = t.check) (he : ∀ g, (t'.engine g).check = (t.engine g).check)
    (h : s.sliceBegun t) : s.sliceBegun t' := by
  simpa only [State.sliceBegun, hc, he] using h

/-- R135: at an expiry with a slice in progress a slice is owed. -/
theorem State.intervalExpired_owed {s : State} {sl : Slice} (h : s.check.slice = some sl) :
    s.intervalExpired = { s with check := { s.check with timer := some s.cmd.interval, owed := true } } := by
  unfold State.intervalExpired
  dsimp only
  rw [h]

/-- R135: at an expiry with no slice in progress one begins. -/
theorem State.intervalExpired_begins {s : State} (h : s.check.slice = none) :
    s.intervalExpired = { s with check := { s.check with timer := some s.cmd.interval } }.beginSlice := by
  unfold State.intervalExpired
  dsimp only
  rw [h]

theorem State.sliceBegun_intervalExpired {s : State} (h : s.check.slice = none) (h64 : s.check.cursor % 64 = 0)
    (hlast : s.check.cursor ≤ 4032) : s.sliceBegun s.intervalExpired ∧ s.intervalExpired.check.owed = s.check.owed := by
  rw [State.intervalExpired_begins h]
  generalize hy : ({ s with check := { s.check with timer := some s.cmd.interval } } : State) = y
  have hc : y.check.cursor = s.check.cursor := by rw [← hy]
  obtain ⟨-, -, -, howed, -, -⟩ := y.beginSlice_spec
  refine ⟨State.sliceBegun_congr hc (fun n => by rw [← hy]; rfl) (fun g => by rw [← hy]; rfl)
    (y.sliceBegun_beginSlice (by rw [hc]; exact h64) (by rw [hc]; exact hlast)), ?_⟩
  rw [howed, ← hy]

theorem State.countTimer_counts {s : State} {n : Nat} (h : s.check.timer = some n) (hn : 1 < n) :
    s.countTimer = { s with check := { s.check with timer := some (n - 1) } } := by
  unfold State.countTimer
  rw [h]
  exact if_neg (by omega)

theorem State.countTimer_expires {s : State} (h : s.check.timer = some 1) : s.countTimer = s.intervalExpired := by
  unfold State.countTimer
  rw [h]
  exact if_pos (Nat.le_refl _)

/-- R98, R103: the due test leaves the check claims as they are. -/
theorem State.engine_check_dueTest (s : State) (g : Lane) : (s.dueTest.engine g).check = (s.engine g).check := by
  obtain ⟨more, h, -⟩ := s.dueTest_sub.2 g
  rw [h]

/-! ### What a check reported does to its slice -/

theorem State.claimNext_some {s : State} {sl : Slice} {g : Lane} {m : Nat}
    (h : nextChecked s (sl.first + 64) 16 (sl.parts.get g).next = some m) :
    s.claimNext sl g = ({ sl with parts := sl.parts.set g ⟨m + 4, true⟩ }, s.modifyEngine g fun e => { e with check := some m }) := by
  have h' : nextChecked s (sl.first + Config.sliceSlots) 16 (sl.parts.get g).next = some m := h
  rw [State.claimNext, h']

theorem State.claimNext_none {s : State} {sl : Slice} {g : Lane}
    (h : nextChecked s (sl.first + 64) 16 (sl.parts.get g).next = none) :
    s.claimNext sl g = ({ sl with parts := sl.parts.set g ⟨sl.first + 64, false⟩ }, s) := by
  have h' : nextChecked s (sl.first + Config.sliceSlots) 16 (sl.parts.get g).next = none := h
  rw [State.claimNext, h']

theorem Slice.done_eq_false {sl : Slice} {m : Lane} (h : (sl.parts.get m).inHand = true) : sl.done = false := by
  rw [← Bool.not_eq_true, Slice.done_iff]
  exact fun hall => absurd (h.symm.trans (hall m)) (by decide)

/-- R136: the group's next slot is claimed, and the slice goes on. -/
theorem State.reportCheck_claims {s : State} {sl : Slice} {g : Lane} {m : Nat} (hsl : s.check.slice = some sl)
    (h : nextChecked s (sl.first + 64) 16 (sl.parts.get g).next = some m) :
    s.reportCheck g = { s.modifyEngine g (fun e => { e with check := some m }) with
      check := { s.check with slice := some { sl with parts := sl.parts.set g ⟨m + 4, true⟩ } } } := by
  have hdone : ({ sl with parts := sl.parts.set g ⟨m + 4, true⟩ } : Slice).done = false :=
    Slice.done_eq_false (m := g) (by simp)
  rw [State.reportCheck, hsl]
  dsimp only
  rw [State.claimNext_some h]
  simp only [State.withSlice, hdone]
  rfl

/-- R136: the group is through with the slice, another is not. -/
theorem State.reportCheck_waits {s : State} {sl : Slice} {g m : Lane} (hsl : s.check.slice = some sl)
    (h : nextChecked s (sl.first + 64) 16 (sl.parts.get g).next = none) (hm : m ≠ g) (hin : (sl.parts.get m).inHand = true) :
    s.reportCheck g =
      { s with check := { s.check with slice := some { sl with parts := sl.parts.set g ⟨sl.first + 64, false⟩ } } } := by
  have hdone : ({ sl with parts := sl.parts.set g ⟨sl.first + 64, false⟩ } : Slice).done = false :=
    Slice.done_eq_false (m := m) (by rw [Four.get_set_ne _ _ hm]; exact hin)
  rw [State.reportCheck, hsl]
  dsimp only
  rw [State.claimNext_none h]
  simp only [State.withSlice, hdone]
  rfl

/-- R136: the last check of a slice ends it; where a slice is owed, it begins. -/
theorem State.reportCheck_ends {s : State} {sl : Slice} {g : Lane} (hsl : s.check.slice = some sl)
    (h : nextChecked s (sl.first + 64) 16 (sl.parts.get g).next = none) (hin : ∀ m, m ≠ g → (sl.parts.get m).inHand = false) :
    s.reportCheck g =
      if s.check.owed = true then { s with check := { s.check with slice := none, owed := false } }.beginSlice
      else { s with check := { s.check with slice := none } } := by
  have hdone : ({ sl with parts := sl.parts.set g ⟨sl.first + 64, false⟩ } : Slice).done = true := by
    rw [Slice.done_iff]
    intro m
    by_cases hm : m = g
    · subst hm
      simp
    · rw [Four.get_set_ne _ _ hm]
      exact hin m hm
  rw [State.reportCheck, hsl]
  dsimp only
  rw [State.claimNext_none h]
  simp only [State.withSlice, hdone, Bool.true_and, if_true]

/-! ### SHORT_CHECK_INTERVAL_EXPIRY and CHECK_CLAIM -/

/-- R137: the state in which the completion of a check reports it. -/
def State.checked (s : State) (g : Lane) (n : Nat) (r : Record) : State :=
  (s.endOp g).noteMismatch n (r.state != .free && !r.verifies) .shortCheck

theorem exec_checkClaim_of_work {g : Lane} {s : State} {op : Operation} {n : Nat} (hop : (s.engine g).op = some op)
    (hw : op.work = .check n) : exec (.checkClaim g) s = .next ((s.checked g n op.record).reportCheck g) := by
  rw [exec_checkClaim_eq, execCheckClaim, hop]
  dsimp only
  rw [hw]
  rfl

@[simp] theorem State.check_checked (s : State) (g : Lane) (n : Nat) (r : Record) : (s.checked g n r).check = s.check := by
  simp [State.checked]

theorem State.engine_checked (s : State) (g : Lane) (n : Nat) (r : Record) (m : Lane) :
    (s.checked g n r).engine m = { s.engine m with op := if m = g then none else (s.engine m).op } := by
  rw [State.checked, State.engine_noteMismatch, State.engine_endOp]

theorem State.state_checked (s : State) (g : Lane) (n : Nat) (r : Record) (m : Nat) :
    ((s.checked g n r).record m).state = (s.record m).state := by
  by_cases hm : m = n
  · subst hm
    rw [State.checked, State.record_noteMismatch_same]
    rfl
  · rw [State.checked, State.record_noteMismatch_ne _ _ _ hm]
    rfl

theorem State.nextChecked_checked (s : State) (g : Lane) (n : Nat) (r : Record) (bound fuel from' : Nat) :
    nextChecked (s.checked g n r) bound fuel from' = nextChecked s bound fuel from' :=
  nextChecked_congr (s.state_checked g n r) bound fuel from'

/-- Settles O33: the rule is kept by every step; an expiry is `State.intervalExpired`, and an owed slice begins with the
report of the last check (`State.reportCheck_ends`). -/
theorem intervalExpiryBeginsASlice : Obligations.IntervalExpiryBeginsASlice := by
  refine ⟨?rule, fun s n hw hlt hrule hn => ?second, fun s hw htimer h64 hlast => ?expiry,
    fun g s op n sl hrule hop hwork hsl howed hnext hin => ?owed⟩
  case rule => exact fun s t h ht => step_shortCheckRule h ht
  case second =>
    obtain ⟨-, -, h64, hlast⟩ := hrule
    have hsecond := State.second_working hw
    have hacc : s.second.accounts = s.accounts := by rw [s.second_frame.1]
    refine ⟨_, exec_timebaseRaise_second (State.isReady_of_working hw) hlt, by simpa using hacc, fun h1 => ?_,
      fun h1 sl hsl => ?_, fun h1 hsl => ?_⟩
    · rw [State.countTimer_counts (s := { s with timebase := s.timebase + 1 }) hn h1] at hsecond
      exact ⟨by rw [State.check_dueTest, hsecond], fun g => by rw [State.engine_check_dueTest, hsecond]; rfl⟩
    · subst h1
      rw [State.countTimer_expires (s := { s with timebase := s.timebase + 1 }) hn, State.intervalExpired_owed (s := { s with timebase := s.timebase + 1 }) hsl] at hsecond
      exact ⟨by rw [State.check_dueTest, hsecond], fun g => by rw [State.engine_check_dueTest, hsecond]; rfl⟩
    · subst h1
      rw [State.countTimer_expires (s := { s with timebase := s.timebase + 1 }) hn] at hsecond
      obtain ⟨hbegun, howed⟩ :=
        State.sliceBegun_intervalExpired (s := { s with timebase := s.timebase + 1 }) hsl h64 hlast
      rw [← hsecond] at hbegun howed
      refine ⟨State.sliceBegun_of_agrees (State.check_dueTest _) (State.engine_check_dueTest _) hbegun, ?_,
        by rw [State.check_dueTest]; exact howed⟩
      rw [State.check_dueTest, State.timer_second hw hn]
      rfl
  case expiry =>
    have hexec : exec .shortCheckIntervalExpiry s = .next s.intervalExpired := by
      rw [exec_shortCheckIntervalExpiry_eq, if_pos (by simp [hw, htimer])]
    obtain ⟨⟨hframe, heng⟩, hload⟩ := s.intervalExpired_frame
    exact ⟨fun sl hsl => by rw [hexec, State.intervalExpired_owed hsl], fun hsl => ⟨_, hexec, hload,
      (State.sliceBegun_intervalExpired hsl h64 hlast).1, hframe, heng⟩⟩
  case owed =>
    obtain ⟨-, -, h64, hlast⟩ := hrule
    have hexec := exec_checkClaim_of_work hop hwork
    rw [State.reportCheck_ends (sl := sl) (by simpa using hsl) (by rw [State.nextChecked_checked]; exact hnext) hin,
      if_pos (by simpa using howed)] at hexec
    generalize hy : ({ s.checked g n op.record with check := { (s.checked g n op.record).check with
      slice := none, owed := false } } : State) = y at hexec
    obtain ⟨-, -, htimer, howed', -, -⟩ := y.beginSlice_spec
    have hc : y.check.cursor = s.check.cursor := by simp [← hy]
    refine ⟨_, hexec, by rw [howed', ← hy], by rw [htimer]; simp [← hy], ?_⟩
    refine State.sliceBegun_congr hc (fun m => ?_) (fun m => ?_)
      (y.sliceBegun_beginSlice (by rw [hc]; exact h64) (by rw [hc]; exact hlast))
    · rw [← s.state_checked g n op.record m, ← hy]
      rfl
    · have heng : ((s.checked g n op.record).engine m).check = (s.engine m).check := by rw [s.engine_checked]
      rw [← hy]
      exact heng

/-! ### What the report of a check keeps -/

/-- R136: a report touches the check unit and the engines' check claims. -/
theorem State.reportCheck_frame (s : State) (g : Lane) : checksOnly s (s.reportCheck g) := Keeps.checksOnly_reportCheck s g

/-- R136: of the check unit a report moves the slice, the cursor and the owed mark. -/
theorem State.check_reportCheck (s : State) (g : Lane) :
    (s.reportCheck g).check = { s.check with slice := (s.reportCheck g).check.slice, cursor := (s.reportCheck g).check.cursor,
                                             owed := (s.reportCheck g).check.owed } := by
  unfold State.reportCheck
  split
  · rfl
  · dsimp only
    split
    · rw [State.check_beginSlice]
      simp only [State.withSlice, State.check_claimNext]
    · simp only [State.withSlice, State.check_claimNext]

/-- R136: a report that does not begin an owed slice changes the engine that reports alone. -/
theorem State.otherEngines_reportCheck {s : State} {sl : Slice} {g : Lane} (hsl : s.check.slice = some sl)
    (h : ¬((nextChecked s (sl.first + 64) 16 (sl.parts.get g).next = none ∧ ∀ m, m ≠ g → (sl.parts.get m).inHand = false) ∧
      s.check.owed = true)) : s.otherEngines (s.reportCheck g) g := by
  intro m hm
  cases hnext : nextChecked s (sl.first + 64) 16 (sl.parts.get g).next with
  | some n =>
    rw [State.reportCheck_claims hsl hnext]
    exact State.engine_modifyEngine_ne s (fun e => { e with check := some n }) hm
  | none =>
    by_cases hin : ∀ m, m ≠ g → (sl.parts.get m).inHand = false
    · rw [State.reportCheck_ends hsl hnext hin, if_neg fun howed => h ⟨⟨hnext, hin⟩, howed⟩]
      rfl
    · obtain ⟨k, hk⟩ := Classical.not_forall.1 hin
      obtain ⟨hk, hhand⟩ := Classical.not_imp.1 hk
      rw [State.reportCheck_waits hsl hnext hk (eq_true_of_ne_false hhand)]
      rfl

theorem State.otherEngines_trans {s x t : State} {g : Lane} (h : s.otherEngines x g) (h' : x.otherEngines t g) :
    s.otherEngines t g := fun m hm => (h' m hm).trans (h m hm)

theorem State.checked_frame (s : State) (g : Lane) (n : Nat) (r : Record) :
    s.checked g n r = { s with accounts := (s.checked g n r).accounts, notices := (s.checked g n r).notices,
                               engines := (s.checked g n r).engines } := by
  unfold State.checked
  apply State.eq_of_fields <;> simp

/-- R137: what the completion of a check writes and posts before it reports. -/
theorem State.checked_sound (s : State) (g : Lane) (n : Nat) {r : Record} (h : r.state = .free ∨ r.verifies = true) :
    s.checked g n r = s.endOp g := by
  have hquiet : (r.state != .free && !r.verifies) = false := by
    rcases h with h | h <;> simp [h]
  rw [State.checked, hquiet, State.noteMismatch_false]

theorem State.checked_mismatch (s : State) (g : Lane) (n : Nat) {r : Record} (h : r.state ≠ .free) (hv : r.verifies = false) :
    (s.checked g n r).record n = { s.record n with suspect := true } ∧ s.otherRecords (s.checked g n r) n ∧
      s.noticed (s.checked g n r) (if (s.record n).suspect = true then [] else
        [.suspectFound n (s.record n).gen (s.record n).state .shortCheck]) := by
  have hbad : (r.state != .free && !r.verifies) = true := by simp [h, hv]
  rw [State.checked, hbad]
  refine ⟨by rw [State.record_noteMismatch_same, Bool.or_true]; rfl, fun m hm => ?_, ?_⟩
  · rw [State.record_noteMismatch_ne _ _ _ hm]
    rfl
  · refine State.noticed_congr (s := s.endOp g) (t := (s.endOp g).noteMismatch n true .shortCheck) (by simp) rfl ?_
    have hnoticed := (s.endOp g).noticed_noteMismatch n true .shortCheck
    cases hsus : (s.record n).suspect <;> simpa [hsus] using hnoticed

/-- Settles O34: the completion (`State.checked`) and its report, by what the group and the slice have left. -/
theorem checkClaimVerifiesAndGoesOn : Obligations.CheckClaimVerifiesAndGoesOn := by
  intro g s op n sl hop hwork hsl next ends
  have hexec := exec_checkClaim_of_work hop hwork
  have heng := s.engine_checked g n op.record
  have hcheck := s.check_checked g n op.record
  have hscan : nextChecked (s.checked g n op.record) (sl.first + 64) 16 (sl.parts.get g).next = next :=
    s.nextChecked_checked g n op.record _ _ _
  have hothers : s.otherEngines (s.checked g n op.record) g := fun m hm => by rw [heng, if_neg hm]
  have hframe := s.checked_frame g n op.record
  have hsound := s.checked_sound g n (r := op.record)
  have hbad := s.checked_mismatch g n (r := op.record)
  generalize s.checked g n op.record = x at *
  have hslx : x.check.slice = some sl := by rw [hcheck]; exact hsl
  obtain ⟨honly, hclaims⟩ := x.reportCheck_frame g
  have haccounts : (x.reportCheck g).accounts = x.accounts := by rw [honly]
  have hnotices : (x.reportCheck g).notices = x.notices := by rw [honly]
  have hrecords : ∀ m, (x.reportCheck g).record m = x.record m := State.record_of_checksOnly ⟨honly, hclaims⟩
  have hg : x.engine g = { s.engine g with op := none } := by rw [heng, if_pos rfl]
  refine ⟨_, hexec, fun h => ?_, fun hfree hv => ?_, fun m hm => ?_, fun m hnone hm hin => ?_, fun hends howed => ?_,
    fun hends howed => ?_, fun h => ?_, fun m => ?_, ?_, ?_⟩
  · have hx := hsound h
    exact ⟨by rw [haccounts, hx]; rfl, by rw [hnotices, hx]; rfl⟩
  · obtain ⟨hrec, hrecs, hnoticed⟩ := hbad hfree hv
    exact ⟨by rw [hrecords, hrec], fun m hm => by rw [hrecords, hrecs m hm], State.noticed_congr rfl hnotices.symm hnoticed⟩
  · rw [State.reportCheck_claims hslx (hscan.trans hm), hcheck]
    refine ⟨?_, rfl⟩
    have hclaimed : (x.modifyEngine g fun e => { e with check := some m }).engine g = { x.engine g with check := some m } := by
      simp
    rw [hg] at hclaimed
    exact hclaimed
  · rw [State.reportCheck_waits hslx (hscan.trans hnone) hm hin, hcheck]
    exact ⟨hg, rfl⟩
  · rw [State.reportCheck_ends hslx (hscan.trans hends.1) hends.2, hcheck, if_neg (by rw [howed]; decide)]
    exact ⟨hg, rfl⟩
  · rw [State.reportCheck_ends hslx (hscan.trans hends.1) hends.2, hcheck, if_pos howed]
    exact (State.beginSlice_spec _).2.2.2.1
  · refine State.otherEngines_trans hothers (State.otherEngines_reportCheck hslx ?_)
    rw [hscan, hcheck]
    exact h
  · rw [hclaims, heng]
  · rw [State.check_reportCheck, hcheck]
  · rw [honly, hframe]

end Sys2Proof.Machine
end

section
/-! The key index and the enrolment (R6, R10 to R12, R19, R27, R109 to R120). -/

namespace Sys2Proof.Machine

theorem exec_lookup_eq (s : State) : exec .lookup s = execLookup s := rfl

theorem exec_findCompletion_eq (s : State) : exec (.find .completion) s = .next s.completeFind := rfl

theorem exec_enrolSearch_eq (s : State) : exec .enrolSearch s = execEnrolSearch s := rfl

theorem exec_createStep_eq (g : Lane) (s : State) : exec (.createStep g) s = execCreateStep g s := rfl

theorem exec_indexInsert_eq (s : State) : exec .indexInsert s = execIndexInsert s := rfl

theorem exec_activateStep_eq (g : Lane) (s : State) : exec (.activateStep g) s = execActivateStep g s := rfl

theorem exec_keyRemoval_eq (s : State) : exec .keyRemoval s = execKeyRemoval s := rfl

theorem State.engine_ended_same {s t : State} {g : Lane} (h : t.engines = (s.endOp g).engines) :
    t.engine g = { s.engine g with op := none } := by
  rw [State.engine, h]
  exact State.engine_modifyEngine_same s g fun e => { e with op := none }

theorem State.cmd_reply (s : State) (op : Byte) (st : Status) (body : MgmtBody) :
    (s.reply op st body).cmd = s.unitAnswers ⟨op, st, body⟩ := rfl

/-! ### Ways of a bucket (R110) -/

theorem mem_waysOf_iff {b w : Nat} : w ∈ waysOf b ↔ 8 * b ≤ w ∧ w < 8 * b + 8 := by
  simp only [waysOf, List.mem_cons, List.not_mem_nil, or_false]
  omega

theorem holdsKey_iff {key : Key} {e : Option IndexEntry} : holdsKey key e = true ↔ ∃ n, e = some ⟨key, n⟩ := by
  cases e with
  | none => simp [holdsKey]
  | some e =>
    obtain ⟨k, n⟩ := e
    simp [holdsKey]

/-- R110: the way that a key's search returns is one of its bucket, and holds the key. -/
theorem State.wayOfKey_some {s : State} {key : Key} {w : Nat} (h : s.wayOfKey key = some w) :
    (8 * (key.toNat % 1021) ≤ w ∧ w < 8 * (key.toNat % 1021) + 8) ∧ ∃ n, s.way w = some ⟨key, n⟩ :=
  ⟨mem_waysOf (List.mem_of_find?_eq_some h), holdsKey_iff.1 (List.find?_some (p := fun n => holdsKey key (s.way n)) h)⟩

/-- R110: a key that one way of its bucket holds is found there. -/
theorem State.wayOfKey_of_unique {s : State} {key : Key} {n w : Nat}
    (hw : 8 * (key.toNat % 1021) ≤ w ∧ w < 8 * (key.toNat % 1021) + 8) (h : s.way w = some ⟨key, n⟩)
    (huniq : ∀ v m, 8 * (key.toNat % 1021) ≤ v → v < 8 * (key.toNat % 1021) + 8 → s.way v = some ⟨key, m⟩ → v = w) :
    s.wayOfKey key = some w := by
  have hsome : (s.wayOfKey key).isSome = true :=
    List.find?_isSome.2 ⟨w, mem_waysOf_iff.2 hw, holdsKey_iff.2 ⟨n, h⟩⟩
  obtain ⟨v, hv⟩ := Option.isSome_iff_exists.1 hsome
  obtain ⟨⟨hlow, hhigh⟩, m, hm⟩ := State.wayOfKey_some hv
  rw [hv, huniq v m hlow hhigh hm]

/-! ### What a key finds (R113, R114) -/

theorem State.slotOfKey_of_way {s : State} {key : Key} {n w : Nat} (hw : s.wayOfKey key = some w)
    (h : s.way w = some ⟨key, n⟩) : s.slotOfKey key = some n := by
  rw [State.slotOfKey, hw]
  dsimp only
  rw [h]
  rfl

theorem State.slotOfKey_some {s : State} {key : Key} {n : Nat} (h : s.slotOfKey key = some n) :
    ∃ w, s.wayOfKey key = some w ∧ s.way w = some ⟨key, n⟩ := by
  cases hw : s.wayOfKey key with
  | none =>
    rw [State.slotOfKey, hw] at h
    cases h
  | some w =>
    obtain ⟨-, m, hm⟩ := State.wayOfKey_some hw
    rw [State.slotOfKey_of_way hw hm] at h
    cases h
    exact ⟨w, rfl, hm⟩

/-- R113, R114: the state of an account that a key finds. -/
theorem AcctState.findable_iff (st : AcctState) :
    (st = .active ∨ st = .frozen ∨ st = .closing) ↔ st ≠ .free ∧ st ≠ .new ∧ st ≠ .gone := by
  cases st <;> decide

/-- R113, R114: a key finds the slot that the index names, where the record there is findable and holds the key. -/
theorem State.findAccount_iff {s : State} {key : Key} {n : Nat} :
    s.findAccount key = some n ↔ s.slotOfKey key = some n ∧
      ((s.record n).state = .active ∨ (s.record n).state = .frozen ∨ (s.record n).state = .closing) ∧ (s.record n).key = key := by
  rw [AcctState.findable_iff]
  unfold State.findAccount
  cases s.slotOfKey key with
  | none => simp
  | some m =>
    dsimp only
    split
    · rename_i h
      simp only [Bool.or_eq_true, beq_iff_eq, bne_iff_ne] at h
      simp only [reduceCtorEq, Option.some.injEq, false_iff]
      rintro ⟨rfl, ⟨hfree, hnew, hgone⟩, hkey⟩
      obtain ((hst | hst) | hst) | hst := h
      · exact hfree hst
      · exact hnew hst
      · exact hgone hst
      · exact hst hkey
    · rename_i h
      simp only [Bool.or_eq_true, beq_iff_eq, bne_iff_ne] at h
      simp only [Option.some.injEq]
      constructor
      · rintro rfl
        obtain ⟨⟨⟨hfree, hnew⟩, hgone⟩, hkey⟩ : ((_ ∧ _) ∧ _) ∧ _ := by simpa only [not_or, Classical.not_not] using h
        exact ⟨rfl, ⟨hfree, hnew, hgone⟩, hkey⟩
      · exact fun h => h.1

/-! ### LOOKUP and FIND -/

theorem exec_lookup_of_work {s : State} {l : Lane} {w : LookupWork} (hop : s.indexUnit.op = some (.link l))
    (hw : s.indexUnit.lookups.get l = some w) :
    exec .lookup s = .next ((s.endLookup l).answer w.origin (s.lookupOutcome w.key).1 (s.lookupOutcome w.key).2) := by
  rw [exec_lookup_eq, execLookup, hop]
  dsimp only
  rw [hw]

theorem keyInRange_eq_false {key : Key} (h : key = 0 ∨ key = 4294967295) : keyInRange key = false := by
  rw [← Bool.not_eq_true, keyInRange_iff]
  exact fun ⟨h0, h1⟩ => h.elim h0 h1

theorem State.lookupOutcome_badRange {s : State} {key : Key} (h : key = 0 ∨ key = 4294967295) :
    s.lookupOutcome key = (.badRange, .bare) := by
  simp [State.lookupOutcome, keyInRange_eq_false h]

theorem State.lookupOutcome_found {s : State} {key : Key} {n : Nat} (h0 : key ≠ 0) (h1 : key ≠ 4294967295)
    (h : s.findAccount key = some n) :
    s.lookupOutcome key =
      (.ok, .lookup ⟨BitVec.ofNat 16 n, (s.record n).gen⟩ (reportOf (s.record n) (storedConds (s.record n)))) := by
  simp [State.lookupOutcome, keyInRange_iff.2 ⟨h0, h1⟩, h]

theorem State.lookupOutcome_notFound {s : State} {key : Key} (h0 : key ≠ 0) (h1 : key ≠ 4294967295)
    (h : s.findAccount key = none) : s.lookupOutcome key = (.notFound, .bare) := by
  simp [State.lookupOutcome, keyInRange_iff.2 ⟨h0, h1⟩, h]

theorem exec_findCompletion_of_work {s : State} {key : Key} (hop : s.indexUnit.op = some .mgmt)
    (hm : s.indexUnit.mgmt = some (.find key)) :
    exec (.find .completion) s = .next (s.endMgmtLookup.reply 2 (s.findOutcome key).1 (s.findOutcome key).2) := by
  have hfind : s.findInProgress = some key := by rw [State.findInProgress, hop, hm]
  rw [exec_findCompletion_eq, State.completeFind, hfind]

/-- R31, R114: what the completion at the management slot leaves. -/
theorem State.reply_endMgmtLookup (s : State) (op : Byte) (st : Status) (body : MgmtBody) :
    s.endMgmtLookup.reply op st body =
      { s with cmd := s.unitAnswers ⟨op, st, body⟩, indexUnit := { s.indexUnit with op := none, mgmt := none } } := rfl

/-- Settles O35: what a key finds is `State.findAccount_iff`, over the one bucket of the key. -/
theorem lookupAndFindAnswerFromTheIndex : Obligations.LookupAndFindAnswerFromTheIndex := by
  refine ⟨fun s key n h => ?found, fun s key n w hlow hhigh hway huniq hstate hkey => ?finds, fun s l w hop hw => ?lookup,
    fun s key hop hm => ?find⟩
  case found =>
    obtain ⟨hslot, hstate, hkey⟩ := State.findAccount_iff.1 h
    obtain ⟨w, hw, hway⟩ := State.slotOfKey_some hslot
    obtain ⟨⟨hlow, hhigh⟩, -⟩ := State.wayOfKey_some hw
    exact ⟨⟨w, hlow, hhigh, hway⟩, hstate, hkey⟩
  case finds =>
    exact State.findAccount_iff.2
      ⟨State.slotOfKey_of_way (State.wayOfKey_of_unique ⟨hlow, hhigh⟩ hway huniq) hway, hstate, hkey⟩
  case lookup =>
    refine ⟨_, exec_lookup_of_work hop hw, rfl, rfl, fun h => ?_, fun n h0 h1 h => ?_, fun h0 h1 h => ?_⟩
    · rw [State.lookupOutcome_badRange h]
      exact State.answered_answer _ _ _ rfl
    · rw [State.lookupOutcome_found h0 h1 h]
      exact State.answered_answer _ _ _ rfl
    · rw [State.lookupOutcome_notFound h0 h1 h]
      exact State.answered_answer _ _ _ rfl
  case find =>
    refine ⟨_, exec_findCompletion_of_work hop hm, rfl, rfl, fun n h => ?_, fun h => ?_⟩
    · rw [State.reply_endMgmtLookup, State.findOutcome, h]
    · rw [State.reply_endMgmtLookup, State.findOutcome, h]

/-! ### ENROL_SEARCH -/

theorem exec_enrolSearch_of_work {s : State} {e : EnrolFields} (hop : s.indexUnit.op = some .mgmt)
    (hm : s.indexUnit.mgmt = some (.search e)) : exec .enrolSearch s = .next (s.endMgmtLookup.afterSearch e) := by
  have hsearch : s.searchInProgress = some e := by rw [State.searchInProgress, hop, hm]
  rw [exec_enrolSearch_eq, execEnrolSearch, hsearch]

theorem State.afterSearch_duplicate {s : State} {e : EnrolFields} (h : (s.wayOfKey e.key).isSome = true) :
    s.afterSearch e = s.reply 1 .duplicateKey .bare := if_pos h

theorem State.afterSearch_indexFull {s : State} {e : EnrolFields} (h : s.wayOfKey e.key = none) (hf : s.freeWay e.key = none) :
    s.afterSearch e = s.reply 1 .indexFull .bare := by
  simp [State.afterSearch, h, hf]

theorem State.afterSearch_tableFull {s : State} {e : EnrolFields} (h : s.wayOfKey e.key = none)
    (hf : (s.freeWay e.key).isSome = true) (hn : s.lowestFreeSlot = none) :
    s.afterSearch e = s.reply 1 .tableFull .bare := by
  simp [State.afterSearch, h, Option.isSome_iff_ne_none.1 hf, hn]

theorem State.afterSearch_create {s : State} {e : EnrolFields} {n : Nat} (h : s.wayOfKey e.key = none)
    (hf : (s.freeWay e.key).isSome = true) (hn : s.lowestFreeSlot = some n) :
    s.afterSearch e = s.placeMgmt (laneOf n) (.create n e.key e.balance e.floor e.lowMark e.tariffs) := by
  simp [State.afterSearch, h, Option.isSome_iff_ne_none.1 hf, hn]

theorem State.lowestFreeSlot_none {s : State} (h : ∀ n, n < 4096 → (s.record n).state ≠ .free) : s.lowestFreeSlot = none :=
  lowestFrom_none _ _ _ fun m _ hm => beq_eq_false_iff_ne.2 (h m (by simpa [Config.slots] using hm))

theorem State.lowestFreeSlot_some {s : State} {n : Nat} (hn : n < 4096) (h : (s.record n).state = .free)
    (hlow : ∀ m, m < n → (s.record m).state ≠ .free) : s.lowestFreeSlot = some n :=
  lowestFrom_some _ _ _ _ n.zero_le (by simpa [Config.slots] using hn) (beq_iff_eq.2 h)
    fun m _ hm => beq_eq_false_iff_ne.2 (hlow m hm)

/-- Below a bound a property holds of no number, or of a least one. -/
theorem none_or_least_below (p : Nat → Prop) (b : Nat) :
    (∀ n, n < b → ¬p n) ∨ ∃ n, n < b ∧ p n ∧ ∀ m, m < n → ¬p m := by
  induction b with
  | zero => exact .inl fun n hn => absurd hn n.not_lt_zero
  | succ b ih =>
    obtain hnone | ⟨n, hn, hp, hleast⟩ := ih
    · by_cases hb : p b
      · exact .inr ⟨b, b.lt_succ_self, hb, hnone⟩
      · refine .inl fun n hn hp => ?_
        obtain hlt | rfl := Nat.lt_succ_iff_lt_or_eq.1 hn
        · exact hnone n hlt hp
        · exact hb hp
    · exact .inr ⟨n, Nat.lt_succ_of_lt hn, hp, hleast⟩

theorem State.lowestFreeSlot_cases (s : State) : (∀ n, n < 4096 → (s.record n).state ≠ .free) ∨
    ∃ n, n < 4096 ∧ (s.record n).state = .free ∧ ∀ m, m < n → (s.record m).state ≠ .free :=
  none_or_least_below (fun n => (s.record n).state = .free) 4096

/-- R27: a request whose group queue is full is held by the command unit. -/
theorem State.placeMgmt_full {s : State} {g : Lane} (m : MgmtReq) (h : 8 ≤ (s.engine g).queue.length) :
    s.placeMgmt g m = { s with cmd := { s.cmd with held := some (g, .mgmt m) } } := by
  have hfull : ¬(s.engine g).queue.length < 8 := by omega
  simp [State.placeMgmt, State.queueRoom, hfull]

/-- R27: a placing touches the command unit and the engines. -/
theorem State.placeMgmt_only (s : State) (g : Lane) (m : MgmtReq) :
    s.placeMgmt g m = { s with cmd := (s.placeMgmt g m).cmd, engines := (s.placeMgmt g m).engines } := by
  unfold State.placeMgmt
  split <;> rfl

/-- R27: a request placed by the unit: at the end of its group queue, or held. -/
theorem State.placeMgmt_spec (s : State) (g : Lane) (m : MgmtReq) :
    ((s.engine g).queue.length < 8 → (s.placeMgmt g m).cmd = s.cmd ∧ s.otherEngines (s.placeMgmt g m) g ∧
      (s.placeMgmt g m).engine g = { s.engine g with queue := (s.engine g).queue ++ [.mgmt m] }) ∧
    (8 ≤ (s.engine g).queue.length → (s.placeMgmt g m).engines = s.engines ∧
      (s.placeMgmt g m).cmd = { s.cmd with held := some (g, .mgmt m) }) := by
  refine ⟨fun h => ?_, fun h => ?_⟩
  · rw [State.placeMgmt_room m h]
    exact ⟨rfl, fun k hk => State.engine_modifyEngine_ne s _ hk, State.engine_modifyEngine_same ..⟩
  · rw [State.placeMgmt_full m h]
    exact ⟨rfl, rfl⟩

/-- R115, R116: a search that ends touches the command unit and the engines. -/
theorem State.afterSearch_only (s : State) (e : EnrolFields) :
    s.afterSearch e = { s with cmd := (s.afterSearch e).cmd, engines := (s.afterSearch e).engines } := by
  unfold State.afterSearch
  split
  · rfl
  · split
    · rfl
    · split
      · rfl
      · exact State.placeMgmt_only _ _ _

/-- Settles O36: one lemma per outcome of the search, and the placing of the create step (`State.placeMgmt_spec`). -/
theorem enrolSearchDecidesTheEnrolment : Obligations.EnrolSearchDecidesTheEnrolment := by
  intro s e hop hm create
  have honly := s.endMgmtLookup.afterSearch_only e
  refine ⟨_, exec_enrolSearch_of_work hop hm, by rw [honly]; rfl, ?_, fun hdup => ?_, fun hway hfree => ?_,
    fun hway hfree hall => ?_, fun n hway hfree hn hstate hlow => ?_⟩
  · rw [honly]
    rfl
  · rw [State.afterSearch_duplicate (s := s.endMgmtLookup) hdup]
    exact ⟨rfl, rfl⟩
  · rw [State.afterSearch_indexFull (s := s.endMgmtLookup) hway hfree]
    exact ⟨rfl, rfl⟩
  · rw [State.afterSearch_tableFull (s := s.endMgmtLookup) hway hfree (State.lowestFreeSlot_none (s := s) hall)]
    exact ⟨rfl, rfl⟩
  · rw [State.afterSearch_create (s := s.endMgmtLookup) hway hfree (State.lowestFreeSlot_some (s := s) hn hstate hlow)]
    exact s.endMgmtLookup.placeMgmt_spec (laneOf n) (create n)

/-! ### The create step, the insert and the activate step -/

theorem Record.state_of_stateCode {r : Record} {st : AcctState} (h : r.stateCode = st.code) : r.state = st := by
  have hr : r = { r with stateCode := st.code } := by rw [← h]
  rw [hr, Record.state_of_code]

/-- R11: the record that the create step writes. -/
theorem Record.created_spec (r : Record) (key : Key) (bal : S8) (floor low : B6) (set : TariffSet) :
    let c := r.created key bal floor low set
    c.state = .new ∧ c.key = key ∧ c.balance = S8.ofInt bal.value ∧ c.floor = floor ∧ c.lowMark = low ∧ c.tariffs = set ∧
      c.gen = r.gen ∧ c.suspect = false ∧ c.checkCode = crc16 c.covered ∧ c.held = 0 ∧ c.holds = [] :=
  ⟨Record.state_of_stateCode rfl, rfl, rfl, rfl, rfl, rfl, rfl, rfl, rfl, rfl, rfl⟩

theorem exec_createStep_of_work {g : Lane} {s : State} {op : Operation} {n : Nat} {key : Key} {bal : S8} {floor low : B6}
    {set : TariffSet} (hop : s.mgmtOp g = some (op, .create n key bal floor low set)) :
    exec (.createStep g) s = .next (if op.record.state = .free then
      ((s.endOp g).modifyRecord n fun r => r.created key bal floor low set).postInsert key n
        else (s.endOp g).reply 1 .tableFull .bare) := by
  rw [exec_createStep_eq, execCreateStep, hop]
  simp only [beq_iff_eq]

theorem exec_indexInsert_of_work {s : State} {key : Key} {n w : Nat} (hop : s.indexUnit.op = some (.update (.insert key n)))
    (hw : s.freeWay key = some w) :
    exec .indexInsert s = .next ((s.endUpdate.setWay w (some ⟨key, n⟩)).placeMgmt (laneOf n) (.activate n)) := by
  have hinsert : s.endUpdate.insertKey key n = s.endUpdate.setWay w (some ⟨key, n⟩) := by
    have hfree : s.endUpdate.freeWay key = some w := hw
    rw [State.insertKey, hfree]
  rw [exec_indexInsert_eq, execIndexInsert, hop]
  dsimp only
  rw [hinsert]

theorem exec_activateStep_of_work {g : Lane} {s : State} {op : Operation} {n : Nat} (hop : s.mgmtOp g = some (op, .activate n)) :
    exec (.activateStep g) s = .next (((s.endVerified g op n).writeState n .active).reply 1
      (if op.record.found.suspect then .suspect else .ok) (.enrolled ⟨BitVec.ofNat 16 n, op.record.gen⟩)) := by
  rw [exec_activateStep_eq, execActivateStep, hop]
  rfl

/-- R5, R33: the fields that the write of a state behind a verification leaves, and those it writes. -/
theorem State.record_writeState_noted (s : State) (g : Lane) (op : Operation) (n : Nat) (st : AcctState) :
    let r := ((s.endVerified g op n).writeState n st).record n
    r.state = st ∧ r.checkCode = crc16 r.covered ∧ r.suspect = ((s.record n).suspect || !op.record.verifies) ∧
      r.key = (s.record n).key ∧ r.gen = (s.record n).gen ∧ r.balance = (s.record n).balance ∧
      r.floor = (s.record n).floor ∧ r.lowMark = (s.record n).lowMark ∧ r.tariffs = (s.record n).tariffs ∧
      r.held = (s.record n).held ∧ r.holds = (s.record n).holds := by
  have hrecord : (s.endVerified g op n).record n =
      { s.record n with suspect := (s.record n).suspect || !op.record.verifies } := by
    rw [State.endVerified, State.record_noteMismatch_same]
    rfl
  rw [State.record_writeState_same, hrecord]
  exact ⟨Record.state_of_stateCode rfl, rfl, rfl, rfl, rfl, rfl, rfl, rfl, rfl, rfl, rfl⟩

theorem State.otherRecords_writeState_noted (s : State) (g : Lane) (op : Operation) (n : Nat) (st : AcctState) :
    s.otherRecords ((s.endVerified g op n).writeState n st) n := fun m hm => by
  rw [State.record_writeState_ne _ _ hm, State.endVerified, State.record_noteMismatch_ne _ _ _ hm]
  rfl

/-- R34: the status of an answer that says whether the record was found suspect. -/
theorem Record.found_status (r : Record) :
    (if r.found.suspect = true then Status.suspect else .ok) =
      if r.suspect = false ∧ r.verifies = true then .ok else .suspect := by
  simp only [Record.found_suspect_iff]
  cases r.suspect <;> cases r.verifies <;> rfl

/-- Settles O37: the three steps, by the records they write (`Record.created_spec`, `State.record_writeState_noted`) and the
placing of the activate step. -/
theorem enrolmentStepsWriteTheirStores : Obligations.EnrolmentStepsWriteTheirStores := by
  refine ⟨fun g s op n key bal floor low set hop => ?create, fun s key n w hop hw => ?insert, fun g s op n hop => ?activate⟩
  case create =>
    have hexec := exec_createStep_of_work hop
    by_cases hfree : op.record.state = .free
    · rw [if_pos hfree] at hexec
      obtain ⟨hstate, hkey, hbal, hfloor, hlow, hset, hgen, hsus, hcode, hheld, hholds⟩ :=
        (s.record n).created_spec key bal floor low set
      have hrecord : (((s.endOp g).modifyRecord n fun r => r.created key bal floor low set).postInsert key n).record n =
          (s.record n).created key bal floor low set := State.record_modifyRecord_same
          (s.endOp g) n fun r => r.created key bal floor low set
      refine ⟨_, hexec, State.engine_ended_same rfl, State.otherEngines_endOp rfl, fun _ => ?_, fun h => absurd hfree h⟩
      rw [hrecord]
      exact ⟨hstate, hkey, hbal, hfloor, hlow, hset, hgen, hsus, hcode, hheld, hholds,
        fun m hm => State.record_modifyRecord_ne (s.endOp g) (fun r => r.created key bal floor low set) hm, rfl, rfl⟩
    · rw [if_neg hfree] at hexec
      exact ⟨_, hexec, State.engine_ended_same rfl, State.otherEngines_endOp rfl, fun h => absurd h hfree,
        fun _ => ⟨rfl, rfl⟩⟩
  case insert =>
    have honly := (s.endUpdate.setWay w (some ⟨key, n⟩)).placeMgmt_only (laneOf n) (.activate n)
    obtain ⟨hroom, hfull⟩ := (s.endUpdate.setWay w (some ⟨key, n⟩)).placeMgmt_spec (laneOf n) (.activate n)
    refine ⟨_, exec_indexInsert_of_work hop hw, ?_, fun v hv => ?_, ?_, hroom, hfull, ?_⟩
    · rw [honly]
      exact State.way_setWay_same s.endUpdate w (some ⟨key, n⟩)
    · rw [honly]
      exact State.way_setWay_ne s.endUpdate (some ⟨key, n⟩) hv
    · rw [honly]
      rfl
    · rw [honly]
      rfl
  case activate =>
    obtain ⟨hstate, hcode, hsus, hkey, hgen, hbal, hfloor, hlow, hset, hheld, hholds⟩ :=
      s.record_writeState_noted g op n .active
    have hexec := exec_activateStep_of_work hop
    rw [Record.found_status] at hexec
    have hnoticed := State.noticed_endVerified (s := s) (g := g) (op := op) (slot := n)
      (t := (s.endVerified g op n).writeState n .active) rfl
    simp only [State.suspectNotice, Bool.not_eq_true'] at hnoticed
    refine ⟨_, hexec, ?_, State.otherEngines_endOp (by simp [State.endVerified]), hstate, hcode, hsus, hkey, hgen, hbal,
      hfloor, hlow, hset, hheld, hholds, s.otherRecords_writeState_noted g op n .active, ?_, hnoticed, ?_⟩
    · simp [State.endVerified]
    · rw [State.cmd_reply, State.unitAnswers, State.unitAnswers]
      simp [State.endVerified]
    · apply State.eq_of_fields <;> simp [State.endVerified]

/-! ### KEY_REMOVAL -/

theorem exec_keyRemoval_of_work {s : State} {key : Key} {n : Nat} (hop : s.indexUnit.op = some (.update (.remove key n))) :
    exec .keyRemoval s = .next ((s.endUpdate.removeKey key n).postSlotFree n) := by
  rw [exec_keyRemoval_eq, execKeyRemoval, hop]

theorem State.removeKey_entry {s : State} {key : Key} {n w : Nat} (h : s.wayOfEntry key n = some w) :
    s.removeKey key n = s.setWay w none := by
  rw [State.removeKey, h]

theorem State.removeKey_stale {s : State} {key : Key} {n : Nat} (h : s.wayOfEntry key n = none) :
    s.removeKey key n = s.freeWaysNaming n := by
  rw [State.removeKey, h]

theorem State.removeKey_only (s : State) (key : Key) (n : Nat) : s.removeKey key n = { s with index := (s.removeKey key n).index } := by
  unfold State.removeKey
  split <;> rfl

/-- R120: the ways left where every way that names the slot is freed. -/
theorem State.way_freeWaysNaming {s : State} (h : s.canonical) (n w : Nat) :
    (s.freeWaysNaming n).way w = if namesSlot n (s.way w) = true then none else s.way w := by
  have hget : (s.freeWaysNaming n).way w = if (!namesSlot n (s.way w)) = true then s.way w else none :=
    Table.get_filter none _ s.index 0 w h.2.1
  rw [hget]
  cases namesSlot n (s.way w) <;> rfl

/-- Settles O38: the removal of the entry, and the slot-free claim. -/
theorem keyRemovalFreesTheWay : Obligations.KeyRemovalFreesTheWay := by
  intro s key n hop
  have honly := s.endUpdate.removeKey_only key n
  have heng : (s.endUpdate.removeKey key n).engines = s.engines := by rw [honly]; rfl
  refine ⟨_, exec_keyRemoval_of_work hop, ?_, ⟨?_, fun m hm => ?_⟩, fun w hw => ?_, fun hc hw w => ?_, ?_⟩
  · rw [honly]
    rfl
  · rw [honly]
    exact State.engine_modifyEngine_same ..
  · rw [honly]
    exact State.engine_modifyEngine_ne { s.endUpdate with index := (s.endUpdate.removeKey key n).index } _ hm
  · rw [State.removeKey_entry (s := s.endUpdate) hw]
    exact ⟨State.way_setWay_same s.endUpdate w none, fun v hv => State.way_setWay_ne s.endUpdate none hv⟩
  · rw [State.removeKey_stale (s := s.endUpdate) hw]
    exact State.way_freeWaysNaming hc n w
  · rw [honly]
    rfl

end Sys2Proof.Machine
end

section
/-! Commands that the command unit answers at once (R125, R146, R149, R150, R159, R161 to R163, R165, R168). -/

namespace Sys2Proof.Machine

theorem exec_linkSet_eq (l enable baud high resume : Byte) (s : State) :
    exec (.linkSet l enable baud high resume) s = .next (s.command 18 (takeLinkSet l enable baud high resume)) := rfl

theorem exec_noticeRead_eq (s : State) : exec .noticeRead s = .next (s.command 20 takeNoticeRead) := rfl

theorem exec_config_eq (interval : Half) (threshold : Byte) (s : State) :
    exec (.config interval threshold) s = .next (s.command 21 (takeConfig interval threshold)) := rfl

theorem exec_mode_eq (code : Byte) (s : State) : exec (.mode code) s = .next (s.command 22 (takeMode code)) := rfl

theorem exec_timeRead_eq (s : State) : exec .timeRead s = .next (s.command 23 takeTimeRead) := rfl

theorem exec_reset_eq (s : State) : exec .reset s = .next (s.command 24 takeReset) := rfl

/-! ### TARIFF_SET (R125) -/

section
variable {n enabled action : Byte} {price maxUnits : B4} {window : B6}

theorem tariffRefusal_badDigit (h : ¬(B4.ok price = true ∧ B4.ok maxUnits = true ∧ B6.ok window = true)) :
    tariffRefusal n enabled price maxUnits window action = some .badDigit := by
  refine if_pos ?_
  rw [← and_assoc, ← Bool.and_eq_true, ← Bool.and_eq_true] at h
  rw [Bool.not_eq_true', Bool.eq_false_iff]
  exact h

/-- R125: the ranges, where the digits pass. -/
theorem tariffRefusal_of_digits (hp : B4.ok price = true) (hm : B4.ok maxUnits = true) (hw : B6.ok window = true) :
    tariffRefusal n enabled price maxUnits window action =
      if n.toNat ≤ 15 ∧ enabled.toNat ≤ 1 ∧ 1 ≤ B4.value price ∧ 1 ≤ B4.value maxUnits ∧ 10 ≤ B6.value window ∧
        B6.value window ≤ 43200 ∧ action.toNat ≤ 1 then none else some .badRange := by
  have hdigits : (B4.ok price && B4.ok maxUnits && B6.ok window) = true := by rw [hp, hm, hw]; rfl
  have hrange : (15 < n.toNat || 1 < enabled.toNat || B4.value price = 0 || B4.value maxUnits = 0 ||
      !windowInRange (B6.value window) || 1 < action.toNat : Bool) = true ↔
      ¬(n.toNat ≤ 15 ∧ enabled.toNat ≤ 1 ∧ 1 ≤ B4.value price ∧ 1 ≤ B4.value maxUnits ∧ 10 ≤ B6.value window ∧
        B6.value window ≤ 43200 ∧ action.toNat ≤ 1) := by
    simp only [windowInRange_eq, Bool.or_eq_true, decide_eq_true_eq, Bool.not_eq_true', decide_eq_false_iff_not]
    omega
  rw [tariffRefusal, hdigits]
  simp only [hrange, Bool.not_true, Bool.false_eq_true, if_false, ite_not]

end

/-- Settles O45: digits, then ranges, then the write (`exec_tariffSet_written`). -/
theorem tariffSetWritesTheWholeEntry : Obligations.TariffSetWritesTheWholeEntry := by
  intro s n enabled action price maxUnits window ho
  refine ⟨fun h => exec_tariffSet_refused ho (tariffRefusal_badDigit h), fun hp hm hw => ⟨fun h => ?range,
    fun h1 h2 h3 h4 h5 h6 h7 => ?written⟩⟩
  case range => exact exec_tariffSet_refused ho ((tariffRefusal_of_digits hp hm hw).trans (if_neg h))
  case written =>
    have hentry : tariffOf enabled price maxUnits window action = ⟨enabled == 1, B4.value price, B4.value maxUnits,
        B6.value window, if action = 1 then .capture else .release⟩ := by
      simp only [tariffOf, beq_iff_eq]
    refine ⟨_, _, exec_tariffSet_written ho
      ((tariffRefusal_of_digits hp hm hw).trans (if_pos ⟨h1, h2, h3, h4, h5, h6, h7⟩)),
      State.tariff_setTariff_same .., hentry, fun m hmn => ?_, rfl⟩
    rw [State.tariff_setTariff_ne _ _ hmn]
    simp

/-! ### LINK_SET (R146, R149, R150) -/

section
variable {l enable baud high resume : Byte} {m : Mode}

/-- R150: the ranges, then the limit of ECONOMY. -/
theorem linkRefusal_eq : linkRefusal l enable baud high resume m =
    if ¬(l.toNat ≤ 3 ∧ enable.toNat ≤ 1 ∧ baud.toNat ≤ 5 ∧ 1 ≤ high.toNat ∧ high.toNat ≤ 16 ∧ resume.toNat < high.toNat)
    then some .badRange else if m = .economy ∧ 1 < baud.toNat then some .baudLimit else none := by
  have hrange : (3 < l.toNat || 1 < enable.toNat || 5 < baud.toNat || high.toNat < 1 || 16 < high.toNat ||
      15 < resume.toNat || high.toNat ≤ resume.toNat : Bool) = true ↔
      ¬(l.toNat ≤ 3 ∧ enable.toNat ≤ 1 ∧ baud.toNat ≤ 5 ∧ 1 ≤ high.toNat ∧ high.toNat ≤ 16 ∧
        resume.toNat < high.toNat) := by
    simp only [Bool.or_eq_true, decide_eq_true_eq]
    omega
  have hspeed : (m == .economy && fastBaud baud.toNat) = true ↔ m = .economy ∧ 1 < baud.toNat := by
    rw [Bool.and_eq_true, beq_iff_eq, fastBaud, decide_eq_true_eq]
  unfold linkRefusal
  simp only [hrange, hspeed]

end

theorem exec_linkSet_refused {s : State} (ho : s.portOpen) {l enable baud high resume : Byte} {st : Status}
    (h : linkRefusal l enable baud high resume s.wake.power.mode = some st) :
    exec (.linkSet l enable baud high resume) s = .next (s.replied 18 st .bare) := by
  rw [exec_linkSet_eq, State.command_open 18 _ ho, takeLinkSet, State.openSelect_power, h]
  rfl

theorem exec_linkSet_written {s : State} (ho : s.portOpen) {l enable baud high resume : Byte}
    (h : linkRefusal l enable baud high resume s.wake.power.mode = none) :
    let k := (s.link (laneOf l.toNat)).withSettings (enable == 1) (baudOf baud) high.toNat resume.toNat
    exec (.linkSet l enable baud high resume) s =
      .next ((s.replied 18 .ok (.linkSet k.enabled k.baud k.high k.resume k.epoch)).setLink (laneOf l.toNat) k) := by
  have hlink : s.openSelect.link (laneOf l.toNat) = s.link (laneOf l.toNat) := by simp
  rw [exec_linkSet_eq, State.command_open 18 _ ho, takeLinkSet, State.openSelect_power, h, hlink]
  rfl

/-- R146: the test of RDY moves RDY alone. -/
theorem Link.testRdy_frame (k : Link) : k.testRdy = { k with rdy := k.testRdy.rdy } := by
  unfold Link.testRdy
  (repeat' split) <;> rfl

/-- R146: RDY against the two marks. -/
theorem Link.testRdy_rdy (k : Link) :
    (k.testRdy.rdy = true → k.enabled = true ∧ k.fifo.length < k.high) ∧
      (k.enabled = true → k.resume < k.high → k.fifo.length ≤ k.resume → k.testRdy.rdy = true) ∧
      (k.enabled = true → k.resume < k.fifo.length → k.fifo.length < k.high → k.testRdy.rdy = k.rdy) := by
  unfold Link.testRdy
  cases k.enabled with
  | false => simp
  | true =>
    simp only [Bool.not_true, Bool.false_eq_true, if_false, true_and, forall_const]
    split
    · exact ⟨nofun, by omega, by omega⟩
    · split
      · exact ⟨by omega, fun _ _ => rfl, by omega⟩
      · exact ⟨by omega, by omega, fun _ _ => rfl⟩

/-- R149: the link that takes the new settings: out of service first, where it is enabled and is disabled or changes its
baud. -/
def Link.beforeSettings (k : Link) (enable : Bool) (baud : Fin 6) : Link :=
  if k.enabled = true ∧ (enable = false ∨ k.baud ≠ baud) then k.disabled else k

theorem Link.withSettings_eq (k : Link) (enable : Bool) (baud : Fin 6) (high resume : Nat) :
    k.withSettings enable baud high resume =
      { k.beforeSettings enable baud with enabled := enable, baud := baud, high := high, resume := resume }.testRdy := by
  have hcond : (k.enabled && (!enable || k.baud != baud)) = true ↔ k.enabled = true ∧ (enable = false ∨ k.baud ≠ baud) := by
    simp
  unfold Link.withSettings Link.beforeSettings
  simp only [hcond]

/-- R149, R150: what new settings leave of a link, but for RDY. -/
theorem Link.withSettings_frame (k : Link) (enable : Bool) (baud : Fin 6) (high resume : Nat) :
    k.withSettings enable baud high resume =
      { k.beforeSettings enable baud with
        enabled := enable, baud := baud, high := high, resume := resume, rdy := (k.withSettings enable baud high resume).rdy } := by
  rw [Link.withSettings_eq, Link.testRdy_frame]

theorem Link.beforeSettings_cleared {k : Link} {enable : Bool} {baud : Fin 6}
    (h : k.enabled = true ∧ (enable = false ∨ k.baud ≠ baud)) : k.beforeSettings enable baud = k.disabled := if_pos h

theorem Link.beforeSettings_kept {k : Link} {enable : Bool} {baud : Fin 6}
    (h : ¬(k.enabled = true ∧ (enable = false ∨ k.baud ≠ baud))) : k.beforeSettings enable baud = k := if_neg h

/-- R149: a disable leaves the count, the flag, HLD and the last frame sent. -/
theorem Link.beforeSettings_counts (k : Link) (enable : Bool) (baud : Fin 6) :
    let b := k.beforeSettings enable baud
    b.badCrc = k.badCrc ∧ b.overrun = k.overrun ∧ b.hld = k.hld ∧ b.lastSent = k.lastSent := by
  unfold Link.beforeSettings
  split <;> exact ⟨rfl, rfl, rfl, rfl⟩

/-- R146: between the marks a link not cleared keeps the level of RDY; a cleared link has no frame. -/
theorem Link.beforeSettings_rdy {k : Link} {enable : Bool} {baud : Fin 6} {n : Nat}
    (h : n < (k.beforeSettings enable baud).fifo.length) : (k.beforeSettings enable baud).rdy = k.rdy := by
  by_cases hc : k.enabled = true ∧ (enable = false ∨ k.baud ≠ baud)
  · rw [Link.beforeSettings_cleared hc] at h
    exact absurd h (Nat.not_lt_zero n)
  · rw [Link.beforeSettings_kept hc]

theorem Link.withSettings_rdy (k : Link) (enable : Bool) (baud : Fin 6) {high resume : Nat} (hmarks : resume < high) :
    let k' := k.withSettings enable baud high resume
    (k'.rdy = true → enable = true ∧ k'.fifo.length < high) ∧
      (enable = true → k'.fifo.length ≤ resume → k'.rdy = true) ∧
      (enable = true → resume < k'.fifo.length → k'.fifo.length < high → k'.rdy = k.rdy) := by
  intro k'
  have hfifo : k'.fifo = (k.beforeSettings enable baud).fifo :=
    (congrArg Link.fifo (k.withSettings_frame enable baud high resume) :)
  obtain ⟨hup, hlow, hmid⟩ := Link.testRdy_rdy
    { k.beforeSettings enable baud with enabled := enable, baud := baud, high := high, resume := resume }
  rw [← Link.withSettings_eq] at hup hlow hmid
  rw [hfifo]
  exact ⟨hup, fun he => hlow he hmarks, fun he hn hh => (hmid he hn hh).trans (Link.beforeSettings_rdy hn)⟩

theorem baudOf_val {baud : Byte} (h : baud.toNat ≤ 5) : (baudOf baud).val = baud.toNat := Nat.mod_eq_of_lt (by omega)

theorem Byte.beq_one_eq_false {b : Byte} (h : b.toNat ≤ 1) : (b == 1) = false ↔ b = 0 := by
  rw [beq_eq_false_iff_ne, ne_eq, ← BitVec.toNat_inj, ← BitVec.toNat_inj]
  show b.toNat ≠ 1 ↔ b.toNat = 0
  omega

/-- Settles O46: the refusals are `linkRefusal_eq`; the link written is `Link.withSettings_frame`. -/
theorem linkSetWritesTheSettings : Obligations.LinkSetWritesTheSettings := by
  intro s link enable baud high resume ho
  refine ⟨fun h => exec_linkSet_refused ho (by rw [linkRefusal_eq, if_pos h]), fun h1 h2 h3 h4 h5 h6 => ?_⟩
  intro l k cleared
  have hrange : ¬¬(link.toNat ≤ 3 ∧ enable.toNat ≤ 1 ∧ baud.toNat ≤ 5 ∧ 1 ≤ high.toNat ∧ high.toNat ≤ 16 ∧
      resume.toNat < high.toNat) := Classical.not_not.2 ⟨h1, h2, h3, h4, h5, h6⟩
  refine ⟨fun hm hb => exec_linkSet_refused ho (by rw [linkRefusal_eq, if_neg hrange, if_pos ⟨hm, hb⟩]), fun hspeed => ?_⟩
  have hok : ¬(s.wake.power.mode = .economy ∧ 1 < baud.toNat) := by
    rintro ⟨hm, hb⟩
    exact hspeed.elim (fun h => h hm) (by omega)
  have hexec := exec_linkSet_written ho (by rw [linkRefusal_eq, if_neg hrange, if_neg hok])
  have hframe := k.withSettings_frame (enable == 1) (baudOf baud) high.toNat resume.toNat
  obtain ⟨hup, hlow, hmid⟩ := k.withSettings_rdy (enable == 1) (baudOf baud) h6
  obtain ⟨hcrc, hover, hhld, hlast⟩ := k.beforeSettings_counts (enable == 1) (baudOf baud)
  have hclear : (k.enabled = true ∧ ((enable == 1) = false ∨ k.baud ≠ baudOf baud)) ↔ cleared := by
    rw [Byte.beq_one_eq_false h2, ne_eq, ← Fin.val_inj, baudOf_val h3]
  generalize hk' : k.withSettings (enable == 1) (baudOf baud) high.toNat resume.toNat = k' at *
  have hwritten : ∀ body, (((s.replied 18 .ok body).setLink l k').link l) = k' := fun _ => State.link_setLink_same ..
  refine ⟨_, hexec, ?_⟩
  rw [hwritten]
  refine ⟨by rw [hframe], by rw [hframe, ← baudOf_val h3], by rw [hframe], by rw [hframe], fun hc => ?_, fun hc => ?_,
    by rw [hframe]; exact hcrc, by rw [hframe]; exact hover, by rw [hframe]; exact hhld, by rw [hframe]; exact hlast,
    fun h => ⟨beq_iff_eq.1 (hup h).1, (hup h).2⟩, fun he => hlow (beq_iff_eq.2 he), fun he => hmid (beq_iff_eq.2 he),
    fun m hm => ?_, ?_⟩
  · rw [hframe, Link.beforeSettings_cleared (hclear.2 hc)]
    exact ⟨rfl, rfl, rfl, rfl, rfl, rfl⟩
  · rw [hframe, Link.beforeSettings_kept (mt hclear.1 hc)]
    exact ⟨rfl, rfl, rfl, rfl, rfl, rfl⟩
  · rw [State.link_setLink_ne _ _ hm]
    simp
  · have henabled : k'.enabled = (enable == 1) := by rw [hframe]
    have hhigh : k'.high = high.toNat := by rw [hframe]
    have hresume : k'.resume = resume.toNat := by rw [hframe]
    rw [henabled, hhigh, hresume]
    rfl

/-! ### TIME_READ, RESET, CONFIG and NOTICE_READ -/

theorem exec_config_refused {s : State} (ho : s.portOpen) {interval : Half} {threshold : Byte}
    (h : ¬(1 ≤ interval.toNat ∧ interval.toNat ≤ 3600 ∧ 1 ≤ threshold.toNat ∧ threshold.toNat ≤ 32)) :
    exec (.config interval threshold) s = .next (s.replied 21 .badRange .bare) := by
  rw [exec_config_eq, State.command_open 21 _ ho, takeConfig, if_pos, State.reply_closeSelect]
  simp only [Bool.or_eq_true, decide_eq_true_eq]
  omega

/-- R159: the state after a CONFIG that is accepted. -/
theorem exec_config_taken {s : State} (ho : s.portOpen) {interval : Half} {threshold : Byte}
    (h : 1 ≤ interval.toNat ∧ interval.toNat ≤ 3600 ∧ 1 ≤ threshold.toNat ∧ threshold.toNat ≤ 32) :
    exec (.config interval threshold) s = .next { s.wake with
      cmd := { (s.replied 21 .ok (.config interval.toNat threshold.toNat)).cmd with
                 interval := interval.toNat, threshold := threshold.toNat }
      check := { s.wake.check with timer := some interval.toNat }
      notices := { s.wake.notices with attn := decide (threshold.toNat ≤ s.wake.notices.list.length) } } := by
  have hrange : ¬(interval.toNat < 1 || 3600 < interval.toNat || threshold.toNat < 1 || 32 < threshold.toNat : Bool) = true := by
    simp only [Bool.or_eq_true, decide_eq_true_eq]
    omega
  rw [exec_config_eq, State.command_open 21 _ ho, takeConfig, if_neg hrange, State.openSelect_eq]
  rfl

/-- R161: the state after a NOTICE_READ. -/
theorem exec_noticeRead_taken {s : State} (ho : s.portOpen) :
    exec .noticeRead s = .next { s.replied 20 .ok (.notices (s.notices.list.take 4) (s.notices.list.drop 4).length s.notices.lost)
      with notices := { list := s.notices.list.drop 4, lost := false,
                        attn := decide (s.cmd.threshold ≤ (s.notices.list.drop 4).length) } } := by
  have hnotices : s.openSelect.notices = s.notices := by simp
  rw [exec_noticeRead_eq, State.command_open 20 _ ho, takeNoticeRead, hnotices]
  rfl

/-- R168: the state after a RESET is answered: the reset waits for the end of the next select period. -/
theorem exec_reset_taken {s : State} (ho : s.portOpen) :
    exec .reset s = .next { s.wake with cmd := { (s.replied 24 .ok .bare).cmd with armed := true } } := by
  rw [exec_reset_eq, State.command_open 24 _ ho, takeReset, State.openSelect_eq]
  rfl

/-- Settles O48: one lemma per command. -/
theorem unitCommandsAnswerAtOnce : Obligations.UnitCommandsAnswerAtOnce := by
  intro s interval threshold ho
  have hcheck : s.wake.check = s.check := by simp
  have hnotices : s.wake.notices = s.notices := by simp
  have htime : s.openSelect.timebase = s.timebase := by simp
  refine ⟨?time, ?reset, exec_config_refused ho, fun h1 h2 h3 h4 => ?config,
    ⟨_, exec_noticeRead_taken ho, rfl, rfl, rfl, rfl⟩⟩
  case time =>
    rw [exec_timeRead_eq, State.command_open 23 _ ho, takeTimeRead, htime, State.reply_closeSelect]
  case reset =>
    exact ⟨_, exec_reset_taken ho, rfl, rfl⟩
  case config =>
    refine ⟨_, exec_config_taken ho ⟨h1, h2, h3, h4⟩, rfl, by rw [hcheck], by rw [hnotices], rfl⟩

/-! ### MODE (R162, R163, R165) -/

section
variable {s : State}

theorem State.anyFastBaud_openSelect : s.openSelect.anyFastBaud = s.anyFastBaud := by
  simp [State.anyFastBaud, State.openSelect_eq]

theorem State.quiet_openSelect : s.openSelect.quiet = s.quiet := by
  simp [State.quiet, State.openSelect_eq]

theorem State.noHolds_openSelect : s.openSelect.noHolds = s.noHolds := by
  simp [State.noHolds, State.openSelect_eq]

theorem exec_mode_badCode (ho : s.portOpen) {code : Byte} (h : 3 < code.toNat) :
    exec (.mode code) s = .next (s.replied 22 .badRange .bare) := by
  have hcode : Mode.ofCode code = none := by
    unfold Mode.ofCode
    split <;> first | omega | rfl
  rw [exec_mode_eq, State.command_open 22 _ ho, takeMode, hcode]
  rfl

/-- R162: a MODE to the mode held. -/
theorem exec_mode_held (ho : s.portOpen) {code : Byte} {m : Mode} (hcode : Mode.ofCode code = some m)
    (hm : s.wake.power.mode = m) : exec (.mode code) s = .next (s.replied 22 .ok (.mode m)) := by
  rw [exec_mode_eq, State.command_open 22 _ ho, takeMode, hcode]
  dsimp only
  rw [State.openSelect_power, hm, beq_self_eq_true, if_pos rfl, State.reply_closeSelect]

/-- R162: a MODE to another mode than the one held. -/
theorem exec_mode_change (ho : s.portOpen) {code : Byte} {m : Mode} (hcode : Mode.ofCode code = some m)
    (hm : s.wake.power.mode ≠ m) : exec (.mode code) s = .next (s.openSelect.changeMode m).closeSelect := by
  rw [exec_mode_eq, State.command_open 22 _ ho, takeMode, hcode]
  dsimp only
  rw [State.openSelect_power, if_neg (by simpa using hm)]

theorem State.changeMode_standby_busy (h : s.quiet = false) : s.changeMode .standby = s.reply 22 .notIdle .bare :=
  if_neg (by rw [h]; decide)

theorem State.changeMode_standby_quiet (h : s.quiet = true) : s.changeMode .standby = s.enterStandby := if_pos h

theorem State.changeMode_economy_fast (h : s.anyFastBaud = true) : s.changeMode .economy = s.reply 22 .baudLimit .bare :=
  if_pos h

theorem State.changeMode_economy_slow (h : s.anyFastBaud = false) : s.changeMode .economy = s.takenMode .economy :=
  if_neg (by rw [h]; decide)

theorem State.changeMode_retain_busy (h : s.quiet = false ∨ s.notices.list ≠ []) :
    s.changeMode .retain = s.reply 22 .notIdle .bare := by
  refine if_pos ?_
  rcases h with h | h <;> simp [h]

theorem State.changeMode_retain_holds (hq : s.quiet = true) (hn : s.notices.list = []) (h : s.noHolds = false) :
    s.changeMode .retain = s.reply 22 .holdsLive .bare := by
  simp [State.changeMode, hq, hn, h]

theorem State.changeMode_retain_enters (hq : s.quiet = true) (hn : s.notices.list = []) (h : s.noHolds = true) :
    s.changeMode .retain = s.enterRetain := by
  simp [State.changeMode, hq, hn, h]

/-- R162: the state after an OK answer with a mode. -/
theorem State.takenMode_closeSelect (s : State) (m : Mode) :
    (s.openSelect.takenMode m).closeSelect =
      { s.replied 22 .ok (.mode m) with power := { s.wake.power with mode := m } } := rfl

/-- R162: to write the mode held is to write nothing. -/
theorem State.replied_mode_held {m : Mode} (h : s.wake.power.mode = m) :
    ({ s.replied 22 .ok (.mode m) with power := { s.wake.power with mode := m } } : State) = s.replied 22 .ok (.mode m) := by
  rw [← h]
  rfl

/-- R165: the state after the entry into RETAIN. -/
def State.retained (s : State) : State := s.openSelect.enterRetain.closeSelect

/-- R23, R38, R74, R122, R143, R153, R160, R165: the entry into RETAIN as a reset event. -/
theorem State.retained_spec (s : State) :
    let t := s.retained
    t.power = { s.wake.power with stage := .held, mode := .retain, resume := .run, cause := .retainWake } ∧
      t.cmd = { s.cmd with state := .idle, immediate := none, held := none, armed := false, selected := false, sdo := [] } ∧
      t.timebase = 0 ∧ t.notices = { list := [], lost := false, attn := false } ∧ t.tariffs = s.tariffs ∧
      t.index = s.index ∧ t.transit = s.transit ∧ t.engines = Four.all Engine.cleared ∧
      t.indexUnit = IndexUnit.cleared ∧ t.deadlines = [] ∧ t.router = 0 ∧ t.allocPtr = 0 ∧ t.check = CheckUnit.cleared ∧
      (∀ l, t.link l = (s.link l).afterReset) := by
  obtain ⟨-, hindex, -, htariffs, htransit, hlinks, -⟩ := s.wake_frame
  refine ⟨rfl, rfl, rfl, rfl, htariffs, hindex, htransit, rfl, rfl, rfl, rfl, rfl, rfl, fun l => ?_⟩
  have hmap : s.retained.link l = (s.wake.link l).afterReset := Four.get_map ..
  rw [hmap]
  simp

/-- R23, R74: the records and the hold entries after the entry into RETAIN. -/
theorem State.retained_stores (h : s.canonical) :
    (∀ n, s.retained.record n = { s.record n with held := 0, holds := [] }) ∧
      ∀ n, s.retained.hold n = HoldEntry.freed (s.hold n).serial := by
  have hopen : s.openSelect.canonical := by
    unfold State.canonical at h ⊢
    simpa [State.openSelect_eq] using h
  refine ⟨fun n => ?_, fun n => ?_⟩
  · have hrec := State.record_resetEvent s.openSelect .retainWake hopen n
    rw [State.openSelect_eq] at hrec
    exact hrec.trans (by simp [State.record])
  · have hhold := State.hold_resetEvent s.openSelect .retainWake hopen n
    rw [State.openSelect_eq] at hhold
    exact hhold.trans (by simp [State.hold])

end

theorem Mode.run_or_economy_ne {m : Mode} (h : m = .run ∨ m = .economy) : m ≠ .standby ∧ m ≠ .retain := by
  rcases h with rfl | rfl <;> decide

/-- Settles O49: one lemma per mode and condition of `changeMode`; RETAIN is `State.retained_spec`. -/
theorem modeChangesOnItsConditions : Obligations.ModeChangesOnItsConditions := by
  intro s ho hmode
  obtain ⟨hstandby, hretain⟩ := Mode.run_or_economy_ne hmode
  have hrun : Mode.ofCode 0 = some .run := rfl
  have heco : Mode.ofCode 1 = some .economy := rfl
  have hsby : Mode.ofCode 2 = some .standby := rfl
  have hret : Mode.ofCode 3 = some .retain := rfl
  have hnotices : s.openSelect.notices = s.notices := by simp [State.openSelect_eq]
  refine ⟨fun code => exec_mode_badCode ho, fun hm hfast => ?fast, exec_mode_held ho heco, exec_mode_held ho hrun,
    fun hslow => ?economy, ?run, fun hq => ?standbyBusy, fun h => ?retainBusy, fun hq => ?standby, fun hq hn hh => ?holds,
    fun hq hn hh => ?retain⟩
  case fast =>
    rw [exec_mode_change ho heco (by rw [hm]; decide), State.changeMode_economy_fast (by rw [State.anyFastBaud_openSelect, hfast]),
      State.reply_closeSelect]
  case economy =>
    by_cases hm : s.wake.power.mode = .economy
    · rw [exec_mode_held ho heco hm, State.replied_mode_held hm]
    · rw [exec_mode_change ho heco hm, State.changeMode_economy_slow (by rw [State.anyFastBaud_openSelect, hslow]),
        State.takenMode_closeSelect]
  case run =>
    by_cases hm : s.wake.power.mode = .run
    · rw [exec_mode_held ho hrun hm, State.replied_mode_held hm]
    · rw [exec_mode_change ho hrun hm]
      exact congrArg _ (s.takenMode_closeSelect .run)
  case standbyBusy =>
    rw [exec_mode_change ho hsby hstandby, State.changeMode_standby_busy (by rw [State.quiet_openSelect, hq]),
      State.reply_closeSelect]
  case retainBusy =>
    rw [exec_mode_change ho hret hretain,
      State.changeMode_retain_busy (by rw [State.quiet_openSelect, hnotices]; exact h), State.reply_closeSelect]
  case standby =>
    rw [exec_mode_change ho hsby hstandby, State.changeMode_standby_quiet (by rw [State.quiet_openSelect, hq])]
    rfl
  case holds =>
    rw [exec_mode_change ho hret hretain, State.changeMode_retain_holds (by rw [State.quiet_openSelect, hq])
      (by rw [hnotices, hn]) (by rw [State.noHolds_openSelect, hh]), State.reply_closeSelect]
  case retain =>
    have hexec : exec (.mode 3) s = .next s.retained := by
      rw [exec_mode_change ho hret hretain, State.changeMode_retain_enters (by rw [State.quiet_openSelect, hq])
        (by rw [hnotices, hn]) (by rw [State.noHolds_openSelect, hh])]
      rfl
    obtain ⟨hpower, hcmd, htime, hnot, htariffs, hindex, htransit, hengines, hiu, hdl, hrouter, halloc, hcheck, hlinks⟩ :=
      s.retained_spec
    have hmark : s.wake.power.mark = s.power.mark := by
      rw [State.power_wake_eq]
      split <;> rfl
    refine ⟨_, hexec, hpower, by rw [hcmd], htime, fun l => by rw [hlinks]; rfl, hnot, htariffs, hindex, htransit,
      by rw [hpower]; exact hmark, by rw [hcmd], by rw [hcmd], by rw [hcmd], by rw [hcmd], by rw [hcmd], hengines, hiu, hdl,
      hrouter, halloc, hcheck, fun l => ?_, State.retained_stores⟩
    rw [hlinks]
    exact ⟨rfl, rfl, rfl, rfl, rfl, rfl, rfl, rfl⟩

end Sys2Proof.Machine
end

section
/-! Resets, starts and the long check (R4, R20, R23 to R25, R69, R97, R132, R133, R152, R160, R165 to R168). -/

namespace Sys2Proof.Machine

theorem exec_softResetEffect_eq (s : State) :
    exec .softResetEffect s = .next (if s.powered && s.cmd.armed then s.softReset else s) := rfl

theorem exec_responseRead_eq (s : State) :
    exec .responseRead s = .next (if s.powered then s.openSelect.readOut.endSelect else s) := rfl

theorem exec_undecodableBlock_eq (bytes : List Byte) (s : State) :
    exec (.undecodableBlock bytes) s = .next (if s.powered then s.rawPeriod bytes else s) := rfl

theorem exec_rstFall_eq (s : State) : exec .rstFall s = execRstFall s := rfl

theorem exec_rstRelease_eq (s : State) : exec .rstRelease s = execRstRelease s := rfl

theorem exec_mainSupplyLoss_eq (s : State) : exec .mainSupplyLoss s = execMainSupplyLoss s := rfl

theorem exec_mainSupplyReturn_eq (s : State) : exec .mainSupplyReturn s = execMainSupplyReturn s := rfl

theorem exec_wakeEdge_eq (s : State) : exec .wakeEdge s = execWakeEdge s := rfl

theorem exec_backupSupplyLow_eq (s : State) : exec .backupSupplyLow s = execBackupSupplyLow s := rfl

theorem exec_oscillatorWarmUpDone_eq (s : State) : exec .oscillatorWarmUpDone s = execOscillatorWarmUpDone s := rfl

theorem exec_phaseReady_eq (s : State) : exec .phaseReady s = execPhaseReady s := rfl

theorem exec_disturbance_eq (d : Disturbance) (s : State) :
    exec (.retainedStoreDisturbance d) s = execRetainedStoreDisturbance d s := rfl

/-! ### Disturbances -/

theorem exec_disturbance_record {s : State} {n : Nat} (h : n < 4096) (change : RecordChange) :
    exec (.retainedStoreDisturbance (.record n change)) s = .next (s.modifyRecord n fun r => r.disturbed change) := by
  rw [exec_disturbance_eq, execRetainedStoreDisturbance]
  exact congrArg _ (if_pos h)

/-- Settles O60: a disturbance is one record update, or the write of the register. -/
theorem disturbancesChangeStoredFieldsAlone : Obligations.DisturbancesChangeStoredFieldsAlone := by
  refine fun s => ⟨fun n change hn => ?record, fun v => rfl⟩
  have hrecord : (s.modifyRecord n fun r => r.disturbed change).record n = (s.record n).disturbed change :=
    State.record_modifyRecord_same s n _
  refine ⟨_, exec_disturbance_record hn change, fun m hm => State.record_modifyRecord_ne s _ hm, rfl, ?_⟩
  rw [hrecord]
  refine ⟨?_, ?_, ?_, ?_, ?_, ?_, ?_, ?_, ?_⟩ <;> (rintro v rfl; rfl)

/-! ### Starts -/

/-- R167: the state in which the start-up sequence has begun with a cause. -/
def State.started (s : State) (cause : StartCause) : State :=
  { s with power := { s.power with stage := .warmUp, mode := .run, resume := .run, rstLow := false, supply := true,
                                   cause := if s.power.mark = true then .cold else cause } }

theorem State.beginStart_started {s : State} (cause : StartCause) (hs : s.power.supply = true) (hr : s.power.rstLow = false) :
    s.beginStart cause = s.started cause := by
  rw [State.beginStart, State.started, ← hs, ← hr]

theorem State.inRetain_iff {s : State} : s.inRetain = true ↔ s.power.mode = .retain := by
  rw [State.inRetain, beq_iff_eq]

theorem State.inRetain_eq_false {s : State} : s.inRetain = false ↔ s.power.mode ≠ .retain := by
  rw [← Bool.not_eq_true, State.inRetain_iff]

/-- Settles O56: each event, by the conditions of its definition. -/
theorem startsBeginWithTheirCauses : Obligations.StartsBeginWithTheirCauses := by
  refine fun s => ⟨fun hm hr => ?fall, fun hr hs => ?release, fun hs hr hm => ?returnAwake, fun hs hm => ?returnRetained,
    fun hm hs hr => ?wake, fun h => ?wakeIgnored, fun h => ?low, fun hs hm => ?lowIgnored⟩
  case fall =>
    rw [exec_rstFall_eq, execRstFall, State.inRetain_iff.2 hm, hr]
    rfl
  case release =>
    rw [exec_rstRelease_eq, execRstRelease, if_pos hr]
    dsimp only
    rw [if_pos hs]
    exact congrArg _ (State.beginStart_started (s := { s with power := { s.power with rstLow := false } }) _ hs rfl)
  case returnAwake =>
    have hin : ({ s with power := { s.power with supply := true } } : State).inRetain = false := State.inRetain_eq_false.2 hm
    rw [exec_mainSupplyReturn_eq, execMainSupplyReturn, if_neg (by rw [hs]; decide)]
    dsimp only
    rw [hin, if_neg (by decide), if_neg (by rw [hr]; decide)]
    exact congrArg _ (State.beginStart_started (s := { s with power := { s.power with supply := true } }) _ rfl hr)
  case returnRetained =>
    have hin : ({ s with power := { s.power with supply := true } } : State).inRetain = true := State.inRetain_iff.2 hm
    rw [exec_mainSupplyReturn_eq, execMainSupplyReturn, if_neg (by rw [hs]; decide)]
    dsimp only
    rw [if_pos hin]
  case wake =>
    rw [exec_wakeEdge_eq, execWakeEdge, if_pos (by rw [State.inRetain_iff.2 hm, hs, hr]; rfl), State.beginStart_started _ hs hr]
    rfl
  case wakeIgnored =>
    rw [exec_wakeEdge_eq, execWakeEdge, if_neg]
    simp only [Bool.and_eq_true, State.inRetain_iff, not_and]
    rintro ⟨hm, hs⟩
    rcases h with h | h
    · exact absurd hm h
    · exact absurd (h.symm.trans hs) (by decide)
  case low =>
    rw [exec_backupSupplyLow_eq, execBackupSupplyLow, if_pos]
    rcases h with h | h <;> simp [State.mainOff, h]
  case lowIgnored =>
    rw [exec_backupSupplyLow_eq, execBackupSupplyLow, if_neg]
    simp [State.mainOff, hs, hm]

/-! ### Warm-up -/

theorem exec_warmUpDone_cold {s : State} (h : s.power.stage = .warmUp) (hm : s.power.mark = true) :
    exec .oscillatorWarmUpDone s = .next s.coldDefaults.beginLongCheck := by
  rw [exec_oscillatorWarmUpDone_eq, execOscillatorWarmUpDone, h, hm]
  rfl

theorem exec_warmUpDone_warm {s : State} (h : s.power.stage = .warmUp) (hm : s.power.mark = false) :
    exec .oscillatorWarmUpDone s = .next s.beginLongCheck := by
  rw [exec_oscillatorWarmUpDone_eq, execOscillatorWarmUpDone, h, hm]
  rfl

/-- Settles O57: with the mark set the cold defaults come before the long check. -/
theorem warmUpWritesTheColdDefaults : Obligations.WarmUpWritesTheColdDefaults := by
  intro s h
  cases hm : s.power.mark with
  | true =>
    have hlink : ∀ l, s.coldDefaults.beginLongCheck.link l = (s.link l).withColdSettings := fun l => Four.get_map ..
    obtain ⟨hstate, hgen, hrecord⟩ := Record.freed_spec 0
    refine ⟨_, exec_warmUpDone_cold h hm, rfl, rfl, rfl, rfl, rfl, fun _ => ⟨fun n => ⟨hstate, hgen, hrecord⟩,
      fun n => rfl, fun n => ⟨rfl, rfl⟩, fun n => rfl, fun l => ?_, rfl, rfl, rfl⟩, nofun⟩
    rw [hlink]
    exact ⟨rfl, rfl, rfl, rfl⟩
  | false =>
    exact ⟨_, exec_warmUpDone_warm h hm, rfl, rfl, rfl, hm, rfl, nofun, fun _ => ⟨rfl, rfl, rfl, rfl, rfl, rfl, rfl⟩⟩

/-! ### The long check: SCAN -/

theorem namesSlot_iff {n : Nat} {e : Option IndexEntry} : namesSlot n e = true ↔ ∃ key, e = some ⟨key, n⟩ := by
  cases e with
  | none => simp [namesSlot]
  | some e =>
    obtain ⟨k, m⟩ := e
    simp [namesSlot]

theorem waysOf_sorted (b : Nat) : (waysOf b).Pairwise (· < ·) := by
  simp only [waysOf, List.pairwise_cons, List.mem_cons, List.not_mem_nil, or_false]
  refine ⟨?_, ?_, ?_, ?_, ?_, ?_, ?_, nofun, List.Pairwise.nil⟩ <;> (intro v hv; omega)

/-- What a search through a bucket returns: the lowest way that meets the test. -/
theorem find_waysOf_lowest {b w : Nat} {p : Nat → Bool} (hw : w ∈ waysOf b) (hp : p w = true)
    (hlow : ∀ v, v ∈ waysOf b → v < w → p v = false) : (waysOf b).find? p = some w := by
  obtain ⟨v, hv⟩ := Option.isSome_iff_exists.1 (List.find?_isSome.2 ⟨w, hw, hp⟩)
  obtain ⟨hpv, before, after, hlist, hbefore⟩ := List.find?_eq_some_iff_append.1 hv
  have hmem : v ∈ waysOf b := List.mem_of_find?_eq_some hv
  have hsorted := waysOf_sorted b
  rw [hlist] at hw hsorted
  rcases List.mem_append.1 hw with hw | hw
  · have := hbefore w hw
    simp [hp] at this
  · rcases List.mem_cons.1 hw with rfl | hw
    · exact hv
    · have hlt : v < w := (List.pairwise_cons.1 (List.pairwise_append.1 hsorted).2.1).1 w hw
      rw [hlow v hmem hlt] at hpv
      cases hpv

theorem State.freeWayOfSlot_found {s : State} {key key' : Key} {n w : Nat} (hlow : 8 * (key.toNat % 1021) ≤ w)
    (hhigh : w < 8 * (key.toNat % 1021) + 8) (hw : s.way w = some ⟨key', n⟩)
    (hfirst : ∀ v k, 8 * (key.toNat % 1021) ≤ v → v < w → s.way v ≠ some ⟨k, n⟩) :
    s.freeWayOfSlot key n = s.setWay w none := by
  have hfind : ((waysOf (bucketOf key)).find? fun v => namesSlot n (s.way v)) = some w := by
    refine find_waysOf_lowest (mem_waysOf_iff.2 ⟨hlow, hhigh⟩) (namesSlot_iff.2 ⟨key', hw⟩) fun v hv hlt => ?_
    rw [← Bool.not_eq_true, namesSlot_iff]
    rintro ⟨k, hk⟩
    exact hfirst v k (mem_waysOf_iff.1 hv).1 hlt hk
  rw [State.freeWayOfSlot, hfind]

theorem State.freeWayOfSlot_none {s : State} {key : Key} {n : Nat}
    (h : ∀ w k, 8 * (key.toNat % 1021) ≤ w → w < 8 * (key.toNat % 1021) + 8 → s.way w ≠ some ⟨k, n⟩) :
    s.freeWayOfSlot key n = s := by
  have hfind : ((waysOf (bucketOf key)).find? fun v => namesSlot n (s.way v)) = none := by
    rw [List.find?_eq_none]
    intro v hv
    rw [namesSlot_iff]
    rintro ⟨k, hk⟩
    obtain ⟨hlow, hhigh⟩ := mem_waysOf_iff.1 hv
    exact h v k hlow hhigh hk
  rw [State.freeWayOfSlot, hfind]

theorem State.freeWayOfSlot_only (s : State) (key : Key) (n : Nat) :
    s.freeWayOfSlot key n = { s with index := (s.freeWayOfSlot key n).index } := by
  unfold State.freeWayOfSlot
  split <;> rfl

/-- R24, R133: the visit that frees a slot. -/
theorem State.scanFree_spec (s : State) (n : Nat) (gen : Byte) :
    let x := s.scanFree n gen
    x = { s with accounts := x.accounts, index := x.index } ∧ x.record n = Record.freed gen ∧ s.otherRecords x n := by
  have honly := (s.setRecord n (Record.freed gen)).freeWayOfSlot_only (s.record n).key n
  have hacc : (s.scanFree n gen).accounts = (s.setRecord n (Record.freed gen)).accounts := by
    rw [State.scanFree, honly]
  refine ⟨?_, ?_, fun m hm => ?_⟩
  · rw [State.scanFree, honly]
    rfl
  · rw [State.record, hacc]
    exact State.record_setRecord_same s n _
  · rw [State.record, hacc]
    exact State.record_setRecord_ne s _ hm

theorem State.scanSlot_new {s : State} {n : Nat} (h : (s.record n).state = .new) :
    s.scanSlot n = s.scanFree n (s.record n).gen := by
  rw [State.scanSlot, h]

theorem State.scanSlot_retired {s : State} {n : Nat} (h : (s.record n).state = .closing ∨ (s.record n).state = .gone) :
    s.scanSlot n = s.scanFree n ((s.record n).gen + 1) := by
  rcases h with h | h <;> rw [State.scanSlot, h]

theorem State.scanSlot_sound {s : State} {n : Nat} (h : (s.record n).state = .active ∨ (s.record n).state = .frozen)
    (hv : (s.record n).verifies = true) : s.scanSlot n = s := by
  rcases h with h | h <;> rw [State.scanSlot, h] <;> exact if_pos hv

theorem State.scanSlot_mismatch {s : State} {n : Nat} (h : (s.record n).state = .active ∨ (s.record n).state = .frozen)
    (hv : (s.record n).verifies = false) : s.scanSlot n = s.scanMismatch n := by
  rcases h with h | h <;> rw [State.scanSlot, h] <;> exact if_neg (by rw [hv]; decide)

/-- R133: what the visit of a slot may change: its record, ways of the index, and the count. -/
def State.slotVisited (s x : State) (n count : Nat) : Prop :=
  x = { s with accounts := x.accounts, index := x.index, check := { s.check with count := count } } ∧ s.otherRecords x n

theorem State.slotVisited_refl (s : State) (n : Nat) : s.slotVisited s n s.check.count := ⟨rfl, fun _ _ => rfl⟩

theorem State.slotVisited_scanFree (s : State) (n : Nat) (gen : Byte) : s.slotVisited (s.scanFree n gen) n s.check.count := by
  obtain ⟨honly, -, hothers⟩ := s.scanFree_spec n gen
  exact ⟨by rw [honly], hothers⟩

theorem State.slotVisited_scanMismatch (s : State) (n : Nat) :
    s.slotVisited (s.scanMismatch n) n (s.check.count + 1) :=
  ⟨rfl, fun _ hm => State.record_modifyRecord_ne s (fun r => { r with suspect := true }) hm⟩

/-- R133: a mismatch is counted on a slot in use alone. -/
theorem State.slotVisited_scanSlot (s : State) (n : Nat) :
    s.slotVisited (s.scanSlot n) n
      (if ((s.record n).state = .active ∨ (s.record n).state = .frozen) ∧ (s.record n).verifies = false
        then s.check.count + 1 else s.check.count) := by
  by_cases huse : (s.record n).state = .active ∨ (s.record n).state = .frozen
  · by_cases hv : (s.record n).verifies = false
    · rw [State.scanSlot_mismatch huse hv, if_pos ⟨huse, hv⟩]
      exact s.slotVisited_scanMismatch n
    · rw [State.scanSlot_sound huse (eq_true_of_ne_false hv), if_neg fun h => hv h.2]
      exact s.slotVisited_refl n
  · rw [if_neg fun h => huse h.1]
    cases hstate : (s.record n).state with
    | free =>
      rw [State.scanSlot_free hstate]
      exact s.slotVisited_refl n
    | new =>
      rw [State.scanSlot_new hstate]
      exact s.slotVisited_scanFree n _
    | active => exact absurd (.inl hstate) huse
    | frozen => exact absurd (.inr hstate) huse
    | closing =>
      rw [State.scanSlot_retired (.inl hstate)]
      exact s.slotVisited_scanFree n _
    | gone =>
      rw [State.scanSlot_retired (.inr hstate)]
      exact s.slotVisited_scanFree n _

/-- R24: what a visit that frees a slot with a new generation leaves of its record and of the index. -/
theorem State.scanFree_index (s : State) (n : Nat) (gen : Byte) :
    (∀ w key, 8 * ((s.record n).key.toNat % 1021) ≤ w → w < 8 * ((s.record n).key.toNat % 1021) + 8 →
      s.way w = some ⟨key, n⟩ → (∀ v k, 8 * ((s.record n).key.toNat % 1021) ≤ v → v < w → s.way v ≠ some ⟨k, n⟩) →
      (s.scanFree n gen).way w = none ∧ ∀ v, v ≠ w → (s.scanFree n gen).way v = s.way v) ∧
    ((∀ w key, 8 * ((s.record n).key.toNat % 1021) ≤ w → w < 8 * ((s.record n).key.toNat % 1021) + 8 →
      s.way w ≠ some ⟨key, n⟩) → (s.scanFree n gen).index = s.index) := by
  refine ⟨fun w key hlow hhigh hw hfirst => ?_, fun hno => ?_⟩
  · rw [State.scanFree, State.freeWayOfSlot_found (s := s.setRecord n (Record.freed gen)) hlow hhigh hw hfirst]
    exact ⟨State.way_setWay_same (s.setRecord n (Record.freed gen)) w none,
      fun v hv => State.way_setWay_ne (s.setRecord n (Record.freed gen)) none hv⟩
  · rw [State.scanFree, State.freeWayOfSlot_none (s := s.setRecord n (Record.freed gen)) hno]
    rfl

/-! ### The long check: SWEEP and TRANSIT -/

theorem State.longCheckVisit_scan {s : State} {n : Nat} (h : s.check.stage = .scan n) :
    s.longCheckVisit = (s.scanSlot n).atStage (if n + 1 < 4096 then .scan (n + 1) else .sweep 0) := by
  rw [State.longCheckVisit, h]

theorem State.longCheckVisit_sweep {s : State} {b : Nat} (h : s.check.stage = .sweep b) :
    s.longCheckVisit = (s.sweepBucket b).atStage (if b + 1 < 1021 then .sweep (b + 1) else .transit) := by
  rw [State.longCheckVisit, h]

theorem State.longCheckVisit_transit {s : State} (h : s.check.stage = .transit) : s.longCheckVisit = s.resolveTransit := by
  rw [State.longCheckVisit, h]

theorem sweptEntry_some {s : State} {e : IndexEntry} : sweptEntry s (some e) = true ↔ (s.record e.slot).state = .free := by
  rw [sweptEntry, beq_iff_eq]

/-- R133: a way after the visit of a bucket. -/
theorem State.way_sweepBucket {s : State} (h : s.canonical) (b w : Nat) :
    (s.sweepBucket b).way w = if w / 8 = b ∧ sweptEntry s (s.way w) = true then none else s.way w := by
  have hget : (s.sweepBucket b).way w = if (!(w / 8 == b && sweptEntry s (s.way w))) = true then s.way w else none :=
    Table.get_filter none _ s.index 0 w h.2.1
  rw [hget]
  by_cases hb : w / 8 = b <;> cases sweptEntry s (s.way w) <;> simp [hb]

theorem handleTest_state {h : Handle} {r : Record} (ht : handleTest h r = none) :
    r.state ≠ .free ∧ r.state ≠ .new ∧ r.state ≠ .gone := by
  unfold handleTest at ht
  split at ht
  · cases ht
  split at ht
  · cases ht
  rename_i hstate
  exact ⟨fun h => hstate (.inl h), fun h => hstate (.inr (.inl h)), fun h => hstate (.inr (.inr h))⟩

theorem creditCheck_isNone {r : Record} : (creditCheck r).isNone = true ↔ r.state ≠ .closing := by
  unfold creditCheck
  cases r.state <;> simp

/-- R69: the source of a register may have its amount back. -/
theorem State.sourceReturnable_iff {s : State} :
    s.sourceReturnable = true ↔ handleTest s.transit.src (s.record s.transit.src.slot.toNat) = none ∧
      ((s.record s.transit.src.slot.toNat).state = .active ∨ (s.record s.transit.src.slot.toNat).state = .frozen) ∧
      (s.record s.transit.src.slot.toNat).suspect = false := by
  rw [State.sourceReturnable]
  generalize s.record s.transit.src.slot.toNat = r
  rw [Bool.and_eq_true, Bool.and_eq_true, Option.isNone_iff_eq_none, creditCheck_isNone, Bool.not_eq_true', and_assoc]
  refine and_congr_right fun hcurrent => and_congr_left fun _ => ?_
  obtain ⟨hfree, hnew, hgone⟩ := handleTest_state hcurrent
  cases hstate : r.state <;> simp_all

theorem State.transitResolution_pending {s : State} (h : s.transit.state = .out ∨ s.transit.state = .returning) :
    s.transitResolution = if s.sourceReturnable = true then (.returning, .returnPosted) else (.stranded, .strandedNow) := by
  rcases h with h | h <;> rw [State.transitResolution, h]

/-- Settles O58: SCAN by the state of the slot's record, SWEEP by the filter of the index, TRANSIT by the register. -/
theorem theLongCheckVisitsTheStores : Obligations.TheLongCheckVisitsTheStores := by
  refine ⟨fun s n h => ?scan, fun s b h hc => ?sweep, fun s h => ?transit⟩
  case scan =>
    dsimp only
    rw [State.longCheckVisit_scan h]
    obtain ⟨hframe, hothers⟩ := s.slotVisited_scanSlot n
    have hrecord : ∀ st m, ((s.scanSlot n).atStage st).record m = (s.scanSlot n).record m := fun _ _ => rfl
    have hway : ∀ st w, ((s.scanSlot n).atStage st).way w = (s.scanSlot n).way w := fun _ _ => rfl
    have hfreed : ∀ {gen}, s.scanSlot n = s.scanFree n gen → (s.scanSlot n).record n = Record.freed gen := fun hx => by
      rw [hx]
      exact (s.scanFree_spec n _).2.1
    refine ⟨?_, ?_, hothers, fun hf => ?_, fun hf => ?_, fun hf => ?_, fun hf => ?_, fun hf hv => ?_, fun hf hv => ?_⟩
    · rw [State.atStage, hframe]
    · rw [State.atStage, hframe]
    · rw [State.scanSlot_free hf]
      exact ⟨rfl, rfl⟩
    · obtain ⟨hstate, hgen, -, -, -, -, -, -, hverifies, -⟩ := Record.freed_spec (s.record n).gen
      rw [hrecord, hfreed (State.scanSlot_new hf)]
      exact ⟨hstate, hgen, hverifies⟩
    · obtain ⟨hstate, hgen, hkey, hbal, -, -, -, hsuspect, hverifies, -⟩ := Record.freed_spec ((s.record n).gen + 1)
      rw [hrecord, hfreed (State.scanSlot_retired hf)]
      exact ⟨hstate, hgen, hverifies, hkey, hbal, hsuspect⟩
    · obtain ⟨gen, hx⟩ : ∃ gen, s.scanSlot n = s.scanFree n gen := by
        rcases hf with hf | hf
        · exact ⟨_, State.scanSlot_new hf⟩
        · exact ⟨_, State.scanSlot_retired hf⟩
      obtain ⟨-, -, hkey, hbal, hfloor, hlow, htariffs, hsuspect, -, hheld, hholds⟩ := Record.freed_spec gen
      rw [hrecord, hfreed hx]
      simp only [hx]
      exact ⟨⟨hkey, hbal, hfloor, hlow, htariffs, hsuspect, hheld, hholds⟩, s.scanFree_index n gen⟩
    · rw [State.scanSlot_sound hf hv]
      exact ⟨rfl, rfl⟩
    · rw [State.scanSlot_mismatch hf hv]
      exact ⟨State.record_modifyRecord_same s n fun r => { r with suspect := true }, rfl⟩
  case sweep =>
    dsimp only
    rw [State.longCheckVisit_sweep h]
    refine ⟨rfl, rfl, fun w e hw => ?_, fun w hw => ?_⟩
    · have hswept := State.way_sweepBucket hc b w
      simp only [hw, sweptEntry_some] at hswept
      exact hswept
    · have hswept := State.way_sweepBucket hc b w
      rw [hw, ite_self] at hswept
      exact hswept
  case transit =>
    dsimp only
    rw [State.longCheckVisit_transit h]
    refine ⟨rfl, rfl, rfl, fun ht => ?_, fun ht => ?_, fun ht hpass => ?_, fun ht hpass => ?_⟩
    · have hres : s.transitResolution = (.empty, .none) := by rw [State.transitResolution, ht]
      exact ⟨congrArg Prod.fst hres, congrArg Prod.snd hres⟩
    · have hres : s.transitResolution = (.stranded, .strandedKept) := by rw [State.transitResolution, ht]
      exact ⟨congrArg Prod.fst hres, congrArg Prod.snd hres⟩
    · have hres := (State.transitResolution_pending ht).trans (if_pos (State.sourceReturnable_iff.2 hpass))
      exact ⟨congrArg Prod.fst hres, congrArg Prod.snd hres⟩
    · have hres := (State.transitResolution_pending ht).trans (if_neg (mt State.sourceReturnable_iff.1 hpass))
      exact ⟨congrArg Prod.fst hres, congrArg Prod.snd hres⟩

end Sys2Proof.Machine
end

section
/-! PHASE_READY (R24, R69, R97, R132, R133, R152, R160, R167) and the reset events (R23, R38, R74, R122, R143, R153, R160,
R166 to R168). -/

namespace Sys2Proof.Machine

/-! ### PHASE_READY -/

/-- R167: the state at READY before the start notice, from the state in which the long check is done. -/
def State.broughtUp (u : State) : State := u.becomeReady.postReturn

theorem exec_phaseReady_of_stage {s : State} (h : s.power.stage = .longCheck) :
    exec .phaseReady s = .next (s.longCheckRest.broughtUp.post s.longCheckRest.broughtUp.startNotice) := by
  rw [exec_phaseReady_eq, execPhaseReady, h]
  rfl

theorem State.postReturn_only (s : State) : s.postReturn = { s with engines := s.postReturn.engines } := by
  unfold State.postReturn
  split <;> rfl

theorem State.postReturn_quiet {s : State} (h : s.check.outcome ≠ .returnPosted) : s.postReturn = s := by
  rw [State.postReturn, if_neg (by simpa using h)]

theorem State.postReturn_posts {s : State} (h : s.check.outcome = .returnPosted) :
    let g := laneOf s.transit.src.slot.toNat
    s.postReturn.engine g = { s.engine g with transit := some (.ret none) } ∧ s.otherEngines s.postReturn g := by
  have hpost : s.postReturn = s.modifyEngine (laneOf s.transit.src.slot.toNat)
      fun e => { e with transit := some (.ret none) } := by
    rw [State.postReturn, h]
    rfl
  rw [hpost]
  exact ⟨State.engine_modifyEngine_same s _ _, fun m hm => State.engine_modifyEngine_ne s _ hm⟩

theorem State.longCheckRest_of_done {s : State} (h : s.check.stage = .done) : s.longCheckRest = s := by
  rw [State.longCheckRest, h]

/-- R133: a long check that is not done ends with the resolution of the register. -/
theorem State.longCheckRest_resolves {s : State} (h : s.check.stage ≠ .done) : ∃ x : State, s.longCheckRest = x.resolveTransit := by
  unfold State.longCheckRest
  split
  · exact ⟨_, rfl⟩
  · exact ⟨_, rfl⟩
  · exact ⟨_, rfl⟩
  · contradiction

/-- R69: a return step is posted for a register that returns. -/
theorem State.resolveTransit_returning {s : State} (h : s.resolveTransit.check.outcome = .returnPosted) :
    s.resolveTransit.transit.state = .returning := by
  have hout : s.transitResolution.2 = .returnPosted := h
  have hstate : s.resolveTransit.transit.state = s.transitResolution.1 := rfl
  rw [hstate]
  unfold State.transitResolution at hout ⊢
  split at hout
  · cases hout
  · cases hout
  all_goals
    split at hout
    · rename_i hret
      rw [hret]
      rfl
    · cases hout

/-- R146, R152: an empty link comes up with RDY where it is enabled. -/
theorem Link.testRdy_empty {k : Link} (hfifo : k.fifo = []) (hmarks : k.resume < k.high) :
    k.testRdy = { k with rdy := k.enabled } := by
  have hhigh : ¬k.high ≤ k.fifo.length := by rw [hfifo, List.length_nil]; omega
  have hlow : k.fifo.length ≤ k.resume := by rw [hfifo, List.length_nil]; omega
  cases henabled : k.enabled with
  | false => rw [Link.testRdy, henabled]; rfl
  | true => rw [Link.testRdy, henabled, if_neg (by decide), if_neg hhigh, if_pos hlow]

/-- R160: the first notice of a run. -/
theorem State.post_first {s : State} (n : Notice) (h : s.notices = { list := [], lost := false, attn := false }) :
    (s.post n).notices = { list := [n], lost := false, attn := decide (s.cmd.threshold ≤ 1) } := by
  rw [State.post_notices, h]
  rfl

theorem State.startNotice_eq (s : State) :
    s.startNotice = if s.power.cause = .cold then .coldStart .cold
      else .warmStart s.power.cause s.check.count s.check.outcome := by
  unfold State.startNotice
  cases s.power.cause <;> rfl

/-- R97, R132, R152, R160: what stands at READY, behind the start notice. -/
theorem State.broughtUp_spec {u : State} (hnotices : u.notices = { list := [], lost := false, attn := false })
    (hfifo : ∀ l, (u.link l).fifo = []) (hrdy : u.rdyRule) :
    let t := u.broughtUp.post u.broughtUp.startNotice
    t.check = { u.check with timer := some u.cmd.interval } ∧
      t = { u with power := { u.power with stage := .ready }, links := t.links, check := t.check, engines := t.engines,
                   notices := t.notices } ∧
      (∀ l, t.link l = { u.link l with rdy := (u.link l).enabled }) ∧
      t.notices.list = [if u.power.cause = .cold then .coldStart .cold
        else .warmStart u.power.cause u.check.count u.check.outcome] ∧
      t.notices.attn = decide (u.cmd.threshold ≤ 1) ∧
      (u.check.outcome ≠ .returnPosted → t.engines = u.engines) ∧
      (u.check.outcome = .returnPosted →
        let g := laneOf u.transit.src.slot.toNat
        t.engine g = { u.engine g with transit := some (.ret none) } ∧ u.otherEngines t g) := by
  have hup : u.broughtUp = { u.becomeReady with engines := u.broughtUp.engines } := u.becomeReady.postReturn_only
  have hpost : ∀ n, (u.broughtUp.post n).notices = { list := [n], lost := false, attn := decide (u.cmd.threshold ≤ 1) } :=
    fun n => by
      rw [State.post_first n (by rw [hup]; exact hnotices), hup]
      rfl
  have hstart : u.broughtUp.startNotice = if u.power.cause = .cold then .coldStart .cold
      else .warmStart u.power.cause u.check.count u.check.outcome := by
    rw [State.startNotice_eq, hup]
    rfl
  have hlink : ∀ l, u.broughtUp.link l = (u.link l).testRdy := fun l => by
    rw [hup]
    exact Four.get_map ..
  have hengine : ∀ n g, (u.broughtUp.post n).engine g = u.broughtUp.engine g := fun n g => by simp
  refine ⟨?_, ?_, fun l => ?_, ?_, ?_, fun h => ?_, fun h => ?_⟩
  · have hcheck : ∀ n, (u.broughtUp.post n).check = u.broughtUp.check := fun n => by simp
    rw [hcheck, hup]
    rfl
  · apply State.eq_of_fields <;> simp <;> rw [hup] <;> rfl
  · have hsame : ∀ n, (u.broughtUp.post n).link l = u.broughtUp.link l := fun n => by simp
    rw [hsame, hlink, Link.testRdy_empty (hfifo l) (hrdy l).1]
  · rw [hpost, hstart]
  · rw [hpost]
  · have hsame : ∀ n, (u.broughtUp.post n).engines = u.broughtUp.engines := fun n => by simp
    rw [hsame, State.broughtUp, State.postReturn_quiet (s := u.becomeReady) h]
    rfl
  · obtain ⟨hsource, hothers⟩ := State.postReturn_posts (s := u.becomeReady) h
    exact ⟨by rw [hengine]; exact hsource, fun m hm => by rw [hengine]; exact hothers m hm⟩

/-- Settles O59: PHASE_READY is the rest of the long check (`visitsTo_rest`), then `State.broughtUp`. -/
theorem readyBringsTheChipUp : Obligations.ReadyBringsTheChipUp := by
  intro s hstage hrest hrdy hfifo hthreshold hcanonical
  have hnotready : s.isReady = false := by rw [State.isReady, hstage]; rfl
  obtain ⟨-, -, -, htime, -, hnotices, -⟩ := hrest hnotready
  obtain ⟨visits, hvisits⟩ := visitsTo_rest hcanonical.1
  have honly : longCheckOnly s s.longCheckRest := longCheckOnly_rest s
  have hdone : s.longCheckRest.check.stage = .done := s.longCheckRest_done
  have hfrom : s.check.stage = .done → s.longCheckRest = s := State.longCheckRest_of_done
  have hresolved : s.check.stage ≠ .done → s.longCheckRest.check.outcome = .returnPosted →
      s.longCheckRest.transit.state = .returning := fun h => by
    obtain ⟨x, hx⟩ := State.longCheckRest_resolves h
    rw [hx]
    exact State.resolveTransit_returning
  have hexec := exec_phaseReady_of_stage hstage
  generalize s.longCheckRest = u at *
  have hlinks : ∀ l, u.link l = s.link l := fun l => by rw [honly]; rfl
  have hengines : ∀ g, u.engine g = s.engine g := fun g => by rw [honly]; rfl
  have hcmd : u.cmd = s.cmd := by rw [honly]
  have hpower : u.power = s.power := by rw [honly]
  obtain ⟨hcheck, hframe, hlink, hlist, hattn, hquiet, hposts⟩ := State.broughtUp_spec (u := u) (by rw [honly]; exact hnotices)
    (fun l => by rw [hlinks]; exact hfifo l) (State.rdyRule_congr hrdy hlinks (by rw [State.isReady, State.isReady, hpower]))
  generalize u.broughtUp.post u.broughtUp.startNotice = t at *
  have hoc : t.check.outcome = u.check.outcome := by rw [hcheck]
  have hcount : t.check.count = u.check.count := by rw [hcheck]
  have htransit : t.transit = u.transit := by rw [hframe]
  refine ⟨t, visits, hexec, by rw [hframe]; rfl, ?_, by rw [hcheck, hcmd], ⟨?_, ?_, ?_⟩, fun h => ?_, fun l => by rw [hlink, hlinks],
    by rw [hlist, hoc, hcount, hpower], by rw [hattn, hcmd], fun h => ?_, fun h => ⟨?_, fun hs => ?_⟩, fun h => ?_, ?_, ?_, ?_⟩
  · rw [hframe, honly]
    exact htime
  · rw [hvisits]
    exact hdone
  · rw [hvisits, ← hcmd]
    exact hcheck
  · rw [hvisits, ← hpower]
    exact hframe
  · have hu := hfrom h
    subst hu
    exact ⟨by rw [hframe], by rw [hframe], hcount⟩
  · rw [hquiet (by rw [← hoc]; exact h), honly]
  · obtain ⟨hsource, hothers⟩ := hposts (by rw [← hoc]; exact h)
    rw [htransit]
    exact ⟨by rw [← hengines]; exact hsource, fun m hm => by rw [hothers m hm, hengines]⟩
  · rw [htransit]
    exact hresolved hs (by rw [← hoc]; exact h)
  · have hu := hfrom h
    subst hu
    exact ⟨hoc, htransit⟩
  · rw [hframe, honly]
  · rw [hframe, honly]
  · rw [hframe, honly]

/-! ### Reset events -/

/-- What a reset event goes by: the retained stores, the links' settings and the command unit's. -/
def State.sameRetained (s x : State) : Prop :=
  x.accounts = s.accounts ∧ x.holds = s.holds ∧ x.index = s.index ∧ x.tariffs = s.tariffs ∧ x.transit = s.transit ∧
    x.links = s.links ∧ x.cmd.interval = s.cmd.interval ∧ x.cmd.threshold = s.cmd.threshold ∧ x.power.mark = s.power.mark

theorem State.sameRetained_refl (s : State) : s.sameRetained s := ⟨rfl, rfl, rfl, rfl, rfl, rfl, rfl, rfl, rfl⟩

/-- R23, R38, R74, R97, R122, R143, R153, R160: what every reset event clears, and what it keeps. -/
def State.volatileCleared (s t : State) : Prop :=
  (∀ n, t.record n = { s.record n with held := 0, holds := [] }) ∧
    (∀ n, (t.hold n).state = .free ∧ (t.hold n).serial = (s.hold n).serial) ∧
    t.engines = Four.all Engine.cleared ∧ t.indexUnit = IndexUnit.cleared ∧ t.deadlines = [] ∧ t.timebase = 0 ∧
    t.router = 0 ∧ t.allocPtr = 0 ∧ t.check = CheckUnit.cleared ∧
    t.notices = { list := [], lost := false, attn := false } ∧ t.cmd.state = .idle ∧ t.cmd.immediate = none ∧
    t.cmd.held = none ∧ t.cmd.armed = false ∧ t.cmd.interval = s.cmd.interval ∧ t.cmd.threshold = s.cmd.threshold ∧
    (∀ l, (t.link l).fifo = [] ∧ (t.link l).queue = [] ∧ (t.link l).tags = Four.all false ∧ (t.link l).epoch = 0 ∧
      (t.link l).rdy = false ∧ (t.link l).receiver = .idle ∧ (t.link l).badCrc = 0 ∧ (t.link l).overrun = false ∧
      (t.link l).enabled = (s.link l).enabled ∧ (t.link l).baud = (s.link l).baud ∧
      (t.link l).high = (s.link l).high ∧ (t.link l).resume = (s.link l).resume) ∧
    t.index = s.index ∧ t.tariffs = s.tariffs ∧ t.transit = s.transit ∧ t.isReady = false ∧ t.power.mode = .run ∧
    t.power.mark = s.power.mark

/-- A reset event on a state with the retained stores of `s`, and the power control it leaves. -/
theorem State.volatileCleared_reset {s x : State} (cause : StartCause) (p : Power) (hc : s.canonical) (hx : s.sameRetained x)
    (hstage : p.stage ≠ .ready) (hmode : p.mode = .run) (hmark : p.mark = x.power.mark) :
    s.volatileCleared { x.resetEvent cause with power := p } := by
  obtain ⟨haccounts, hholds, hindex, htariffs, htransit, hlinks, hinterval, hthreshold, hxmark⟩ := hx
  have hrecord : ∀ n, ({ x.resetEvent cause with power := p } : State).record n = (s.resetEvent cause).record n := fun n => by
    simp only [State.record, State.resetEvent, haccounts]
  have hhold : ∀ n, ({ x.resetEvent cause with power := p } : State).hold n = (s.resetEvent cause).hold n := fun n => by
    simp only [State.hold, State.resetEvent, hholds]
  have hlink : ∀ l, ({ x.resetEvent cause with power := p } : State).link l = (s.link l).afterReset := fun l => by
    rw [State.link, State.link, ← hlinks]
    exact Four.get_map ..
  refine ⟨fun n => ?_, fun n => ?_, rfl, rfl, rfl, rfl, rfl, rfl, rfl, rfl, rfl, rfl, rfl, rfl, hinterval, hthreshold, fun l => ?_,
    hindex, htariffs, htransit, beq_eq_false_iff_ne.2 hstage, hmode, hmark.trans hxmark⟩
  · rw [hrecord, State.record_resetEvent s cause hc]
  · rw [hhold, State.hold_resetEvent s cause hc]
    exact ⟨rfl, rfl⟩
  · rw [hlink]
    exact ⟨rfl, rfl, rfl, rfl, rfl, rfl, rfl, rfl, rfl, rfl, rfl, rfl⟩

theorem State.volatileCleared_softReset {s x : State} (hc : s.canonical) (hx : s.sameRetained x) :
    s.volatileCleared x.softReset :=
  State.volatileCleared_reset .softReset x.softReset.power hc hx nofun rfl rfl

/-- R167, R168: the start that follows the reset event of a RESET. -/
theorem State.power_softReset {s x : State} (hx : s.sameRetained x) :
    x.softReset.power.cause = (if s.power.mark = true then .cold else .softReset) ∧ x.softReset.power.stage = .warmUp := by
  obtain ⟨-, -, -, -, -, -, -, -, hmark⟩ := hx
  rw [← hmark]
  exact ⟨rfl, rfl⟩

theorem State.powered_spec {s : State} (h : s.powered = true) :
    s.power.supply = true ∧ s.power.rstLow = false ∧ s.inRetain = false := by
  obtain ⟨hs, hr, hm⟩ := State.powered_iff.1 h
  exact ⟨hs, hr, State.inRetain_eq_false.2 hm⟩

theorem exec_rstFall_powered {s : State} (h : s.powered = true) : exec .rstFall s = .next s.pinReset := by
  obtain ⟨hs, hr, hm⟩ := State.powered_spec h
  rw [exec_rstFall_eq, execRstFall, hs, hr, hm]
  rfl

theorem exec_mainSupplyLoss_powered {s : State} (h : s.powered = true) :
    exec .mainSupplyLoss s = .next { s.resetEvent .powerReturn with
      power := { (s.resetEvent .powerReturn).power with supply := false } } := by
  obtain ⟨hs, -, hm⟩ := State.powered_spec h
  rw [exec_mainSupplyLoss_eq, execMainSupplyLoss, hs, hm]
  rfl

/-! ### The select period after a RESET -/

theorem State.sameRetained_openSelect (s : State) : s.sameRetained s.openSelect := by
  have hmark : s.wake.power.mark = s.power.mark := by
    rw [State.power_wake_eq]
    split <;> rfl
  refine ⟨?_, ?_, ?_, ?_, ?_, ?_, rfl, rfl, hmark⟩ <;> simp [State.openSelect_eq]

/-- R153: what a read keeps of the command unit. -/
theorem State.readTaken_cmd (s : State) :
    s.readTaken.cmd.interval = s.cmd.interval ∧ s.readTaken.cmd.threshold = s.cmd.threshold ∧
      s.readTaken.cmd.armed = s.cmd.armed ∧ s.readTaken.cmd.sdo = s.cmd.sdo := by
  unfold State.readTaken
  dsimp only
  split <;> exact ⟨rfl, rfl, rfl, rfl⟩

theorem State.sameRetained_readTaken {s x : State} (h : s.sameRetained x) : s.sameRetained x.readTaken := by
  obtain ⟨h1, h2, h3, h4, h5, h6, h7, h8, h9⟩ := h
  obtain ⟨hinterval, hthreshold, -, -⟩ := x.readTaken_cmd
  refine ⟨?_, ?_, ?_, ?_, ?_, ?_, hinterval.trans h7, hthreshold.trans h8, ?_⟩ <;> rw [State.readTaken_frame] <;> assumption

theorem State.sameRetained_readPeriod {s x : State} (h : s.sameRetained x) (rest : List Byte) :
    s.sameRetained (x.readPeriod rest) := by
  have hshift : s.sameRetained (x.shiftOut rest.length) := h
  unfold State.readPeriod
  dsimp only
  split
  · exact State.sameRetained_readTaken hshift
  · exact hshift

theorem State.sameRetained_periodBytes {s : State} (h : s.cmd.armed = true) (bytes : List Byte) :
    s.sameRetained (s.openSelect.periodBytes bytes) := by
  cases bytes with
  | nil => exact s.sameRetained_openSelect
  | cons b rest =>
    have harmed : s.openSelect.cmd.armed = true := h
    rw [State.periodBytes]
    split
    · exact State.sameRetained_readPeriod s.sameRetained_openSelect rest
    · exact s.sameRetained_openSelect

/-- R168: the rows that end a select period. -/
def endsSelect (c : Instr) : Prop :=
  c = .softResetEffect ∨ c = .responseRead ∨ (∃ k, c = rowOf k) ∨ ∃ bytes, c = .undecodableBlock bytes

theorem not_endsSelect_rstFall : ¬ endsSelect .rstFall := by
  rintro (h | h | ⟨k, h⟩ | ⟨bytes, h⟩)
  · cases h
  · cases h
  · cases k <;> cases h
  · cases h

theorem not_endsSelect_mainSupplyLoss : ¬ endsSelect .mainSupplyLoss := by
  rintro (h | h | ⟨k, h⟩ | ⟨bytes, h⟩)
  · cases h
  · cases h
  · cases k <;> cases h
  · cases h

theorem rowOf_ne_read (k : Command) : rowOf k ≠ .responseRead ∧ ∀ bytes, rowOf k ≠ .undecodableBlock bytes := by
  cases k <;> exact ⟨nofun, nofun⟩

/-- R154: what the host has read when a select period with these rows ends: the whole of the unit's answer. -/
def State.readWhole (s : State) (c : Instr) (x : State) : Prop :=
  ∀ r, s.cmd.state = .reply r →
    (c = .responseRead ∨ ∃ rest : List Byte, c = .undecodableBlock (255 :: rest) ∧ r.bytes.length ≤ rest.length) →
      x.cmd.lastRead = some r.bytes ∧ x.cmd.sdo = r.bytes

theorem State.readTaken_reply {s : State} {r : MgmtResponse} (h : s.cmd.state = .reply r) :
    s.readTaken.cmd.lastRead = some r.bytes := by
  have hblock : s.readBlock = r := by rw [State.readBlock, h]
  unfold State.readTaken
  dsimp only
  rw [h, hblock]

/-- R154: a read as long as the block shifts out the whole of it. -/
theorem State.shiftOut_readTaken {s : State} {r : MgmtResponse} {n : Nat} (h : s.cmd.state = .reply r) (hn : r.bytes.length ≤ n) :
    (s.shiftOut n).readTaken.cmd.lastRead = some r.bytes ∧ (s.shiftOut n).readTaken.cmd.sdo = r.bytes := by
  have hblock : s.readBlock = r := by rw [State.readBlock, h]
  have hstate : (s.shiftOut n).cmd.state = .reply r := h
  refine ⟨State.readTaken_reply hstate, ?_⟩
  obtain ⟨-, -, -, hsdo⟩ := (s.shiftOut n).readTaken_cmd
  rw [hsdo, State.shiftOut, hblock]
  exact List.take_of_length_le hn

/-- R168: with a RESET armed, a select period ends in the reset, from a state with the retained stores of before. -/
theorem exec_armed {s : State} {c : Instr} (hp : s.powered = true) (ha : s.cmd.armed = true) (hc : endsSelect c) :
    ∃ x : State, exec c s = .next x.softReset ∧ s.sameRetained x ∧ s.readWhole c x := by
  rcases hc with rfl | rfl | ⟨k, rfl⟩ | ⟨bytes, rfl⟩
  case inl =>
    refine ⟨s, ?_, s.sameRetained_refl, fun r _ h => ?_⟩
    · rw [exec_softResetEffect_eq, hp, ha]
      rfl
    · rcases h with h | ⟨rest, h, -⟩ <;> cases h
  case inr.inl =>
    have harmed : s.openSelect.readOut.cmd.armed = true :=
      ((s.openSelect.shiftOut s.openSelect.readBlock.bytes.length).readTaken_cmd.2.2.1).trans ha
    refine ⟨s.openSelect.readOut, ?_, ?_, fun r hr _ => ?_⟩
    · rw [exec_responseRead_eq, if_pos hp, State.endSelect, if_pos harmed]
    · have hshift : s.sameRetained (s.openSelect.shiftOut s.openSelect.readBlock.bytes.length) := s.sameRetained_openSelect
      exact State.sameRetained_readTaken hshift
    · have hstate : s.openSelect.cmd.state = .reply r := hr
      have hblock : s.openSelect.readBlock = r := by rw [State.readBlock, hstate]
      exact State.shiftOut_readTaken hstate (Nat.le_of_eq (by rw [hblock]))
  case inr.inr.inl =>
    have harmed : s.openSelect.cmd.armed = true := ha
    refine ⟨s.openSelect, ?_, s.sameRetained_openSelect, fun r _ h => ?_⟩
    · rw [exec_rowOf, State.command, State.blockPeriod, if_pos hp]
      dsimp only
      rw [if_pos harmed]
    · obtain ⟨hread, hblock⟩ := rowOf_ne_read k
      rcases h with h | ⟨rest, h, -⟩
      · exact absurd h hread
      · exact absurd h (hblock _)
  case inr.inr.inr =>
    refine ⟨s.openSelect.periodBytes bytes, ?_, State.sameRetained_periodBytes ha bytes, fun r hr h => ?_⟩
    · rw [exec_undecodableBlock_eq, if_pos hp, State.rawPeriod, if_pos ha]
    · rcases h with h | ⟨rest, h, hlen⟩
      · cases h
      · cases h
        have hstate : s.openSelect.cmd.state = .reply r := hr
        have hblock : s.openSelect.readBlock = r := by rw [State.readBlock, hstate]
        have hperiod : s.openSelect.periodBytes (255 :: rest) = (s.openSelect.shiftOut rest.length).readTaken := by
          rw [State.periodBytes, if_pos (by decide), State.readPeriod, hblock, if_pos hlen]
        rw [hperiod]
        exact State.shiftOut_readTaken hstate hlen

/-- R153, R166 to R168: the cause that a reset event records, where it leaves power control, and what the host has read. -/
def State.resetRecorded (s t : State) (c : Instr) : Prop :=
  (c = .rstFall → t.power.cause = .pinReset ∧ t.power.rstLow = true ∧ t.power.stage = .held) ∧
    (c = .mainSupplyLoss → t.power.cause = .powerReturn ∧ t.power.supply = false ∧ t.power.stage = .held) ∧
    (∀ r, s.cmd.armed = true → s.cmd.state = .reply r → (c = .responseRead ∨
      ∃ rest : List Byte, c = .undecodableBlock (255 :: rest) ∧ r.bytes.length ≤ rest.length) →
      t.cmd.lastRead = some r.bytes ∧ t.cmd.sdo = r.bytes) ∧
    (s.cmd.armed = true ∧ endsSelect c →
      t.power.cause = (if s.power.mark = true then .cold else .softReset) ∧ t.power.stage = .warmUp)

/-- R23, R167: RST_FALL in a chip that is powered. -/
theorem exec_rstFall_clears {s : State} (hp : s.powered = true) (hc : s.canonical) :
    ∃ t, exec .rstFall s = .next t ∧ s.volatileCleared t ∧ s.resetRecorded t .rstFall := by
  refine ⟨_, exec_rstFall_powered hp,
    State.volatileCleared_reset .pinReset s.pinReset.power hc s.sameRetained_refl nofun rfl rfl,
    fun _ => ⟨rfl, rfl, rfl⟩, nofun, fun r _ _ h => ?_, fun h => absurd h.2 not_endsSelect_rstFall⟩
  rcases h with h | ⟨rest, h, -⟩ <;> cases h

/-- R23, R166: MAIN_SUPPLY_LOSS in a chip that is powered. -/
theorem exec_mainSupplyLoss_clears {s : State} (hp : s.powered = true) (hc : s.canonical) :
    ∃ t, exec .mainSupplyLoss s = .next t ∧ s.volatileCleared t ∧ s.resetRecorded t .mainSupplyLoss := by
  refine ⟨_, exec_mainSupplyLoss_powered hp, State.volatileCleared_reset .powerReturn _ hc s.sameRetained_refl nofun rfl rfl,
    nofun, fun _ => ⟨rfl, rfl, rfl⟩, fun r _ _ h => ?_, fun h => absurd h.2 not_endsSelect_mainSupplyLoss⟩
  rcases h with h | ⟨rest, h, -⟩ <;> cases h

/-- R23, R168: the end of the select period after a RESET. -/
theorem exec_armed_clears {s : State} {c : Instr} (hp : s.powered = true) (hc : s.canonical) (ha : s.cmd.armed = true)
    (he : endsSelect c) : ∃ t, exec c s = .next t ∧ s.volatileCleared t ∧ s.resetRecorded t c := by
  obtain ⟨x, hexec, hx, hread⟩ := exec_armed hp ha he
  refine ⟨_, hexec, State.volatileCleared_softReset hc hx, fun h => ?_, fun h => ?_, fun r _ hr h => hread r hr h,
    fun _ => State.power_softReset hx⟩
  · exact absurd (h ▸ he) not_endsSelect_rstFall
  · exact absurd (h ▸ he) not_endsSelect_mainSupplyLoss

/-- Settles O55: the two supply and pin events, and the select period after a RESET. -/
theorem resetEventsClearTheVolatileStores : Obligations.ResetEventsClearTheVolatileStores := by
  intro s c hp hc reset h
  obtain ⟨t, hexec, hcleared, hfall, hloss, hread, hreset⟩ :
      ∃ t, exec c s = .next t ∧ s.volatileCleared t ∧ s.resetRecorded t c := by
    rcases h with rfl | rfl | ⟨ha, he⟩
    · exact exec_rstFall_clears hp hc
    · exact exec_mainSupplyLoss_clears hp hc
    · exact exec_armed_clears hp hc ha he
  obtain ⟨hrecord, hhold, hengines, hindexUnit, hdeadlines, htime, hrouter, halloc, hcheck, hnotices, hidle, himmediate, hheld,
    harmed, hinterval, hthreshold, hlink, hindex, htariffs, htransit, hready, hmode, hmark⟩ := hcleared
  exact ⟨t, hexec, hrecord, hhold, hengines, hindexUnit, hdeadlines, htime, hrouter, halloc, hcheck, hnotices, hidle, himmediate,
    hheld, harmed, hinterval, hthreshold, hlink, hindex, htariffs, htransit, hready, hmode, hmark, hfall, hloss, hread, hreset⟩

end Sys2Proof.Machine
end

section
/-! The management port: select periods, the screening of blocks, and what the command unit starts (R27, R60, R68, R86, R114,
R115, R153 to R155, R164). -/

namespace Sys2Proof.Machine

theorem exec_mselAssert_eq (s : State) : exec .mselAssert s = .next (if s.powered then s.openSelect else s) := rfl

theorem exec_managementRequestPlaced_eq (s : State) :
    exec .managementRequestPlaced s = execManagementRequestPlaced s := rfl

/-! ### Screening (R155) -/

/-- R155: step 1, for a block whose extent is complete. -/
theorem decodeBlock_wrongCrc {b len : Byte} {rest : List Byte} (h : len.toNat + 2 ≤ rest.length)
    (hcrc : ¬((b :: len :: rest).drop (len.toNat + 2)).take 2 = crcBytes ((b :: len :: rest).take (len.toNat + 2))) :
    decodeBlock (b :: len :: rest) = .error .crcError := by
  rw [decodeBlock_cons]
  dsimp only
  rw [if_neg (Nat.not_lt.2 h), if_neg hcrc]

/-- R155: steps 2 and 3, for a block whose CRC matches. -/
theorem decodeBlock_matching {b len : Byte} {rest : List Byte} (h : len.toNat + 2 ≤ rest.length)
    (hcrc : ((b :: len :: rest).drop (len.toNat + 2)).take 2 = crcBytes ((b :: len :: rest).take (len.toNat + 2))) :
    (24 < b.toNat → decodeBlock (b :: len :: rest) = .error .badCommand) ∧
    (b.toNat ≤ 24 → commandLength b.toNat ≠ some len.toNat → decodeBlock (b :: len :: rest) = .error .badLength) ∧
    (commandLength b.toNat = some len.toNat → ∃ c, decodeBlock (b :: len :: rest) = .ok c ∧ c.opcode = b) := by
  have hmatch := decodeBlock_cons b len rest
  dsimp only at hmatch
  rw [if_neg (Nat.not_lt.2 h), if_pos hcrc] at hmatch
  obtain ⟨hsame, htable⟩ := commandFields_isSome b.toNat (rest.take len.toNat)
  refine ⟨fun hb => ?_, fun hb hlen => ?_, fun hlen => ?_⟩
  · rw [decide_eq_false (Nat.not_le.2 hb), Option.isSome_eq_false_iff, Option.isNone_iff_eq_none] at htable
    rw [hmatch, htable]
  · rw [decide_eq_true hb] at htable
    rw [htable] at hsame
    obtain ⟨m, hm⟩ := Option.isSome_iff_exists.1 htable
    obtain ⟨c, hc⟩ := Option.isSome_iff_exists.1 hsame
    rw [hm] at hlen
    rw [hmatch, hm, hc]
    exact if_neg fun he => hlen (by rw [he])
  · rw [hlen, Option.isSome_some] at hsame
    obtain ⟨c, hc⟩ := Option.isSome_iff_exists.1 hsame
    refine ⟨c, ?_, commandFields_opcode hc⟩
    rw [hmatch, hlen, hc]
    exact if_pos rfl

theorem decodeBlock_short {bytes : List Byte} (h : bytes.length < 2) : decodeBlock bytes = .error .crcError := by
  match bytes, h with
  | [], _ => rfl
  | [_], _ => rfl

/-- R154, R155: a block that is refused, answered at once. -/
theorem exec_undecodableBlock_refused {s : State} {b : Byte} {rest : List Byte} {e : BlockError} (hb : b ≠ 255)
    (he : decodeBlock (b :: rest) = .error e) (hp : s.powered = true) (ha : s.cmd.armed = false) :
    exec (.undecodableBlock (b :: rest)) s =
      .next ((s.openSelect.answerAtOnce b (blockErrorStatus e) .bare).closeSelect) := by
  have hunarmed : ¬s.openSelect.cmd.armed = true := by
    rw [State.openSelect_cmd, ha]
    decide
  have hread : ¬(b == Config.readOpcode) = true := by simpa using hb
  rw [exec_undecodableBlock_eq, if_pos hp, State.rawPeriod, if_neg (by rw [ha]; decide), State.periodBytes, if_neg hread,
    if_neg hunarmed, State.blockBytes, he]

/-- Settles O42: the steps of the screening, and the answer of a block that fails one. -/
theorem blocksAreScreened : Obligations.BlocksAreScreened := by
  refine ⟨fun bytes b len rest hbytes => ?steps, fun bytes h => decodeBlock_short h, fun bytes b rest e s hbytes hb he hp ha => ?refused,
    fun c s hop hp ha => ?notTaken⟩
  case steps =>
    subst hbytes
    refine ⟨fun h => ?_, fun h => ⟨decodeBlock_wrongCrc h, fun hcrc => (decodeBlock_matching h hcrc).1,
      fun hcrc => (decodeBlock_matching h hcrc).2.1, fun hcrc => (decodeBlock_matching h hcrc).2.2⟩⟩
    rw [decodeBlock_cons]
    exact if_pos h
  case refused =>
    subst hbytes
    rw [exec_undecodableBlock_refused hb he hp ha, State.answerAtOnce_closeSelect]
  case notTaken =>
    obtain ⟨hstarting, hbusy⟩ := State.command_notTaken c.opcode (takeCommand c) hp ha hop
    refine ⟨fun hr hb => ?_, fun hr hb => ?_⟩
    · rw [exec_rowOf, hstarting hr, State.answerAtOnce_closeSelect, if_neg (by rw [hb]; decide)]
    · rw [exec_rowOf, hbusy hr hb, State.answerAtOnce_closeSelect, if_pos hb]

/-! ### Reads (R153, R154) -/

/-- R153: the block that a read returns, by the unit's state. -/
theorem State.readBlock_of {s : State} {block : MgmtResponse}
    (h : s.cmd.state = .reply block ∨ (s.cmd.state = .idle ∧ block = ⟨255, .ok, .bare⟩) ∨
      ((∃ job, s.cmd.state = .busy job) ∧ block = s.cmd.immediate.getD ⟨255, .busy, .bare⟩)) : s.readBlock = block := by
  rcases h with h | ⟨h, rfl⟩ | ⟨⟨job, h⟩, rfl⟩ <;> rw [State.readBlock, h] <;> rfl

theorem exec_responseRead_unarmed {s : State} (hp : s.powered = true) (ha : s.cmd.armed = false) :
    exec .responseRead s = .next s.openSelect.readOut.closeSelect := by
  have harmed : s.openSelect.readOut.cmd.armed = false :=
    ((s.openSelect.shiftOut s.openSelect.readBlock.bytes.length).readTaken_cmd.2.2.1).trans ha
  rw [exec_responseRead_eq, if_pos hp, State.endSelect, if_neg (by rw [harmed]; decide)]

/-- R153, R154: a read of the whole block, where the unit holds `block` to return. -/
theorem State.readOut_eq {s : State} {block : MgmtResponse} (h : s.readBlock = block) :
    s.readOut = ({ s with cmd := { s.cmd with sdo := block.bytes } } : State).readTaken := by
  rw [State.readOut, State.shiftOut, h, List.take_length]

theorem State.readOut_reply {s : State} {r : MgmtResponse} (h : s.cmd.state = .reply r) :
    s.readOut = { s with cmd := { s.cmd with state := .idle, sdo := r.bytes, lastRead := some r.bytes } } := by
  have hblock : ({ s with cmd := { s.cmd with sdo := r.bytes } } : State).readBlock = r := State.readBlock_of (.inl h)
  rw [State.readOut_eq (State.readBlock_of (.inl h)), State.readTaken, hblock]
  dsimp only
  rw [h]

theorem State.readOut_idle {s : State} (h : s.cmd.state = .idle) :
    s.readOut = { s with cmd := { s.cmd with sdo := MgmtResponse.bytes ⟨255, .ok, .bare⟩
                                             lastRead := some (MgmtResponse.bytes ⟨255, .ok, .bare⟩) } } := by
  have hblock : ∀ sdo, ({ s with cmd := { s.cmd with sdo := sdo } } : State).readBlock = ⟨255, .ok, .bare⟩ := fun _ =>
    State.readBlock_of (.inr (.inl ⟨h, rfl⟩))
  rw [State.readOut_eq (hblock s.cmd.sdo), State.readTaken, hblock]
  dsimp only
  rw [h]

theorem State.readOut_busy {s : State} {job : Job} (h : s.cmd.state = .busy job) :
    s.readOut = { s with cmd := { s.cmd with
      immediate := none
      sdo := (s.cmd.immediate.getD ⟨255, .busy, .bare⟩).bytes
      lastRead := some (s.cmd.immediate.getD ⟨255, .busy, .bare⟩).bytes } } := by
  have hblock : ∀ sdo, ({ s with cmd := { s.cmd with sdo := sdo } } : State).readBlock =
      s.cmd.immediate.getD ⟨255, .busy, .bare⟩ := fun _ =>
    State.readBlock_of (.inr (.inr ⟨⟨job, h⟩, rfl⟩))
  rw [State.readOut_eq (hblock s.cmd.sdo), State.readTaken, hblock]
  dsimp only
  rw [h]

theorem exec_undecodableBlock_period {s : State} (hp : s.powered = true) (ha : s.cmd.armed = false) (bytes : List Byte) :
    exec (.undecodableBlock bytes) s = .next (s.openSelect.periodBytes bytes).closeSelect := by
  rw [exec_undecodableBlock_eq, if_pos hp, State.rawPeriod, if_neg (by rw [ha]; decide)]

/-- R154: a read ended before the block is out takes nothing. -/
theorem exec_read_short {s : State} {block : MgmtResponse} {rest : List Byte} (hp : s.powered = true) (ha : s.cmd.armed = false)
    (hblock : s.readBlock = block) (h : rest.length < block.bytes.length) :
    exec (.undecodableBlock (255 :: rest)) s =
      .next { s.wake with cmd := { s.cmd with selected := false, sdo := block.bytes.take rest.length } } := by
  have hopen : s.openSelect.readBlock = block := hblock
  rw [exec_undecodableBlock_period hp ha, State.periodBytes, if_pos (by decide), State.readPeriod, hopen,
    if_neg (Nat.not_le.2 h), State.shiftOut, hopen]
  rfl

/-- R154: a read of the block and more is a whole read. -/
theorem exec_read_whole {s : State} {block : MgmtResponse} {rest : List Byte} (hp : s.powered = true) (ha : s.cmd.armed = false)
    (hblock : s.readBlock = block) (h : block.bytes.length ≤ rest.length) :
    exec (.undecodableBlock (255 :: rest)) s = exec .responseRead s := by
  have hopen : s.openSelect.readBlock = block := hblock
  rw [exec_undecodableBlock_period hp ha, exec_responseRead_unarmed hp ha, State.periodBytes, if_pos (by decide),
    State.readPeriod, hopen, if_pos h, State.readOut_eq hopen, State.shiftOut, hopen, List.take_of_length_le h]

theorem State.sdo_readOut {s : State} {block : MgmtResponse} (h : s.readBlock = block) : s.readOut.cmd.sdo = block.bytes := by
  rw [State.readOut_eq h]
  exact (State.readTaken_cmd _).2.2.2

theorem State.sdoByte_succ (s : State) (i : Nat) :
    s.sdoByte (i + 1) = if h : i < s.cmd.sdo.length then s.cmd.sdo[i] else 255 := by
  rw [State.sdoByte, if_neg (Nat.succ_ne_zero i), Nat.add_sub_cancel, List.getD_eq_getElem?_getD]
  split
  · rename_i h
    rw [List.getElem?_eq_getElem h, Option.getD_some]
  · rename_i h
    rw [List.getElem?_eq_none (Nat.not_lt.1 h), Option.getD_none]

theorem State.sdoByte_quiet {s : State} (h : s.cmd.sdo = []) (i : Nat) : s.sdoByte i = 255 := by
  rw [State.sdoByte, h]
  split <;> rfl

/-! ### Command blocks leave SDO alone (R154) -/

theorem State.sdo_answerAtOnce (s : State) (op : Byte) (st : Status) (body : MgmtBody) :
    (s.answerAtOnce op st body).cmd.sdo = s.cmd.sdo := by
  unfold State.answerAtOnce
  split <;> rfl

theorem State.sdo_placeMgmt (s : State) (g : Lane) (m : MgmtReq) : (s.placeMgmt g m).cmd.sdo = s.cmd.sdo := by
  unfold State.placeMgmt
  split <;> rfl

theorem State.sdo_startAccount (s : State) (g : Lane) (m : MgmtReq) : (s.startAccount g m).cmd.sdo = s.cmd.sdo :=
  State.sdo_placeMgmt _ g m

theorem State.sdo_startByTicket (s : State) (op : Byte) (t : Ticket) (m : MgmtReq) :
    (s.startByTicket op t m).cmd.sdo = s.cmd.sdo := by
  unfold State.startByTicket
  dsimp only
  split
  · exact State.sdo_startAccount ..
  · rfl

theorem State.sdo_changeMode (s : State) (m : Mode) : (s.changeMode m).cmd.sdo = s.cmd.sdo := by
  unfold State.changeMode
  cases m with
  | run => rfl
  | economy => dsimp only; split <;> rfl
  | standby => dsimp only; split <;> rfl
  | retain =>
    dsimp only
    split
    · rfl
    · split <;> rfl

theorem sdo_takeTransfer (src dst : Handle) (how : Byte) (a : S8) (s : State) :
    (takeTransfer src dst how a s).cmd.sdo = s.cmd.sdo := by
  unfold takeTransfer
  split
  · rfl
  · exact State.sdo_placeMgmt ..

theorem sdo_takeMode (code : Byte) (s : State) : (takeMode code s).cmd.sdo = s.cmd.sdo := by
  unfold takeMode
  split
  · rfl
  · split
    · rfl
    · exact State.sdo_changeMode ..

theorem sdo_takeTransitClear (selector : Byte) (h : Handle) (s : State) :
    (takeTransitClear selector h s).cmd.sdo = s.cmd.sdo := by
  unfold takeTransitClear
  split
  · rfl
  · split
    · rfl
    · exact State.sdo_startAccount ..

theorem sdo_takeUpdate (h : Handle) (mask : Byte) (floor low : B6) (set : TariffSet) (s : State) :
    (takeUpdate h mask floor low set s).cmd.sdo = s.cmd.sdo := by
  unfold takeUpdate
  split
  · rfl
  · split
    · rfl
    · split
      · rfl
      · exact State.sdo_startAccount ..

theorem sdo_takeRead (h : Handle) (form : Byte) (s : State) : (takeRead h form s).cmd.sdo = s.cmd.sdo := by
  unfold takeRead
  split
  · exact State.sdo_startAccount ..
  · split
    · exact State.sdo_startAccount ..
    · rfl

/-- R154: no command of the port shifts out a byte. -/
theorem sdo_takeCommand (c : Command) (s : State) : (takeCommand c s).cmd.sdo = s.cmd.sdo := by
  cases c with
  | poll => exact State.sdo_answerAtOnce ..
  | enrol key balance floor lowMark tariffs =>
    show (takeEnrol key balance floor lowMark tariffs s).cmd.sdo = _
    unfold takeEnrol
    split <;> rfl
  | find key =>
    show (takeFind key s).cmd.sdo = _
    unfold takeFind
    split <;> rfl
  | read h form => exact sdo_takeRead ..
  | update h mask floor lowMark tariffs => exact sdo_takeUpdate ..
  | freeze h => exact State.sdo_startAccount ..
  | thaw h => exact State.sdo_startAccount ..
  | retire h => exact State.sdo_startAccount ..
  | topup h amount =>
    show (takeTopup h amount s).cmd.sdo = _
    unfold takeTopup
    split
    · rfl
    · exact State.sdo_startAccount ..
  | adjust h amount =>
    show (takeAdjust h amount s).cmd.sdo = _
    unfold takeAdjust
    split
    · rfl
    · exact State.sdo_startAccount ..
  | transfer src dst how amount => exact sdo_takeTransfer ..
  | transitClear selector h => exact sdo_takeTransitClear ..
  | restore h balance floor lowMark tariffs =>
    show (takeRestore h balance floor lowMark tariffs s).cmd.sdo = _
    unfold takeRestore
    split
    · rfl
    · exact State.sdo_startAccount ..
  | holdRead t => exact State.sdo_startByTicket ..
  | holdRelease t => exact State.sdo_startByTicket ..
  | holdCapture t => exact State.sdo_startByTicket ..
  | tariffSet n enabled price maxUnits window action =>
    show (takeTariffSet n enabled price maxUnits window action s).cmd.sdo = _
    unfold takeTariffSet
    split <;> rfl
  | tariffRead n =>
    show (takeTariffRead n s).cmd.sdo = _
    unfold takeTariffRead
    split <;> rfl
  | linkSet l enable baud high resume =>
    show (takeLinkSet l enable baud high resume s).cmd.sdo = _
    unfold takeLinkSet
    split <;> rfl
  | linkRead l =>
    show (takeLinkRead l s).cmd.sdo = _
    unfold takeLinkRead
    split <;> rfl
  | noticeRead => rfl
  | config interval threshold =>
    show (takeConfig interval threshold s).cmd.sdo = _
    unfold takeConfig
    split <;> rfl
  | mode code => exact sdo_takeMode ..
  | timeRead => rfl
  | reset => rfl

/-- R154: a select period that carries a command block, whatever becomes of the block. -/
theorem State.sdo_command (s : State) (c : Command) (h : s.powered = true) :
    (s.command c.opcode (takeCommand c)).cmd.sdo = [] := by
  have hopen : s.openSelect.cmd.sdo = [] := rfl
  rw [State.command, State.blockPeriod, if_pos h]
  dsimp only
  split
  · rfl
  · show (s.openSelect.screened c.opcode (takeCommand c)).cmd.sdo = []
    unfold State.screened
    split
    · rw [State.sdo_answerAtOnce, hopen]
    · split
      · rw [State.sdo_answerAtOnce, hopen]
      · rw [sdo_takeCommand, hopen]

/-- R27: a held request is placed where the queue has room. -/
theorem exec_managementRequestPlaced_room {s : State} {g : Lane} {r : Request} (h : s.cmd.held = some (g, r))
    (hroom : (s.engine g).queue.length < 8) :
    exec .managementRequestPlaced s = .next ({ s with cmd := { s.cmd with held := none } }.setEngine g
      { s.engine g with queue := (s.engine g).queue ++ [r] }) := by
  have hq : s.queueRoom g = true := by
    rw [State.queueRoom]
    exact decide_eq_true hroom
  rw [exec_managementRequestPlaced_eq, execManagementRequestPlaced, h]
  dsimp only
  rw [if_pos hq]
  rfl

/-- Settles O41: reads by the unit's state, SDO, and the placing. -/
theorem thePortReadsAndPlaces : Obligations.ThePortReadsAndPlaces := by
  refine ⟨fun s => ⟨fun hp => ?select, fun hp ha => ⟨fun r h => ?reply, fun h => ?idle, fun job h => ?busy⟩,
    fun g r => exec_managementRequestPlaced_room⟩, fun s rest block hp ha h => ?period, fun s t c hp ht => ?command,
    fun s hp ha => ?empty⟩
  case select => rw [exec_mselAssert_eq, if_pos hp, State.openSelect_eq]
  case reply =>
    rw [exec_responseRead_unarmed hp ha, State.readOut_reply (s := s.openSelect) h]
    rfl
  case idle =>
    rw [exec_responseRead_unarmed hp ha, State.readOut_idle (s := s.openSelect) h]
    rfl
  case busy =>
    rw [exec_responseRead_unarmed hp ha, State.readOut_busy (s := s.openSelect) h]
    rfl
  case period =>
    have hblock := State.readBlock_of h
    refine ⟨exec_read_short hp ha hblock, exec_read_whole hp ha hblock, _, exec_responseRead_unarmed hp ha, rfl, fun i => ?_⟩
    rw [State.sdoByte_succ]
    have hsdo : s.openSelect.readOut.closeSelect.cmd.sdo = block.bytes := State.sdo_readOut (s := s.openSelect) hblock
    simp only [hsdo]
  case command =>
    rw [exec_rowOf] at ht
    cases ht
    exact State.sdoByte_quiet (s.sdo_command c hp)
  case empty =>
    rw [exec_undecodableBlock_period hp ha]
    rfl

end Sys2Proof.Machine
end

section
/-! What the command unit starts or refuses before an engine takes part (R27, R49, R60, R68, R86, R114, R115, R140, R157,
R158). -/

namespace Sys2Proof.Machine

/-! ### The placing of a request by a command that makes the unit BUSY (R27, R153) -/

theorem State.busy_place_room {s : State} {job : Job} {g : Lane} {m : MgmtReq} (h : (s.engine g).queue.length < 8) :
    ((s.openSelect.busy job).placeMgmt g m).closeSelect = (s.begun job).enqueue g (.mgmt m) := by
  have hroom : ((s.openSelect.busy job).engine g).queue.length < 8 := by
    have hengine : (s.openSelect.busy job).engine g = s.engine g := by simp [State.busy, State.openSelect_eq, State.engine]
    rw [hengine]
    exact h
  rw [State.placeMgmt_room m hroom]
  rfl

theorem State.busy_place_full {s : State} {job : Job} {g : Lane} {m : MgmtReq} (h : 8 ≤ (s.engine g).queue.length) :
    ((s.openSelect.busy job).placeMgmt g m).closeSelect = s.begunHeld job g m := by
  have hfull : 8 ≤ ((s.openSelect.busy job).engine g).queue.length := by
    have hengine : (s.openSelect.busy job).engine g = s.engine g := by simp [State.busy, State.openSelect_eq, State.engine]
    rw [hengine]
    exact h
  rw [State.placeMgmt_full m hfull]
  rfl

/-- R155: a port that takes a command. -/
theorem exec_rowOf_open {s : State} (ho : s.portOpen) (c : Command) :
    exec (rowOf c) s = .next (takeCommand c s.openSelect).closeSelect := by
  rw [exec_rowOf, State.command_open _ _ ho]

/-- R27, R153: a command that makes the unit BUSY with a job and places a request. -/
theorem exec_rowOf_places {s : State} (ho : s.portOpen) {c : Command} {job : Job} {g : Lane} {m : MgmtReq}
    (htake : takeCommand c s.openSelect = (s.openSelect.busy job).placeMgmt g m) :
    ((s.engine g).queue.length < 8 → exec (rowOf c) s = .next ((s.begun job).enqueue g (.mgmt m))) ∧
      (8 ≤ (s.engine g).queue.length → exec (rowOf c) s = .next (s.begunHeld job g m)) := by
  refine ⟨fun h => ?_, fun h => ?_⟩
  · rw [exec_rowOf, State.command_open _ _ ho, htake, State.busy_place_room h]
  · rw [exec_rowOf, State.command_open _ _ ho, htake, State.busy_place_full h]

theorem exec_rowOf_refused {s : State} (ho : s.portOpen) {c : Command} {st : Status} {body : MgmtBody}
    (htake : takeCommand c s.openSelect = s.openSelect.reply c.opcode st body) :
    exec (rowOf c) s = .next (s.replied c.opcode st body) := by
  rw [exec_rowOf, State.command_open _ _ ho, htake, State.reply_closeSelect]

/-! ### ENROL and FIND -/

theorem enrolRefusal_none {key : Key} {bal : S8} {floor low : B6} (hb : bal.ok = true) (hf : B6.ok floor = true)
    (hl : B6.ok low = true) (hk : key ≠ 0 ∧ key ≠ 4294967295) (hv : 0 ≤ bal.value) : enrolRefusal key bal floor low = none := by
  simp [enrolRefusal, hb, hf, hl, keyInRange_iff.2 hk, hv]

theorem enrolRefusal_badDigit {key : Key} {bal : S8} {floor low : B6}
    (h : ¬(bal.ok = true ∧ B6.ok floor = true ∧ B6.ok low = true)) : enrolRefusal key bal floor low = some .badDigit := by
  refine if_pos ?_
  rw [← and_assoc, ← Bool.and_eq_true, ← Bool.and_eq_true] at h
  rw [Bool.not_eq_true', Bool.eq_false_iff]
  exact h

theorem enrolRefusal_badRange {key : Key} {bal : S8} {floor low : B6} (hb : bal.ok = true) (hf : B6.ok floor = true)
    (hl : B6.ok low = true) (h : key = 0 ∨ key = 4294967295 ∨ bal.value < 0) :
    enrolRefusal key bal floor low = some .badRange := by
  have hrange : (!keyInRange key || decide (bal.value < 0)) = true := by
    rw [Bool.or_eq_true, decide_eq_true_eq, Bool.not_eq_true']
    obtain hkey | hkey | hneg := h
    · exact .inl (keyInRange_eq_false (.inl hkey))
    · exact .inl (keyInRange_eq_false (.inr hkey))
    · exact .inr hneg
  simp only [enrolRefusal, hb, hf, hl, hrange]
  rfl

theorem takeEnrol_refused {key : Key} {bal : S8} {floor low : B6} {st : Status} (set : TariffSet) (s : State)
    (h : enrolRefusal key bal floor low = some st) : takeEnrol key bal floor low set s = s.reply 1 st .bare := by
  rw [takeEnrol, h]

theorem exec_enrol_search {s : State} (ho : s.portOpen) {key : Key} {bal : S8} {floor low : B6} {set : TariffSet}
    (h : enrolRefusal key bal floor low = none) :
    exec (.enrol key bal floor low set) s = .next { s.begun .enrol with
      indexUnit := { s.indexUnit with mgmt := some (.search ⟨key, bal, floor, low, set⟩) } } := by
  have hindex : s.openSelect.indexUnit = s.indexUnit := by simp [State.openSelect_eq]
  have htake : takeEnrol key bal floor low set s.openSelect = { s.openSelect.busy .enrol with
      indexUnit := { s.openSelect.indexUnit with mgmt := some (.search ⟨key, bal, floor, low, set⟩) } } := by
    rw [takeEnrol, h]
    rfl
  refine (exec_rowOf_open ho (.enrol key bal floor low set)).trans ?_
  rw [takeCommand, htake, hindex]
  rfl

theorem takeFind_badRange {key : Key} (h : key = 0 ∨ key = 4294967295) (s : State) :
    takeFind key s = s.reply 2 .badRange .bare := by
  refine if_pos ?_
  rw [keyInRange_eq_false h]
  rfl

theorem exec_find_search {s : State} (ho : s.portOpen) {key : Key} (h0 : key ≠ 0) (h1 : key ≠ 4294967295) :
    exec (.find (.block key)) s =
      .next { s.begun .find with indexUnit := { s.indexUnit with mgmt := some (.find key) } } := by
  have hindex : s.openSelect.indexUnit = s.indexUnit := by simp [State.openSelect_eq]
  have htake : takeFind key s.openSelect = { s.openSelect.busy .find with
      indexUnit := { s.openSelect.indexUnit with mgmt := some (.find key) } } :=
    if_neg (by rw [keyInRange_iff.2 ⟨h0, h1⟩]; decide)
  refine (exec_rowOf_open ho (.find key)).trans ?_
  rw [takeCommand, htake, hindex]
  rfl

/-! ### TRANSFER and TRANSIT_CLEAR -/

/-- R49, R60, R171: the checks of a TRANSFER as one chain. -/
theorem transferRefusal_eq (src dst : Handle) (how : Byte) (a : S8) (register : TransitState) :
    transferRefusal src dst how a register =
      if a.ok = false then some .badDigit
      else if 1 < how.toNat ∨ (how = 0 ∧ a.value < 1) ∨ src.slot = dst.slot then some .badRange
      else if register ≠ .empty then some .transitBusy else none := by
  have hrange : (1 < how.toNat || (how == 0 && a.value < 1) || src.slot == dst.slot : Bool) = true ↔
      1 < how.toNat ∨ (how = 0 ∧ a.value < 1) ∨ src.slot = dst.slot := by
    simp only [Bool.or_eq_true, Bool.and_eq_true, decide_eq_true_eq, beq_iff_eq, or_assoc]
  unfold transferRefusal
  simp only [hrange, Bool.not_eq_true', bne_iff_ne]

theorem takeTransfer_refused {src dst : Handle} {how : Byte} {a : S8} {s : State} {st : Status}
    (h : transferRefusal src dst how a s.transit.state = some st) :
    takeTransfer src dst how a s = s.reply 10 st (.transfer .none false a []) := by
  rw [takeTransfer, h]
  rfl

theorem takeTransfer_places {src dst : Handle} {how : Byte} {a : S8} {s : State}
    (h : transferRefusal src dst how a s.transit.state = none) :
    takeTransfer src dst how a s = (s.busy (.transfer none)).placeMgmt (laneOf src.slot.toNat)
      (if laneOf src.slot.toNat = laneOf dst.slot.toNat then .sameTransfer src dst (how == 1) a
        else .step1 src dst (how == 1) a) := by
  rw [takeTransfer, h]
  simp only [groupOf, beq_iff_eq]

theorem State.transit_openSelect (s : State) : s.openSelect.transit = s.transit := by simp [State.openSelect_eq]

theorem exec_transfer_refused {s : State} (ho : s.portOpen) {src dst : Handle} {how : Byte} {a : S8} {st : Status}
    (h : transferRefusal src dst how a s.transit.state = some st) :
    exec (.transfer src dst how a) s = .next (s.replied 10 st (.transfer .none false a [])) :=
  exec_rowOf_refused ho (c := .transfer src dst how a) (takeTransfer_refused (by rw [State.transit_openSelect]; exact h))

theorem takeTransitClear_refused {how : Byte} {h : Handle} {s : State} (hc : s.transit.state ≠ .stranded ∨ 1 < how.toNat) :
    takeTransitClear how h s = s.reply 11 .badRange .bare := by
  refine if_pos ?_
  rw [Bool.or_eq_true, decide_eq_true_eq, bne_iff_ne]
  exact hc.symm

theorem takeTransitClear_taken {how : Byte} {h : Handle} {s : State} (hs : s.transit.state = .stranded) (hh : how.toNat ≤ 1) :
    takeTransitClear how h s = if how = 0 then { s with transit := Transit.cleared }.reply 11 .ok (.dropped s.transit.amount)
      else s.startAccount (groupOf h) (.transitCredit h) := by
  have hpass : ¬(1 < how.toNat || s.transit.state != .stranded : Bool) = true := by
    rw [Bool.or_eq_true, decide_eq_true_eq, bne_iff_ne]
    rintro (h1 | h1)
    · omega
    · exact h1 hs
  rw [takeTransitClear, if_neg hpass]
  simp only [beq_iff_eq]

theorem exec_transitClear_dropped {s : State} (ho : s.portOpen) (h : Handle) (hs : s.transit.state = .stranded) :
    exec (.transitClear 0 h) s =
      .next { s.replied 11 .ok (.dropped s.transit.amount) with transit := Transit.cleared } := by
  refine (exec_rowOf_open ho (.transitClear 0 h)).trans ?_
  rw [takeCommand,
    takeTransitClear_taken (by rw [State.transit_openSelect]; exact hs) (by decide), if_pos rfl, State.transit_openSelect]
  rfl

/-! ### Account commands -/

theorem updateDigitsOk_of_ok {mask : Byte} {floor low : B6} (hf : mask.getLsbD 0 = true → B6.ok floor = true)
    (hl : mask.getLsbD 1 = true → B6.ok low = true) : updateDigitsOk mask floor low = true := by
  rw [updateDigitsOk, Bool.and_eq_true, Bool.or_eq_true, Bool.or_eq_true, Bool.not_eq_true', Bool.not_eq_true']
  refine ⟨?_, ?_⟩
  · cases hm : mask.getLsbD 0
    · exact .inl rfl
    · exact .inr (hf hm)
  · cases hm : mask.getLsbD 1
    · exact .inl rfl
    · exact .inr (hl hm)

theorem takeUpdate_places {h : Handle} {mask : Byte} {floor low : B6} {set : TariffSet} {s : State} (h1 : 1 ≤ mask.toNat)
    (h7 : mask.toNat ≤ 7) (hf : mask.getLsbD 0 = true → B6.ok floor = true) (hl : mask.getLsbD 1 = true → B6.ok low = true) :
    takeUpdate h mask floor low set s = s.startAccount (groupOf h) (.update h mask floor low set) := by
  have hmask : ¬(mask == 0) = true := by
    rw [beq_iff_eq]
    rintro rfl
    exact absurd h1 (by decide)
  rw [takeUpdate, updateDigitsOk_of_ok hf hl, if_neg (by decide), if_neg (Nat.not_lt.2 h7), if_neg hmask]

theorem takeTopup_places {h : Handle} {a : S8} {s : State} (ha : a.ok = true) (hv : 1 ≤ a.value) :
    takeTopup h a s = s.startAccount (groupOf h) (.topup h a) := by
  have hnone : topupRefusal a = none := by
    rw [topupRefusal, ha, if_neg (by decide), if_neg (by omega)]
  rw [takeTopup, hnone]

theorem takeAdjust_places {h : Handle} {a : S8} {s : State} (ha : a.ok = true) (hv : a.value ≠ 0) :
    takeAdjust h a s = s.startAccount (groupOf h) (.adjust h a) := by
  have hnone : adjustRefusal a = none := by
    rw [adjustRefusal, ha, if_neg (by decide), if_neg hv]
  rw [takeAdjust, hnone]

theorem takeRestore_places {h : Handle} {bal : S8} {floor low : B6} {set : TariffSet} {s : State} (hb : bal.ok = true)
    (hf : B6.ok floor = true) (hl : B6.ok low = true) :
    takeRestore h bal floor low set s = s.startAccount (groupOf h) (.restore h bal floor low set) := by
  rw [takeRestore, hb, hf, hl]
  rfl

theorem State.startByTicket_current {s : State} {t : Ticket} (op : Byte) (m : MgmtReq)
    (h : ticketCurrent t (s.hold t.entry.toNat) = true) :
    s.openSelect.startByTicket op t m = s.openSelect.startAccount (laneOf (s.hold t.entry.toNat).slot) m := by
  have hhold : s.openSelect.hold t.entry.toNat = s.hold t.entry.toNat := by simp
  rw [State.startByTicket, hhold]
  exact if_pos h

/-- Settles O50: one lemma per command and outcome; every start is `exec_rowOf_places`. -/
theorem commandUnitStartsOrRefuses : Obligations.CommandUnitStartsOrRefuses := by
  intro s key bal floor low set src dst how a ho
  refine ⟨fun hb hf hl h0 h1 hv => exec_enrol_search ho (enrolRefusal_none hb hf hl ⟨h0, h1⟩ hv),
    fun h => exec_rowOf_refused ho (c := .enrol key bal floor low set) (takeEnrol_refused set _ (enrolRefusal_badDigit h)),
    fun hb hf hl h => exec_rowOf_refused ho (c := .enrol key bal floor low set)
      (takeEnrol_refused set _ (enrolRefusal_badRange hb hf hl h)),
    fun h => exec_rowOf_refused ho (c := .find key) (takeFind_badRange h _), exec_find_search ho,
    fun h => exec_transfer_refused ho (by rw [transferRefusal_eq, if_pos h]), fun h hr => exec_transfer_refused ho ?transferRange,
    fun h hhow hv hne => ⟨fun hbusy => exec_transfer_refused ho ?transferBusy, fun hempty => ?transferPlaced⟩,
    fun h => exec_rowOf_refused ho (c := .transitClear how src) (takeTransitClear_refused (by rw [State.transit_openSelect]; exact h)),
    fun h => ⟨_, exec_transitClear_dropped ho src h, rfl, rfl⟩, ?accounts, fun tk => ?tickets⟩
  case transferRange => rw [transferRefusal_eq, if_neg (by rw [h]; decide), if_pos hr]
  case transferBusy =>
    have hrange : ¬(1 < how.toNat ∨ (how = 0 ∧ a.value < 1) ∨ src.slot = dst.slot) := by
      rintro (h1 | ⟨h1, h2⟩ | h1)
      · omega
      · exact absurd (hv h1) (by omega)
      · exact hne h1
    rw [transferRefusal_eq, if_neg (by rw [h]; decide), if_neg hrange, if_pos hbusy]
  case transferPlaced =>
    have hrange : ¬(1 < how.toNat ∨ (how = 0 ∧ a.value < 1) ∨ src.slot = dst.slot) := by
      rintro (h1 | ⟨h1, h2⟩ | h1)
      · omega
      · exact absurd (hv h1) (by omega)
      · exact hne h1
    refine exec_rowOf_places ho (c := .transfer src dst how a) (takeTransfer_places ?_)
    rw [State.transit_openSelect, transferRefusal_eq, if_neg (by rw [h]; decide), if_neg hrange, if_neg (Classical.not_not.2 hempty)]
  case accounts =>
    refine ⟨exec_rowOf_places ho (c := .read src 0) rfl, exec_rowOf_places ho (c := .read src 1) rfl,
      exec_rowOf_places ho (c := .freeze src) rfl, exec_rowOf_places ho (c := .thaw src) rfl,
      exec_rowOf_places ho (c := .retire src) rfl,
      fun mask h1 h7 hf hl => exec_rowOf_places ho (c := .update src mask floor low set) (takeUpdate_places h1 h7 hf hl),
      fun ha hv => exec_rowOf_places ho (c := .topup src a) (takeTopup_places ha hv),
      fun ha hv => exec_rowOf_places ho (c := .adjust src a) (takeAdjust_places ha hv),
      fun hb hf hl => exec_rowOf_places ho (c := .restore src bal floor low set) (takeRestore_places hb hf hl),
      fun hs => exec_rowOf_places ho (c := .transitClear 1 src) ?_⟩
    exact takeTransitClear_taken (how := 1) (by rw [State.transit_openSelect]; exact hs) (by decide)
  case tickets =>
    exact fun h => ⟨exec_rowOf_places ho (c := .holdRead tk) (State.startByTicket_current 13 _ h),
      exec_rowOf_places ho (c := .holdRelease tk) (State.startByTicket_current 14 _ h),
      exec_rowOf_places ho (c := .holdCapture tk) (State.startByTicket_current 15 _ h)⟩

end Sys2Proof.Machine
end

section
/-! Transfers (R33, R59 to R66, R69): the checks, the one completion of a same-group transfer, and the steps of a
cross-group transfer. -/

namespace Sys2Proof.Machine

theorem exec_sameGroupTransfer_eq (g : Lane) (s : State) : exec (.sameGroupTransfer g) s = execSameGroupTransfer g s := rfl

theorem exec_transferStep1_eq (g : Lane) (s : State) : exec (.transferStep1 g) s = execTransferStep1 g s := rfl

theorem exec_transitStep_eq (g : Lane) (s : State) : exec (.transitStep g) s = execTransitStep g s := rfl

theorem exec_returnStep_eq (g : Lane) (s : State) : exec (.returnStep g) s = execReturnStep g s := rfl

/-! ### The checks (R62, R63) -/

theorem creditCheck_closing {r : Record} (h : r.state = .closing) : creditCheck r = some .closing := by
  rw [creditCheck, h]

theorem creditCheck_none {r : Record} (h : r.state ≠ .closing) : creditCheck r = none := by
  rw [← Option.isNone_iff_eq_none, creditCheck_isNone]
  exact h

theorem Record.found_suspect_sound {r : Record} (h : r.found.suspect = false) : r.sound := by
  obtain ⟨hs, hv⟩ := not_or.1 (mt Record.found_suspect_iff.2 (by rw [h]; decide))
  exact ⟨eq_false_of_ne_true hs, eq_true_of_ne_false hv⟩

section
variable {src : Handle} {all : Bool} {a : S8} {r : Record} {st : Status}

theorem sourceCheck_handle (h : handleTest src r = some st) : sourceCheck src all a r = .error (st, a) := by
  rw [sourceCheck, h]

theorem refusedField_given : refusedField false a r = a := rfl

theorem sourceCheck_closing (h : handleTest src r = none) (hc : r.state = .closing) :
    sourceCheck src all a r = .error (.closing, refusedField all a r) := by
  rw [sourceCheck, h]
  dsimp only
  rw [creditCheck_closing hc]

theorem sourceCheck_suspect (h : handleTest src r = none) (hc : r.state ≠ .closing) (hs : r.suspect = true ∨ r.verifies = false) :
    sourceCheck src all a r = .error (.suspect, refusedField all a r) := by
  rw [sourceCheck, h]
  dsimp only
  rw [creditCheck_none hc]
  exact if_pos (Record.found_suspect_iff.2 hs)

/-- R62: the amount, for a source that may pay. -/
theorem sourceCheck_sound (h : handleTest src r = none) (hc : r.state ≠ .closing) (hr : r.sound) :
    sourceCheck src all a r =
      if all = true then
        if r.bal - r.held ≤ 0 then .error (.short, amountField (r.bal - r.held)) else .ok (r.bal - r.held)
      else if r.bal - r.held < a.value then .error (.short, a) else .ok a.value := by
  rw [sourceCheck, h]
  dsimp only
  rw [creditCheck_none hc]
  exact if_neg (by rw [Record.found_suspect_of_sound hr]; decide)

/-- R62: only a sound source with a current handle passes. -/
theorem sourceCheck_ok {v : Int} (h : sourceCheck src all a r = .ok v) : handleTest src r = none ∧ r.sound := by
  unfold sourceCheck at h
  split at h
  · cases h
  · split at h
    · cases h
    · split at h
      · cases h
      · exact ⟨‹_›, Record.found_suspect_sound (eq_false_of_ne_true ‹_›)⟩

/-- R63: the checks of a receiver with a current handle. -/
theorem receiverCheck_current {h : Handle} {v : Int} (ht : handleTest h r = none) :
    receiverCheck h v r =
      if r.state = .closing then some .closing else if r.suspect = true ∨ r.verifies = false then some .suspect
      else if 99999999 < r.bal + v then some .overRange else none := by
  rw [receiverCheck, ht]
  dsimp only
  by_cases hc : r.state = .closing
  · rw [creditCheck_closing hc, if_pos hc]
  · rw [creditCheck_none hc, if_neg hc]
    simp only [Record.found_suspect_iff]

theorem receiverCheck_handle {h : Handle} {v : Int} (ht : handleTest h r = some st) : receiverCheck h v r = some st := by
  rw [receiverCheck, ht]

theorem receiverCheck_none {h : Handle} {v : Int} (hn : receiverCheck h v r = none) : handleTest h r = none ∧ r.sound := by
  cases ht : handleTest h r with
  | some st =>
    rw [receiverCheck_handle ht] at hn
    cases hn
  | none =>
    rw [receiverCheck_current ht] at hn
    split at hn
    · cases hn
    split at hn
    · cases hn
    rename_i hs
    obtain ⟨hsus, hv⟩ := not_or.1 hs
    exact ⟨rfl, eq_false_of_ne_true hsus, eq_true_of_ne_false hv⟩

end

/-! ### The verification of a record whose handle passed (R33) -/

theorem State.noteAccount_quiet {s : State} {h : Handle} {r : Record} {b : Bool} (hq : (b && !r.verifies) = false) :
    s.noteAccount h r b = s := by
  rw [State.noteAccount, hq, State.noteMismatch_false]

theorem verified_mismatch_eq {h : Handle} {r : Record} :
    ((handleTest h r).isNone && !r.verifies) = decide (handleTest h r = none ∧ r.verifies = false) := by
  rw [Bool.eq_iff_iff, Bool.and_eq_true, Option.isNone_iff_eq_none, Bool.not_eq_true', decide_eq_true_eq]

theorem State.noteAccount_sound {s : State} {h : Handle} {r : Record} {b : Bool} (hr : r.sound) : s.noteAccount h r b = s :=
  State.noteAccount_quiet (by rw [hr.2]; exact Bool.and_false b)

/-! ### SAME_GROUP_TRANSFER -/

/-- R31: the end of the operation, with the flags of both records. -/
def State.bothNoted (s : State) (g : Lane) (op : Operation) (src dst : Handle) : State := (s.endOp g).noteBoth op src dst

section
variable {g : Lane} {s : State} {op : Operation} {src dst : Handle} {all : Bool} {a : S8}

theorem exec_sameTransfer_source (hop : s.mgmtOp g = some (op, .sameTransfer src dst all a)) {st : Status} {field : S8}
    (h : sourceCheck src all a op.record = .error (st, field)) :
    exec (.sameGroupTransfer g) s = .next ((s.bothNoted g op src dst).answerTransfer st .source false field []) := by
  rw [exec_sameGroupTransfer_eq, execSameGroupTransfer, hop]
  dsimp only
  rw [h]
  rfl

theorem exec_sameTransfer_receiver (hop : s.mgmtOp g = some (op, .sameTransfer src dst all a)) {v : Int} {st : Status}
    (h : sourceCheck src all a op.record = .ok v) (hr : receiverCheck dst v op.record2 = some st) :
    exec (.sameGroupTransfer g) s = .next ((s.bothNoted g op src dst).answerTransfer st .destination false (S8.ofInt v) []) := by
  rw [exec_sameGroupTransfer_eq, execSameGroupTransfer, hop]
  dsimp only
  rw [h]
  dsimp only
  rw [hr]
  rfl

theorem exec_sameTransfer_passed (hop : s.mgmtOp g = some (op, .sameTransfer src dst all a)) {v : Int}
    (h : sourceCheck src all a op.record = .ok v) (hr : receiverCheck dst v op.record2 = none) :
    exec (.sameGroupTransfer g) s =
      .next (((s.endOp g).writeBoth op src dst v).answerTransfer .ok .none false (S8.ofInt v) (bothItems op v)) := by
  have hquiet : (s.endOp g).noteBoth op src dst = s.endOp g := by
    rw [State.noteBoth, State.noteAccount_sound (sourceCheck_ok h).2, State.noteAccount_sound (receiverCheck_none hr).2]
  rw [exec_sameGroupTransfer_eq, execSameGroupTransfer, hop]
  dsimp only
  rw [h]
  dsimp only
  rw [hr, hquiet]

end

/-- R33: of two records the flags of mismatches have been written, the notice of the first record's first. -/
def State.bothFlagged (s t : State) (n m : Nat) (b b' : Bool) : Prop :=
  t.record n = s.flagSet n b ∧ t.record m = s.flagSet m b' ∧ (∀ k, k ≠ n → k ≠ m → t.record k = s.record k) ∧
    s.noticed t (s.suspectNotice n b ++ s.suspectNotice m b') ∧
    (b = false → b' = false → t.accounts = s.accounts ∧ t.notices = s.notices)

theorem State.suspectNotice_congr {s x : State} {n : Nat} (h : x.record n = s.record n) (b : Bool) :
    x.suspectNotice n b = s.suspectNotice n b := by
  rw [State.suspectNotice, State.suspectNotice, h]

/-- R33: the flags of two different records are written each by its own verification. -/
theorem State.bothFlagged_noted {s x t : State} {n m : Nat} (b b' : Bool) (hnm : n ≠ m) (hacc : x.accounts = s.accounts)
    (hnot : x.notices = s.notices) (hcmd : x.cmd.threshold = s.cmd.threshold)
    (ht : t.accounts = ((x.noteMismatch n b .operation).noteMismatch m b' .operation).accounts)
    (ht' : t.notices = ((x.noteMismatch n b .operation).noteMismatch m b' .operation).notices) :
    s.bothFlagged t n m b b' := by
  have hx : ∀ k, x.record k = s.record k := fun k => by rw [State.record, hacc]; rfl
  have htr : ∀ k, t.record k = ((x.noteMismatch n b .operation).noteMismatch m b' .operation).record k := fun k => by
    rw [State.record, ht]
    rfl
  have hm : (x.noteMismatch n b .operation).record m = s.record m := by
    rw [State.record_noteMismatch_ne _ _ _ hnm.symm, hx]
  refine ⟨?_, ?_, fun k hn hm => ?_, ?_, fun hb hb' => ?_⟩
  · rw [htr, State.record_noteMismatch_ne _ _ _ hnm, State.record_noteMismatch_same, hx]
    rfl
  · rw [htr, State.record_noteMismatch_same, hm]
    rfl
  · rw [htr, State.record_noteMismatch_ne _ _ _ hm, State.record_noteMismatch_ne _ _ _ hn, hx]
  · have hfirst : x.noticed (x.noteMismatch n b .operation) (x.suspectNotice n b) := x.noticed_noteMismatch n b .operation
    have hsecond : (x.noteMismatch n b .operation).noticed t ((x.noteMismatch n b .operation).suspectNotice m b') :=
      State.noticed_congr rfl ht'.symm ((x.noteMismatch n b .operation).noticed_noteMismatch m b' .operation)
    rw [State.suspectNotice_congr (hx n)] at hfirst
    rw [State.suspectNotice_congr hm] at hsecond
    exact State.noticed_trans (State.noticed_congr hnot rfl hfirst hcmd) hsecond (by simp [hcmd])
  · subst hb hb'
    exact ⟨ht.trans hacc, ht'.trans hnot⟩

/-- R31, R33: an answer that writes no balance: the flags, the end of the operation, the response. -/
theorem State.bothNoted_answered (s : State) (g : Lane) (op : Operation) {src dst : Handle} (hne : src.slot ≠ dst.slot)
    (st : Status) (body : MgmtBody) :
    let t := (s.bothNoted g op src dst).reply 10 st body
    s.bothFlagged t src.slot.toNat dst.slot.toNat (decide (handleTest src op.record = none ∧ op.record.verifies = false))
        (decide (handleTest src op.record = none ∧ handleTest dst op.record2 = none ∧ op.record2.verifies = false)) ∧
      t.cmd = s.unitAnswers ⟨10, st, body⟩ ∧ t.engine g = { s.engine g with op := none } ∧ s.otherEngines t g ∧
      t = { s with accounts := t.accounts, notices := t.notices, engines := t.engines, cmd := t.cmd } := by
  have hslots : src.slot.toNat ≠ dst.slot.toNat := fun h => hne (BitVec.eq_of_toNat_eq h)
  have hsecond : ((handleTest src op.record).isNone && (handleTest dst op.record2).isNone && !op.record2.verifies) =
      decide (handleTest src op.record = none ∧ handleTest dst op.record2 = none ∧ op.record2.verifies = false) := by
    rw [Bool.and_assoc, verified_mismatch_eq, Bool.eq_iff_iff, Bool.and_eq_true, Option.isNone_iff_eq_none, decide_eq_true_eq,
      decide_eq_true_eq]
  dsimp only
  unfold State.bothNoted State.noteBoth State.noteAccount
  dsimp only
  rw [verified_mismatch_eq, hsecond]
  generalize decide (handleTest src op.record = none ∧ op.record.verifies = false) = b
  generalize decide (handleTest src op.record = none ∧ handleTest dst op.record2 = none ∧ op.record2.verifies = false) = b'
  refine ⟨State.bothFlagged_noted (x := s.endOp g) b b' hslots (by simp) (by simp) (by simp) rfl rfl, ?_,
    State.engine_ended_same (by simp), State.otherEngines_endOp (by simp), ?_⟩
  · rw [State.cmd_reply, State.unitAnswers, State.unitAnswers]
    simp
  · apply State.eq_of_fields <;> simp

/-- R59, R63: the one completion that writes both balances. -/
theorem State.writeBoth_answered (s : State) (g : Lane) (op : Operation) {src dst : Handle} (hne : src.slot ≠ dst.slot) (v : Int)
    (st : Status) (body : MgmtBody) :
    let t := ((s.endOp g).writeBoth op src dst v).reply 10 st body
    t.record src.slot.toNat = { s.record src.slot.toNat with balance := S8.ofInt (op.record.bal - v) }.seal ∧
      t.record dst.slot.toNat = { s.record dst.slot.toNat with balance := S8.ofInt (op.record2.bal + v) }.seal ∧
      (∀ n, n ≠ src.slot.toNat → n ≠ dst.slot.toNat → t.record n = s.record n) ∧
      t.cmd = s.unitAnswers ⟨10, st, body⟩ ∧
      s.noticed t (if crossesLow op.record (op.record.bal - v) = true then
        [.lowBalance ⟨BitVec.ofNat 16 src.slot.toNat, op.record.gen⟩ (S8.ofInt (op.record.bal - v))] else []) ∧
      t.engine g = { s.engine g with op := none } ∧ s.otherEngines t g ∧
      t = { s with accounts := t.accounts, notices := t.notices, engines := t.engines, cmd := t.cmd } := by
  have hslots : src.slot.toNat ≠ dst.slot.toNat := fun h => hne (BitVec.eq_of_toNat_eq h)
  unfold State.writeBoth
  refine ⟨?_, ?_, fun n hn hm => ?_, ?_, ?_, State.engine_ended_same (by simp), State.otherEngines_endOp (by simp), ?_⟩
  · simp [State.record_writeBalance_ne _ _ hslots]
  · simp [State.record_writeBalance_ne _ _ hslots.symm]
  · simp [State.record_writeBalance_ne _ _ hn, State.record_writeBalance_ne _ _ hm]
  · rw [State.cmd_reply, State.unitAnswers, State.unitAnswers]
    simp
  · exact State.noticed_congr (s := ((s.endOp g).writeBalance src.slot.toNat (op.record.bal - v)).writeBalance
      dst.slot.toNat (op.record2.bal + v)) (by simp) rfl (State.noticed_postLow src.slot.toNat op.record _ (by simp)) (by simp)
  · apply State.eq_of_fields <;> simp

/-- Settles O39: the checks, one lemma per case, and the completion. -/
theorem sameGroupTransferMovesTheAmount : Obligations.SameGroupTransferMovesTheAmount := by
  refine ⟨fun src all a r => ⟨fun st => sourceCheck_handle, fun h hc => ⟨_, sourceCheck_closing h hc, ?_⟩,
    fun h hstate hs => ⟨_, sourceCheck_suspect h ?_ hs, ?_⟩, fun h hstate hr => ?_⟩,
    fun h v r => ⟨fun st => receiverCheck_handle, receiverCheck_current⟩, fun g s op src dst all a hop hne => ?completion⟩
  case completion =>
    intro bad bad2 flagged
    have hflagged : ∀ {t}, s.bothFlagged t src.slot.toNat dst.slot.toNat (decide bad) (decide bad2) → flagged t := by
      rintro t ⟨hsrc, hdst, hothers, hnoticed, hquiet⟩
      exact ⟨hsrc, hdst, hothers, hnoticed, fun h h' => hquiet (decide_eq_false h) (decide_eq_false h')⟩
    cases hsource : sourceCheck src all a op.record with
    | error refusal =>
      obtain ⟨st, field⟩ := refusal
      obtain ⟨hflags, hcmd, heng, hothers, hframe⟩ := s.bothNoted_answered g op hne st (.transfer .source false field [])
      refine ⟨_, exec_sameTransfer_source hop hsource, heng, hothers, by rw [State.answerTransfer, hframe], nofun, nofun, ?_, hframe⟩
      rintro st' field' h
      cases h
      exact ⟨hflagged hflags, hcmd⟩
    | ok v =>
      cases hreceiver : receiverCheck dst v op.record2 with
      | some st =>
        obtain ⟨hflags, hcmd, heng, hothers, hframe⟩ :=
          s.bothNoted_answered g op hne st (.transfer .destination false (S8.ofInt v) [])
        refine ⟨_, exec_sameTransfer_receiver hop hsource hreceiver, heng, hothers, by rw [State.answerTransfer, hframe], ?_, ?_,
          nofun, hframe⟩
        · rintro v' h hn
          cases h
          rw [hreceiver] at hn
          cases hn
        · rintro v' st' h hst
          cases h
          rw [hreceiver] at hst
          cases hst
          exact ⟨hflagged hflags, hcmd⟩
      | none =>
        obtain ⟨hsrc, hdst, hrecords, hcmd, hnoticed, heng, hothers, hframe⟩ :=
          s.writeBoth_answered g op hne v .ok (.transfer .none false (S8.ofInt v) (bothItems op v))
        refine ⟨_, exec_sameTransfer_passed hop hsource hreceiver, heng, hothers, by rw [State.answerTransfer, hframe], ?_, ?_,
          nofun, hframe⟩
        · rintro v' h -
          cases h
          exact ⟨hsrc, hdst, hrecords, hcmd, hnoticed⟩
        · rintro v' st' h hst
          cases h
          rw [hreceiver] at hst
          cases hst
  · rintro rfl
    rfl
  · rintro hc
    rcases hstate with h | h <;> rw [h] at hc <;> cases hc
  · rintro rfl
    rfl
  · have hc : r.state ≠ .closing := by
      rintro hc
      rcases hstate with h | h <;> rw [h] at hc <;> cases hc
    rw [sourceCheck_sound h hc hr]
    refine ⟨fun hall hv => ?_, fun hall hv => ?_, fun hall hv => ?_, fun hall hv => ⟨amountField (r.bal - r.held), ?_⟩⟩
    · rw [hall, if_neg (by decide), if_neg (by omega)]
    · rw [hall, if_neg (by decide), if_pos hv]
    · rw [if_pos hall, if_neg (by omega)]
    · rw [if_pos hall, if_pos hv]

end Sys2Proof.Machine
end

section
/-! The steps of a cross-group transfer (R33, R59, R61, R65, R66, R69). -/

namespace Sys2Proof.Machine

/-! ### A step that is refused, and the register -/

/-- R31, R33: the end of a step, with the flag of the record it verified. -/
def State.stepNoted (s : State) (g : Lane) (op : Operation) (h : Handle) : State :=
  (s.endOp g).noteAccount h op.record (handleTest h op.record).isNone

theorem State.stepNoted_sound {s : State} {g : Lane} {op : Operation} {h : Handle} (hr : op.record.sound) :
    s.stepNoted g op h = s.endOp g := State.noteAccount_sound hr

theorem State.stepNoted_eq (s : State) (g : Lane) (op : Operation) (h : Handle) :
    s.stepNoted g op h = (s.endOp g).noteMismatch h.slot.toNat
      (decide (handleTest h op.record = none ∧ op.record.verifies = false)) .operation := by
  rw [State.stepNoted, State.noteAccount, verified_mismatch_eq]

/-- R33: what a refused step writes of the stores, in a state that differs from its end elsewhere. -/
theorem State.onlyFlags_step {s t : State} {g : Lane} {op : Operation} {h : Handle}
    (ha : t.accounts = (s.stepNoted g op h).accounts) (hn : t.notices = (s.stepNoted g op h).notices) :
    s.onlyFlags t h.slot.toNat (decide (handleTest h op.record = none ∧ op.record.verifies = false)) := by
  rw [State.stepNoted_eq] at ha hn
  exact State.onlyFlags_noteMismatch (x := s.endOp g) _ _ (by simp) (by simp) ha hn

/-- R31: a step ends its operation, and writes no more than flags and notices. -/
theorem State.stepNoted_frame (s : State) (g : Lane) (op : Operation) (h : Handle) :
    let x := s.stepNoted g op h
    x = { s with accounts := x.accounts, notices := x.notices, engines := x.engines } ∧
      ∀ m, x.engine m = { s.engine m with op := if m = g then none else (s.engine m).op } := by
  dsimp only
  rw [State.stepNoted_eq]
  refine ⟨by apply State.eq_of_fields <;> simp, fun m => ?_⟩
  rw [State.engine_noteMismatch, State.engine_endOp]

/-- R28: what the posting of a transit-step claim changes. -/
theorem State.engine_postTransit (s : State) (g m : Lane) (c : TransitClaim) :
    (s.postTransit g c).engine m = { s.engine m with transit := if m = g then some c else (s.engine m).transit } := by
  by_cases hm : m = g
  · subst hm
    rw [if_pos rfl]
    exact State.engine_modifyEngine_same s m fun e => { e with transit := some c }
  · rw [if_neg hm]
    exact State.engine_modifyEngine_ne s (fun e => { e with transit := some c }) hm

theorem State.unitAnswers_congr {s x : State} (h : x.cmd = s.cmd) (r : MgmtResponse) : x.unitAnswers r = s.unitAnswers r := by
  rw [State.unitAnswers, State.unitAnswers, h]

/-- R31, R33: a refused step that answers: the flag, the end of the operation, the response. -/
theorem State.stepNoted_answered (s : State) (g : Lane) (op : Operation) (h : Handle) (st : Status) (body : MgmtBody) :
    let t := (s.stepNoted g op h).reply 10 st body
    s.onlyFlags t h.slot.toNat (decide (handleTest h op.record = none ∧ op.record.verifies = false)) ∧
      t.cmd = s.unitAnswers ⟨10, st, body⟩ ∧
      (∀ m, t.engine m = { s.engine m with op := if m = g then none else (s.engine m).op }) ∧
      t = { s with accounts := t.accounts, notices := t.notices, engines := t.engines, cmd := t.cmd } := by
  obtain ⟨hframe, heng⟩ := s.stepNoted_frame g op h
  have hcmd : (s.stepNoted g op h).cmd = s.cmd := by rw [hframe]
  refine ⟨State.onlyFlags_step rfl rfl, State.unitAnswers_congr hcmd _, heng, ?_⟩
  rw [State.reply, hframe]

/-! ### Step 1 (R65) -/

section
variable {g : Lane} {s : State} {op : Operation} {src dst : Handle} {all : Bool} {a : S8}

theorem exec_step1_refused (hop : s.mgmtOp g = some (op, .step1 src dst all a)) {st : Status} {field : S8}
    (h : sourceCheck src all a op.record = .error (st, field)) :
    exec (.transferStep1 g) s = .next ((s.stepNoted g op src).answerTransfer st .source false field []) := by
  rw [exec_transferStep1_eq, execTransferStep1, hop]
  dsimp only
  rw [h]
  rfl

theorem exec_step1_passed (hop : s.mgmtOp g = some (op, .step1 src dst all a)) {v : Int}
    (h : sourceCheck src all a op.record = .ok v) :
    exec (.transferStep1 g) s = .next ((s.endOp g).debitSource op src dst v) := by
  have hquiet : (s.endOp g).noteAccount src op.record (handleTest src op.record).isNone = s.endOp g :=
    State.noteAccount_sound (sourceCheck_ok h).2
  rw [exec_transferStep1_eq, execTransferStep1, hop]
  dsimp only
  rw [h, hquiet]

/-- R59, R61, R65: the debit of the source, the register, the claim of step 2 and the job that goes on. -/
theorem State.debitSource_spec (s : State) (g : Lane) (op : Operation) (src dst : Handle) (v : Int) :
    let t := (s.endOp g).debitSource op src dst v
    t.record src.slot.toNat = { s.record src.slot.toNat with balance := S8.ofInt (op.record.bal - v) }.seal ∧
      s.otherRecords t src.slot.toNat ∧
      t.transit = { state := .out, src := src, dst := dst, amount := v.toNat } ∧
      (∀ m, t.engine m = { s.engine m with
        op := if m = g then none else (s.engine m).op
        transit := if m = laneOf dst.slot.toNat then some .step2 else (s.engine m).transit }) ∧
      t.cmd = { s.cmd with state := .busy (.transfer (some (balanceItem .source op.record (op.record.bal - v)))) } ∧
      s.noticed t (if crossesLow op.record (op.record.bal - v) = true then
        [.lowBalance ⟨BitVec.ofNat 16 src.slot.toNat, op.record.gen⟩ (S8.ofInt (op.record.bal - v))] else []) ∧
      t = { s with accounts := t.accounts, notices := t.notices, engines := t.engines, cmd := t.cmd, transit := t.transit } := by
  unfold State.debitSource State.writeNewBalance
  dsimp only
  generalize hx : ((s.endOp g).writeBalance src.slot.toNat (op.record.bal - v)).postLow src.slot.toNat op.record
    (op.record.bal - v) = x
  have heng : ∀ m, x.engine m = { s.engine m with op := if m = g then none else (s.engine m).op } := fun m => by
    rw [← State.engine_endOp, ← hx]
    simp
  refine ⟨?_, fun n hn => ?_, rfl, fun m => ?_, ?_, ?_, ?_⟩
  · have hrec : x.record src.slot.toNat = { s.record src.slot.toNat with balance := S8.ofInt (op.record.bal - v) }.seal := by
      simp [← hx]
    exact hrec
  · have hrec : x.record n = s.record n := by simp [← hx, State.record_writeBalance_ne _ _ hn]
    exact hrec
  · rw [State.engine_postTransit]
    show { x.engine m with transit := if m = laneOf dst.slot.toNat then some .step2 else (x.engine m).transit } = _
    rw [heng]
  · have hcmd : x.cmd = s.cmd := by simp [← hx]
    show { x.cmd with state := .busy (.transfer (some (balanceItem .source op.record (op.record.bal - v)))) } = _
    rw [hcmd]
  · refine State.noticed_congr (s := (s.endOp g).writeBalance src.slot.toNat (op.record.bal - v)) (t := x) (by simp) rfl ?_
    exact State.noticed_postLow src.slot.toNat op.record (op.record.bal - v) (by rw [hx])
  · apply State.eq_of_fields <;> first | rfl | simp [State.postTransit, State.goOnTransfer, State.setTransit, ← hx]

end

/-! ### Step 2 (R66) -/

section
variable {g : Lane} {s : State} {op : Operation}

theorem exec_step2_passed (hop : s.transitOp g = some (op, .step2))
    (h : receiverCheck op.transit.dst op.transit.amount op.record = none) :
    exec (.transitStep g) s = .next ((s.endOp g).creditDestination op) := by
  have hquiet : (s.endOp g).noteAccount op.transit.dst op.record (handleTest op.transit.dst op.record).isNone = s.endOp g :=
    State.noteAccount_sound (receiverCheck_none h).2
  rw [exec_transitStep_eq, execTransitStep, hop]
  dsimp only
  rw [h, hquiet]

theorem exec_step2_refused (hop : s.transitOp g = some (op, .step2)) {st : Status}
    (h : receiverCheck op.transit.dst op.transit.amount op.record = some st) :
    exec (.transitStep g) s = .next ((s.stepNoted g op op.transit.dst).failDestination op st) := by
  rw [exec_transitStep_eq, execTransitStep, hop]
  dsimp only
  rw [h]
  rfl

theorem State.sourceItems_kept {s : State} {item : BalanceItem} (h : s.cmd.state = .busy (.transfer (some item))) :
    s.sourceItems = [item] := by
  rw [State.sourceItems, h]

theorem State.sourceItems_congr {s x : State} (h : x.cmd = s.cmd) : x.sourceItems = s.sourceItems := by
  rw [State.sourceItems, State.sourceItems, h]

/-- R66: the credit of the destination. -/
theorem State.creditDestination_spec (s : State) (g : Lane) (op : Operation) :
    let t := (s.endOp g).creditDestination op
    t.record op.transit.dst.slot.toNat =
        { s.record op.transit.dst.slot.toNat with balance := S8.ofInt (op.record.bal + op.transit.amount) }.seal ∧
      s.otherRecords t op.transit.dst.slot.toNat ∧ t.transit.state = .empty ∧ t.notices = s.notices ∧
      (∀ m, t.engine m = { s.engine m with op := if m = g then none else (s.engine m).op }) ∧
      t.cmd = s.unitAnswers ⟨10, .ok, .transfer .none false (S8.ofInt op.transit.amount)
        (s.sourceItems ++ [balanceItem .destination op.record (op.record.bal + op.transit.amount)])⟩ ∧
      t = { s with accounts := t.accounts, engines := t.engines, cmd := t.cmd, transit := t.transit } := by
  unfold State.creditDestination
  refine ⟨?_, fun n hn => ?_, rfl, rfl, fun m => State.engine_endOp s g m, rfl, ?_⟩
  · exact State.record_writeBalance_same (s.endOp g) _ _
  · exact State.record_writeBalance_ne (s.endOp g) _ hn
  · rfl

/-- R66: a step 2 that fails leaves the amount to the return step. -/
theorem State.failDestination_spec (s : State) (g : Lane) (op : Operation) (st : Status) :
    let t := (s.stepNoted g op op.transit.dst).failDestination op st
    t.transit = { s.transit with state := .returning } ∧ t.cmd = s.cmd ∧
      s.onlyFlags t op.transit.dst.slot.toNat
        (decide (handleTest op.transit.dst op.record = none ∧ op.record.verifies = false)) ∧
      (∀ m, t.engine m = { s.engine m with
        op := if m = g then none else (s.engine m).op
        transit := if m = laneOf op.transit.src.slot.toNat then some (.ret (some st)) else (s.engine m).transit }) ∧
      t = { s with accounts := t.accounts, notices := t.notices, engines := t.engines, transit := t.transit } := by
  obtain ⟨hframe, heng⟩ := s.stepNoted_frame g op op.transit.dst
  have hflags := State.onlyFlags_step (s := s) (g := g) (op := op) (h := op.transit.dst)
    (t := (s.stepNoted g op op.transit.dst).failDestination op st) rfl rfl
  generalize s.stepNoted g op op.transit.dst = x at *
  refine ⟨?_, ?_, hflags, fun m => ?_, ?_⟩
  · show { x.transit with state := .returning } = _
    rw [hframe]
  · show x.cmd = _
    rw [hframe]
  · rw [State.failDestination, State.engine_postTransit]
    show { x.engine m with
      transit := if m = laneOf op.transit.src.slot.toNat then some (.ret (some st)) else (x.engine m).transit } = _
    rw [heng]
  · rw [State.failDestination, State.postTransit, State.setTransit, hframe]
    rfl

/-! ### The return step (R66, R69) -/

theorem exec_return_passed {refusal : Option Status} (hop : s.transitOp g = some (op, .ret refusal))
    (h : receiverCheck op.transit.src op.transit.amount op.record = none) :
    exec (.returnStep g) s = .next ((s.endOp g).returnToSource op refusal) := by
  have hquiet : (s.endOp g).noteAccount op.transit.src op.record (handleTest op.transit.src op.record).isNone = s.endOp g :=
    State.noteAccount_sound (receiverCheck_none h).2
  rw [exec_returnStep_eq, execReturnStep, hop]
  dsimp only
  rw [h, hquiet]

theorem exec_return_refused {refusal : Option Status} (hop : s.transitOp g = some (op, .ret refusal)) {st : Status}
    (h : receiverCheck op.transit.src op.transit.amount op.record = some st) :
    exec (.returnStep g) s = .next ((s.stepNoted g op op.transit.src).strand op refusal st) := by
  rw [exec_returnStep_eq, execReturnStep, hop]
  dsimp only
  rw [h]
  rfl

/-- R66: the source has its amount back. -/
theorem State.returnToSource_spec (s : State) (g : Lane) (op : Operation) (refusal : Option Status) :
    let t := (s.endOp g).returnToSource op refusal
    t.record op.transit.src.slot.toNat =
        { s.record op.transit.src.slot.toNat with balance := S8.ofInt (op.record.bal + op.transit.amount) }.seal ∧
      s.otherRecords t op.transit.src.slot.toNat ∧ t.transit.state = .empty ∧ t.notices = s.notices ∧
      t.engines = (s.endOp g).engines ∧
      (∀ st, refusal = some st → t.cmd = s.unitAnswers ⟨10, st, .transfer .destination true (S8.ofInt op.transit.amount)
        [balanceItem .source op.record (op.record.bal + op.transit.amount)]⟩) ∧
      (refusal = none → t.cmd = s.cmd) ∧
      t = { s with accounts := t.accounts, engines := t.engines, cmd := t.cmd, transit := t.transit } := by
  have hsame := State.record_writeBalance_same (s.endOp g) op.transit.src.slot.toNat (op.record.bal + op.transit.amount)
  have hother : s.otherRecords ((s.endOp g).writeBalance op.transit.src.slot.toNat (op.record.bal + op.transit.amount))
    op.transit.src.slot.toNat := fun n hn => State.record_writeBalance_ne (s.endOp g) _ hn
  cases refusal with
  | none => exact ⟨hsame, hother, rfl, rfl, rfl, nofun, fun _ => rfl, rfl⟩
  | some st =>
    refine ⟨hsame, hother, rfl, rfl, rfl, ?_, nofun, rfl⟩
    rintro st' h
    cases h
    rfl

/-- R66: a return that fails, before its report. -/
def State.strandNoticed (s : State) (op : Operation) (refusal : Option Status) (st : Status) : State :=
  (s.setTransit { s.transit with state := .stranded }).post
    (.transferStranded op.transit.src op.transit.dst op.transit.amount refusal st)

theorem State.strandNoticed_frame (s : State) (op : Operation) (refusal : Option Status) (st : Status) :
    let y := s.strandNoticed op refusal st
    y = { s with transit := { s.transit with state := .stranded }, notices := y.notices } ∧
      s.noticed y [.transferStranded op.transit.src op.transit.dst op.transit.amount refusal st] := by
  refine ⟨?_, State.noticed_post _ (State.post_notices_congr _ rfl rfl)⟩
  unfold State.strandNoticed
  apply State.eq_of_fields <;> first | rfl | (simp [State.setTransit])

/-- R66, R69: a stranded amount is reported to the transfer that waits. -/
theorem State.strand_answered (s : State) (op : Operation) (refusal : Option Status) (st : Status) :
    s.strand op refusal st = { s.strandNoticed op refusal st with
      cmd := if refusal.isSome = true then s.unitAnswers
          ⟨10, .stranded, .transfer .none false (S8.ofInt op.transit.amount) s.sourceItems⟩ else s.cmd } := by
  have hcmd : (s.strandNoticed op refusal st).cmd = s.cmd := by rw [(s.strandNoticed_frame op refusal st).1]
  cases refusal with
  | none =>
    rw [if_neg (by decide), ← hcmd]
    rfl
  | some r =>
    rw [if_pos Option.isSome_some, ← State.unitAnswers_congr hcmd]
    rfl

/-- R66, R69: an amount that cannot be returned is STRANDED, and the notice tells of it. -/
theorem State.strand_spec (s : State) (g : Lane) (op : Operation) (refusal : Option Status) (st : Status) :
    let b := decide (handleTest op.transit.src op.record = none ∧ op.record.verifies = false)
    let t := (s.stepNoted g op op.transit.src).strand op refusal st
    t.record op.transit.src.slot.toNat = s.flagSet op.transit.src.slot.toNat b ∧
      s.otherRecords t op.transit.src.slot.toNat ∧ (b = false → t.accounts = s.accounts) ∧
      t.transit = { s.transit with state := .stranded } ∧
      s.noticed t (s.suspectNotice op.transit.src.slot.toNat b ++
        [.transferStranded op.transit.src op.transit.dst op.transit.amount refusal st]) ∧
      t.engines = (s.endOp g).engines ∧
      (refusal.isSome = true →
        t.cmd = s.unitAnswers ⟨10, .stranded, .transfer .none false (S8.ofInt op.transit.amount) s.sourceItems⟩) ∧
      (refusal = none → t.cmd = s.cmd) ∧
      t = { s with accounts := t.accounts, notices := t.notices, engines := t.engines, cmd := t.cmd, transit := t.transit } := by
  intro b t
  obtain ⟨hframe, -⟩ := s.stepNoted_frame g op op.transit.src
  have hflags : s.onlyFlags (s.stepNoted g op op.transit.src) op.transit.src.slot.toNat b := State.onlyFlags_step rfl rfl
  have hengines : (s.stepNoted g op op.transit.src).engines = (s.endOp g).engines := by simp [State.stepNoted_eq]
  obtain ⟨hrec, hrecs, hfound, hquiet⟩ := hflags
  obtain ⟨hstrand, hnotice⟩ := (s.stepNoted g op op.transit.src).strandNoticed_frame op refusal st
  have ht : t = _ := (s.stepNoted g op op.transit.src).strand_answered op refusal st
  have hcmd : (s.stepNoted g op op.transit.src).cmd = s.cmd := by rw [hframe]
  have htransit : (s.stepNoted g op op.transit.src).transit = s.transit := by rw [hframe]
  rw [State.unitAnswers_congr hcmd, State.sourceItems_congr hcmd, hcmd] at ht
  rw [htransit] at hstrand
  have htrecord : ∀ n, t.record n = (s.stepNoted g op op.transit.src).record n := fun n => by
    rw [ht, hstrand]
    rfl
  refine ⟨by rw [htrecord, hrec], fun n hn => by rw [htrecord, hrecs n hn], fun hb => ?_, by rw [ht, hstrand],
    State.noticed_trans hfound (State.noticed_congr rfl (by rw [ht]) hnotice) (by rw [hframe]), ?_, fun hsome => ?_,
    fun hnone => ?_, ?_⟩
  · rw [ht, hstrand]
    exact (hquiet hb).1
  · rw [ht, hstrand]
    exact hengines
  · rw [ht, hsome]
    rfl
  · rw [ht, hnone]
    rfl
  · rw [ht, hstrand, hframe]

end

/-- Settles O40: each step by its check; what the results are is said above, step by step. -/
theorem crossGroupTransferGoesThroughTheRegister : Obligations.CrossGroupTransferGoesThroughTheRegister := by
  refine ⟨fun g s op src dst all a hop => ?step1, fun g s op hop => ?step2, fun g s op refusal hop => ?back⟩
  case step1 =>
    cases hsource : sourceCheck src all a op.record with
    | error r =>
      obtain ⟨st, field⟩ := r
      obtain ⟨hflags, hcmd, heng, hframe⟩ := s.stepNoted_answered g op src st (.transfer .source false field [])
      refine ⟨_, exec_step1_refused hop hsource, fun m => ?_, nofun, ?_, ?_⟩
      · rw [State.answerTransfer, heng]
      · rintro st' field' h
        cases h
        exact ⟨hcmd, fun m => by rw [State.answerTransfer, heng], hflags, hframe⟩
      · rw [State.answerTransfer, hframe]
    | ok v =>
      obtain ⟨hrec, hrecs, htransit, heng, hcmd, hnoticed, hframe⟩ := s.debitSource_spec g op src dst v
      refine ⟨_, exec_step1_passed hop hsource, fun m => by rw [heng], ?_, nofun, hframe⟩
      rintro v' h
      cases h
      exact ⟨hrec, hrecs, htransit, fun m => by rw [heng], State.isBusy_iff.2 ⟨_, by rw [hcmd]⟩, hcmd, hnoticed⟩
  case step2 =>
    cases hreceiver : receiverCheck op.transit.dst op.transit.amount op.record with
    | none =>
      obtain ⟨hrec, hrecs, htransit, hnotices, heng, hcmd, hframe⟩ := s.creditDestination_spec g op
      refine ⟨_, exec_step2_passed hop hreceiver, fun m => by rw [heng],
        fun _ => ⟨hrec, hrecs, htransit, hnotices, fun m => by rw [heng], ⟨_, hcmd⟩, fun source hs => ?_⟩, nofun, ?_⟩
      · rw [hcmd, State.sourceItems_kept hs]
        rfl
      · rw [hframe]
    | some st =>
      obtain ⟨htransit, hcmd, hflags, heng, hframe⟩ := s.failDestination_spec g op st
      refine ⟨_, exec_step2_refused hop hreceiver, fun m => by rw [heng], nofun, ?_, ?_⟩
      · rintro st' h
        cases h
        exact ⟨htransit, hcmd, hflags, fun m => by rw [heng]⟩
      · rw [hframe]
  case back =>
    cases hreceiver : receiverCheck op.transit.src op.transit.amount op.record with
    | none =>
      obtain ⟨hrec, hrecs, htransit, hnotices, heng, hans, hsilent, hframe⟩ := s.returnToSource_spec g op refusal
      refine ⟨_, exec_return_passed hop hreceiver, State.engine_ended_same heng, State.otherEngines_endOp heng,
        fun _ => ⟨hrec, hrecs, htransit, hnotices, hans⟩, nofun, hsilent, ?_⟩
      rw [hframe]
    | some st =>
      obtain ⟨hrec, hrecs, hacc, htransit, hnoticed, heng, hans, hsilent, hframe⟩ := s.strand_spec g op refusal st
      refine ⟨_, exec_return_refused hop hreceiver, State.engine_ended_same heng, State.otherEngines_endOp heng, nofun, ?_,
        hsilent, hframe⟩
      rintro st' h
      cases h
      refine ⟨hrec, hrecs, hacc, htransit, hnoticed, fun hr => ⟨_, hans hr⟩, fun source hr hs => ?_⟩
      rw [hans hr, State.sourceItems_kept hs]

end Sys2Proof.Machine
end

section
/-! Account commands by handle, from the block and from the request in progress, and the commands that change an account's
state (R7, R13 to R17, R33). -/

namespace Sys2Proof.Machine

/-! ### An account command by handle (R7, R32) -/

/-- The command is taken by placing a request of its handle's group, and the completion of that request tests the handle and
goes on with `act`. -/
structure RunsByHandle (c : Command) (s : State) (h : Handle) (m : MgmtReq) (act : Operation → State → State) :
    Prop where
  placed : takeCommand c s.openSelect = s.openSelect.startAccount (laneOf h.slot.toNat) m
  noTicket : m.ticket? = none
  slot : m.slot = h.slot.toNat
  completed : ∀ t : State, t.endOp (laneOf h.slot.toNat) = s.begun .account →
    t.completeMgmt (laneOf h.slot.toNat) (s.readMgmt m) m =
      t.completeByHandle (laneOf h.slot.toNat) (s.readMgmt m) c.opcode h (act (s.readMgmt m))

section
variable {c : Command} {s : State} {h : Handle} {m : MgmtReq} {act : Operation → State → State}

theorem RunsByHandle.refused (hk : RunsByHandle c s h m act) (ho : s.portOpen)
    (hf : s.engineFree (laneOf h.slot.toNat)) {st : Status} (ht : handleTest h (s.record h.slot.toNat) = some st) :
    AccountCommandRuns (rowOf c) (laneOf h.slot.toNat) s (s.replied c.opcode st .bare) :=
  AccountCommandRuns.refused c.opcode (takeCommand c) _ ho hf ht (exec_rowOf c s) hk.placed hk.noTicket hk.slot hk.completed

theorem RunsByHandle.current (hk : RunsByHandle c s h m act) (ho : s.portOpen)
    (hf : s.engineFree (laneOf h.slot.toNat)) (ht : handleTest h (s.record h.slot.toNat) = none) :
    ∃ op : Operation, op.record = s.record h.slot.toNat ∧ op.transit = s.transit ∧
      AccountCommandRuns (rowOf c) (laneOf h.slot.toNat) s (act op (s.notedFor h.slot.toNat)) :=
  ⟨s.readMgmt m, State.readMgmt_record hk.noTicket hk.slot, rfl,
    AccountCommandRuns.current c.opcode (takeCommand c) _ ho hf ht (exec_rowOf c s) hk.placed hk.noTicket hk.slot hk.completed⟩

/-- On a sound account the command's own part acts on what the block left. -/
theorem RunsByHandle.sound (hk : RunsByHandle c s h m act) (ho : s.portOpen)
    (hf : s.engineFree (laneOf h.slot.toNat)) (hs : s.soundAccount h) :
    ∃ op : Operation, op.record = s.record h.slot.toNat ∧ op.transit = s.transit ∧
      AccountCommandRuns (rowOf c) (laneOf h.slot.toNat) s (act op (s.begun .account)) := by
  obtain ⟨ht, -, hver⟩ := hs
  have hrun := hk.current ho hf ht
  rwa [State.notedFor_verified hver] at hrun

/-- The command's own part answers and writes nothing of its own. -/
theorem RunsByHandle.answers (hk : RunsByHandle c s h m act) (ho : s.portOpen)
    (hf : s.engineFree (laneOf h.slot.toNat)) (ht : handleTest h (s.record h.slot.toNat) = none) {st : Status} {body : MgmtBody}
    (hact : ∀ op x, op.record = s.record h.slot.toNat → op.transit = s.transit → act op x = x.reply c.opcode st body) :
    ∃ t, AccountCommandRuns (rowOf c) (laneOf h.slot.toNat) s t ∧ s.onlyAnswers t h.slot.toNat c.opcode st body := by
  obtain ⟨op, hr, htr, hrun⟩ := hk.current ho hf ht
  rw [hact op _ hr htr] at hrun
  exact ⟨_, hrun, State.onlyAnswers_reply ..⟩

theorem RunsByHandle.answers_sound (hk : RunsByHandle c s h m act) (ho : s.portOpen)
    (hf : s.engineFree (laneOf h.slot.toNat)) (hs : s.soundAccount h) {st : Status} {body : MgmtBody}
    (hact : ∀ op x, op.record = s.record h.slot.toNat → op.transit = s.transit → act op x = x.reply c.opcode st body) :
    AccountCommandRuns (rowOf c) (laneOf h.slot.toNat) s (s.replied c.opcode st body) := by
  obtain ⟨op, hr, htr, hrun⟩ := hk.sound ho hf hs
  rwa [hact op _ hr htr] at hrun

end

section
variable {s : State} {g : Lane} {op : Operation} {m : MgmtReq} {opcode : Byte} {h : Handle} {act : State → State}

theorem exec_byHandle_refused (hop : s.mgmtOp g = some (op, m))
    (hm : s.completeMgmt g op m = s.completeByHandle g op opcode h act) {st : Status} (ht : handleTest h op.record = some st) :
    exec (.managementRequestComplete g) s = .next (s.completed g opcode st .bare) := by
  show Host.Outcome.next _ = _
  rw [hop]
  dsimp only
  rw [hm, State.completeByHandle, ht]
  rfl

theorem exec_byHandle_current (hop : s.mgmtOp g = some (op, m))
    (hm : s.completeMgmt g op m = s.completeByHandle g op opcode h act) (ht : handleTest h op.record = none) :
    exec (.managementRequestComplete g) s = .next (act (s.endVerified g op h.slot.toNat)) := by
  show Host.Outcome.next _ = _
  rw [hop]
  dsimp only
  rw [hm, State.completeByHandle, ht]

/-- A completion by handle answers a refused handle bare, and a current one by its own part. -/
theorem exec_byHandle (hop : s.mgmtOp g = some (op, m))
    (hm : s.completeMgmt g op m = s.completeByHandle g op opcode h act) {P : State → Prop}
    (hP : handleTest h op.record = none → P (act (s.endVerified g op h.slot.toNat))) :
    ∃ t, exec (.managementRequestComplete g) s = .next t ∧
      (∀ st, handleTest h op.record = some st → t = s.completed g opcode st .bare) ∧ (handleTest h op.record = none → P t) := by
  cases ht : handleTest h op.record with
  | none => exact ⟨_, exec_byHandle_current hop hm ht, by simp, fun _ => hP ht⟩
  | some st =>
    refine ⟨_, exec_byHandle_refused hop hm ht, fun st' h' => ?_, by simp⟩
    obtain rfl : st = st' := Option.some.inj h'
    rfl

end

/-- R33: the notices of a verification, with the flag as it stood. -/
theorem State.suspectNotice_of_record (s : State) (n : Nat) (r : Record) :
    s.suspectNotice n (!r.verifies) = if r.verifies = false ∧ (s.record n).suspect = false then
      [.suspectFound n (s.record n).gen (s.record n).state .operation] else [] := by
  simp only [State.suspectNotice, Bool.not_eq_true']

theorem Record.found_suspect_of {r : Record} (h : r.suspect = true ∨ r.verifies = false) : r.found.suspect = true :=
  Record.found_suspect_iff.2 h

/-! ### FREEZE and THAW (R13, R14) -/

section
variable {op : Operation} {target : AcctState}

theorem State.completeFreeze_closing (x : State) (opcode : Byte) (h : Handle) (hc : op.record.state = .closing) :
    x.completeFreeze op opcode h target = x.reply opcode .closing .bare := by
  rw [State.completeFreeze, hc]
  rfl

theorem State.completeFreeze_suspect (x : State) (opcode : Byte) (h : Handle) (hc : op.record.state ≠ .closing)
    (hs : op.record.suspect = true ∨ op.record.verifies = false) :
    x.completeFreeze op opcode h target = x.reply opcode .suspect .bare := by
  rw [State.completeFreeze, if_neg (by simpa using hc), if_pos (Record.found_suspect_of hs)]

theorem State.completeFreeze_sound (x : State) (opcode : Byte) (h : Handle) (hc : op.record.state ≠ .closing)
    (hs : op.record.sound) : x.completeFreeze op opcode h target =
      (if op.record.state = target then x else x.writeState h.slot.toNat target).reply opcode .ok
        (standingBody op.record target) := by
  rw [State.completeFreeze, if_neg (by simpa using hc), Record.found_suspect_of_sound hs, if_neg (by decide)]
  simp only [beq_iff_eq]

end

/-- R13, R14: the write of a FREEZE or THAW, and its answer. -/
theorem State.writeState_reply_spec (x : State) (n : Nat) (target : AcctState) (opcode : Byte) (body : MgmtBody) :
    let t := (x.writeState n target).reply opcode .ok body
    t.record n = { x.record n with stateCode := target.code }.seal ∧ x.otherRecords t n ∧
      t = { x.reply opcode .ok body with accounts := t.accounts } := by
  refine ⟨State.record_writeState_same x n target, fun k hk => State.record_writeState_ne x target hk, rfl⟩

/-! ### RETIRE (R15 to R17) -/

theorem State.completeRetire_closing {op : Operation} (x : State) (h : Handle) (hc : op.record.state = .closing) :
    x.completeRetire op h = x.reply 7 .ok (standingBody op.record .closing) := by
  rw [State.completeRetire, hc]
  rfl

/-- R16, R17, R33: a RETIRE of an account that is not CLOSING yet, behind the verification. -/
theorem State.completeRetire_open {op : Operation} (y : State) (h : Handle) (hc : op.record.state ≠ .closing) :
    let n := h.slot.toNat
    let r := op.record
    let t := (y.noteMismatch n (!r.verifies) .operation).completeRetire op h
    t.record n = { y.flagSet n (!r.verifies) with
        stateCode := AcctState.code (if r.holds = [] then .gone else .closing) }.seal ∧
      y.otherRecords t n ∧ y.noticed t (y.suspectNotice n (!r.verifies)) ∧ (r.verifies = true → t.notices = y.notices) ∧
      (r.holds = [] →
        t.indexUnit = { y.indexUnit with updates := y.indexUnit.updates ++ [.remove r.key n] } ∧
        t = { y.reply 7 .ok (.retired .gone r.balance.sent 0) with
                accounts := t.accounts, indexUnit := t.indexUnit, notices := t.notices }) ∧
      (r.holds ≠ [] → t = { y.reply 7 .ok (standingBody r .closing) with accounts := t.accounts, notices := t.notices }) := by
  intro n r
  have hnoticed := State.noticed_noteMismatch y n (!r.verifies) .operation
  have hquiet : r.verifies = true → (y.noteMismatch n (!r.verifies) .operation).notices = y.notices := fun hv => by
    rw [hv]
    rfl
  have hself := State.record_noteMismatch_same y n (!r.verifies) .operation
  have hother : y.otherRecords (y.noteMismatch n (!r.verifies) .operation) n := fun k hk =>
    State.record_noteMismatch_ne y (!r.verifies) .operation hk
  have hframe : y.noteMismatch n (!r.verifies) .operation = { y with
      accounts := (y.noteMismatch n (!r.verifies) .operation).accounts
      notices := (y.noteMismatch n (!r.verifies) .operation).notices } := by
    apply State.eq_of_fields <;> simp
  generalize y.noteMismatch n (!r.verifies) .operation = x at *
  rw [State.completeRetire, if_neg (by simpa using hc)]
  simp only [List.isEmpty_iff]
  have hwritten (st : AcctState) : (x.writeState n st).record n = { y.flagSet n (!r.verifies) with stateCode := st.code }.seal := by
    rw [State.record_writeState_same, hself]
    rfl
  have hkept (st : AcctState) : y.otherRecords (x.writeState n st) n := fun k hk => by
    rw [State.record_writeState_ne _ _ hk, hother k hk]
  by_cases hh : op.record.holds = []
  · rw [if_pos hh]
    refine ⟨by rw [if_pos (show r.holds = [] from hh)]; exact hwritten .gone, hkept .gone, hnoticed, hquiet, fun _ => ⟨?_, ?_⟩,
      fun h' => absurd hh h'⟩
    · rw [hframe]
      rfl
    · rw [hh, hframe]
      rfl
  · rw [if_neg hh]
    refine ⟨by rw [if_neg (show r.holds ≠ [] from hh)]; exact hwritten .closing, hkept .closing, hnoticed, hquiet,
      fun h' => absurd h' hh, fun _ => ?_⟩
    rw [hframe]
    rfl

/-! ### The three commands from the block -/

theorem freeze_runsByHandle (s : State) (h : Handle) : RunsByHandle (.freeze h) s h (.freeze h)
    fun op x => x.completeFreeze op 5 h .frozen := ⟨rfl, rfl, rfl, fun _ _ => rfl⟩

theorem thaw_runsByHandle (s : State) (h : Handle) : RunsByHandle (.thaw h) s h (.thaw h)
    fun op x => x.completeFreeze op 6 h .active := ⟨rfl, rfl, rfl, fun _ _ => rfl⟩

theorem retire_runsByHandle (s : State) (h : Handle) : RunsByHandle (.retire h) s h (.retire h)
    fun op x => x.completeRetire op h := ⟨rfl, rfl, rfl, fun _ _ => rfl⟩

section
variable {s : State} {h : Handle} {c : Command} {m : MgmtReq} {target : AcctState}

theorem freeze_runs_closing
    (hk : RunsByHandle c s h m fun op x => x.completeFreeze op c.opcode h target) (ho : s.portOpen)
    (hf : s.engineFree (laneOf h.slot.toNat)) (ht : handleTest h (s.record h.slot.toNat) = none)
    (hc : (s.record h.slot.toNat).state = .closing) :
    ∃ t, AccountCommandRuns (rowOf c) (laneOf h.slot.toNat) s t ∧ s.onlyAnswers t h.slot.toNat c.opcode .closing .bare :=
  hk.answers ho hf ht fun op x hr _ => State.completeFreeze_closing x c.opcode h (by rw [hr]; exact hc)

theorem freeze_runs_suspect
    (hk : RunsByHandle c s h m fun op x => x.completeFreeze op c.opcode h target) (ho : s.portOpen)
    (hf : s.engineFree (laneOf h.slot.toNat)) (ht : handleTest h (s.record h.slot.toNat) = none)
    (hc : (s.record h.slot.toNat).state ≠ .closing)
    (hs : (s.record h.slot.toNat).suspect = true ∨ (s.record h.slot.toNat).verifies = false) :
    ∃ t, AccountCommandRuns (rowOf c) (laneOf h.slot.toNat) s t ∧ s.onlyAnswers t h.slot.toNat c.opcode .suspect .bare :=
  hk.answers ho hf ht fun op x hr _ =>
    State.completeFreeze_suspect x c.opcode h (by rw [hr]; exact hc) (by rw [hr]; exact hs)

theorem freeze_runs_same
    (hk : RunsByHandle c s h m fun op x => x.completeFreeze op c.opcode h target) (ho : s.portOpen)
    (hf : s.engineFree (laneOf h.slot.toNat)) (hs : s.soundAccount h) (hc : target ≠ .closing)
    (hst : (s.record h.slot.toNat).state = target) :
    AccountCommandRuns (rowOf c) (laneOf h.slot.toNat) s
      (s.replied c.opcode .ok (standingBody (s.record h.slot.toNat) target)) :=
  hk.answers_sound ho hf hs fun op x hr _ => by
    rw [State.completeFreeze_sound x c.opcode h (by rw [hr, hst]; exact hc) (by rw [hr]; exact hs.2), hr, if_pos hst]

theorem freeze_runs_written
    (hk : RunsByHandle c s h m fun op x => x.completeFreeze op c.opcode h target) (ho : s.portOpen)
    (hf : s.engineFree (laneOf h.slot.toNat)) (hs : s.soundAccount h) (hc : (s.record h.slot.toNat).state ≠ .closing)
    (hst : (s.record h.slot.toNat).state ≠ target) :
    ∃ t, AccountCommandRuns (rowOf c) (laneOf h.slot.toNat) s t ∧
      (t.record h.slot.toNat = { s.flagSet h.slot.toNat (!(s.record h.slot.toNat).verifies) with stateCode := target.code }.seal ∧
        s.otherRecords t h.slot.toNat) ∧
      t = { s.replied c.opcode .ok (standingBody (s.record h.slot.toNat) target) with accounts := t.accounts } := by
  obtain ⟨op, hr, -, hrun⟩ := hk.sound ho hf hs
  rw [State.completeFreeze_sound _ _ _ (by rw [hr]; exact hc) (by rw [hr]; exact hs.2), hr, if_neg hst] at hrun
  obtain ⟨hrec, hoth, hframe⟩ := (s.begun .account).writeState_reply_spec h.slot.toNat target c.opcode
    (standingBody (s.record h.slot.toNat) target)
  refine ⟨_, hrun, ⟨?_, fun n hn => (hoth n hn).trans (by simp)⟩, hframe⟩
  rw [hrec]
  simp [State.flagSet, hs.2.2]

end

/-- R15: a RETIRE of a CLOSING account. -/
theorem retire_runs_closing {s : State} {h : Handle} (ho : s.portOpen) (hf : s.engineFree (laneOf h.slot.toNat))
    (ht : handleTest h (s.record h.slot.toNat) = none) (hc : (s.record h.slot.toNat).state = .closing) :
    ∃ t, AccountCommandRuns (.retire h) (laneOf h.slot.toNat) s t ∧
      s.onlyAnswers t h.slot.toNat 7 .ok (standingBody (s.record h.slot.toNat) .closing) :=
  (retire_runsByHandle s h).answers ho hf ht fun op x hr _ => by
    rw [State.completeRetire_closing x h (by rw [hr]; exact hc), hr]
    rfl

/-- R16, R17: a RETIRE of any other account, from the block. -/
theorem retire_runs_open {s : State} {h : Handle} (ho : s.portOpen) (hf : s.engineFree (laneOf h.slot.toNat))
    (ht : handleTest h (s.record h.slot.toNat) = none) (hc : (s.record h.slot.toNat).state ≠ .closing) :
    let n := h.slot.toNat
    let r := s.record n
    ∃ t, AccountCommandRuns (.retire h) (laneOf n) s t ∧
      (t.record n = { s.flagSet n (!r.verifies) with
          stateCode := AcctState.code (if r.holds = [] then .gone else .closing) }.seal ∧ s.otherRecords t n) ∧
      s.noticed t (s.suspectNotice n (!r.verifies)) ∧ (r.verifies = true → t.notices = s.notices) ∧
      (r.holds = [] →
        t.indexUnit = { s.indexUnit with updates := s.indexUnit.updates ++ [.remove r.key n] } ∧
        t = { s.replied 7 .ok (.retired .gone r.balance.sent 0) with
                accounts := t.accounts, indexUnit := t.indexUnit, notices := t.notices }) ∧
      (r.holds ≠ [] → t = { s.replied 7 .ok (standingBody r .closing) with accounts := t.accounts, notices := t.notices }) := by
  intro n r
  obtain ⟨op, hr, -, hrun⟩ := (retire_runsByHandle s h).current ho hf ht
  obtain ⟨hrec, hoth, hnot, hquiet, hgone, hclosing⟩ := (s.begun .account).completeRetire_open (op := op) h (by rw [hr]; exact hc)
  rw [hr] at hrec hoth hnot hquiet hgone hclosing
  have hflag : (s.begun .account).flagSet n (!r.verifies) = s.flagSet n (!r.verifies) := by simp [State.flagSet]
  have hunit : (s.begun .account).indexUnit = s.indexUnit := by simp
  have hposted : (s.begun .account).suspectNotice n (!r.verifies) = s.suspectNotice n (!r.verifies) := by
    simp [State.suspectNotice]
  refine ⟨_, hrun, ⟨hrec.trans (by rw [hflag]), fun k hk => (hoth k hk).trans (by simp)⟩,
    hposted ▸ State.noticed_congr (by simp) rfl hnot, fun hv => (hquiet hv).trans (by simp), fun hh => ?_, hclosing⟩
  obtain ⟨hindex, hframe⟩ := hgone hh
  exact ⟨hindex.trans (by rw [hunit]), hframe⟩

/-! ### The completions in any state -/

/-- R13, R14: the completion of a FREEZE or THAW. -/
theorem State.completeFreeze_ends (s : State) (g : Lane) (op : Operation) (h : Handle) (opcode : Byte) {target : AcctState}
    (htarget : target ≠ .closing) :
    let n := h.slot.toNat
    let r := op.record
    let answer := standingBody r target
    let t := (s.endVerified g op n).completeFreeze op opcode h target
    (r.state = .closing → s.completedNoted t g n r opcode .closing .bare) ∧
      (r.state ≠ .closing → (r.suspect = true ∨ r.verifies = false) → s.completedNoted t g n r opcode .suspect .bare) ∧
      (r.sound → r.state = target → t = s.completed g opcode .ok answer) ∧
      (r.sound → r.state ≠ .closing → r.state ≠ target →
        t.record n = { s.record n with stateCode := target.code }.seal ∧ s.otherRecords t n ∧
          t = { s.completed g opcode .ok answer with accounts := t.accounts }) := by
  intro n r answer t
  refine ⟨fun hc => ?_, fun hc hs => ?_, fun hs hst => ?_, fun hs hc hst => ?_⟩
  · rw [show t = _ from State.completeFreeze_closing _ opcode h hc]
    exact State.completedNoted_reply ..
  · rw [show t = _ from State.completeFreeze_suspect _ opcode h hc hs]
    exact State.completedNoted_reply ..
  · rw [show t = _ from State.completeFreeze_sound _ opcode h (by rw [show op.record.state = target from hst]; exact htarget) hs,
      if_pos hst, State.endVerified_verified _ _ _ hs.2]
    rfl
  · rw [show t = _ from State.completeFreeze_sound _ opcode h hc hs, if_neg hst, State.endVerified_verified _ _ _ hs.2]
    exact (s.endOp g).writeState_reply_spec n target opcode answer

/-- Settles O51: a FREEZE, THAW or RETIRE is taken by handle, and its own part is a chain of refusals and one write; the same
lemmas about that part serve the command from its block and the completion in any state. -/
theorem accountStatesChangeOnCommand : Obligations.AccountStatesChangeOnCommand := by
  refine ⟨fun s h ho hf => ?runs, fun g s op h m opcode target hop hm => ?freeze, fun g s op h hop => ?retire⟩
  case runs =>
    have hfreeze := freeze_runsByHandle s h
    have hthaw := thaw_runsByHandle s h
    refine ⟨fun st ht => ⟨hfreeze.refused ho hf ht, hthaw.refused ho hf ht, (retire_runsByHandle s h).refused ho hf ht⟩,
      fun ht hc => ⟨freeze_runs_closing hfreeze ho hf ht hc, freeze_runs_closing hthaw ho hf ht hc,
        retire_runs_closing ho hf ht hc⟩,
      fun ht hc hs => ⟨freeze_runs_suspect hfreeze ho hf ht hc hs, freeze_runs_suspect hthaw ho hf ht hc hs⟩,
      fun hs => ⟨freeze_runs_same hfreeze ho hf hs (by decide), freeze_runs_same hthaw ho hf hs (by decide),
        fun hst => ?_, fun hst => ?_⟩,
      fun ht hc hh => ?_, fun ht hc hh => ?_⟩
    · exact freeze_runs_written hfreeze ho hf hs (by rw [hst]; decide) (by rw [hst]; decide)
    · exact freeze_runs_written hthaw ho hf hs (by rw [hst]; decide) (by rw [hst]; decide)
    · obtain ⟨t, hrun, hwritten, hnot, hquiet, hgone, -⟩ := retire_runs_open ho hf ht hc
      rw [State.suspectNotice_of_record] at hnot
      rw [if_pos hh] at hwritten
      exact ⟨t, hrun, hwritten, hnot, (hgone hh).1, hquiet, (hgone hh).2⟩
    · obtain ⟨t, hrun, hwritten, hnot, hquiet, -, hclosing⟩ := retire_runs_open ho hf ht hc
      rw [State.suspectNotice_of_record] at hnot
      rw [if_neg hh] at hwritten
      exact ⟨t, hrun, hwritten, hnot, hquiet, hclosing hh⟩
  case freeze =>
    have hact : s.completeMgmt g op m = s.completeByHandle g op opcode h fun x => x.completeFreeze op opcode h target := by
      rcases hm with ⟨rfl, rfl, rfl⟩ | ⟨rfl, rfl, rfl⟩ <;> rfl
    have htarget : target ≠ .closing := by
      rcases hm with ⟨-, -, rfl⟩ | ⟨-, -, rfl⟩ <;> decide
    obtain ⟨hclosing, hsuspect, hsame, hwritten⟩ := s.completeFreeze_ends g op h opcode htarget
    obtain ⟨t, hexec, hrefused, hcurrent⟩ := exec_byHandle hop hact
      (P := fun t => t = (s.endVerified g op h.slot.toNat).completeFreeze op opcode h target) fun _ => rfl
    refine ⟨t, hexec, hrefused, fun ht => ?_, fun ht => ?_, fun ht => ?_, fun ht => ?_⟩ <;> rw [hcurrent ht]
    · exact hclosing
    · exact hsuspect
    · exact hsame
    · exact hwritten
  case retire =>
    obtain ⟨t, hexec, hrefused, hcurrent⟩ := exec_byHandle hop (opcode := 7) (h := h)
      (act := fun x => x.completeRetire op h) rfl
      (P := fun t => t = (s.endVerified g op h.slot.toNat).completeRetire op h) fun _ => rfl
    refine ⟨t, hexec, hrefused, fun ht hc => ?_, fun ht hc => ?_⟩ <;> rw [hcurrent ht]
    · rw [State.completeRetire_closing _ _ hc]
      exact State.completedNoted_reply ..
    · exact (s.endOp g).completeRetire_open h hc

end Sys2Proof.Machine
end

section
/-! The credits on command: TOPUP, ADJUST and the credit of a stranded transit (R49, R57 to R59, R68). -/

namespace Sys2Proof.Machine

/-! ### The refusals of the command unit (R49) -/

theorem takeTopup_badDigit {a : S8} (ha : a.ok = false) (h : Handle) (s : State) :
    takeTopup h a s = s.reply 8 .badDigit .bare := by
  rw [takeTopup, topupRefusal, ha]
  rfl

theorem takeTopup_badRange {a : S8} (ha : a.ok = true) (hv : a.value < 1) (h : Handle) (s : State) :
    takeTopup h a s = s.reply 8 .badRange .bare := by
  have hrefused : topupRefusal a = some .badRange := by
    rw [topupRefusal, ha, if_neg (by decide), if_pos hv]
  rw [takeTopup, hrefused]

theorem takeAdjust_badDigit {a : S8} (ha : a.ok = false) (h : Handle) (s : State) :
    takeAdjust h a s = s.reply 9 .badDigit .bare := by
  rw [takeAdjust, adjustRefusal, ha]
  rfl

theorem takeAdjust_badRange {a : S8} (ha : a.ok = true) (hv : a.value = 0) (h : Handle) (s : State) :
    takeAdjust h a s = s.reply 9 .badRange .bare := by
  have hrefused : adjustRefusal a = some .badRange := by
    rw [adjustRefusal, ha, if_neg (by decide), if_pos hv]
  rw [takeAdjust, hrefused]

/-! ### The checks of a credit (R57) -/

/-- R51, R57: the stored figures and the would-be conditions of a credit refused with CLOSING or OVER. -/
def refusedCredit (r : Record) (v : Int) : MgmtBody :=
  .valueRefused r.balance.sent r.held r.spendable
    { balanceConds (r.bal + v) r.lowValue with overRange := decide (¬(-99999999 ≤ r.bal + v ∧ r.bal + v ≤ 99999999)) }

theorem balanceInRange_iff {v : Int} : balanceInRange v = true ↔ -99999999 ≤ v ∧ v ≤ 99999999 := by
  rw [balanceInRange, Bool.and_eq_true, decide_eq_true_eq, decide_eq_true_eq]

theorem refusedCredit_eq (r : Record) (v : Int) :
    refusedCredit r v = .valueRefused r.balance.sent r.held r.spendable (wouldBeCredit r v) := by
  have hrange : (!balanceInRange (r.bal + v)) = decide (¬(-99999999 ≤ r.bal + v ∧ r.bal + v ≤ 99999999)) := by
    simp only [← balanceInRange_iff, decide_not, Bool.decide_eq_true]
  rw [refusedCredit, wouldBeCredit, hrange]

/-- R57: the conditions of a credit above the range. -/
theorem refusedCredit_over {r : Record} {v : Int} (h : ¬(-99999999 ≤ r.bal + v ∧ r.bal + v ≤ 99999999)) :
    refusedCredit r v = .valueRefused r.balance.sent r.held r.spendable
      { balanceConds (r.bal + v) r.lowValue with overRange := true } := by
  rw [refusedCredit, decide_eq_true h]

section
variable {r : Record} {v : Int} {closes : Bool}

theorem creditRefusal_closing (hb : closes = true) (hc : r.state = .closing) :
    creditRefusal closes v r = some (.closing, refusedCredit r v) := by
  rw [refusedCredit_eq, creditRefusal, hb, hc]
  rfl

theorem closes_not_refused (hc : ¬(closes = true ∧ r.state = .closing)) : ¬(closes && r.state == .closing) = true := by
  rw [Bool.and_eq_true, beq_iff_eq]
  exact hc

theorem creditRefusal_suspect (hc : ¬(closes = true ∧ r.state = .closing)) (hs : r.suspect = true ∨ r.verifies = false) :
    creditRefusal closes v r = some (.suspect, .bare) := by
  rw [creditRefusal, if_neg (closes_not_refused hc), if_pos (Record.found_suspect_of hs)]

theorem creditRefusal_over (hc : ¬(closes = true ∧ r.state = .closing)) (hs : r.sound)
    (hv : ¬(-99999999 ≤ r.bal + v ∧ r.bal + v ≤ 99999999)) :
    creditRefusal closes v r = some (.overRange, refusedCredit r v) := by
  have hrange : balanceInRange (r.bal + v) = false := by rwa [← Bool.not_eq_true, balanceInRange_iff]
  rw [refusedCredit_eq, creditRefusal, if_neg (closes_not_refused hc), Record.found_suspect_of_sound hs, hrange]
  rfl

theorem creditRefusal_none (hc : ¬(closes = true ∧ r.state = .closing)) (hs : r.sound)
    (hv : -99999999 ≤ r.bal + v ∧ r.bal + v ≤ 99999999) : creditRefusal closes v r = none := by
  rw [creditRefusal, if_neg (closes_not_refused hc), Record.found_suspect_of_sound hs, balanceInRange_iff.2 hv]
  rfl

end

/-! ### What a credit writes (R57 to R59, R68) -/

/-- R59: the notice of a new balance that falls below the low mark. -/
def lowNotices (r : Record) (n : Nat) (v : Int) : List Notice :=
  if (r.lowValue : Int) ≤ r.bal ∧ r.bal + v < r.lowValue then
    [.lowBalance ⟨BitVec.ofNat 16 n, r.gen⟩ (S8.ofInt (r.bal + v))] else []

theorem lowNotices_eq (r : Record) (n : Nat) (v : Int) : lowNotices r n v = if crossesLow r (r.bal + v) = true then
    [.lowBalance ⟨BitVec.ofNat 16 n, r.gen⟩ (S8.ofInt (r.bal + v))] else [] := by
  have hiff : crossesLow r (r.bal + v) = true ↔ (r.lowValue : Int) ≤ r.bal ∧ r.bal + v < r.lowValue := by
    rw [crossesLow_iff]
    omega
  simp only [lowNotices, hiff]

theorem crossesLow_credit (r : Record) {v : Int} (hv : 0 ≤ v) : crossesLow r (r.bal + v) = false := by
  rw [← Bool.not_eq_true, crossesLow_iff]
  omega

/-- A credit of v behind the state x: the balance, its notice, and the answer, which clears the register when it credits a
transit. -/
def State.creditWritten (x t : State) (n : Nat) (r : Record) (opcode : Byte) (v : Int) : Prop :=
  t.record n = { x.record n with balance := S8.ofInt (r.bal + v) }.seal ∧ x.otherRecords t n ∧
    x.noticed t (lowNotices r n v) ∧ (0 ≤ v → t.notices = x.notices) ∧
    (opcode ≠ 11 → t = { x.reply opcode .ok (valueBody (r.withBalance (r.bal + v))) with
      accounts := t.accounts, notices := t.notices }) ∧
    (opcode = 11 → 0 ≤ v → t.transit.state = .empty ∧
      t = { x.reply 11 .ok (.credited (S8.ofInt (r.bal + v)) (balanceConds (r.bal + v) r.lowValue)) with
        accounts := t.accounts, transit := t.transit })

/-- A command's own part is a credit of `amount`, under the checks of R57. -/
structure Credits (act : Operation → State → State) (n : Nat) (opcode : Byte) (closes : Bool) (amount : Operation → Int) :
    Prop where
  refused : ∀ op x st body, creditRefusal closes (amount op) op.record = some (st, body) → act op x = x.reply opcode st body
  written : ∀ (op : Operation) (x : State), creditRefusal closes (amount op) op.record = none →
    x.creditWritten (act op x) n op.record opcode (amount op)

/-- R4, R59: the new balance of a credit. -/
theorem State.writeNewBalance_credit (x : State) (n : Nat) (r : Record) (v : Int) :
    let y := x.writeNewBalance n r (some (r.bal + v))
    y.record n = { x.record n with balance := S8.ofInt (r.bal + v) }.seal ∧ x.otherRecords y n ∧
      x.noticed y (lowNotices r n v) ∧ (0 ≤ v → y.notices = x.notices) ∧
      y = { x with accounts := y.accounts, notices := y.notices } := by
  unfold State.writeNewBalance
  refine ⟨by simp, fun k hk => by simp [State.record_writeBalance_ne _ _ hk], ?_, fun hv => ?_, ?_⟩
  · rw [lowNotices_eq]
    exact State.noticed_congr (s := x.writeBalance n (r.bal + v)) (by simp) rfl (State.noticed_postLow n r (r.bal + v) rfl)
  · simp [State.postLow, crossesLow_credit r hv]
  · apply State.eq_of_fields <;> simp

theorem completeCredit_credits (h : Handle) {opcode : Byte} (hne : opcode ≠ 11) (closes : Bool) (v : Int) :
    Credits (fun op x => x.completeCredit op opcode h closes v) h.slot.toNat opcode closes fun _ => v where
  refused op x st body hc := by rw [State.completeCredit, hc]
  written op x hc := by
    rw [State.completeCredit, hc]
    dsimp only
    obtain ⟨hrec, hoth, hnot, hquiet, hframe⟩ := x.writeNewBalance_credit h.slot.toNat op.record v
    generalize x.writeNewBalance h.slot.toNat op.record (some (op.record.bal + v)) = y at *
    refine ⟨hrec, hoth, hnot, hquiet, fun _ => ?_, fun h => absurd h hne⟩
    rw [hframe]
    rfl

theorem completeTransitCredit_credits (h : Handle) :
    Credits (fun op x => x.completeTransitCredit op h) h.slot.toNat 11 true fun op => op.transit.amount where
  refused op x st body hc := by
    rw [State.completeTransitCredit]
    dsimp only
    rw [hc]
  written op x hc := by
    rw [State.completeTransitCredit]
    dsimp only
    rw [hc]
    dsimp only
    obtain ⟨hrec, hoth, hnot, hquiet, hframe⟩ := x.writeNewBalance_credit h.slot.toNat op.record op.transit.amount
    generalize x.writeNewBalance h.slot.toNat op.record (some (op.record.bal + op.transit.amount)) = y at *
    refine ⟨hrec, hoth, hnot, hquiet, fun h => absurd rfl h, fun _ hv => ⟨rfl, ?_⟩⟩
    have hnotices := hquiet hv
    have hsame : y = { x with accounts := y.accounts } := by
      rw [hnotices] at hframe
      exact hframe
    rw [hsame]
    rfl

/-! ### From the block -/

section
variable {c : Command} {s : State} {h : Handle} {m : MgmtReq} {act : Operation → State → State} {closes : Bool}
  {amount : Operation → Int} {v : Int}

theorem credit_runs_refused (hk : RunsByHandle c s h m act) (hc : Credits act h.slot.toNat c.opcode closes amount)
    (hv : ∀ op : Operation, op.transit = s.transit → amount op = v) (ho : s.portOpen)
    (hf : s.engineFree (laneOf h.slot.toNat)) (ht : handleTest h (s.record h.slot.toNat) = none) {st : Status} {body : MgmtBody}
    (href : creditRefusal closes v (s.record h.slot.toNat) = some (st, body)) :
    ∃ t, AccountCommandRuns (rowOf c) (laneOf h.slot.toNat) s t ∧ s.onlyAnswers t h.slot.toNat c.opcode st body :=
  hk.answers ho hf ht fun op x hr htr => hc.refused op x st body (by rw [hr, hv op htr]; exact href)

theorem credit_runs_over (hk : RunsByHandle c s h m act) (hc : Credits act h.slot.toNat c.opcode closes amount)
    (hv : ∀ op : Operation, op.transit = s.transit → amount op = v) (ho : s.portOpen)
    (hf : s.engineFree (laneOf h.slot.toNat)) (hs : s.soundAccount h)
    (hcl : ¬(closes = true ∧ (s.record h.slot.toNat).state = .closing))
    (hrange : ¬(-99999999 ≤ (s.record h.slot.toNat).bal + v ∧ (s.record h.slot.toNat).bal + v ≤ 99999999)) :
    AccountCommandRuns (rowOf c) (laneOf h.slot.toNat) s
      (s.replied c.opcode .overRange (refusedCredit (s.record h.slot.toNat) v)) :=
  hk.answers_sound ho hf hs fun op x hr htr =>
    hc.refused op x _ _ (by rw [hr, hv op htr]; exact creditRefusal_over hcl hs.2 hrange)

theorem credit_runs_written (hk : RunsByHandle c s h m act) (hc : Credits act h.slot.toNat c.opcode closes amount)
    (hv : ∀ op : Operation, op.transit = s.transit → amount op = v) (ho : s.portOpen)
    (hf : s.engineFree (laneOf h.slot.toNat)) (hs : s.soundAccount h)
    (hcl : ¬(closes = true ∧ (s.record h.slot.toNat).state = .closing))
    (hrange : -99999999 ≤ (s.record h.slot.toNat).bal + v ∧ (s.record h.slot.toNat).bal + v ≤ 99999999) :
    ∃ t, AccountCommandRuns (rowOf c) (laneOf h.slot.toNat) s t ∧
      (s.begun .account).creditWritten t h.slot.toNat (s.record h.slot.toNat) c.opcode v := by
  obtain ⟨op, hr, htr, hrun⟩ := hk.sound ho hf hs
  have hwritten := hc.written op (s.begun .account) (by rw [hr, hv op htr]; exact creditRefusal_none hcl hs.2 hrange)
  rw [hr, hv op htr] at hwritten
  exact ⟨_, hrun, hwritten⟩

end

/-- What a credit from its block writes, told from the state before the block. -/
theorem State.creditWritten_begun {s t : State} {n : Nat} {opcode : Byte} {v : Int}
    (h : (s.begun .account).creditWritten t n (s.record n) opcode v) :
    t.record n = { s.record n with balance := S8.ofInt ((s.record n).bal + v) }.seal ∧ s.otherRecords t n ∧
      s.noticed t (lowNotices (s.record n) n v) ∧
      (opcode ≠ 11 → t = { s.replied opcode .ok (valueBody ((s.record n).withBalance ((s.record n).bal + v))) with
        accounts := t.accounts, notices := t.notices }) ∧
      (opcode ≠ 11 → 0 ≤ v → t = { s.replied opcode .ok (valueBody ((s.record n).withBalance ((s.record n).bal + v))) with
        accounts := t.accounts }) ∧
      (opcode = 11 → 0 ≤ v → t.transit.state = .empty ∧
        t = { s.replied 11 .ok (.credited (S8.ofInt ((s.record n).bal + v))
                (balanceConds ((s.record n).bal + v) (s.record n).lowValue)) with
              accounts := t.accounts, transit := t.transit }) := by
  obtain ⟨hrec, hoth, hnot, hquiet, hvalue, htransit⟩ := h
  refine ⟨hrec.trans (by simp), fun k hk => (hoth k hk).trans (by simp), State.noticed_congr (by simp) rfl hnot, hvalue,
    fun hne hv => ?_, htransit⟩
  have hframe := hvalue hne
  rw [hquiet hv] at hframe
  exact hframe

theorem topup_runsByHandle {a : S8} (ha : a.ok = true) (hv : 1 ≤ a.value) (s : State) (h : Handle) :
    RunsByHandle (.topup h a) s h (.topup h a) fun op x => x.completeCredit op 8 h true a.value :=
  ⟨takeTopup_places ha hv, rfl, rfl, fun _ _ => rfl⟩

theorem adjust_runsByHandle {a : S8} (ha : a.ok = true) (hv : a.value ≠ 0) (s : State) (h : Handle) :
    RunsByHandle (.adjust h a) s h (.adjust h a) fun op x => x.completeCredit op 9 h false a.value :=
  ⟨takeAdjust_places ha hv, rfl, rfl, fun _ _ => rfl⟩

theorem transitCredit_runsByHandle {s : State} (hs : s.transit.state = .stranded) (h : Handle) :
    RunsByHandle (.transitClear 1 h) s h (.transitCredit h) fun op x => x.completeTransitCredit op h :=
  ⟨takeTransitClear_taken (how := 1) (by rw [State.transit_openSelect]; exact hs) (by decide), rfl, rfl, fun _ _ => rfl⟩

/-! ### The completion in any state -/

/-- R57, R68: the completion of a credit, outcome by outcome. -/
theorem Credits.ends {act : Operation → State → State} {n : Nat} {opcode : Byte} {closes : Bool} {amount : Operation → Int}
    (hc : Credits act n opcode closes amount) (s : State) (g : Lane) (op : Operation) :
    let r := op.record
    let v := amount op
    let t := act op (s.endVerified g op n)
    let inRange := -99999999 ≤ r.bal + v ∧ r.bal + v ≤ 99999999
    (closes = true → r.state = .closing → s.completedNoted t g n r opcode .closing (refusedCredit r v)) ∧
      (¬(closes = true ∧ r.state = .closing) → (r.suspect = true ∨ r.verifies = false) →
        s.completedNoted t g n r opcode .suspect .bare) ∧
      (¬(closes = true ∧ r.state = .closing) → r.sound → ¬inRange →
        t = s.completed g opcode .overRange (refusedCredit r v)) ∧
      (¬(closes = true ∧ r.state = .closing) → r.sound → inRange → (s.endOp g).creditWritten t n r opcode v) := by
  intro r v t inRange
  refine ⟨fun hb hcl => ?_, fun hcl hs => ?_, fun hcl hs hv => ?_, fun hcl hs hv => ?_⟩
  · rw [show t = _ from hc.refused op _ _ _ (creditRefusal_closing hb hcl)]
    exact State.completedNoted_reply ..
  · rw [show t = _ from hc.refused op _ _ _ (creditRefusal_suspect hcl hs)]
    exact State.completedNoted_reply ..
  · rw [show t = _ from hc.refused op _ _ _ (creditRefusal_over hcl hs hv), State.endVerified_verified _ _ _ hs.2]
    rfl
  · have hwritten := hc.written op (s.endVerified g op n) (creditRefusal_none hcl hs hv)
    rw [show t = act op (s.endOp g) by rw [← State.endVerified_verified s g n hs.2]]
    rwa [State.endVerified_verified _ _ _ hs.2] at hwritten

/-- The three credits as one: what `completeMgmt` does, and that only an ADJUST credits a CLOSING account. -/
theorem exists_credits {h : Handle} {a : S8} {m : MgmtReq} {opcode : Byte} {v : Int} {op : Operation}
    (hm : (m = .topup h a ∧ opcode = 8 ∧ v = a.value) ∨ (m = .adjust h a ∧ opcode = 9 ∧ v = a.value) ∨
      (m = .transitCredit h ∧ opcode = 11 ∧ v = op.transit.amount)) :
    ∃ act closes amount, Credits act h.slot.toNat opcode closes amount ∧ amount op = v ∧ (closes = true ↔ opcode ≠ 9) ∧
      (opcode = 11 → 0 ≤ v) ∧
      ∀ (s : State) (g : Lane), s.completeMgmt g op m = s.completeByHandle g op opcode h (act op) := by
  rcases hm with ⟨rfl, rfl, rfl⟩ | ⟨rfl, rfl, rfl⟩ | ⟨rfl, rfl, rfl⟩
  · exact ⟨_, _, _, completeCredit_credits h (by decide) true a.value, rfl, by decide, fun h => absurd h (by decide),
      fun _ _ => rfl⟩
  · exact ⟨_, _, _, completeCredit_credits h (by decide) false a.value, rfl, by decide, fun h => absurd h (by decide),
      fun _ _ => rfl⟩
  · exact ⟨_, _, _, completeTransitCredit_credits h, rfl, by decide, fun _ => Int.natCast_nonneg _, fun _ _ => rfl⟩

/-- Settles O52: the three credits are one `Credits`; its refusals and its write serve the commands from their blocks and
the completion in any state. -/
theorem creditsAreWrittenOnCommand : Obligations.CreditsAreWrittenOnCommand := by
  refine ⟨fun s h a ho => ⟨fun ha => ?digit, fun ha hv => ?topupRange, fun ha hv => ?adjustRange, fun hf ha => ?runs⟩,
    fun g s op h a m opcode v hop hm => ?completion⟩
  case digit =>
    exact ⟨exec_rowOf_refused ho (c := .topup h a) (takeTopup_badDigit ha h _),
      exec_rowOf_refused ho (c := .adjust h a) (takeAdjust_badDigit ha h _)⟩
  case topupRange => exact exec_rowOf_refused ho (c := .topup h a) (takeTopup_badRange ha hv h _)
  case adjustRange => exact exec_rowOf_refused ho (c := .adjust h a) (takeAdjust_badRange ha hv h _)
  case runs =>
    have htopup (hv : 1 ≤ a.value) := topup_runsByHandle ha hv s h
    have hadjust (hv : a.value ≠ 0) := adjust_runsByHandle ha hv s h
    have htransit (hs : s.transit.state = .stranded) := transitCredit_runsByHandle hs h
    have ctopup := completeCredit_credits h (opcode := 8) (by decide) true a.value
    have cadjust := completeCredit_credits h (opcode := 9) (by decide) false a.value
    have ctransit := completeTransitCredit_credits h
    have vtransit (op : Operation) (hop : op.transit = s.transit) : (op.transit.amount : Int) = s.transit.amount := by rw [hop]
    have hopen : ¬(false = true ∧ (s.record h.slot.toNat).state = .closing) := by simp
    refine ⟨fun st ht => ⟨fun hv => (htopup hv).refused ho hf ht, fun hv => (hadjust hv).refused ho hf ht,
        fun hs => (htransit hs).refused ho hf ht⟩,
      fun ht hc => ⟨fun hv => credit_runs_refused (htopup hv) ctopup (fun _ _ => rfl) ho hf ht (creditRefusal_closing rfl hc),
        fun hs => credit_runs_refused (htransit hs) ctransit vtransit ho hf ht (creditRefusal_closing rfl hc)⟩,
      fun ht hsus => ⟨fun hv hc => credit_runs_refused (htopup hv) ctopup (fun _ _ => rfl) ho hf ht
          (creditRefusal_suspect (fun h => hc h.2) hsus),
        fun hv => credit_runs_refused (hadjust hv) cadjust (fun _ _ => rfl) ho hf ht (creditRefusal_suspect hopen hsus),
        fun hs hc => credit_runs_refused (htransit hs) ctransit vtransit ho hf ht
          (creditRefusal_suspect (fun h => hc h.2) hsus)⟩,
      fun hsound => ⟨fun hv hr => credit_runs_over (hadjust hv) cadjust (fun _ _ => rfl) ho hf hsound hopen hr,
        fun hs hc hr => credit_runs_over (htransit hs) ctransit vtransit ho hf hsound (fun h => hc h.2) hr,
        fun hv hc hr => ?_, fun hv hc hr => ?_, fun hv hr => ?_, fun hs hc hr => ?_⟩⟩
    · obtain ⟨t, hrun, hwritten⟩ := credit_runs_written (htopup hv) ctopup (fun _ _ => rfl) ho hf hsound (fun h => hc h.2) hr
      obtain ⟨hrec, hoth, -, -, hquiet, -⟩ := State.creditWritten_begun hwritten
      exact ⟨t, hrun, hrec, hoth, hquiet (show (8 : Byte) ≠ 11 by decide) (by omega)⟩
    · have hover : ¬(-99999999 ≤ (s.record h.slot.toNat).bal + a.value ∧ (s.record h.slot.toNat).bal + a.value ≤ 99999999) := by
        omega
      rw [← refusedCredit_over hover]
      exact credit_runs_over (htopup hv) ctopup (fun _ _ => rfl) ho hf hsound (fun h => hc h.2) hover
    · obtain ⟨t, hrun, hwritten⟩ := credit_runs_written (hadjust hv) cadjust (fun _ _ => rfl) ho hf hsound hopen hr
      obtain ⟨hrec, hoth, hnot, hframe, -⟩ := State.creditWritten_begun hwritten
      exact ⟨t, hrun, hrec, hoth, hnot, hframe (show (9 : Byte) ≠ 11 by decide)⟩
    · obtain ⟨t, hrun, hwritten⟩ := credit_runs_written (htransit hs) ctransit vtransit ho hf hsound (fun h => hc h.2) hr
      obtain ⟨hrec, hoth, -, -, -, hframe⟩ := State.creditWritten_begun hwritten
      obtain ⟨hempty, hframe⟩ := hframe rfl (by omega)
      exact ⟨t, hrun, hempty, hrec, hoth, hframe⟩
  case completion =>
    obtain ⟨act, closes, amount, hcredits, hamount, hcloses, hpos, hact⟩ := exists_credits hm
    obtain ⟨hclosing, hsuspect, hover, hwritten⟩ := hcredits.ends s g op
    rw [hamount] at hclosing hover hwritten
    have hopen (hc : ¬(op.record.state = .closing ∧ opcode ≠ 9)) : ¬(closes = true ∧ op.record.state = .closing) :=
      fun h => hc ⟨h.2, hcloses.1 h.1⟩
    obtain ⟨t, hexec, hrefused, hcurrent⟩ := exec_byHandle hop (hact s g)
      (P := fun t => t = act op (s.endVerified g op h.slot.toNat)) fun _ => rfl
    refine ⟨t, hexec, hrefused, fun ht hc => ?_, fun ht hc hs => ?_, fun ht hc hs hr => ?_, fun ht hc hs hr => ?_⟩ <;>
      rw [hcurrent ht]
    · exact hclosing (hcloses.2 hc.2) hc.1
    · exact hsuspect (hopen hc) hs
    · exact hover (hopen hc) hs hr
    · obtain ⟨hrec, hoth, hnot, hquiet, hvalue, htransit⟩ := hwritten (hopen hc) hs hr
      exact ⟨hrec, hoth, hnot, hquiet, hvalue, fun h11 => htransit h11 (hpos h11)⟩

end Sys2Proof.Machine
end

section
/-! The record commands: READ, UPDATE and RESTORE (R5, R7, R33, R94, R101, R103, R139 to R141, R157, R158). -/

namespace Sys2Proof.Machine

/-! ### The refusals of the command unit (R140, R157, R158) -/

theorem takeRead_badRange {form : Byte} (hf : 1 < form.toNat) (h : Handle) (s : State) :
    takeRead h form s = s.reply 3 .badRange .bare := by
  have h0 : ¬(form == 0) = true := by
    rw [beq_iff_eq]
    rintro rfl
    exact absurd hf (by decide)
  have h1 : ¬(form == 1) = true := by
    rw [beq_iff_eq]
    rintro rfl
    exact absurd hf (by decide)
  rw [takeRead, if_neg h0, if_neg h1]

/-- R157: the two forms of a READ. -/
theorem form_eq {form : Byte} (hf : form.toNat ≤ 1) : form = 0 ∨ form = 1 := by
  have hcases : form.toNat = 0 ∨ form.toNat = 1 := by omega
  exact hcases.imp (fun h => BitVec.eq_of_toNat_eq h) fun h => BitVec.eq_of_toNat_eq h

/-- R158: a selected field with a bad digit. -/
theorem updateDigitsOk_false {mask : Byte} {floor low : B6}
    (h : (mask.getLsbD 0 = true ∧ B6.ok floor = false) ∨ (mask.getLsbD 1 = true ∧ B6.ok low = false)) :
    updateDigitsOk mask floor low = false := by
  rw [updateDigitsOk, Bool.and_eq_false_iff]
  exact h.imp (fun ⟨h1, h2⟩ => by rw [h1, h2]; rfl) fun ⟨h1, h2⟩ => by rw [h1, h2]; rfl

section
variable {mask : Byte} {floor low : B6}

theorem digits_of_not_bad
    (h : ¬((mask.getLsbD 0 = true ∧ B6.ok floor = false) ∨ (mask.getLsbD 1 = true ∧ B6.ok low = false))) :
    (mask.getLsbD 0 = true → B6.ok floor = true) ∧ (mask.getLsbD 1 = true → B6.ok low = true) :=
  ⟨fun h0 => eq_true_of_ne_false fun hf => h (.inl ⟨h0, hf⟩),
    fun h1 => eq_true_of_ne_false fun hl => h (.inr ⟨h1, hl⟩)⟩

theorem takeUpdate_badDigit
    (hd : (mask.getLsbD 0 = true ∧ B6.ok floor = false) ∨ (mask.getLsbD 1 = true ∧ B6.ok low = false))
    (h : Handle) (set : TariffSet) (s : State) : takeUpdate h mask floor low set s = s.reply 4 .badDigit .bare := by
  rw [takeUpdate, updateDigitsOk_false hd]
  rfl

theorem takeUpdate_badRange
    (hd : ¬((mask.getLsbD 0 = true ∧ B6.ok floor = false) ∨ (mask.getLsbD 1 = true ∧ B6.ok low = false)))
    (hm : 7 < mask.toNat) (h : Handle) (set : TariffSet) (s : State) :
    takeUpdate h mask floor low set s = s.reply 4 .badRange .bare := by
  obtain ⟨hf, hl⟩ := digits_of_not_bad hd
  rw [takeUpdate, updateDigitsOk_of_ok hf hl, if_neg (by decide), if_pos hm]

end

theorem takeRestore_badDigit {bal : S8} {floor low : B6} (hd : ¬(bal.ok = true ∧ B6.ok floor = true ∧ B6.ok low = true))
    (h : Handle) (set : TariffSet) (s : State) : takeRestore h bal floor low set s = s.reply 12 .badDigit .bare := by
  rw [← and_assoc, ← Bool.and_eq_true, ← Bool.and_eq_true] at hd
  refine if_pos ?_
  rw [Bool.not_eq_true', Bool.eq_false_iff]
  exact hd

/-! ### READ and UPDATE (R157, R158) -/

theorem read_runsByHandle (s : State) (h : Handle) {form : Byte} {full : Bool}
    (hf : (form, full) = (0, false) ∨ (form, full) = (1, true)) :
    RunsByHandle (.read h form) s h (.read h full) fun op x => x.completeRead op h full := by
  refine ⟨?_, rfl, rfl, fun _ _ => rfl⟩
  rcases hf with hf | hf <;> obtain ⟨rfl, rfl⟩ := Prod.mk.inj hf <;> rfl

theorem update_runsByHandle (s : State) (h : Handle) {mask : Byte} {floor low : B6} (set : TariffSet) (h1 : 1 ≤ mask.toNat)
    (h7 : mask.toNat ≤ 7)
    (hd : ¬((mask.getLsbD 0 = true ∧ B6.ok floor = false) ∨ (mask.getLsbD 1 = true ∧ B6.ok low = false))) :
    RunsByHandle (.update h mask floor low set) s h (.update h mask floor low set)
      fun op x => x.completeUpdate op h mask floor low set :=
  ⟨takeUpdate_places h1 h7 (digits_of_not_bad hd).1 (digits_of_not_bad hd).2, rfl, rfl, fun _ _ => rfl⟩

theorem restore_runsByHandle (s : State) (h : Handle) {bal : S8} {floor low : B6} (set : TariffSet) (hb : bal.ok = true)
    (hf : B6.ok floor = true) (hl : B6.ok low = true) :
    RunsByHandle (.restore h bal floor low set) s h (.restore h bal floor low set)
      fun op x => x.completeRestore op h bal floor low set (s.record h.slot.toNat).suspect := by
  refine ⟨takeRestore_places hb hf hl, rfl, rfl, fun t ht => ?_⟩
  have hrecord : t.record h.slot.toNat = s.record h.slot.toNat := by
    have : (t.endOp (laneOf h.slot.toNat)).record h.slot.toNat = s.record h.slot.toNat := by
      rw [ht]
      simp
    exact this
  rw [← hrecord]
  rfl

/-- R157: the answer of a READ, with the flag as the verification leaves it. -/
theorem State.completeRead_noted {y : State} {op : Operation} {h : Handle} {full : Bool} {flag : Bool}
    (hflag : ((y.record h.slot.toNat).suspect || !op.record.verifies) = flag) :
    (y.noteMismatch h.slot.toNat (!op.record.verifies) .operation).completeRead op h full =
      (y.noteMismatch h.slot.toNat (!op.record.verifies) .operation).reply 3 .ok
        (readBody { op.record with suspect := flag } full) := by
  rw [State.completeRead, State.record_noteMismatch_same, ← hflag]

theorem read_runs {s : State} {h : Handle} {form : Byte} {full : Bool}
    (hf : (form, full) = (0, false) ∨ (form, full) = (1, true))
    (ho : s.portOpen) (he : s.engineFree (laneOf h.slot.toNat)) (ht : handleTest h (s.record h.slot.toNat) = none) :
    ∃ t, AccountCommandRuns (.managementRead h form) (laneOf h.slot.toNat) s t ∧
      s.onlyAnswers t h.slot.toNat 3 .ok (readBody { s.record h.slot.toNat with
        suspect := (s.record h.slot.toNat).suspect || !(s.record h.slot.toNat).verifies } full) := by
  obtain ⟨op, hr, -, hrun⟩ := (read_runsByHandle s h hf).current ho he ht
  have hrecord : (s.begun .account).record h.slot.toNat = s.record h.slot.toNat := by simp
  rw [State.notedFor, ← hr, State.completeRead_noted (by rw [hrecord])] at hrun
  rw [hr] at hrun
  exact ⟨_, hrun, State.onlyAnswers_reply ..⟩

theorem State.completeUpdate_suspect {op : Operation} (hs : op.record.suspect = true ∨ op.record.verifies = false) (x : State)
    (h : Handle) (mask : Byte) (floor low : B6) (set : TariffSet) :
    x.completeUpdate op h mask floor low set = x.reply 4 .suspect .bare := by
  rw [State.completeUpdate, if_pos (Record.found_suspect_of hs)]

/-- R158: the write of an UPDATE and its answer. -/
theorem State.completeUpdate_sound {op : Operation} (hs : op.record.sound) (x : State) (h : Handle) (mask : Byte)
    (floor low : B6) (set : TariffSet) :
    let n := h.slot.toNat
    let new := (x.record n).updated mask floor low set
    let t := x.completeUpdate op h mask floor low set
    t.record n = new.seal ∧ x.otherRecords t n ∧ t = { x.reply 4 .ok (updatedBody new) with accounts := t.accounts } := by
  intro n new
  have hrec : (x.modifyRecord n fun r => (r.updated mask floor low set).seal).record n = new.seal := by simp [new, n]
  have hact : x.completeUpdate op h mask floor low set =
      (x.modifyRecord n fun r => (r.updated mask floor low set).seal).reply 4 .ok (updatedBody new) := by
    rw [State.completeUpdate, Record.found_suspect_of_sound hs, if_neg (by decide)]
    dsimp only
    rw [hrec]
    rfl
  rw [hact]
  exact ⟨hrec, fun k hk => State.record_modifyRecord_ne x (fun r => (r.updated mask floor low set).seal) hk, rfl⟩

theorem update_runs_written {s : State} {h : Handle} {mask : Byte} {floor low : B6} (set : TariffSet) (h1 : 1 ≤ mask.toNat)
    (h7 : mask.toNat ≤ 7)
    (hd : ¬((mask.getLsbD 0 = true ∧ B6.ok floor = false) ∨ (mask.getLsbD 1 = true ∧ B6.ok low = false)))
    (ho : s.portOpen) (he : s.engineFree (laneOf h.slot.toNat)) (hs : s.soundAccount h) :
    let n := h.slot.toNat
    let new := (s.record n).updated mask floor low set
    ∃ t, AccountCommandRuns (.update h mask floor low set) (laneOf n) s t ∧ t.record n = new.seal ∧ s.otherRecords t n ∧
      t = { s.replied 4 .ok (updatedBody new) with accounts := t.accounts } := by
  intro n new
  obtain ⟨op, hr, -, hrun⟩ := (update_runsByHandle s h set h1 h7 hd).sound ho he hs
  obtain ⟨hrec, hoth, hframe⟩ := State.completeUpdate_sound (op := op) (by rw [hr]; exact hs.2) (s.begun .account) h mask floor
    low set
  have hrecord : (s.begun .account).record h.slot.toNat = s.record h.slot.toNat := by simp
  rw [hrecord] at hrec hframe
  exact ⟨_, hrun, hrec, fun k hk => (hoth k hk).trans (by simp), hframe⟩

/-! ### RESTORE (R101, R103, R140, R141) -/

/-- R140: the record a RESTORE writes: its own fields, the flag clear, a matching check code, the rest as it stood. -/
theorem Record.restored_spec (r : Record) (bal : S8) (floor low : B6) (set : TariffSet) :
    let c := r.restored bal floor low set
    c.suspect = false ∧ c.balance = S8.ofInt bal.value ∧ c.floor = floor ∧ c.lowMark = low ∧ c.tariffs = set ∧
      c.state = r.state ∧ c.key = r.key ∧ c.gen = r.gen ∧ c.held = r.held ∧ c.holds = r.holds ∧
      c.checkCode = crc16 c.covered :=
  ⟨rfl, rfl, rfl, rfl, rfl, Record.state_of_stateCode rfl, rfl, rfl, rfl, rfl, rfl⟩

/-- R140: the figures of a restored record. -/
theorem restored_figures (r : Record) (bal : S8) (floor low : B6) (set : TariffSet) :
    let c := r.restored bal floor low set
    c.spendable = bal.value + B6.value floor - r.held ∧ storedConds c = balanceConds bal.value (B6.value low) := by
  have hvalue : (r.restored bal floor low set).bal = bal.value := S8.value_ofInt bal.value_bounds
  dsimp only
  rw [Record.spendable, storedConds, hvalue]
  exact ⟨rfl, rfl⟩

/-- R140, R141: the answer of a RESTORE in the fields it is given. -/
theorem restoredBody_fields (r : Record) (bal : S8) (floor low : B6) (set : TariffSet) (wasSet matched : Bool) (k : Nat) :
    let new := { r with balance := S8.ofInt bal.value, floor := floor, lowMark := low, tariffs := set }
    restoredBody (r.restored bal floor low set) wasSet matched k =
      .restored r.state r.key r.gen (S8.ofInt bal.value).sent floor low set false wasSet matched r.held new.spendable
        r.holds.length k (storedConds new) := by
  have hstate : (r.restored bal floor low set).state = r.state := Record.state_of_stateCode rfl
  dsimp only
  rw [restoredBody, hstate]
  rfl

/-- R140, R141: the answer of a RESTORE in the figures it is given. -/
theorem restoredBody_restored (r : Record) (bal : S8) (floor low : B6) (set : TariffSet) (wasSet matched : Bool) (k : Nat) :
    restoredBody (r.restored bal floor low set) wasSet matched k =
      .restored r.state r.key r.gen (S8.ofInt bal.value).sent floor low set false wasSet matched r.held
        (bal.value + B6.value floor - r.held) r.holds.length k (balanceConds bal.value (B6.value low)) := by
  obtain ⟨hspendable, hconds⟩ := restored_figures r bal floor low set
  have hstate : (r.restored bal floor low set).state = r.state := Record.state_of_stateCode rfl
  rw [restoredBody, hspendable, hconds, hstate]
  rfl

/-- R140: of a sound record a RESTORE writes its own fields alone. -/
theorem Record.restored_of_sound {r : Record} (hs : r.sound) (bal : S8) (floor low : B6) (set : TariffSet) :
    r.restored bal floor low set =
      { r with balance := S8.ofInt bal.value, floor := floor, lowMark := low, tariffs := set }.seal := by
  obtain ⟨hsuspect, hverifies⟩ := hs
  rw [Record.restored, Record.code_of_state (Record.code_of_verifies hverifies), ← hsuspect]

/-- R101, R103, R141: holds re-armed and the due test that follows. -/
def State.rearmed (z : State) (list : List Ticket) : State := (list.foldl State.rearm z).dueTest

theorem State.rearmed_frame (z : State) (list : List Ticket) :
    let u := z.rearmed list
    u = { z with holds := u.holds, deadlines := u.deadlines, engines := u.engines, power := u.power } ∧
      ∀ m, u.engine m = { z.engine m with expiry := (u.engine m).expiry } := by
  refine ⟨?_, fun m => ?_⟩
  · rw [State.rearmed, State.dueTest_only, State.rearm_all_frame]
  · rw [State.rearmed, State.engine_dueTest, State.rearm_all_frame]
    rfl

theorem State.rearmed_hold (z : State) (list : List Ticket) :
    (∀ tk ∈ list, (z.rearmed list).hold tk.entry.toNat =
      { z.hold tk.entry.toNat with state := .live, deadline := z.timebase }) ∧
    ∀ n, (∀ tk ∈ list, tk.entry.toNat ≠ n) → (z.rearmed list).hold n = z.hold n := by
  have hhold (n : Nat) : (z.rearmed list).hold n = (list.foldl State.rearm z).hold n := by simp [State.rearmed]
  simp only [hhold]
  exact State.hold_rearm_all list z

/-- R103, R141: with nothing else due, the re-armed holds leave the queue at once and their claims are posted in order. -/
theorem State.rearmed_claims {z : State} (list : List Ticket) (hr : z.isReady = true)
    (hd : ∀ i ∈ z.deadlines, z.timebase < i.deadline) :
    (z.rearmed list).deadlines = z.deadlines ∧ (z.rearmed list).power = (if list = [] then z.power else z.wake.power) ∧
      ∀ m, ((z.rearmed list).engine m).expiry =
        (z.engine m).expiry ++ list.filter fun tk => laneOf (z.hold tk.entry.toNat).slot == m := by
  have hqueue := State.rearm_all_spec list z [] z.deadlines rfl (by simp) hd
  have hholds := (State.hold_rearm_all list z).1
  have hframe := State.rearm_all_frame list z
  unfold State.rearmed
  generalize list.foldl State.rearm z = w at *
  have hready : w.isReady = true := by rw [hframe]; exact hr
  have htime : w.timebase = z.timebase := by rw [hframe]
  have hpower : w.power = z.power := by rw [hframe]
  have hengine (m : Lane) : w.engine m = z.engine m := by rw [hframe]; rfl
  rw [List.nil_append] at hqueue
  have hnow : ∀ i ∈ list.map fun t => (⟨t, z.timebase⟩ : DeadlineItem), i.deadline ≤ w.timebase := by
    simp [htime]
  obtain ⟨hleft, hposted⟩ := State.dueTest_append hready hqueue hnow (by rw [htime]; exact hd)
  have hclaims (m : Lane) : dueTickets w (list.map fun t => (⟨t, z.timebase⟩ : DeadlineItem)) m =
      list.filter fun tk => laneOf (z.hold tk.entry.toNat).slot == m := by
    rw [dueTickets, List.filter_map, List.map_map]
    refine (List.map_id _).trans (List.filter_congr fun tk htk => ?_)
    show (decide (z.timebase ≤ w.timebase) && laneOf (w.hold tk.entry.toNat).slot == m) = _
    rw [hholds tk htk, htime, decide_eq_true (Nat.le_refl _), Bool.true_and]
  refine ⟨hleft, ?_, fun m => by rw [hposted, hengine, hclaims]⟩
  rw [State.power_dueTest, hready, hpower, State.power_wake hpower]
  cases list with
  | nil =>
    have hhead : w.headDue = false := by
      rw [State.headDue, hqueue, List.map_nil, List.nil_append]
      cases hz : z.deadlines with
      | nil => rfl
      | cons i rest =>
        have hlater := hd i (by rw [hz]; exact List.mem_cons_self)
        exact decide_eq_false (by omega)
    rw [if_neg (by rw [hhead]; simp), if_pos rfl]
  | cons tk list =>
    have hhead : w.headDue = true := by
      rw [State.headDue, hqueue, List.map_cons, List.cons_append]
      exact decide_eq_true (Nat.le_of_eq htime.symm)
    rw [if_pos ⟨rfl, hhead⟩, if_neg (by simp)]

/-- R140, R141: the own part of a RESTORE, as the write of the record, the re-arming and the answer. -/
theorem State.completeRestore_eq (x : State) (op : Operation) (h : Handle) (bal : S8) (floor low : B6) (set : TariffSet)
    (wasSet : Bool) : x.completeRestore op h bal floor low set wasSet =
      ((x.modifyRecord h.slot.toNat fun r => r.restored bal floor low set).rearmed (x.stalledOf op.record.holds)).reply 12 .ok
        (restoredBody ((x.record h.slot.toNat).restored bal floor low set) wasSet op.record.verifies
          (x.stalledOf op.record.holds).length) := by
  rw [State.completeRestore, State.record_modifyRecord_same]
  rfl

/-- R140: a RESTORE of a sound account without STALLED holds, in a chip where nothing is due. -/
theorem restore_runs_written {s : State} {h : Handle} {bal : S8} {floor low : B6} {set : TariffSet} (hb : bal.ok = true)
    (hf : B6.ok floor = true) (hl : B6.ok low = true) (ho : s.portOpen) (he : s.engineFree (laneOf h.slot.toNat))
    (hs : s.soundAccount h) (hstalled : ∀ tk ∈ (s.record h.slot.toNat).holds, (s.hold tk.entry.toNat).state ≠ .stalled)
    (hd : ∀ i ∈ s.deadlines, s.timebase < i.deadline) :
    let n := h.slot.toNat
    let c := (s.record n).restored bal floor low set
    ∃ t, AccountCommandRuns (.restore h bal floor low set) (laneOf n) s t ∧ t.record n = c ∧ s.otherRecords t n ∧
      t = { s.replied 12 .ok (restoredBody c false true 0) with accounts := t.accounts } := by
  intro n c
  obtain ⟨op, hr, -, hrun⟩ := (restore_runsByHandle s h set hb hf hl).sound ho he hs
  have hlist : (s.begun .account).stalledOf (s.record h.slot.toNat).holds = [] := by
    rw [State.stalledOf, List.filter_eq_nil_iff]
    intro tk htk
    rw [beq_iff_eq, show (s.begun .account).hold tk.entry.toNat = s.hold tk.entry.toNat by simp]
    exact hstalled tk htk
  have hrecord : (s.begun .account).record h.slot.toNat = s.record h.slot.toNat := by simp
  have hquiet (x : State) (hx : ∀ i ∈ x.deadlines, x.timebase < i.deadline) : x.rearmed [] = x := State.dueTest_of_ahead hx
  rw [State.completeRestore_eq, hr, hlist, hrecord, hs.2.2, hs.2.1, hquiet _ (by simpa using hd)] at hrun
  refine ⟨_, hrun, ?_, fun k hk => ?_, rfl⟩
  · exact (State.record_modifyRecord_same (s.begun .account) n fun r => r.restored bal floor low set).trans (by rw [hrecord])
  · exact (State.record_modifyRecord_ne (s.begun .account) (fun r => r.restored bal floor low set) hk).trans (by simp)

/-- R31, R33: what the end of a verified operation leaves. -/
theorem State.endVerified_spec (s : State) (g : Lane) (op : Operation) (n : Nat) :
    let x := s.endVerified g op n
    x.record n = s.flagSet n (!op.record.verifies) ∧ s.otherRecords x n ∧
      s.noticed x (s.suspectNotice n (!op.record.verifies)) ∧ (op.record.verifies = true → x.notices = s.notices) ∧
      (∀ m, x.engine m = { s.engine m with op := if m = g then none else (s.engine m).op }) ∧
      x = { s with accounts := x.accounts, notices := x.notices, engines := x.engines } := by
  refine ⟨State.record_noteMismatch_same (s.endOp g) n (!op.record.verifies) .operation,
    fun k hk => State.record_noteMismatch_ne (s.endOp g) (!op.record.verifies) .operation hk, State.noticed_endVerified rfl,
    fun hv => ?_, fun m => ?_, ?_⟩
  · rw [State.endVerified_verified s g n hv]
    rfl
  · rw [State.endVerified, State.engine_noteMismatch, State.engine_endOp]
  · apply State.eq_of_fields <;> simp [State.endVerified]

/-- R33, R140, R141: the completion of a RESTORE whose handle is current, by the record it writes. -/
theorem exec_restore_current {g : Lane} {s : State} {op : Operation} {h : Handle} {bal : S8} {floor low : B6} {set : TariffSet}
    (hop : s.mgmtOp g = some (op, .restore h bal floor low set)) (ht : handleTest h op.record = none) :
    let n := h.slot.toNat
    let old := s.record n
    let rearmed := op.record.holds.filter fun tk => (s.hold tk.entry.toNat).state == .stalled
    ∃ t, exec (.managementRequestComplete g) s = .next t ∧
      t.record n = (s.flagSet n (!op.record.verifies)).restored bal floor low set ∧ s.otherRecords t n ∧
      (∀ tk ∈ rearmed, t.hold tk.entry.toNat =
        { s.hold tk.entry.toNat with state := .live, deadline := s.timebase }) ∧
      (∀ k, (∀ tk ∈ rearmed, tk.entry.toNat ≠ k) → t.hold k = s.hold k) ∧
      (s.isReady = true → (∀ i ∈ s.deadlines, s.timebase < i.deadline) → t.deadlines = s.deadlines ∧
        t.power = (if rearmed = [] then s.power else s.wake.power) ∧
        ∀ m, (t.engine m).expiry = (s.engine m).expiry ++
          rearmed.filter fun tk => laneOf (s.hold tk.entry.toNat).slot == m) ∧
      t.cmd = s.unitAnswers ⟨12, .ok, restoredBody ((s.flagSet n (!op.record.verifies)).restored bal floor low set)
        old.suspect op.record.verifies rearmed.length⟩ ∧
      s.noticed t (s.suspectNotice n (!op.record.verifies)) ∧ (op.record.verifies = true → t.notices = s.notices) ∧
      (∀ m, t.engine m = { s.engine m with op := if m = g then none else (s.engine m).op,
                                           expiry := (t.engine m).expiry }) ∧
      t = { s with accounts := t.accounts, holds := t.holds, deadlines := t.deadlines, engines := t.engines, cmd := t.cmd,
                   notices := t.notices, power := t.power } := by
  intro n old rearmed
  have hexec := exec_byHandle_current (act := fun x => x.completeRestore op h bal floor low set (s.record h.slot.toNat).suspect)
    (opcode := 12) hop rfl ht
  obtain ⟨hself, hother, hnoticed, hquiet, hengine, hframe⟩ := s.endVerified_spec g op n
  have hlist : (s.endVerified g op n).stalledOf op.record.holds = rearmed := by
    rw [hframe]
    rfl
  rw [State.completeRestore_eq, hlist, hself] at hexec
  generalize s.endVerified g op n = x at *
  have hzrec := State.record_modifyRecord_same x n fun r => r.restored bal floor low set
  have hzoth (k : Nat) (hk : k ≠ n) := State.record_modifyRecord_ne x (fun r => r.restored bal floor low set) hk
  have hz : x.modifyRecord n (fun r => r.restored bal floor low set) =
      { x with accounts := (x.modifyRecord n fun r => r.restored bal floor low set).accounts } := rfl
  generalize x.modifyRecord n (fun r => r.restored bal floor low set) = z at *
  have hzengine (m : Lane) : z.engine m = x.engine m := by rw [hz]; rfl
  have hzhold (k : Nat) : z.hold k = s.hold k := by rw [hz, hframe]; rfl
  obtain ⟨hu, hueng⟩ := z.rearmed_frame rearmed
  obtain ⟨hlive, hkept⟩ := z.rearmed_hold rearmed
  have hclaims := State.rearmed_claims (z := z) rearmed
  generalize z.rearmed rearmed = u at *
  have hrecord (k : Nat) : u.record k = z.record k := by rw [hu]; rfl
  have htime : z.timebase = s.timebase := by rw [hz, hframe]
  have hcmd : u.cmd = s.cmd := by rw [hu, hz, hframe]
  have hnotices : u.notices = x.notices := by rw [hu, hz]
  refine ⟨_, hexec, ?_, fun k hk => ?_, fun tk htk => ?_, fun k hk => ?_, fun hr hd => ?_, ?_, ?_, fun hv => ?_, fun m => ?_, ?_⟩
  · exact (hrecord n).trans (hzrec.trans (by rw [hself]))
  · exact (hrecord k).trans ((hzoth k hk).trans (hother k hk))
  · exact (hlive tk htk).trans (by rw [hzhold, htime])
  · exact (hkept k hk).trans (hzhold k)
  · have hready : z.isReady = true := by
      rw [hz, hframe]
      exact hr
    have hdue : ∀ i ∈ z.deadlines, z.timebase < i.deadline := by
      rw [hz, hframe]
      exact hd
    obtain ⟨hdead, hpower, hexpiry⟩ := hclaims hready hdue
    have hzpower : z.power = s.power := by rw [hz, hframe]
    refine ⟨hdead.trans (by rw [hz, hframe]), hpower.trans (by rw [hzpower, State.power_wake hzpower]), fun m => ?_⟩
    refine (hexpiry m).trans ?_
    simp only [hzhold, hzengine, hengine]
  · exact State.unitAnswers_congr hcmd _
  · exact State.noticed_congr rfl hnotices.symm hnoticed
  · exact hnotices.trans (hquiet hv)
  · refine (hueng m).trans ?_
    rw [hzengine, hengine]
    rfl
  · rw [hu, hz, hframe]
    rfl

/-- Settles O53: each command by handle, its own part in any state, and the same part from the block; a RESTORE re-arms by
`State.rearmed_claims`. -/
theorem recordsAreReadAndRewrittenOnCommand : Obligations.RecordsAreReadAndRewrittenOnCommand := by
  refine ⟨fun s h mask bal floor low set ho => ?blocks, fun g s op h full hop => ?read,
    fun g s op h mask floor low set hop => ?update, fun g s op h bal floor low set st hop ht => ?restoreRefused,
    fun g s op h bal floor low set hop ht => ?restore⟩
  case blocks =>
    refine ⟨fun form hf => exec_rowOf_refused ho (c := .read h form) (takeRead_badRange hf h _),
      fun hd => exec_rowOf_refused ho (c := .update h mask floor low set) (takeUpdate_badDigit hd h set _),
      fun hd hm => exec_rowOf_refused ho (c := .update h mask floor low set) (takeUpdate_badRange hd hm h set _),
      exec_rowOf_refused ho (c := .update h 0 floor low set) rfl,
      fun hd => exec_rowOf_refused ho (c := .restore h bal floor low set) (takeRestore_badDigit hd h set _), fun hf => ?_⟩
    have hread0 : ((0 : Byte), false) = (0, false) ∨ ((0 : Byte), false) = (1, true) := .inl rfl
    have hread1 : ((1 : Byte), true) = (0, false) ∨ ((1 : Byte), true) = (1, true) := .inr rfl
    refine ⟨fun st ht => ⟨fun form hform => ?_, fun hd h1 h7 => (update_runsByHandle s h set h1 h7 hd).refused ho hf ht,
        fun hb hfl hl => (restore_runsByHandle s h set hb hfl hl).refused ho hf ht⟩,
      fun ht => ⟨read_runs hread0 ho hf ht, read_runs hread1 ho hf ht, fun hd h1 h7 hflag => ?_⟩,
      fun hs hd h1 h7 => update_runs_written set h1 h7 hd ho hf hs, fun hs hb hfl hl hstalled hdue => ?_⟩
    · rcases form_eq hform with rfl | rfl
      · exact (read_runsByHandle s h hread0).refused ho hf ht
      · exact (read_runsByHandle s h hread1).refused ho hf ht
    · refine (update_runsByHandle s h set h1 h7 hd).answers ho hf ht fun op x hr _ =>
        State.completeUpdate_suspect ?_ x h mask floor low set
      rw [hr]
      simpa using hflag
    · obtain ⟨t, hrun, hrec, hoth, hframe⟩ := restore_runs_written (set := set) hb hfl hl ho hf hs hstalled hdue
      have hnew := Record.restored_of_sound hs.2 bal floor low set
      refine ⟨t, hrun, hrec.trans hnew, hoth, hframe.trans ?_⟩
      rw [restoredBody_fields]
  case read =>
    refine exec_byHandle (act := fun x => x.completeRead op h full) hop rfl fun ht => ?_
    rw [State.endVerified, State.completeRead_noted rfl]
    exact s.completedNoted_reply g op h.slot.toNat 3 .ok (readBody { op.record with
      suspect := (s.record h.slot.toNat).suspect || !op.record.verifies } full)
  case update =>
    obtain ⟨t, hexec, hrefused, hcurrent⟩ := exec_byHandle (opcode := 4) (h := h)
      (act := fun x => x.completeUpdate op h mask floor low set) hop rfl
      (P := fun t => t = (s.endVerified g op h.slot.toNat).completeUpdate op h mask floor low set) fun _ => rfl
    refine ⟨t, hexec, hrefused, fun ht hs => ?_, fun ht hs => ?_⟩ <;> rw [hcurrent ht]
    · rw [State.completeUpdate_suspect hs]
      exact State.completedNoted_reply ..
    · rw [State.endVerified_verified _ _ _ hs.2]
      exact State.completeUpdate_sound hs (s.endOp g) h mask floor low set
  case restoreRefused => exact exec_byHandle_refused (opcode := 12) (h := h) (act := fun x =>
    x.completeRestore op h bal floor low set (s.record h.slot.toNat).suspect) hop rfl ht
  case restore =>
    obtain ⟨t, hexec, hrec, hoth, hlive, hkept, hclaims, hcmd, hnot, hquiet, heng, hframe⟩ := exec_restore_current hop ht
    rw [restoredBody_restored] at hcmd
    rw [State.suspectNotice_of_record] at hnot
    obtain ⟨hsus, hbal, hfloor, hlow, hset, hstate, hkey, hgen, hheld, hholds, hcode⟩ :=
      (s.flagSet h.slot.toNat (!op.record.verifies)).restored_spec bal floor low set
    rw [← hrec] at hsus hbal hfloor hlow hset hstate hkey hgen hheld hholds hcode
    refine ⟨t, hexec, ?_, hsus, hbal, hfloor, hlow, hset, hstate, hkey, hgen, hheld, hholds, hcode, hoth, hlive, hkept,
      hclaims, hcmd, hnot, hquiet, heng, hframe⟩
    rw [heng, if_pos rfl]

end Sys2Proof.Machine
end

section
/-! HOLD_READ, HOLD_RELEASE and HOLD_CAPTURE (R35, R36, R86 to R89, R94, R102). -/

namespace Sys2Proof.Machine

/-! ### An account command by ticket (R35, R86) -/

theorem startByTicket_stale {s : State} {t : Ticket} (op : Byte) (m : MgmtReq)
    (h : ticketCurrent t (s.hold t.entry.toNat) = false) :
    s.openSelect.startByTicket op t m = s.openSelect.reply op .holdGone .bare := by
  have hhold : s.openSelect.hold t.entry.toNat = s.hold t.entry.toNat := by simp
  rw [State.startByTicket, hhold]
  exact if_neg (by rw [h]; decide)

section
variable {s : State} {g : Lane} {op : Operation} {m : MgmtReq} {opcode : Byte} {t : Ticket} {act : State → State}

theorem exec_byTicket_stale (hop : s.mgmtOp g = some (op, m))
    (hm : s.completeMgmt g op m = s.completeByTicket g op opcode t act) (ht : ticketOfGroup g t op.entry = false) :
    exec (.managementRequestComplete g) s = .next (s.completed g opcode .holdGone .bare) := by
  show Host.Outcome.next _ = _
  rw [hop]
  dsimp only
  rw [hm, State.completeByTicket, if_neg (by rw [ht]; decide)]
  rfl

theorem exec_byTicket_current (hop : s.mgmtOp g = some (op, m))
    (hm : s.completeMgmt g op m = s.completeByTicket g op opcode t act) (ht : ticketOfGroup g t op.entry = true) :
    exec (.managementRequestComplete g) s = .next (act (s.endVerified g op op.entry.slot)) := by
  show Host.Outcome.next _ = _
  rw [hop]
  dsimp only
  rw [hm, State.completeByTicket, if_pos ht]

end

/-! ### What a block leaves is a state in which an operation has ended -/

section
variable {s : State} {g : Lane}

theorem State.endOp_of_none (h : (s.engine g).op = none) : s.endOp g = s := by
  have hsame : { s.engine g with op := none } = s.engines.get g := by rw [← h]; rfl
  show { s with engines := s.engines.set g { s.engine g with op := none } } = s
  rw [hsame, Four.set_get_same]

theorem State.endOp_begun (hf : s.engineFree g) : (s.begun .account).endOp g = s.begun .account := by
  apply State.endOp_of_none
  rw [show (s.begun .account).engine g = s.engine g by simp, hf.1]
  rfl

theorem State.completed_begun (hf : s.engineFree g) (opcode : Byte) (st : Status) (body : MgmtBody) :
    (s.begun .account).completed g opcode st body = s.replied opcode st body := by
  rw [← State.reply_endOp, State.endOp_begun hf]
  rfl

/-- The engines of what a block leaves, with the operation of a free engine taken off. -/
theorem State.engine_begun_free (hf : s.engineFree g) (m : Lane) :
    { (s.begun .account).engine m with op := if m = g then none else ((s.begun .account).engine m).op } = s.engine m := by
  have hengine : (s.begun .account).engine m = s.engine m := by simp
  rw [hengine]
  by_cases hm : m = g
  · rw [if_pos hm, hm, hf.1]
    rfl
  · rw [if_neg hm]

end

/-! ### HOLD_READ (R87) -/

theorem State.standingOf_eq {x s : State} (hd : x.deadlines = s.deadlines) (t : Ticket) (e : HoldEntry) :
    x.standingOf t e = if e.state = .stalled then .none else if s.isQueued t = true then .queued else .claimed := by
  have hqueued : x.isQueued t = s.isQueued t := by rw [State.isQueued, State.isQueued, hd]
  rw [State.standingOf, hqueued]
  simp only [beq_iff_eq]

/-! ### HOLD_RELEASE and HOLD_CAPTURE (R59, R79, R88, R89) -/

/-- What a release or a capture leaves besides what the ending of the hold and its notices are: the operation is over and
answered, the power control is as it was while no deadline has been reached. -/
def State.endedOnCommand (s t : State) (g : Lane) (opcode : Byte) (body : MgmtBody) : Prop :=
  (∀ m, t.engine m = { s.engine m with op := if m = g then none else (s.engine m).op, expiry := (t.engine m).expiry }) ∧
    ((∀ i ∈ s.deadlines, s.timebase < i.deadline) → t.power = s.power) ∧
    t = { s.completed g opcode .ok body with
            accounts := t.accounts, holds := t.holds, deadlines := t.deadlines, engines := t.engines,
            indexUnit := t.indexUnit, notices := t.notices, power := t.power }

/-- R88: the record after an ending without a charge, as its answer tells it. -/
theorem releasedBody_ended (r : Record) (t : Ticket) (e : HoldEntry) :
    releasedBody t (endedRecord r t e 0) = .holdReleased t r.balance.sent (heldWithout r.held e.amount)
      (r.bal + r.floorValue - (heldWithout r.held e.amount : Nat)) (r.holds.filter (· ≠ t)).length
      (balanceConds r.bal r.lowValue) := by
  have hmin : -99999999 ≤ r.bal - 0 := by
    have hbounds := (S8.value_bounds r.balance).1
    unfold Record.bal
    omega
  obtain ⟨hbal, hheld, hholds, hspend, -, -⟩ := endedRecord_spec r t e 0 (Int.le_refl 0) hmin
  obtain ⟨-, -, hbalance, -, -, -, -, -, -, hlow, -⟩ :=
    recordAfterEnding_spec r.found (endsClosing r t) t e.amount (chargedBalance r 0)
  have hconds : storedConds (endedRecord r t e 0) = balanceConds r.bal r.lowValue := by
    have hbalance : (endedRecord r t e 0).balance = r.balance := hbalance
    have hlow : (endedRecord r t e 0).lowMark = r.lowMark := hlow
    rw [storedConds, Record.bal, Record.lowValue, hbalance, hlow]
    rfl
  rw [releasedBody, hbal, hheld, hholds, hspend, hconds, Int.sub_zero, if_neg (Int.lt_irrefl _)]

/-- R79, R88: the release, in any state that has it in progress. -/
theorem State.completeRelease_ends (s : State) (g : Lane) (op : Operation) (t : Ticket) :
    let e := op.entry
    let r := op.record
    let held := heldWithout r.held e.amount
    let u := (s.endVerified g op e.slot).completeRelease g op t
    s.holdEnded u g t e r none ∧ s.noticed u (s.suspectNotice e.slot (!r.verifies)) ∧
      (r.verifies = true → u.notices = s.notices) ∧
      s.endedOnCommand u g 14 (.holdReleased t r.balance.sent held (r.bal + r.floorValue - (held : Nat))
        (r.holds.filter (· ≠ t)).length (balanceConds r.bal r.lowValue)) := by
  intro e r held u
  obtain ⟨-, -, hnot, hquiet, -, -⟩ := s.endVerified_spec g op e.slot
  have hu : u = ((s.endVerified g op e.slot).endHold g t e r none).reply 14 .ok (releasedBody t (endedRecord r t e 0)) := rfl
  rw [releasedBody_ended] at hu
  have hnotices : u.notices = (s.endVerified g op e.slot).notices := by rw [hu]; simp [State.reply]
  refine ⟨State.holdEnded_of_noted s g t e r none .operation u rfl rfl rfl rfl rfl,
    State.noticed_congr rfl hnotices.symm hnot, fun hv => hnotices.trans (hquiet hv), fun m => ?_, fun hd => ?_, ?_⟩
  · exact State.engine_ended s u g t e r none (!r.verifies) .operation rfl m
  · exact State.power_ended s u g t e r none (!r.verifies) .operation rfl hd
  · rw [hu]
    apply State.eq_of_fields <;> first | rfl | simp [State.reply, State.endVerified, State.completed, State.unitAnswers, held]

/-- R89: the record after a charged ending, as its answer tells it. -/
theorem capturedBody_ended (r : Record) (t : Ticket) (e : HoldEntry) :
    let charge : Int := if r.bal - e.amount < -99999999 then r.bal + 99999999 else e.amount
    capturedBody t r e (clampCharge r.bal e.amount) = .holdCaptured t charge.toNat
      (if 0 < charge then (S8.ofInt (r.bal - charge)).sent else r.balance.sent) (heldWithout r.held e.amount)
      (r.bal - charge + r.floorValue - (heldWithout r.held e.amount : Nat)) (r.holds.filter (· ≠ t)).length
      { balanceConds (r.bal - charge) r.lowValue with overRange := decide (r.bal - e.amount < -99999999) } := by
  intro charge
  have hclamp : clampCharge r.bal e.amount = (charge, decide (r.bal - e.amount < -99999999)) := clampCharge_eq _ _
  obtain ⟨hcharge, hmin⟩ := clampCharge_bounds (r := r) e.amount
  obtain ⟨hbal, hheld, hholds, hspend, -, -⟩ := endedRecord_spec r t e charge hcharge hmin
  rw [capturedBody, hclamp, hbal, hheld, hholds, hspend]

theorem State.completeCapture_suspect {op : Operation}
    (h : op.entry.state = .stalled ∨ op.record.suspect = true ∨ op.record.verifies = false) (x : State) (g : Lane) (t : Ticket) :
    x.completeCapture g op t = x.reply 15 .suspect .bare := by
  have hbad : (op.entry.state == .stalled || op.record.found.suspect) = true := by
    rw [Bool.or_eq_true, beq_iff_eq, Record.found_suspect_iff]
    exact h
  rw [State.completeCapture, if_pos hbad]

theorem State.completeCapture_passed {op : Operation} (he : op.entry.state ≠ .stalled) (hr : op.record.sound) (x : State)
    (g : Lane) (t : Ticket) : x.completeCapture g op t =
      (x.chargeHold g t op.entry op.record (clampCharge op.record.bal op.entry.amount).1).reply 15 .ok
        (capturedBody t op.record op.entry (clampCharge op.record.bal op.entry.amount)) := by
  have hgood : ¬(op.entry.state == .stalled || op.record.found.suspect) = true := by
    rw [Bool.or_eq_true, beq_iff_eq, Record.found_suspect_of_sound hr]
    simpa using he
  rw [State.completeCapture, if_neg hgood]

/-- R59, R79, R89: the capture of a LIVE hold of a sound account, in any state that has it in progress. -/
theorem State.completeCapture_ends (s : State) (g : Lane) {op : Operation} (t : Ticket) (he : op.entry.state ≠ .stalled)
    (hr : op.record.sound) :
    let e := op.entry
    let r := op.record
    let charge : Int := if r.bal - e.amount < -99999999 then r.bal + 99999999 else e.amount
    let held := heldWithout r.held e.amount
    let u := (s.endVerified g op e.slot).completeCapture g op t
    s.holdEnded u g t e r (if 0 < charge then some (r.bal - charge) else none) ∧
      s.endedOnCommand u g 15 (.holdCaptured t charge.toNat
        (if 0 < charge then (S8.ofInt (r.bal - charge)).sent else r.balance.sent) held
        (r.bal - charge + r.floorValue - (held : Nat)) (r.holds.filter (· ≠ t)).length
        { balanceConds (r.bal - charge) r.lowValue with overRange := decide (r.bal - e.amount < -99999999) }) ∧
      s.noticed u (if 0 < charge ∧ (r.lowValue : Int) ≤ r.bal ∧ r.bal - charge < r.lowValue then
        [.lowBalance ⟨BitVec.ofNat 16 e.slot, r.gen⟩ (S8.ofInt (r.bal - charge))] else []) := by
  intro e r charge held u
  have hclamp : (clampCharge r.bal e.amount).1 = charge := by rw [clampCharge_eq]
  obtain ⟨hacc, hholds, hdl, heng, hindex, -, -, hnoticed⟩ := (s.endOp g).chargeHold_spec g t e r charge
  have hpower := (s.endOp g).power_chargeHold g t e r charge
  have hu : u = ((s.endOp g).chargeHold g t e r charge).reply 15 .ok (capturedBody t r e (clampCharge r.bal e.amount)) := by
    show (s.endVerified g op e.slot).completeCapture g op t = _
    rw [State.endVerified_verified s g e.slot hr.2, State.completeCapture_passed he hr, hclamp]
  rw [capturedBody_ended] at hu
  have hframe : (s.endOp g).chargeHold g t e r charge = { s with
      accounts := ((s.endOp g).chargeHold g t e r charge).accounts
      holds := ((s.endOp g).chargeHold g t e r charge).holds
      deadlines := ((s.endOp g).chargeHold g t e r charge).deadlines
      engines := ((s.endOp g).chargeHold g t e r charge).engines
      indexUnit := ((s.endOp g).chargeHold g t e r charge).indexUnit
      notices := ((s.endOp g).chargeHold g t e r charge).notices
      power := ((s.endOp g).chargeHold g t e r charge).power } := by
    apply State.eq_of_fields <;> simp
  have hquiet : (s.endOp g).noteMismatch e.slot false .operation = s.endOp g := State.noteMismatch_false ..
  generalize (s.endOp g).chargeHold g t e r charge = x at *
  refine ⟨State.holdEnded_of_endHold s g t e r (chargedBalance r charge) u hr.2 ?_ ?_ ?_ ?_ ?_,
    ⟨fun m => ?_, fun hd => ?_, ?_⟩, State.noticed_congr (s := s.endOp g) rfl ?_ hnoticed⟩
  · rw [hu]; exact hacc
  · rw [hu]; exact hholds
  · rw [hu]; exact hdl
  · rw [hu]; exact heng
  · rw [hu]; exact hindex
  · exact State.engine_ended s u g t e r (chargedBalance r charge) false .operation (by rw [hu, hquiet]; exact heng) m
  · exact State.power_ended s u g t e r (chargedBalance r charge) false .operation (by rw [hu, hquiet]; exact hpower) hd
  · rw [hu, hframe]
    rfl
  · rw [hu]
    rfl

/-! ### From the block -/

/-- R33: what a block and the verification of the record leave, as the end of an operation in what the block left. -/
theorem State.notedFor_eq {s : State} {g : Lane} (hf : s.engineFree g) {op : Operation} {n : Nat}
    (hr : op.record = s.record n) : s.notedFor n = (s.begun .account).endVerified g op n := by
  rw [State.notedFor, State.endVerified, State.endOp_begun hf, hr]

/-- The command is taken by ticket, and its completion tests the ticket and goes on with `act`. -/
structure RunsByTicket (c : Command) (t : Ticket) (m : MgmtReq) (act : Lane → Operation → State → State) : Prop where
  placed : ∀ s : State, takeCommand c s = s.startByTicket c.opcode t m
  ticket : m.ticket? = some t
  completed : ∀ (x : State) (g : Lane) (op : Operation), x.completeMgmt g op m = x.completeByTicket g op c.opcode t (act g op)

theorem holdRead_runsByTicket (t : Ticket) : RunsByTicket (.holdRead t) t (.holdRead t) fun _ op x =>
    x.reply 13 .ok (holdBody op.entry (x.standingOf t op.entry) op.record.found.suspect) :=
  ⟨fun _ => rfl, rfl, fun _ _ _ => rfl⟩

theorem holdRelease_runsByTicket (t : Ticket) :
    RunsByTicket (.holdRelease t) t (.holdRelease t) fun g op x => x.completeRelease g op t :=
  ⟨fun _ => rfl, rfl, fun _ _ _ => rfl⟩

theorem holdCapture_runsByTicket (t : Ticket) :
    RunsByTicket (.holdCapture t) t (.holdCapture t) fun g op x => x.completeCapture g op t :=
  ⟨fun _ => rfl, rfl, fun _ _ _ => rfl⟩

section
variable {c : Command} {t : Ticket} {m : MgmtReq} {act : Lane → Operation → State → State}

theorem RunsByTicket.stale (hk : RunsByTicket c t m act) {s : State} (ho : s.portOpen)
    (h : ticketCurrent t (s.hold t.entry.toNat) = false) : exec (rowOf c) s = .next (s.replied c.opcode .holdGone .bare) :=
  exec_rowOf_refused ho ((hk.placed s.openSelect).trans (startByTicket_stale c.opcode m h))

theorem RunsByTicket.current (hk : RunsByTicket c t m act) {s : State} (ho : s.portOpen)
    (hf : s.engineFree (laneOf (s.hold t.entry.toNat).slot)) (h : ticketCurrent t (s.hold t.entry.toNat) = true) :
    let e := s.hold t.entry.toNat
    ∃ op : Operation, op.entry = e ∧ op.record = s.record e.slot ∧
      AccountCommandRuns (rowOf c) (laneOf e.slot) s (act (laneOf e.slot) op (s.notedFor e.slot)) :=
  ⟨s.readMgmt m, (State.readMgmt_ticket hk.ticket).1, (State.readMgmt_ticket hk.ticket).2,
    AccountCommandRuns.currentTicket c.opcode (takeCommand c) _ ho hf h (exec_rowOf c s)
      ((hk.placed s.openSelect).trans (State.startByTicket_current c.opcode m h)) hk.ticket fun x => hk.completed x _ _⟩

/-- R35: the completion of a ticket found stale. -/
theorem RunsByTicket.goneLate (hk : RunsByTicket c t m act) {s : State} {g : Lane} {op : Operation}
    (hop : s.mgmtOp g = some (op, m)) (h : ticketOfGroup g t op.entry = false) :
    exec (.managementRequestComplete g) s = .next (s.completed g c.opcode .holdGone .bare) :=
  exec_byTicket_stale hop (hk.completed s g op) h

theorem RunsByTicket.acts (hk : RunsByTicket c t m act) {s : State} {g : Lane} {op : Operation}
    (hop : s.mgmtOp g = some (op, m)) (h : ticketOfGroup g t op.entry = true) :
    exec (.managementRequestComplete g) s = .next (act g op (s.endVerified g op op.entry.slot)) :=
  exec_byTicket_current hop (hk.completed s g op) h

end

/-- R87: what a HOLD_READ tells. -/
def holdAnswer (s : State) (t : Ticket) (e : HoldEntry) (r : Record) : MgmtBody :=
  holdBody e (if e.state = .stalled then .none else if s.isQueued t = true then .queued else .claimed)
    (r.suspect || !r.verifies)

section
variable {s u : State} {g : Lane} {t : Ticket} {e : HoldEntry} {r : Record}

theorem State.endedOnCommand_begun {opcode : Byte} {body : MgmtBody} (hf : s.engineFree g)
    (h : (s.begun .account).endedOnCommand u g opcode body) :
    (∀ m, u.engine m = { s.engine m with expiry := (u.engine m).expiry }) ∧
      ((∀ i ∈ s.deadlines, s.timebase < i.deadline) → u.power = s.wake.power) ∧
      u = { s.replied opcode .ok body with
              accounts := u.accounts, holds := u.holds, deadlines := u.deadlines, engines := u.engines,
              indexUnit := u.indexUnit, notices := u.notices, power := u.power } := by
  obtain ⟨heng, hpower, hframe⟩ := h
  refine ⟨fun m => ?_, fun hd => ?_, ?_⟩
  · refine (heng m).trans ?_
    rw [← State.engine_begun_free hf m]
  · exact (hpower (by simpa using hd)).trans (by simp)
  · rw [State.completed_begun hf] at hframe
    exact hframe

theorem State.holdEnded_begun {v : Option Int} (h : (s.begun .account).holdEnded u g t e r v) : s.holdEnded u g t e r v :=
  State.holdEnded_congr (s := s.begun .account) (t := u) (by simp) (by simp) (by simp) (by simp) (by simp)
    (fun m => by simp) rfl rfl rfl rfl (fun _ => rfl) h

end

section
variable {s : State} {t : Ticket}

theorem holdRead_runs (ho : s.portOpen) (hf : s.engineFree (laneOf (s.hold t.entry.toNat).slot))
    (h : ticketCurrent t (s.hold t.entry.toNat) = true) :
    let e := s.hold t.entry.toNat
    ∃ u, AccountCommandRuns (.holdRead t) (laneOf e.slot) s u ∧
      s.onlyAnswers u e.slot 13 .ok (holdAnswer s t e (s.record e.slot)) := by
  obtain ⟨op, he, hr, hrun⟩ := (holdRead_runsByTicket t).current ho hf h
  rw [he, hr, State.standingOf_eq (s := s) (by simp)] at hrun
  exact ⟨_, hrun, State.onlyAnswers_reply ..⟩

theorem holdRelease_runs (ho : s.portOpen) (hf : s.engineFree (laneOf (s.hold t.entry.toNat).slot))
    (h : ticketCurrent t (s.hold t.entry.toNat) = true) :
    let e := s.hold t.entry.toNat
    let r := s.record e.slot
    let held := heldWithout r.held e.amount
    ∃ u, AccountCommandRuns (.holdRelease t) (laneOf e.slot) s u ∧ s.holdEnded u (laneOf e.slot) t e r none ∧
      s.noticed u (s.suspectNotice e.slot (!r.verifies)) ∧
      (s.begun .account).endedOnCommand u (laneOf e.slot) 14 (.holdReleased t r.balance.sent held
        (r.bal + r.floorValue - (held : Nat)) (r.holds.filter (· ≠ t)).length (balanceConds r.bal r.lowValue)) ∧
      (r.verifies = true → u.notices = s.notices) := by
  intro e r held
  obtain ⟨op, he, hr, hrun⟩ := (holdRelease_runsByTicket t).current ho hf h
  rw [State.notedFor_eq hf hr] at hrun
  obtain ⟨hended, hnot, hquiet, hrest⟩ := (s.begun .account).completeRelease_ends (laneOf e.slot) op t
  rw [he, hr] at hended hnot hquiet hrest
  have hposted : (s.begun .account).suspectNotice e.slot (!r.verifies) = s.suspectNotice e.slot (!r.verifies) := by
    simp [State.suspectNotice]
  exact ⟨_, hrun, State.holdEnded_begun hended, State.noticed_congr (by simp) rfl (hposted ▸ hnot), hrest,
    fun hv => (hquiet hv).trans (by simp)⟩

theorem holdCapture_runs (ho : s.portOpen) (hf : s.engineFree (laneOf (s.hold t.entry.toNat).slot))
    (h : ticketCurrent t (s.hold t.entry.toNat) = true) (hlive : (s.hold t.entry.toNat).state ≠ .stalled)
    (hs : (s.record (s.hold t.entry.toNat).slot).sound) :
    let e := s.hold t.entry.toNat
    let r := s.record e.slot
    let charge : Int := if r.bal - e.amount < -99999999 then r.bal + 99999999 else e.amount
    let held := heldWithout r.held e.amount
    ∃ u, AccountCommandRuns (.holdCapture t) (laneOf e.slot) s u ∧
      s.holdEnded u (laneOf e.slot) t e r (if 0 < charge then some (r.bal - charge) else none) ∧
      (s.begun .account).endedOnCommand u (laneOf e.slot) 15 (.holdCaptured t charge.toNat
        (if 0 < charge then (S8.ofInt (r.bal - charge)).sent else r.balance.sent) held
        (r.bal - charge + r.floorValue - (held : Nat)) (r.holds.filter (· ≠ t)).length
        { balanceConds (r.bal - charge) r.lowValue with overRange := decide (r.bal - e.amount < -99999999) }) ∧
      s.noticed u (if 0 < charge ∧ (r.lowValue : Int) ≤ r.bal ∧ r.bal - charge < r.lowValue then
        [.lowBalance ⟨BitVec.ofNat 16 e.slot, r.gen⟩ (S8.ofInt (r.bal - charge))] else []) := by
  intro e r charge held
  obtain ⟨op, he, hr, hrun⟩ := (holdCapture_runsByTicket t).current ho hf h
  rw [State.notedFor_eq hf hr] at hrun
  obtain ⟨hended, hrest, hnot⟩ := (s.begun .account).completeCapture_ends (laneOf e.slot) (op := op) t (by rw [he]; exact hlive)
    (by rw [hr]; exact hs)
  rw [he, hr] at hended hrest hnot
  exact ⟨_, hrun, State.holdEnded_begun hended, hrest, State.noticed_congr (by simp) rfl hnot⟩

theorem holdCapture_runs_suspect (ho : s.portOpen) (hf : s.engineFree (laneOf (s.hold t.entry.toNat).slot))
    (h : ticketCurrent t (s.hold t.entry.toNat) = true)
    (hbad : (s.hold t.entry.toNat).state = .stalled ∨ (s.record (s.hold t.entry.toNat).slot).suspect = true ∨
      (s.record (s.hold t.entry.toNat).slot).verifies = false) :
    let e := s.hold t.entry.toNat
    ∃ u, AccountCommandRuns (.holdCapture t) (laneOf e.slot) s u ∧ s.onlyAnswers u e.slot 15 .suspect .bare := by
  obtain ⟨op, he, hr, hrun⟩ := (holdCapture_runsByTicket t).current ho hf h
  rw [State.completeCapture_suspect (by rw [he, hr]; exact hbad)] at hrun
  exact ⟨_, hrun, State.onlyAnswers_reply ..⟩

end

/-- Settles O54: the command's own part in any state that has it in progress, and the same part behind the block. -/
theorem holdCommandsActOnTheHold : Obligations.HoldCommandsActOnTheHold := by
  refine ⟨fun s t ho => ⟨fun h => ?stale, fun h hf => ?current⟩, fun g s op t m opcode hop ht hm => ?gone,
    fun g s op t m hop hm ht => ?completion⟩
  case stale => exact ⟨(holdRead_runsByTicket t).stale ho h, (holdRelease_runsByTicket t).stale ho h,
    (holdCapture_runsByTicket t).stale ho h⟩
  case current =>
    refine ⟨holdRead_runs ho hf h, ?_, fun hlive hs => ?_, fun hbad => holdCapture_runs_suspect ho hf h hbad⟩
    · obtain ⟨u, hrun, hended, hnot, hrest, hquiet⟩ := holdRelease_runs ho hf h
      rw [State.suspectNotice_of_record] at hnot
      exact ⟨u, hrun, hended, hnot, State.endedOnCommand_begun hf hrest, hquiet⟩
    · obtain ⟨u, hrun, hended, hrest, hnot⟩ := holdCapture_runs ho hf h (by rw [hlive]; decide) hs
      exact ⟨u, hrun, hended, State.endedOnCommand_begun hf hrest, hnot⟩
  case gone =>
    rcases hm with ⟨rfl, rfl⟩ | ⟨rfl, rfl⟩ | ⟨rfl, rfl⟩
    · exact (holdRead_runsByTicket t).goneLate hop ht
    · exact (holdRelease_runsByTicket t).goneLate hop ht
    · exact (holdCapture_runsByTicket t).goneLate hop ht
  case completion =>
    rcases hm with rfl | rfl | rfl
    · have hexec := (holdRead_runsByTicket t).acts hop ht
      rw [State.standingOf_eq (s := s) (by simp [State.endVerified])] at hexec
      exact ⟨_, hexec, fun _ => s.completedNoted_reply g op op.entry.slot 13 .ok (holdAnswer s t op.entry op.record),
        nofun, nofun, nofun⟩
    · exact ⟨_, (holdRelease_runsByTicket t).acts hop ht, nofun, fun _ => s.completeRelease_ends g op t, nofun, nofun⟩
    · refine ⟨_, (holdCapture_runsByTicket t).acts hop ht, nofun, nofun,
        fun _ hlive hs => s.completeCapture_ends g t hlive hs, fun _ hbad => ?_⟩
      rw [State.completeCapture_suspect hbad]
      exact State.completedNoted_reply ..

end Sys2Proof.Machine
end
